-- ==== Sys2Proof/Word.lean ====
section
/-!
DEFINITION. Sys2Proof/Word.lean: the word and byte types of the block and the small closed sets of names that the
spec uses (channels, quantization tables, error codes, rounding modes). Spec: 00_scope.md R10 to R13, 10_state.md R21.
-/
namespace Sys2Proof

/-- A register, a bus data word or a command word: 32 bits (R21, R81). -/
abbrev Word := BitVec 32

/-- The unit of system memory: 8 bits (R60, R63). -/
abbrev Byte := BitVec 8

/-- The three colour channels, IMM6 kind `ch` (R82): 0 = Y, 1 = Cb, 2 = Cr. -/
inductive Channel where
  | y
  | cb
  | cr
  deriving DecidableEq, Repr

/-- The two quantization tables, IMM6 kind `tbl` (R82): 0 = luma (QT[0]), 1 = chroma (QT[1]). -/
inductive QTable where
  | luma
  | chroma
  deriving DecidableEq, Repr

/-- The four Huffman tables of HT RAM (R41): 0 DC-luma, 1 AC-luma, 2 DC-chroma, 3 AC-chroma. -/
inductive HTable where
  | dcLuma
  | acLuma
  | dcChroma
  | acChroma
  deriving DecidableEq, Repr

/-- The error codes a failed command reports (R231), without NONE. Their numbers are `ErrCode.code`. -/
inductive ErrCode where
  | illegalOpcode
  | illegalField
  | badDimensions
  | badSrcLen
  | badQuality
  | outOverflow
  | symbolUndefined
  | notReady
  | busError
  | illegalState
  | badRegion
  | coefRange
  deriving DecidableEq, Repr

/-- The rounding of exact half-integers (R13): to the larger, to the one of larger magnitude, to the even one. -/
inductive RoundTie where
  | halfUp
  | halfAway
  | halfEven
  deriving DecidableEq, Repr, Inhabited

end Sys2Proof
end

