-- ==== Sys2Proof/Machine/Ideal.lean ====
section
/-!
DEFINITION. Sys2Proof/Machine/Ideal.lean: the two ideal computations that bound the block's real-valued datapaths: the
colour conversion CC_IDEAL (44_color_sampler.md R152) and the transform FDCT_IDEAL (43_fdct.md R142), with a rational
approximation of the latter that shows that a transform within the bound of R144 exists.
-/
namespace Sys2Proof

/-- CC_IDEAL, in exact rational arithmetic, every constant the decimal fraction that R152 writes. -/
def ccIdeal (ch : Channel) (r g b : Byte) : Rat :=
  let r : Rat := r.toNat
  let g : Rat := g.toNat
  let b : Rat := b.toNat
  match ch with
  | .y => 299 / 1000 * r + 587 / 1000 * g + 114 / 1000 * b - 128
  | .cb => -(168736 / 1000000) * r - 331264 / 1000000 * g + 1 / 2 * b
  | .cr => 1 / 2 * r - 418688 / 1000000 * g - 81312 / 1000000 * b

/-- Natural (row-major) order of an 8x8 grid: index 8 * row + column (R140, 00_scope.md section 6). -/
def natIdx (row col : Fin 8) : Fin 64 := ⟨8 * row.val + col.val, by omega⟩

/-- C(k) of R142: 1/sqrt(2) for k = 0 and 1 otherwise. -/
noncomputable def fdctC (k : Fin 8) : ℝ := if k = 0 then 1 / Real.sqrt 2 else 1

/-- cos((2 x + 1) k pi / 16), the cosine of both passes of R142. -/
noncomputable def fdctCos (k x : Fin 8) : ℝ :=
  Real.cos ((2 * (x.val : ℝ) + 1) * (k.val : ℝ) * Real.pi / 16)

/-- The row pass of R142: G(u, y). Sample (x, y) is element 8 y + x. -/
noncomputable def fdctRowPass (f : Fin 64 → ℝ) (u y : Fin 8) : ℝ :=
  1 / 2 * fdctC u * ∑ x : Fin 8, f (natIdx y x) * fdctCos u x

/-- The column pass of R142, applied to the row pass: FDCT_IDEAL's coefficient F(u, v). -/
noncomputable def fdctIdeal (f : Fin 64 → ℝ) (u v : Fin 8) : ℝ :=
  1 / 2 * fdctC v * ∑ y : Fin 8, fdctRowPass f u y * fdctCos v y

/-- cos(k pi / 16) for k = 0 to 8 to fifteen decimals. -/
def cosTable (k : Nat) : Rat :=
  match k with
  | 0 => 1
  | 1 => 980785280403230 / 10 ^ 15
  | 2 => 923879532511287 / 10 ^ 15
  | 3 => 831469612302545 / 10 ^ 15
  | 4 => 707106781186548 / 10 ^ 15
  | 5 => 555570233019602 / 10 ^ 15
  | 6 => 382683432365090 / 10 ^ 15
  | 7 => 195090322016128 / 10 ^ 15
  | _ => 0

/-- A rational close to cos(n pi / 16), from the symmetries of the cosine. -/
def cosApprox (n : Nat) : Rat :=
  let m := if n % 32 ≤ 16 then n % 32 else 32 - n % 32
  if m ≤ 8 then cosTable m else -cosTable (16 - m)

/-- A rational close to 1/2 C(k) cos((2 x + 1) k pi / 16). -/
def weightApprox (k x : Fin 8) : Rat :=
  if k = 0 then 1 / 2 * cosTable 4 else 1 / 2 * cosApprox ((2 * x.val + 1) * k.val)

/-- A rational transform within the bound of R144 (`fdctApprox_within`). It is no claim about any chip: it only shows
that the bound can be met. -/
def fdctApprox (f : Vector Rat 64) : Vector Rat 64 :=
  Vector.ofFn fun i : Fin 64 =>
    ((List.finRange 8).map fun y =>
      ((List.finRange 8).map fun x =>
        f[natIdx y x] * weightApprox ⟨i.val % 8, by omega⟩ x).sum * weightApprox ⟨i.val / 8, by omega⟩ y).sum

/-- A half-angle step: bounds on cos(2 x) give bounds on cos x for x in the first quadrant. -/
theorem cos_half_bounds {x y a b : ℝ} (hx0 : 0 ≤ x) (hx : x ≤ Real.pi / 2) (hy : Real.cos (2 * x) = y)
    (ha : a ^ 2 ≤ (1 + y) / 2) (hb0 : 0 ≤ b) (hb : (1 + y) / 2 ≤ b ^ 2) :
    a ≤ Real.cos x ∧ Real.cos x ≤ b := by
  have hc : 0 ≤ Real.cos x := Real.cos_nonneg_of_mem_Icc ⟨by linarith, hx⟩
  have h2 : Real.cos (2 * x) = 2 * Real.cos x ^ 2 - 1 := Real.cos_two_mul x
  constructor
  · exact le_of_sq_le_sq (by linarith) hc
  · exact le_of_sq_le_sq (by linarith) hb0

/-- `cosTable` is close to the cosine on the first quadrant. -/
theorem cosTable_close (k : Nat) (hk : k ≤ 8) :
    |Real.cos ((k : ℝ) * Real.pi / 16) - (cosTable k : ℝ)| ≤ 1 / 10 ^ 13 := by
  have hpi := Real.pi_pos
  have c8 : Real.cos (8 * Real.pi / 16) = 0 := by
    rw [show (8 : ℝ) * Real.pi / 16 = Real.pi / 2 by ring]; exact Real.cos_pi_div_two
  have c4 := cos_half_bounds (x := 4 * Real.pi / 16) (y := Real.cos (8 * Real.pi / 16)) (a := 707106781186547 / 10 ^ 15)
    (b := 707106781186549 / 10 ^ 15) (by linarith) (by linarith) (by rw [show 2 * (4 * Real.pi / 16) = 8 * Real.pi / 16 by ring])
    (by linarith [c8]) (by norm_num) (by linarith [c8])
  have c2 := cos_half_bounds (x := 2 * Real.pi / 16) (y := Real.cos (4 * Real.pi / 16)) (a := 923879532511277 / 10 ^ 15)
    (b := 923879532511297 / 10 ^ 15) (by linarith) (by linarith) (by rw [show 2 * (2 * Real.pi / 16) = 4 * Real.pi / 16 by ring])
    (by linarith [c4.1, c4.2]) (by norm_num) (by linarith [c4.1, c4.2])
  have c6 := cos_half_bounds (x := 6 * Real.pi / 16) (y := -Real.cos (4 * Real.pi / 16)) (a := 382683432365080 / 10 ^ 15)
    (b := 382683432365100 / 10 ^ 15) (by linarith) (by linarith) (by rw [show 2 * (6 * Real.pi / 16) = Real.pi - 4 * Real.pi / 16 by ring, Real.cos_pi_sub])
    (by linarith [c4.1, c4.2]) (by norm_num) (by linarith [c4.1, c4.2])
  have c1 := cos_half_bounds (x := 1 * Real.pi / 16) (y := Real.cos (2 * Real.pi / 16)) (a := 980785280403200 / 10 ^ 15)
    (b := 980785280403260 / 10 ^ 15) (by linarith) (by linarith) (by rw [show 2 * (1 * Real.pi / 16) = 2 * Real.pi / 16 by ring])
    (by linarith [c2.1, c2.2]) (by norm_num) (by linarith [c2.1, c2.2])
  have c3 := cos_half_bounds (x := 3 * Real.pi / 16) (y := Real.cos (6 * Real.pi / 16)) (a := 831469612302515 / 10 ^ 15)
    (b := 831469612302575 / 10 ^ 15) (by linarith) (by linarith) (by rw [show 2 * (3 * Real.pi / 16) = 6 * Real.pi / 16 by ring])
    (by linarith [c6.1, c6.2]) (by norm_num) (by linarith [c6.1, c6.2])
  have c5 := cos_half_bounds (x := 5 * Real.pi / 16) (y := -Real.cos (6 * Real.pi / 16)) (a := 555570233019572 / 10 ^ 15)
    (b := 555570233019632 / 10 ^ 15) (by linarith) (by linarith) (by rw [show 2 * (5 * Real.pi / 16) = Real.pi - 6 * Real.pi / 16 by ring, Real.cos_pi_sub])
    (by linarith [c6.1, c6.2]) (by norm_num) (by linarith [c6.1, c6.2])
  have c7 := cos_half_bounds (x := 7 * Real.pi / 16) (y := -Real.cos (2 * Real.pi / 16)) (a := 195090322016068 / 10 ^ 15)
    (b := 195090322016188 / 10 ^ 15) (by linarith) (by linarith) (by rw [show 2 * (7 * Real.pi / 16) = Real.pi - 2 * Real.pi / 16 by ring, Real.cos_pi_sub])
    (by linarith [c2.1, c2.2]) (by norm_num) (by linarith [c2.1, c2.2])
  rw [abs_le]
  interval_cases k <;> simp only [cosTable, Nat.cast_ofNat, Nat.cast_one, Nat.cast_zero] <;> push_cast
  · simp
  · constructor <;> linarith [c1.1, c1.2]
  · constructor <;> linarith [c2.1, c2.2]
  · constructor <;> linarith [c3.1, c3.2]
  · constructor <;> linarith [c4.1, c4.2]
  · constructor <;> linarith [c5.1, c5.2]
  · constructor <;> linarith [c6.1, c6.2]
  · constructor <;> linarith [c7.1, c7.2]
  · rw [c8]; norm_num

/-- `cosApprox` is close to the cosine everywhere. -/
theorem cosApprox_close (n : Nat) :
    |Real.cos ((n : ℝ) * Real.pi / 16) - (cosApprox n : ℝ)| ≤ 1 / 10 ^ 13 := by
  have hn : Real.cos ((n : ℝ) * Real.pi / 16) = Real.cos (((n % 32 : Nat) : ℝ) * Real.pi / 16) := by
    have h : (n : ℝ) = ((n % 32 : Nat) : ℝ) + 32 * ((n / 32 : Nat) : ℝ) := by exact_mod_cast (Nat.mod_add_div n 32).symm
    rw [h, show (((n % 32 : Nat) : ℝ) + 32 * ((n / 32 : Nat) : ℝ)) * Real.pi / 16
      = ((n % 32 : Nat) : ℝ) * Real.pi / 16 + ((n / 32 : Nat) : ℝ) * (2 * Real.pi) by ring,
      Real.cos_add_nat_mul_two_pi]
  rw [hn]
  have hlt : n % 32 < 32 := Nat.mod_lt _ (by norm_num)
  unfold cosApprox
  generalize n % 32 = r at hlt ⊢
  have fold : ∀ m : Nat, m ≤ 16 →
      |Real.cos ((m : ℝ) * Real.pi / 16) - ((if m ≤ 8 then cosTable m else -cosTable (16 - m) : Rat) : ℝ)| ≤ 1 / 10 ^ 13 := by
    intro m hm
    split
    · exact cosTable_close m ‹_›
    · have hc := cosTable_close (16 - m) (by omega)
      have hs : (((16 - m : Nat) : ℝ)) * Real.pi / 16 = Real.pi - (m : ℝ) * Real.pi / 16 := by
        rw [Nat.cast_sub hm]; push_cast; ring
      rw [hs, Real.cos_pi_sub] at hc
      push_cast
      rw [← abs_neg, neg_sub]
      convert hc using 2
      ring
  by_cases h16 : r ≤ 16
  · simp only [h16, if_true]; exact fold r h16
  · simp only [h16, if_false]
    have hf := fold (32 - r) (by omega)
    have hs : (((32 - r : Nat) : ℝ)) * Real.pi / 16 = 2 * Real.pi - (r : ℝ) * Real.pi / 16 := by
      rw [Nat.cast_sub (by omega)]; push_cast; ring
    rwa [hs, Real.cos_two_pi_sub] at hf

/-- One pass's weight of R142: 1/2 C(k) cos((2 x + 1) k pi / 16). -/
noncomputable def fdctWeight (k x : Fin 8) : ℝ := 1 / 2 * fdctC k * fdctCos k x

/-- FDCT_IDEAL as one double sum of samples times weights. -/
theorem fdctIdeal_eq_sum (f : Fin 64 → ℝ) (u v : Fin 8) :
    fdctIdeal f u v = ∑ y : Fin 8, ∑ x : Fin 8, f (natIdx y x) * (fdctWeight u x * fdctWeight v y) := by
  simp only [fdctIdeal, fdctRowPass, fdctWeight, Finset.mul_sum, Finset.sum_mul]
  exact Finset.sum_congr rfl fun y _ => Finset.sum_congr rfl fun x _ => by ring

/-- C(k) lies in [0, 1]. -/
theorem fdctC_bounds (k : Fin 8) : 0 ≤ fdctC k ∧ fdctC k ≤ 1 := by
  unfold fdctC
  split
  · have h : (1 : ℝ) ≤ Real.sqrt 2 := by rw [show (1 : ℝ) = Real.sqrt 1 by simp]; exact Real.sqrt_le_sqrt (by norm_num)
    exact ⟨by positivity, by rw [div_le_one (by linarith)]; exact h⟩
  · norm_num

/-- A weight is at most 1/2 in magnitude. -/
theorem fdctWeight_abs_le (k x : Fin 8) : |fdctWeight k x| ≤ 1 / 2 := by
  have hc := fdctC_bounds k
  have hcos : |fdctCos k x| ≤ 1 := Real.abs_cos_le_one _
  rw [fdctWeight, abs_mul, abs_mul, abs_of_nonneg hc.1, abs_of_nonneg (by norm_num : (0 : ℝ) ≤ 1 / 2)]
  nlinarith [abs_nonneg (fdctCos k x)]

/-- `weightApprox` is close to the weight. -/
theorem weightApprox_close (k x : Fin 8) : |fdctWeight k x - (weightApprox k x : ℝ)| ≤ 1 / 10 ^ 13 := by
  unfold fdctWeight weightApprox fdctC fdctCos
  by_cases hk : k = 0
  · subst hk
    have h4 := cosTable_close 4 (by norm_num)
    have hs : Real.cos (((4 : Nat) : ℝ) * Real.pi / 16) = 1 / Real.sqrt 2 := by
      rw [show ((4 : Nat) : ℝ) * Real.pi / 16 = Real.pi / 4 by push_cast; ring, Real.cos_pi_div_four]
      have h2 : Real.sqrt 2 * Real.sqrt 2 = 2 := Real.mul_self_sqrt (by norm_num)
      have hpos : Real.sqrt 2 ≠ 0 := by positivity
      field_simp
      linarith
    rw [hs] at h4
    simp only [if_true, Fin.val_zero, Nat.cast_zero, mul_zero, zero_mul, zero_div, Real.cos_zero, mul_one]
    push_cast
    rw [show (1 : ℝ) / 2 * (1 / Real.sqrt 2) - 1 / 2 * (cosTable 4 : ℝ)
      = 1 / 2 * (1 / Real.sqrt 2 - (cosTable 4 : ℝ)) by ring, abs_mul, abs_of_nonneg (by norm_num : (0 : ℝ) ≤ 1 / 2)]
    linarith [abs_nonneg (1 / Real.sqrt 2 - (cosTable 4 : ℝ))]
  · have hn := cosApprox_close ((2 * x.val + 1) * k.val)
    simp only [hk, if_false]
    push_cast at hn ⊢
    rw [show (1 : ℝ) / 2 * 1 * Real.cos ((2 * (x.val : ℝ) + 1) * (k.val : ℝ) * Real.pi / 16)
        - 1 / 2 * (cosApprox ((2 * x.val + 1) * k.val) : ℝ)
      = 1 / 2 * (Real.cos ((2 * (x.val : ℝ) + 1) * (k.val : ℝ) * Real.pi / 16)
        - (cosApprox ((2 * x.val + 1) * k.val) : ℝ)) by ring, abs_mul, abs_of_nonneg (by norm_num : (0 : ℝ) ≤ 1 / 2)]
    linarith [abs_nonneg (Real.cos ((2 * (x.val : ℝ) + 1) * (k.val : ℝ) * Real.pi / 16)
        - (cosApprox ((2 * x.val + 1) * k.val) : ℝ))]

/-- The coefficient (u, v) of `fdctApprox` as a double sum. -/
theorem fdctApprox_eq_sum (f : Vector Rat 64) (u v : Fin 8) :
    (((fdctApprox f)[natIdx v u] : Rat) : ℝ)
      = ∑ y : Fin 8, ∑ x : Fin 8, ((f[natIdx y x] : Rat) : ℝ) * ((weightApprox u x : ℝ) * (weightApprox v y : ℝ)) := by
  have hu : (8 * v.val + u.val) % 8 = u.val := by omega
  have hv : (8 * v.val + u.val) / 8 = v.val := by omega
  have h : (fdctApprox f)[natIdx v u]
      = ∑ y : Fin 8, (∑ x : Fin 8, f[natIdx y x] * weightApprox u x) * weightApprox v y := by
    simp only [fdctApprox, natIdx, Fin.getElem_fin, Vector.getElem_ofFn, hu, hv, Fin.eta, Fin.sum_univ_def]
  rw [h]
  push_cast
  simp only [Finset.sum_mul]
  exact Finset.sum_congr rfl fun y _ => Finset.sum_congr rfl fun x _ => by ring

/-- R144's bound can be met: `fdctApprox` is within 2^-12 of FDCT_IDEAL on every block of elements of magnitude at
most 2^15. -/
theorem fdctApprox_within (f : Vector Rat 64) (hf : ∀ i : Fin 64, |f[i]| ≤ 2 ^ 15) (u v : Fin 8) :
    |(((fdctApprox f)[natIdx v u] : Rat) : ℝ) - fdctIdeal (fun i => ((f[i] : Rat) : ℝ)) u v| ≤ 1 / 2 ^ 12 := by
  rw [fdctApprox_eq_sum, fdctIdeal_eq_sum, ← Finset.sum_sub_distrib]
  have hterm : ∀ y x : Fin 8,
      |((f[natIdx y x] : Rat) : ℝ) * ((weightApprox u x : ℝ) * (weightApprox v y : ℝ))
        - ((f[natIdx y x] : Rat) : ℝ) * (fdctWeight u x * fdctWeight v y)| ≤ 1 / 2 ^ 18 := by
    intro y x
    have hF : |((f[natIdx y x] : Rat) : ℝ)| ≤ 2 ^ 15 := by exact_mod_cast hf (natIdx y x)
    have ha := weightApprox_close u x
    have hb := weightApprox_close v y
    have hwu := fdctWeight_abs_le u x
    have hwv := fdctWeight_abs_le v y
    generalize ((f[natIdx y x] : Rat) : ℝ) = F at hF ⊢
    generalize (weightApprox u x : ℝ) = a at ha ⊢
    generalize (weightApprox v y : ℝ) = b at hb ⊢
    generalize fdctWeight u x = p at ha hwu ⊢
    generalize fdctWeight v y = q at hb hwv ⊢
    rw [← mul_sub, abs_mul]
    have hab : |a * b - p * q| ≤ 3 / 10 ^ 13 := by
      rw [show a * b - p * q = -(p - a) * b - p * (q - b) by ring]
      have hbb : |b| ≤ 1 := by
        have := abs_sub_abs_le_abs_sub b q
        rw [abs_sub_comm b q] at this
        linarith
      calc |-(p - a) * b - p * (q - b)| ≤ |-(p - a) * b| + |p * (q - b)| := abs_sub _ _
        _ = |p - a| * |b| + |p| * |q - b| := by rw [abs_mul, abs_mul, abs_neg]
        _ ≤ 3 / 10 ^ 13 := by nlinarith [abs_nonneg (p - a), abs_nonneg b, abs_nonneg p, abs_nonneg (q - b)]
    calc |F| * |a * b - p * q| ≤ 2 ^ 15 * (3 / 10 ^ 13) := by gcongr
      _ ≤ 1 / 2 ^ 18 := by norm_num
  calc |∑ y : Fin 8, (∑ x : Fin 8, ((f[natIdx y x] : Rat) : ℝ) * ((weightApprox u x : ℝ) * (weightApprox v y : ℝ))
        - ∑ x : Fin 8, ((f[natIdx y x] : Rat) : ℝ) * (fdctWeight u x * fdctWeight v y))|
      ≤ ∑ y : Fin 8, ∑ x : Fin 8, (1 / 2 ^ 18 : ℝ) := by
        refine (Finset.abs_sum_le_sum_abs _ _).trans (Finset.sum_le_sum fun y _ => ?_)
        rw [← Finset.sum_sub_distrib]
        exact (Finset.abs_sum_le_sum_abs _ _).trans (Finset.sum_le_sum fun x _ => hterm y x)
    _ ≤ 1 / 2 ^ 12 := by norm_num

end Sys2Proof
end

