-- ==== Sys2Proof/Config.lean ====
section
/-!
DEFINITION. Sys2Proof/Config.lean: what the spec leaves to the implementation and the free values, as constants that
nothing in Lean can evaluate (00_scope.md R9, 93_implementation_defined.md sections 1 and 2). The limits the spec sets
on a parameter stand in its type. The defaulted tables (BASE_QT_*, HUFF_SPEC) are data in the state (Machine/Tables.lean; log 14).
-/
namespace Sys2Proof

/-- CC_IMPL with its bound (R153): a function of the channel and the three bytes of a pixel, within EPS_CC = 2^-16 of
CC_IDEAL everywhere. The default only shows that the type has a member; `Config.cc` has no value a proof can use. -/
structure CcImpl where
  fn : Channel → Byte → Byte → Byte → Rat := ccIdeal
  within : ∀ ch r g b, |fn ch r g b - ccIdeal ch r g b| ≤ 1 / 2 ^ 16 := by intros; simp
  deriving Inhabited

/-- FDCT_IMPL with its bound (R144): a function of the 64 elements of a block; for every block whose elements have
magnitude at most 2^15, every output element is within EPS_DCT = 2^-12 of FDCT_IDEAL; for any other block the output
is not bounded. The default only shows that the type has a member. -/
structure FdctImpl where
  fn : Vector Rat 64 → Vector Rat 64 := fdctApprox
  within : ∀ f : Vector Rat 64, (∀ i : Fin 64, |f[i]| ≤ 2 ^ 15) → ∀ u v : Fin 8,
      |(((fn f)[natIdx v u] : Rat) : ℝ) - fdctIdeal (fun i => ((f[i] : Rat) : ℝ)) u v| ≤ 1 / 2 ^ 12 := by
    exact fdctApprox_within
  deriving Inhabited

/-- CC_IMPL, OPEN (R9, R153; log 9). -/
opaque Config.cc : CcImpl

/-- FDCT_IMPL, OPEN (R9, R144; log 10). -/
opaque Config.fdct : FdctImpl

/-- ROUND_TIE, OPEN (R9, R13; log 11). -/
opaque Config.roundTie : RoundTie

/-- BLK_READ, OPEN (R9, R42; log 12): the word a host read of a BLK element returns. -/
opaque Config.blkRead : Rat → Word

/-- The free values (log 4): the word of draw n. Every value the spec calls unspecified is cut from one of these. -/
opaque Config.freeWord : Nat → Word

/-- A byte of a DHT field for a number that does not fit the field (log 28), by the number and the place of the byte: the
spec gives no bytes there. -/
opaque Config.wideField : Nat → Nat → Byte

/-- What a byte of system memory holds that nothing in the run has written (log 7): a free value for each address. -/
opaque Config.initialByte : Nat → Byte

end Sys2Proof
end

