-- ==== Sys2Proof/Machine/State.lean ====
section
/-!
DEFINITION. Sys2Proof/Machine/State.lean: the state of one block instance (10_state.md R20, R53) with the system memory
it shares with the host (R49, R60) and the model's own bookkeeping, as plain data; the reasons a step stops; the state
after reset (70_reset_and_hazards.md R261).
-/
namespace Sys2Proof.Machine

/-- The nine parameter registers that a command reads as latched at acceptance (R27 to R32, R50). -/
structure Params where
  arg0 : Word
  origin : Word
  width : Word
  height : Word
  quality : Word
  srcAddr : Word
  srcLen : Word
  dstAddr : Word
  dstCap : Word
  deriving DecidableEq, Repr

/-- The DC predictors PRED[0..2], each a 32-bit two's-complement register (R35). -/
structure Preds where
  y : Word
  cb : Word
  cr : Word
  deriving DecidableEq, Repr

/-- A written entry of HT RAM (R41): the valid bit, the code and its length (1 to 16; 0 when not valid, R112). -/
structure HtEntry where
  valid : Bool
  code : BitVec 16
  len : BitVec 5
  deriving DecidableEq, Repr

/-- The busy latch (R50): the accepted command word and the parameter registers at acceptance. -/
structure Pending where
  word : Word
  params : Params
  deriving DecidableEq, Repr

/-- The loop position of ENCODE (R51): block origin and channel. -/
structure EncPos where
  bx : BitVec 16
  byy : BitVec 16
  ch : Channel
  deriving DecidableEq, Repr

/-- The model-level fault marks (R53). -/
inductive ModelFault where
  /-- A command read a store element that holds no value (R16, R238). -/
  | uninitRead
  deriving DecidableEq, Repr

/-- The size of a register-port access (R66): only an aligned word is defined. -/
inductive AccessSize where
  | byte
  | half
  | word
  deriving DecidableEq, Repr

/-- What happens next outside the block or in its sequencer (R74; logs 1, 8, 21). -/
inductive Event where
  /-- The core sequencer takes its step, if a command is pending. -/
  | core
  /-- A host write to the register port at a byte offset of the window (R49). -/
  | regWrite (off : BitVec 13) (size : AccessSize) (data : Word)
  /-- A host read of the register port. -/
  | regRead (off : BitVec 13) (size : AccessSize)
  /-- The host, or any other agent, writes a byte of system memory. -/
  | memWrite (addr : Word) (data : Byte)
  /-- The host, or any other agent, reads a byte of system memory. -/
  | memRead (addr : Word)
  /-- The host repeats a STATUS read until BUSY = 0 (R91). -/
  | wait
  /-- The platform asserts and releases the reset input (R260). -/
  | hardReset
  /-- The platform fixes which access of the memory master, counted from now, gets an error response, if any. -/
  | busFault (after : Option Nat)
  deriving DecidableEq, Repr

/-- The last answer on the host's side (log 26). -/
inductive Response where
  | none
  /-- A write was acknowledged. -/
  | ack
  /-- A register read returned a word. -/
  | data (w : Word)
  /-- A memory read returned a byte. -/
  | memData (b : Byte)
  /-- The register port answered with a bus error (R66, R253). -/
  | busError
  deriving DecidableEq, Repr

/-- System memory as the bytes that something in the run has written, by address (Memory.wf is its canonical form);
log 7 says what any other address reads as. -/
abbrev Memory := List Host.Cell

/-- The state of the machine (R20, R53). The last six fields are system memory and the model's own. `tables` is the block's
configuration (R9, R46): no step changes it, and a statement about every state is one about every configuration (log 14). -/
structure State where
  irqEn : Bool
  busy : Bool
  done : Bool
  err : Bool
  overrun : Bool
  errcode : BitVec 8
  qtValid : Bool
  htValid : Bool
  regs : Params
  outLen : Word
  acc : BitVec 8
  nbits : BitVec 3
  pred : Preds
  qt0 : Vector (Option Byte) 64
  qt1 : Vector (Option Byte) 64
  ht0 : Vector (Option HtEntry) 256
  ht1 : Vector (Option HtEntry) 256
  ht2 : Vector (Option HtEntry) 256
  ht3 : Vector (Option HtEntry) 256
  blk : Vector (Option Rat) 64
  qblk : Vector (Option (BitVec 16)) 64
  zz : Vector (Option (BitVec 16)) 64
  pending : Option Pending
  encPos : Option EncPos
  modelFault : Option ModelFault
  mem : Memory
  inputs : List Event
  resp : Response
  draws : Nat
  busErrIn : Option Nat
  tables : Tables
  deriving DecidableEq, Repr

/-- The reasons the machine stops with a fault: none. The spec leaves no stuck state (93_implementation_defined.md:
"every step of the block either completes or faults"), and its one model-level fault, UninitRead, is a mark in the
state (R53, R238; log 5). -/
inductive Fault where
  deriving DecidableEq, Repr

/-- The reasons a step has no move. -/
inductive Refusal where
  /-- Raised by an arm of exec whose instruction has no meaning in this model. No arm does. Safe. -/
  | notModelled (mnemonic : String)
  /-- Raised by a memory write of the host that changes a byte of the pixel region while BUSY = 1: a host that breaks the
  duty of R70 (a) has no move (R270 item 1). Safe. -/
  | pixelRegionChangedWhileBusy
  /-- Raised by a memory access of the host in the output region while BUSY = 1: a host that breaks the duty of
  R70 (b) has no move (R270 item 2). Safe. -/
  | outputRegionAccessedWhileBusy
  deriving DecidableEq, Repr

/-- The parameter registers after reset (R261): QUALITY = 85, all others 0. -/
def Params.reset : Params where
  arg0 := 0
  origin := 0
  width := 0
  height := 0
  quality := 85
  srcAddr := 0
  srcLen := 0
  dstAddr := 0
  dstCap := 0

/-- The machine right after reset (R261): every register at its reset value, every store element without a value
(⊥, `none`), no command pending, nothing of system memory written; the configuration is the default one (R9; log 14). -/
def State.reset : State where
  irqEn := false
  busy := false
  done := false
  err := false
  overrun := false
  errcode := 0
  qtValid := false
  htValid := false
  regs := Params.reset
  outLen := 0
  acc := 0
  nbits := 0
  pred := ⟨0, 0, 0⟩
  qt0 := Vector.replicate 64 none
  qt1 := Vector.replicate 64 none
  ht0 := Vector.replicate 256 none
  ht1 := Vector.replicate 256 none
  ht2 := Vector.replicate 256 none
  ht3 := Vector.replicate 256 none
  blk := Vector.replicate 64 none
  qblk := Vector.replicate 64 none
  zz := Vector.replicate 64 none
  pending := none
  encPos := none
  modelFault := none
  mem := []
  inputs := []
  resp := .none
  draws := 0
  busErrIn := none
  tables := Tables.defaults

end Sys2Proof.Machine
end

