-- ==== Sys2Proof/Machine/Flags.lean ====
section
/-!
DEFINITION. Sys2Proof/Machine/Flags.lean: the flags of the block, which are the STATUS bits (10_state.md R24, R47): the
numbers of the error codes, the words that STATUS, CTRL and BW_STATE read as, the write-1-to-clear rule of STATUS and
the interrupt output.
-/
namespace Sys2Proof

/-- The number of an error code in STATUS.ERRCODE (R231). -/
def ErrCode.code : ErrCode → BitVec 8
  | .illegalOpcode => 0x01
  | .illegalField => 0x02
  | .badDimensions => 0x03
  | .badSrcLen => 0x04
  | .badQuality => 0x05
  | .outOverflow => 0x06
  | .symbolUndefined => 0x07
  | .notReady => 0x08
  | .busError => 0x09
  | .illegalState => 0x0A
  | .badRegion => 0x0B
  | .coefRange => 0x0C

namespace Machine

/-- A flag as the one-bit field of a register. -/
def flagBit (b : Bool) : BitVec 1 := BitVec.ofBool b

/-- The word STATUS reads as (R24): ERRCODE in bits 15:8, HT_VALID 5, QT_VALID 4, OVERRUN 3, ERR 2, DONE 1, BUSY 0. -/
def statusWord (s : State) : Word :=
  (0#16 ++ s.errcode ++ 0#2 ++ flagBit s.htValid ++ flagBit s.qtValid ++ flagBit s.overrun ++ flagBit s.err
    ++ flagBit s.done ++ flagBit s.busy : BitVec 32)

/-- A write to STATUS (R25): data bit 1 clears DONE, bit 2 clears ERR and ERRCODE, bit 3 clears OVERRUN; every other
data bit is ignored. -/
def statusWrite (data : Word) (s : State) : State :=
  { s with
    done := if data.getLsbD 1 then false else s.done
    err := if data.getLsbD 2 then false else s.err
    errcode := if data.getLsbD 2 then 0 else s.errcode
    overrun := if data.getLsbD 3 then false else s.overrun }

/-- The word CTRL reads as (R23): IRQ_EN in bit 1, SOFT_RESET reads 0. -/
def ctrlWord (s : State) : Word := (0#30 ++ flagBit s.irqEn ++ 0#1 : BitVec 32)

/-- The word BW_STATE reads as (R34): ACC in bits 7:0, NBITS in bits 10:8. -/
def bwStateWord (s : State) : Word := (0#21 ++ s.nbits ++ s.acc : BitVec 32)

/-- The interrupt output (R52, R240). -/
def irq (s : State) : Bool := s.irqEn && (s.done || s.err)

end Machine

end Sys2Proof
end

