-- ==== Sys2Proof/Syntax.lean ====
section
/-!
DEFINITION. Sys2Proof/Syntax.lean: the fourteen commands of the block, one constructor per row of
spec/opcode_table.json (30_encoding.md R83, R92).
-/
namespace Sys2Proof

/-- A command (R83). The only operand a command word carries is IMM6 (R87), here already read as its kind says:
a number of bits, a channel or a quantization table. -/
inductive Instr where
  | nop
  | qtScale
  | huffBuild
  | resetStream
  | pushBits (n : BitVec 6)
  | flush
  | fdct
  | sample (ch : Channel)
  | quant (tbl : QTable)
  | zigzag
  | entropy (ch : Channel)
  | writeHeaders
  | writeEoi
  | encode
  deriving DecidableEq, Repr

end Sys2Proof
end

