-- ==== Sys2Proof/Machine/Operands.lean ====
section
/-!
DEFINITION. Sys2Proof/Machine/Operands.lean: the operands of the commands: the latched parameter registers, the elements
of the stores, the tables a channel selects, the exact arithmetic of 00_scope.md R11 to R13, and which stores each
command writes (30_encoding.md R88).
-/
namespace Sys2Proof.Machine

/-- The parameter registers a command uses: those latched at acceptance (R15, R50). Where no command is pending, which
`step` never runs an instruction from, the registers themselves (log 20). -/
def latched (s : State) : Params :=
  match s.pending with
  | some p => p.params
  | none => s.regs

/-- BX of ORIGIN, bits 15:0, unsigned (R28). -/
def Params.bx (p : Params) : Nat := (p.origin.extractLsb' 0 16).toNat

/-- BY of ORIGIN, bits 31:16, unsigned (R28). -/
def Params.byy (p : Params) : Nat := (p.origin.extractLsb' 16 16).toNat

/-- The predictor of a channel (R35). -/
def Preds.get (p : Preds) : Channel → Word
  | .y => p.y
  | .cb => p.cb
  | .cr => p.cr

/-- The predictors with the one of a channel replaced (R35). -/
def Preds.set (p : Preds) (ch : Channel) (w : Word) : Preds :=
  match ch with
  | .y => { p with y := w }
  | .cb => { p with cb := w }
  | .cr => { p with cr := w }

/-- The quantization table of a table operand (R39). -/
def State.qt (s : State) : QTable → Vector (Option Byte) 64
  | .luma => s.qt0
  | .chroma => s.qt1

/-- The code table with a number (R41). -/
def State.ht (s : State) : HTable → Vector (Option HtEntry) 256
  | .dcLuma => s.ht0
  | .acLuma => s.ht1
  | .dcChroma => s.ht2
  | .acChroma => s.ht3

/-- The DC code table of a channel (R115, R177). -/
def dcTable : Channel → HTable
  | .y => .dcLuma
  | .cb => .dcChroma
  | .cr => .dcChroma

/-- The AC code table of a channel (R115, R177). -/
def acTable : Channel → HTable
  | .y => .acLuma
  | .cb => .acChroma
  | .cr => .acChroma

/-- The quantization table ENCODE uses for a channel (R214). -/
def quantTableOf : Channel → QTable
  | .y => .luma
  | .cb => .chroma
  | .cr => .chroma

/-- The values of a store all of whose elements have been written; `none` when some element is ⊥ (R16). -/
def allWritten {α : Type} {n : Nat} (v : Vector (Option α) n) : Option (Vector α n) :=
  if h : ∀ i : Fin n, v[i].isSome = true then some (Vector.ofFn fun i => v[i].get (h i)) else none

/-- bitlen (R12): the number of bits of |n| in binary, 0 for 0. -/
def bitlen (n : Int) : Nat := if n = 0 then 0 else Nat.log2 n.natAbs + 1

/-- round_tie (R13): the nearest integer, exact half-integers as the mode says. -/
def roundTie (mode : RoundTie) (y : Rat) : Int :=
  let f := y.floor
  if y - f < 1 / 2 then f
  else if 1 / 2 < y - f then f + 1
  else
    match mode with
    | .halfUp => f + 1
    | .halfAway => if 0 ≤ y then f + 1 else f
    | .halfEven => if f % 2 = 0 then f else f + 1

/-- The two's-complement value of a 16-bit coefficient (R43, R44) is `BitVec.toInt`; this is the coefficient of an
integer that fits (R161). -/
def coefOfInt (n : Int) : BitVec 16 := BitVec.ofInt 16 n

/-- What a command writes (R88), beside STATUS and the bytes of the output region. `restarts` says that the command
starts a new output stream (its body is or holds that of RESET_STREAM). -/
structure Writes where
  qt : Bool := false
  ht : Bool := false
  blk : Bool := false
  qblk : Bool := false
  zz : Bool := false
  outLen : Bool := false
  bits : Bool := false
  preds : List Channel := []
  restarts : Bool := false
  deriving DecidableEq, Repr

/-- The "writes" column of R88. -/
def writesOf : Instr → Writes
  | .nop => {}
  | .qtScale => { qt := true }
  | .huffBuild => { ht := true }
  | .resetStream => { outLen := true, bits := true, preds := [.y, .cb, .cr], restarts := true }
  | .pushBits _ => { outLen := true, bits := true }
  | .flush => { outLen := true, bits := true }
  | .fdct => { blk := true }
  | .sample _ => { blk := true }
  | .quant _ => { qblk := true }
  | .zigzag => { zz := true }
  | .entropy ch => { outLen := true, bits := true, preds := [ch] }
  | .writeHeaders => { outLen := true }
  | .writeEoi => { outLen := true }
  | .encode =>
    { qt := true, ht := true, blk := true, qblk := true, zz := true, outLen := true, bits := true,
      preds := [.y, .cb, .cr], restarts := true }

end Sys2Proof.Machine
end

