-- ==== Sys2Proof/Machine/Ops.lean ====
section
/-!
DEFINITION. Sys2Proof/Machine/Ops.lean: the named operations over memory and registers that the meanings share: system
memory, the memory master, byte emission (42_bit_writer.md R121), free values, accepting and completing a command with
the state an error leaves (60_exceptions.md R234 to R238), and reset (70_reset_and_hazards.md R261 to R263).
-/
namespace Sys2Proof.Machine

/-! ### System memory -/

/-- The canonical form of memory: addresses strictly rising and below 2^32 (R60). -/
abbrev Memory.wf (m : Memory) : Prop :=
  m.Pairwise (fun c d => c.1 < d.1) ∧ ∀ c ∈ m, c.1 < 2 ^ 32

/-- The byte that something in the run has written at an address, if any. -/
def Memory.find : Memory → Nat → Option Byte
  | [], _ => none
  | (a, b) :: m, x => if a = x then some b else Memory.find m x

/-- A byte written at an address, keeping the canonical form. -/
def Memory.put : Memory → Nat → Byte → Memory
  | [], x, v => [(x, v)]
  | (a, b) :: m, x, v =>
    if x < a then (x, v) :: (a, b) :: m
    else if x = a then (x, v) :: m
    else (a, b) :: Memory.put m x v

/-- The byte of system memory at an address (R74): the last one written there; a free value where nothing in the run
has written (log 7). -/
def readByte (s : State) (a : Nat) : Byte := (Memory.find s.mem a).getD (Config.initialByte a)

/-- A byte stored in system memory (R63). -/
def storeByte (a : Nat) (b : Byte) (s : State) : State := { s with mem := Memory.put s.mem a b }

/-! ### Results of a command body -/

/-- How a command body ends: normally; by `raise CODE` (R14, R234); by reading an element that holds no value (R16). -/
inductive Res where
  | ok (s : State)
  | raise (c : ErrCode) (s : State)
  | uninit (s : State)
  deriving Repr

/-- Go on only after a normal end. -/
def Res.bind (r : Res) (f : State → Res) : Res :=
  match r with
  | .ok s => f s
  | .raise c s => .raise c s
  | .uninit s => .uninit s

/-- The state at the end of a body. -/
def Res.state : Res → State
  | .ok s => s
  | .raise _ s => s
  | .uninit s => s

/-- A body for each element of a list, in order, up to the first that does not end normally. -/
def forEach {α : Type} (f : α → State → Res) : List α → State → Res
  | [], s => .ok s
  | x :: xs, s => (f x s).bind (forEach f xs)

/-- A check before a body (R233): when it fails the body does not start and nothing has changed. -/
def check (bad : Bool) (c : ErrCode) (next : State → Res) (s : State) : Res :=
  if bad then .raise c s else next s

/-! ### The memory master -/

/-- n accesses of the memory master: an error response to any of them is BUS_ERROR (R69, R231; log 8). -/
def busAccess (n : Nat) (s : State) : Res :=
  match s.busErrIn with
  | none => .ok s
  | some k =>
    if k < n then .raise .busError { s with busErrIn := none } else .ok { s with busErrIn := some (k - n) }

/-- BAD_REGION (DST) of R233: DST_ADDR + DST_CAP > 2^32, an exact sum. -/
def dstRegionBad (p : Params) : Bool := decide (2 ^ 32 < p.dstAddr.toNat + p.dstCap.toNat)

/-- BAD_REGION (SRC) of R233: SRC_ADDR + SRC_LEN > 2^32, an exact sum. -/
def srcRegionBad (p : Params) : Bool := decide (2 ^ 32 < p.srcAddr.toNat + p.srcLen.toNat)

/-- The address of output byte n (R62): DST_ADDR + n. -/
def outAddr (p : Params) (n : Word) : Nat := (p.dstAddr + n).toNat

/-- EmitRaw (R121). -/
def emitRaw (p : Params) (b : Byte) (s : State) : Res :=
  if p.dstCap.toNat ≤ s.outLen.toNat then .raise .outOverflow s
  else
    (busAccess 1 s).bind fun s =>
      .ok { storeByte (outAddr p s.outLen) b s with outLen := s.outLen + 1 }

/-! ### Free values (log 4) -/

/-- The next free word. -/
def drawWord (s : State) : Word × State := (Config.freeWord s.draws, { s with draws := s.draws + 1 })

/-- ACC and NBITS become free values of their widths (R236, R237). -/
def drawBits (s : State) : State :=
  { s with
    acc := (Config.freeWord s.draws).setWidth 8
    nbits := (Config.freeWord (s.draws + 1)).setWidth 3
    draws := s.draws + 2 }

/-- The predictor of a channel becomes a free value (R236, R237). -/
def drawPred (s : State) (ch : Channel) : State :=
  { s with pred := s.pred.set ch (Config.freeWord s.draws), draws := s.draws + 1 }

/-- The n bytes of memory from an address become free values (R237, R263). -/
def drawBytes (a : Nat) : Nat → State → State
  | 0, s => s
  | n + 1, s =>
    drawBytes a n { storeByte (a + n) ((Config.freeWord s.draws).setWidth 8) s with draws := s.draws + 1 }

/-- OUT_LEN becomes a free value in [lo, hi] (R237). -/
def drawOutLen (lo hi : Nat) (s : State) : State :=
  { s with
    outLen := BitVec.ofNat 32 (lo + (Config.freeWord s.draws).toNat % (hi - lo + 1))
    draws := s.draws + 1 }

/-- The number of bytes of the output region [DST_ADDR, DST_ADDR + DST_CAP) inside the address space. -/
def dstSpan (p : Params) : Nat := min p.dstCap.toNat (2 ^ 32 - p.dstAddr.toNat)

/-- The stores of a command's "writes" column become ⊥ (R236, R237). -/
def clearStores (w : Writes) (s : State) : State :=
  { s with
    blk := if w.blk then Vector.replicate 64 none else s.blk
    qblk := if w.qblk then Vector.replicate 64 none else s.qblk
    zz := if w.zz then Vector.replicate 64 none else s.zz }

/-! ### Accepting and completing a command -/

/-- Acceptance of a command word written to CMD while BUSY = 0 (R80). -/
def accept (w : Word) (s : State) : State :=
  { s with
    pending := some ⟨w, s.regs⟩
    done := false
    err := false
    errcode := 0
    busy := true }

/-- What every completion does (R234): BUSY <- 0, DONE <- 1, the busy latch emptied. -/
def complete (s : State) : State := { s with busy := false, done := true, pending := none, encPos := none }

/-- Raising an error and completing (R234): the block's one form of exception. A failed command also sets ERR and
ERRCODE; a read of ⊥ sets the model fault mark and reports no code (R238). -/
def finish : Res → State
  | .ok s => complete s
  | .raise c s => { complete s with err := true, errcode := c.code }
  | .uninit s => { complete s with modelFault := some .uninitRead }

/-- The state after OUT_OVERFLOW (R236): ACC and NBITS, the predictors the command writes and, for ENCODE, BLK, QBLK
and ZZ are unspecified; everything emitted before stays. -/
def spoilOverflow (w : Writes) (s : State) : State :=
  clearStores w (w.preds.foldl drawPred (drawBits s))

/-- The output region and OUT_LEN after BUS_ERROR (R237), `start` the value of OUT_LEN when the command began: OUT_LEN
lies between `start` and DST_CAP, whichever is larger (log 16), and the bytes from DST_ADDR + `start` on are open. -/
def spoilOutput (p : Params) (start : Nat) (s : State) : State :=
  drawOutLen (min start p.dstCap.toNat) (max start p.dstCap.toNat)
    (drawBytes (p.dstAddr.toNat + start) (dstSpan p - start) s)

/-- The state after BUS_ERROR (R237): every store in the command's "writes" column is unspecified, except QT RAM,
HT RAM and the valid flags. -/
def spoilBusError (w : Writes) (p : Params) (start : Nat) (s : State) : State :=
  let s := if w.outLen then spoilOutput p start s else s
  let s := if w.bits then drawBits s else s
  clearStores w (w.preds.foldl drawPred s)

/-- What an error leaves of the state its body ended in: a validation error changes nothing (R235); OUT_OVERFLOW and
BUS_ERROR leave R236 and R237; a read of ⊥ leaves what the command writes unspecified (R238; log 5). An ENCODE that
stops in the middle on SYMBOL_UNDEFINED leaves R236 (R212; log 22), and so does one that stops on COEF_RANGE. -/
def settle (w : Writes) (p : Params) (start : Nat) : Res → Res
  | .ok s => .ok s
  | .uninit s => .uninit (spoilBusError w p start s)
  | .raise c s =>
    .raise c <|
      match c with
      | .outOverflow => spoilOverflow w s
      | .busError => spoilBusError w p start s
      | .symbolUndefined => if w.restarts then spoilOverflow w s else s
      | .coefRange => if w.restarts then spoilOverflow w s else s
      | .illegalOpcode => s
      | .illegalField => s
      | .badDimensions => s
      | .badSrcLen => s
      | .badQuality => s
      | .notReady => s
      | .illegalState => s
      | .badRegion => s

/-- One command from its first check to its completion, as one step (R15): its body on the latched registers, what an
error leaves, and completion. -/
def runCommand (w : Writes) (body : Params → State → Res) (s : State) : Host.Outcome State Fault Refusal :=
  .next (finish (settle w (latched s) s.outLen.toNat (body (latched s) s)))

/-! ### Reset -/

/-- Every element of R261 at its reset value; system memory, the configuration, what is outside the block and the model's
own fields stay. The model fault mark becomes `mark`. -/
def resetBlock (mark : Option ModelFault) (s : State) : State :=
  { State.reset with
    modelFault := mark, mem := s.mem, inputs := s.inputs, resp := s.resp, draws := s.draws, busErrIn := s.busErrIn
    tables := s.tables }

/-- The bytes that a command abandoned by a soft reset may have written (R262, R263): when a command is pending, its output region becomes
free values. -/
def abandon (s : State) : State :=
  match s.pending with
  | some p => drawBytes p.params.dstAddr.toNat (dstSpan p.params) s
  | none => s

/-- Soft reset (R262, R263). The model fault mark is never cleared in a run (R53, R238; log 6). -/
def softReset (s : State) : State := resetBlock s.modelFault (abandon s)

/-- Hard reset (R260, R261): a new run starts without a fault mark (log 6); system memory is not touched (log 18). -/
def hardReset (s : State) : State := resetBlock none s

end Sys2Proof.Machine
end

