-- ==== Sys2Proof/Machine/BitWriter.lean ====
section
/-!
DEFINITION. Sys2Proof/Machine/BitWriter.lean: the bit writer with byte stuffing and its commands RESET_STREAM,
PUSH_BITS and FLUSH (42_bit_writer.md).
-/
namespace Sys2Proof.Machine

/-- EmitStuffed (R122): an entropy-coded byte, and a 0x00 after every 0xFF. -/
def emitStuffed (p : Params) (b : Byte) (s : State) : Res :=
  (emitRaw p b s).bind fun s => if b = 0xFF then emitRaw p 0x00 s else .ok s

/-- ((ACC << 1) | x), eight bits (R123). -/
def accWith (acc : BitVec 8) (x : Bool) : BitVec 8 := (acc <<< 1) ||| (BitVec.ofBool x).setWidth 8

/-- PushBit (R123). -/
def pushBit (p : Params) (x : Bool) (s : State) : Res :=
  if s.nbits = 7 then emitStuffed p (accWith s.acc x) { s with acc := 0, nbits := 0 }
  else .ok { s with acc := accWith s.acc x, nbits := s.nbits + 1 }

/-- PushBits (R124): the n low bits of v, most significant first. -/
def pushBits (p : Params) (v : Nat) : Nat → State → Res
  | 0, s => .ok s
  | n + 1, s => (pushBit p (v.testBit n) s).bind (pushBits p v n)

/-- The body of RESET_STREAM (R125). -/
def resetStreamBody (s : State) : Res :=
  .ok { s with outLen := 0, acc := 0, nbits := 0, pred := ⟨0, 0, 0⟩ }

/-- RESET_STREAM (R125). -/
def execResetStream (s : State) : Host.Outcome State Fault Refusal :=
  runCommand (writesOf .resetStream) (fun _ => resetStreamBody) s

/-- PUSH_BITS n (R126). -/
def pushBitsCmd (n : Nat) (p : Params) : State → Res :=
  check (dstRegionBad p) .badRegion (pushBits p p.arg0.toNat n)

/-- PUSH_BITS n (R126). -/
def execPushBits (n : BitVec 6) (s : State) : Host.Outcome State Fault Refusal :=
  runCommand (writesOf (.pushBits n)) (pushBitsCmd n.toNat) s

/-- The byte FLUSH completes (R127): the pending bits, then 1-bits. -/
def flushByte (acc : BitVec 8) (nbits : BitVec 3) : BitVec 8 :=
  (acc <<< (8 - nbits.toNat)) ||| BitVec.ofNat 8 (2 ^ (8 - nbits.toNat) - 1)

/-- The body of FLUSH after its check (R127). -/
def flushBody (p : Params) (s : State) : Res :=
  if s.nbits = 0 then .ok s
  else emitStuffed p (flushByte s.acc s.nbits) { s with acc := 0, nbits := 0 }

/-- FLUSH (R127). -/
def flushCmd (p : Params) : State → Res := check (dstRegionBad p) .badRegion (flushBody p)

/-- FLUSH (R127). -/
def execFlush (s : State) : Host.Outcome State Fault Refusal := runCommand (writesOf .flush) flushCmd s

end Sys2Proof.Machine
end

