-- ==== Sys2Proof/Machine/BlockEncoder.lean ====
section
/-!
DEFINITION. Sys2Proof/Machine/BlockEncoder.lean: QUANT, ZIGZAG and ENTROPY (45_block_encoder.md).
-/
namespace Sys2Proof.Machine

/-- The quantized coefficient of a quotient (R161, R162): the exact rational quotient, rounded to the nearest integer. -/
def quantize (mode : RoundTie) (b : Rat) (q : Byte) : Int := roundTie mode (b / (q.toNat : Rat))

/-- The body of QUANT after the NOT_READY check (R161): all results are computed and checked before any is written. -/
def quantBody (tbl : QTable) (s : State) : Res :=
  match allWritten s.blk, allWritten (s.qt tbl) with
  | some b, some q =>
    let n : Vector Int 64 := Vector.ofFn fun i => quantize Config.roundTie b[i] q[i]
    if ∃ i : Fin 64, n[i] < -32768 ∨ 32767 < n[i] then .raise .coefRange s
    else .ok { s with qblk := n.map fun k => some (coefOfInt k) }
  | _, _ => .uninit s

/-- QUANT tbl (R161). -/
def quantCmd (tbl : QTable) (s : State) : Res := check (!s.qtValid) .notReady (quantBody tbl) s

/-- QUANT tbl (R161). -/
def execQuant (tbl : QTable) (s : State) : Host.Outcome State Fault Refusal :=
  runCommand (writesOf (.quant tbl)) (fun _ => quantCmd tbl) s

/-- The body of ZIGZAG (R165). -/
def zigzagBody (s : State) : Res :=
  match allWritten s.qblk with
  | none => .uninit s
  | some q => .ok { s with zz := Vector.ofFn fun k => some q[zigzagNat k] }

/-- ZIGZAG (R165). -/
def execZigzag (s : State) : Host.Outcome State Fault Refusal :=
  runCommand (writesOf .zigzag) (fun _ => zigzagBody) s

/-- magbits (R171): the c-bit field of an integer v with c = bitlen v. -/
def magbits (v : Int) (c : Nat) : Nat := if 0 ≤ v then v.toNat else (v + 2 ^ c - 1).toNat

/-- An item of ENTROPY (R169): a symbol of a code table and the magnitude bits that follow it. -/
structure Item where
  table : HTable
  sym : Nat
  bits : Nat
  nbits : Nat
  deriving DecidableEq, Repr

/-- The DC item (R169, R170): the category of the difference and its magnitude bits. -/
def dcItem (t : HTable) (diff : Int) : Item := ⟨t, bitlen diff, magbits diff (bitlen diff), bitlen diff⟩

/-- ZRL (R172): the symbol 0xF0, coded through the AC table. -/
def zrl (t : HTable) : Item := ⟨t, 0xF0, 0, 0⟩

/-- EOB (R173): the symbol 0x00. -/
def eob (t : HTable) : Item := ⟨t, 0x00, 0, 0⟩

/-- The AC items (R169, R172, R173) of the coefficients from some position on, after `run` zeros: one ZRL for every full
run of 16 zeros before a nonzero coefficient, then its symbol (run << 4) | category with the magnitude bits; EOB when a
run of zeros is left at the end. -/
def acItems (t : HTable) : Nat → List Int → List Item
  | run, [] => if 0 < run then [eob t] else []
  | run, v :: vs =>
    if v = 0 then acItems t (run + 1) vs
    else
      List.replicate (run / 16) (zrl t)
        ++ ⟨t, ((run % 16) <<< 4) ||| bitlen v, magbits v (bitlen v), bitlen v⟩ :: acItems t 0 vs

/-- The items of a block (R169), `coefs` the 64 coefficients in zigzag order and `pred` the predictor; the difference
is exact, without wrap (R170). -/
def blockItems (ch : Channel) (pred : Int) (coefs : List Int) : List Item :=
  dcItem (dcTable ch) (coefs.headD 0 - pred) :: acItems (acTable ch) 0 coefs.tail

/-- A coded item: the bits of the symbol's code, then the magnitude bits. -/
structure Coded where
  code : Nat
  len : Nat
  bits : Nat
  nbits : Nat
  deriving DecidableEq, Repr

/-- How the symbol pre-check of an item ends (R176): the coded item, an undefined symbol, or a table entry that holds no
value (which a table built by HUFF_BUILD has nowhere; log 23). -/
inductive Lookup where
  | coded (c : Coded)
  | undefined
  | unwritten
  deriving DecidableEq, Repr

/-- The pre-check of an item (R169, R176). -/
def lookup (s : State) (i : Item) : Lookup :=
  if 15 < i.nbits then .undefined
  else
    match (s.ht i.table)[i.sym]? with
    | none => .undefined
    | some none => .unwritten
    | some (some e) => if e.valid then .coded ⟨e.code.toNat, e.len.toNat, i.bits, i.nbits⟩ else .undefined

/-- How the pre-check of a list of items ends: all of them coded, or the first that is not. -/
inductive Lookups where
  | coded (cs : List Coded)
  | undefined
  | unwritten
  deriving DecidableEq, Repr

/-- The pre-check of all items, in order (R169, R176). -/
def lookupAll (s : State) : List Item → Lookups
  | [] => .coded []
  | i :: items =>
    match lookup s i with
    | .undefined => .undefined
    | .unwritten => .unwritten
    | .coded c =>
      match lookupAll s items with
      | .undefined => .undefined
      | .unwritten => .unwritten
      | .coded cs => .coded (c :: cs)

/-- The bits of a coded item (R169): its code, then its magnitude bits. -/
def emitCoded (p : Params) (c : Coded) (s : State) : Res :=
  (pushBits p c.code c.len s).bind (pushBits p c.bits c.nbits)

/-- The items of the block in ZZ for a channel (R169). -/
def entropyItems (ch : Channel) (z : Vector (BitVec 16) 64) (s : State) : List Item :=
  blockItems ch (s.pred.get ch).toInt (z.toList.map BitVec.toInt)

/-- The body of ENTROPY after the NOT_READY and BAD_REGION checks (R169): nothing is emitted when a symbol is
undefined; PRED[ch] <- ZZ[0], sign-extended, at the end. -/
def entropyBody (p : Params) (ch : Channel) (s : State) : Res :=
  match allWritten s.zz with
  | none => .uninit s
  | some z =>
    match lookupAll s (entropyItems ch z s) with
    | .undefined => .raise .symbolUndefined s
    | .unwritten => .uninit s
    | .coded cs =>
      (forEach (emitCoded p) cs s).bind fun s => .ok { s with pred := s.pred.set ch (z[0].signExtend 32) }

/-- ENTROPY ch (R169), checks in the order of R233. -/
def entropyCmd (ch : Channel) (p : Params) (s : State) : Res :=
  check (!s.htValid) .notReady (check (dstRegionBad p) .badRegion (entropyBody p ch)) s

/-- ENTROPY ch (R169). -/
def execEntropy (ch : Channel) (s : State) : Host.Outcome State Fault Refusal :=
  runCommand (writesOf (.entropy ch)) (entropyCmd ch) s

end Sys2Proof.Machine
end

