-- ==== Sys2Proof/Machine/Sampler.lean ====
section
/-!
DEFINITION. Sys2Proof/Machine/Sampler.lean: SAMPLE, the colour block sampler (44_color_sampler.md).
-/
namespace Sys2Proof.Machine

/-- BAD_DIMENSIONS (R151, R191, R213): WIDTH or HEIGHT outside [1, 65535]. -/
def dimensionsBad (p : Params) : Bool :=
  decide (p.width.toNat < 1 ∨ 65535 < p.width.toNat ∨ p.height.toNat < 1 ∨ 65535 < p.height.toNat)

/-- BAD_SRC_LEN (R151, R213): SRC_LEN differs from WIDTH * HEIGHT * 3, an exact product. -/
def srcLenBad (p : Params) : Bool := decide (p.srcLen.toNat ≠ p.width.toNat * p.height.toNat * 3)

/-- The offset in the pixel region of byte c of the pixel that sample (x, y) of the block at (bx, by) reads (R61, R151):
the coordinates are clamped to the image (R155). -/
def pixelOffset (p : Params) (bx byy x y c : Nat) : Nat :=
  3 * (min (byy + y) (p.height.toNat - 1) * p.width.toNat + min (bx + x) (p.width.toNat - 1)) + c

/-- The address of that byte (R61). -/
def pixelAddr (p : Params) (bx byy x y c : Nat) : Nat :=
  (p.srcAddr + BitVec.ofNat 32 (pixelOffset p bx byy x y c)).toNat

/-- The sample (x, y) of channel ch of the block at (bx, by) (R151). -/
def sampleAt (p : Params) (ch : Channel) (bx byy x y : Nat) (s : State) : Rat :=
  Config.cc.fn ch (readByte s (pixelAddr p bx byy x y 0)) (readByte s (pixelAddr p bx byy x y 1))
    (readByte s (pixelAddr p bx byy x y 2))

/-- The 64 samples of a block, sample (x, y) at 8 y + x (R151, R42). -/
def sampleBlock (p : Params) (ch : Channel) (bx byy : Nat) (s : State) : Vector (Option Rat) 64 :=
  Vector.ofFn fun i => some (sampleAt p ch bx byy (i.val % 8) (i.val / 8) s)

/-- The body of SAMPLE after its checks (R151), with the block origin given: three byte reads for each of the 64
samples, whose number and order are not architectural (R65; log 8). -/
def sampleBody (p : Params) (ch : Channel) (bx byy : Nat) (s : State) : Res :=
  (busAccess 192 s).bind fun s => .ok { s with blk := sampleBlock p ch bx byy s }

/-- SAMPLE ch (R151), checks in the order of R233. -/
def sampleCmd (ch : Channel) (p : Params) : State → Res :=
  check (dimensionsBad p) .badDimensions <|
    check (srcLenBad p) .badSrcLen <|
      check (srcRegionBad p) .badRegion <| sampleBody p ch p.bx p.byy

/-- SAMPLE ch (R151). -/
def execSample (ch : Channel) (s : State) : Host.Outcome State Fault Refusal :=
  runCommand (writesOf (.sample ch)) (sampleCmd ch) s

end Sys2Proof.Machine
end

