-- ==== Sys2Proof/Machine/Container.lean ====
section
/-!
DEFINITION. Sys2Proof/Machine/Container.lean: WRITE_HEADERS and WRITE_EOI, the JFIF container framer (46_container.md).
-/
namespace Sys2Proof.Machine

/-- A two-byte field, big-endian (R62, R200). -/
def be16 (n : Nat) : List Byte := [BitVec.ofNat 8 (n / 256), BitVec.ofNat 8 n]

/-- SOI (R192). -/
def segSoi : List Byte := [0xFF, 0xD8]

/-- APP0 (R193): marker, length 16, "JFIF\0", version 1.01, units 0, densities 1, no thumbnail. -/
def segApp0 : List Byte :=
  [0xFF, 0xE0] ++ be16 16 ++ [0x4A, 0x46, 0x49, 0x46, 0x00] ++ [0x01, 0x01] ++ [0x00] ++ be16 1 ++ be16 1 ++ [0x00, 0x00]

/-- The table id of a quantization table (R194). -/
def quantTableId : QTable → Byte
  | .luma => 0
  | .chroma => 1

/-- DQT (R194): marker, length 67, Pq/Tq, then the 64 entries in zigzag order. -/
def segDqt (t : QTable) (q : Vector Byte 64) : List Byte :=
  [0xFF, 0xDB] ++ be16 67 ++ [quantTableId t] ++ (List.finRange 64).map fun k => q[zigzagNat k]

/-- SOF0 (R195): height before width; three components of 1x1 sampling. -/
def segSof0 (w h : Nat) : List Byte :=
  [0xFF, 0xC0] ++ be16 17 ++ [0x08] ++ be16 h ++ be16 w ++ [0x03]
    ++ [0x01, 0x11, 0x00] ++ [0x02, 0x11, 0x01] ++ [0x03, 0x11, 0x01]

/-- The Tc/Th byte of a code table (R196). -/
def codeTableId : HTable → Byte
  | .dcLuma => 0x00
  | .acLuma => 0x10
  | .dcChroma => 0x01
  | .acChroma => 0x11

/-- The length field of DHT (R196); open for a number that does not fit (log 28). -/
def dhtLength (n : Nat) : List Byte := if n < 2 ^ 16 then be16 n else [Config.wideField n 0, Config.wideField n 1]

/-- A BITS byte of DHT (R196); open for a count that does not fit (log 28). -/
def countByte (n : Nat) : Byte := if n < 2 ^ 8 then BitVec.ofNat 8 n else Config.wideField n 0

/-- DHT (R196): marker, length 19 + n, Tc/Th, the 16 counts, the n symbols. -/
def segDht (t : HTable) (h : HuffSpec) : List Byte :=
  [0xFF, 0xC4] ++ dhtLength (19 + h.vals.length) ++ [codeTableId t] ++ h.bits.map countByte ++ h.vals.map (BitVec.ofNat 8)

/-- SOS (R197): three components with their table selectors, then Ss, Se, Ah/Al. -/
def segSos : List Byte :=
  [0xFF, 0xDA] ++ be16 12 ++ [0x03] ++ [0x01, 0x00] ++ [0x02, 0x11] ++ [0x03, 0x11] ++ [0x00, 0x3F, 0x00]

/-- The header bytes from SOI through SOS (R191), `T` the block's tables. -/
def headerBytes (T : Tables) (w h : Nat) (q0 q1 : Vector Byte 64) : List Byte :=
  segSoi ++ segApp0 ++ segDqt .luma q0 ++ segDqt .chroma q1 ++ segSof0 w h
    ++ segDht .dcLuma (T.huff .dcLuma) ++ segDht .acLuma (T.huff .acLuma)
    ++ segDht .dcChroma (T.huff .dcChroma) ++ segDht .acChroma (T.huff .acChroma) ++ segSos

/-- The body of WRITE_HEADERS after its checks (R191). The tables have values when QT_VALID = 1 (log 23). -/
def writeHeadersBody (p : Params) (s : State) : Res :=
  match allWritten s.qt0, allWritten s.qt1 with
  | some q0, some q1 => forEach (emitRaw p) (headerBytes s.tables p.width.toNat p.height.toNat q0 q1) s
  | _, _ => .uninit s

/-- WRITE_HEADERS (R191), checks in the order of R233. -/
def writeHeadersCmd (p : Params) (s : State) : Res :=
  check (dimensionsBad p) .badDimensions
    (check (!(s.qtValid && s.htValid)) .notReady
      (check (decide (s.nbits ≠ 0)) .illegalState
        (check (dstRegionBad p) .badRegion (writeHeadersBody p)))) s

/-- WRITE_HEADERS (R191). -/
def execWriteHeaders (s : State) : Host.Outcome State Fault Refusal :=
  runCommand (writesOf .writeHeaders) writeHeadersCmd s

/-- The body of WRITE_EOI after its checks (R199): the End-Of-Image marker, not stuffed. -/
def writeEoiBody (p : Params) : State → Res := forEach (emitRaw p) [0xFF, 0xD9]

/-- WRITE_EOI (R199), checks in the order of R233. -/
def writeEoiCmd (p : Params) (s : State) : Res :=
  check (decide (s.nbits ≠ 0)) .illegalState (check (dstRegionBad p) .badRegion (writeEoiBody p)) s

/-- WRITE_EOI (R199). -/
def execWriteEoi (s : State) : Host.Outcome State Fault Refusal := runCommand (writesOf .writeEoi) writeEoiCmd s

end Sys2Proof.Machine
end

