-- ==== Sys2Proof/Machine/Fdct.lean ====
section
/-!
DEFINITION. Sys2Proof/Machine/Fdct.lean: FDCT, the forward 8x8 DCT (43_fdct.md).
-/
namespace Sys2Proof.Machine

/-- The body of FDCT (R141): all 64 inputs are read first; BLK is replaced by FDCT_IMPL of them. -/
def fdctBody (s : State) : Res :=
  match allWritten s.blk with
  | none => .uninit s
  | some f => .ok { s with blk := (Config.fdct.fn f).map some }

/-- FDCT (R141). -/
def execFdct (s : State) : Host.Outcome State Fault Refusal := runCommand (writesOf .fdct) (fun _ => fdctBody) s

end Sys2Proof.Machine
end

