-- ==== Sys2Proof/Machine/Huffman.lean ====
section
/-!
DEFINITION. Sys2Proof/Machine/Huffman.lean: HUFF_BUILD, the table-building half of the Huffman unit
(41_huffman_build.md).
-/
namespace Sys2Proof.Machine

/-- An entry of a symbol that the specification does not list (R112). -/
def notValid : HtEntry := ⟨false, 0, 0⟩

/-- `count` consecutive codes of length `len` from `code` on, for the next symbols of the list (R112): the table, the
code and the symbols left. A later listing of the same symbol overwrites. -/
def assignLength (len : Nat) :
    Nat → Nat → List Nat → Vector (Option HtEntry) 256 → Vector (Option HtEntry) 256 × Nat × List Nat
  | 0, code, vals, t => (t, code, vals)
  | _ + 1, code, [], t => (t, code, [])
  | count + 1, code, v :: vals, t =>
    assignLength len count (code + 1) vals
      (t.setIfInBounds v (some ⟨true, BitVec.ofNat 16 code, BitVec.ofNat 5 len⟩))

/-- The lengths from `len` on (R112): assign the codes of one length, then shift the running code left. -/
def assignLengths :
    Nat → List Nat → Nat → List Nat → Vector (Option HtEntry) 256 → Vector (Option HtEntry) 256
  | _, [], _, _, t => t
  | len, count :: counts, code, vals, t =>
    match assignLength len count code vals t with
    | (t', code', vals') => assignLengths (len + 1) counts (code' * 2) vals' t'

/-- The code table of a specification (R112). -/
def buildTable (h : HuffSpec) : Vector (Option HtEntry) 256 :=
  assignLengths 1 h.bits 0 h.vals (Vector.replicate 256 (some notValid))

/-- The body of HUFF_BUILD (R112). -/
def huffBuildBody (s : State) : Res :=
  .ok { s with
    ht0 := buildTable (s.tables.huff .dcLuma)
    ht1 := buildTable (s.tables.huff .acLuma)
    ht2 := buildTable (s.tables.huff .dcChroma)
    ht3 := buildTable (s.tables.huff .acChroma)
    htValid := true }

/-- HUFF_BUILD (R112). -/
def execHuffBuild (s : State) : Host.Outcome State Fault Refusal :=
  runCommand (writesOf .huffBuild) (fun _ => huffBuildBody) s

end Sys2Proof.Machine
end

