-- ==== Sys2Proof/Machine/QtScale.lean ====
section
/-!
DEFINITION. Sys2Proof/Machine/QtScale.lean: QT_SCALE, the table-scaling half of the quantization unit (40_qt_scale.md).
-/
namespace Sys2Proof.Machine

/-- The scale factor S of R102 and R103 for a quality in [1, 100]. -/
def scaleFactor (q : Nat) : Nat := if q < 50 then 5000 / q else 200 - 2 * q

/-- clamp (R11). -/
def clampNat (v lo hi : Nat) : Nat := min (max v lo) hi

/-- A scaled entry (R102): clamp(floor((base * S + 50) / 100), 1, 255). -/
def scaleEntry (base s : Nat) : Nat := clampNat ((base * s + 50) / 100) 1 255

/-- A scaled table (R102), natural order. -/
def scaledTable (base : List Nat) (q : Nat) : Vector (Option Byte) 64 :=
  Vector.ofFn fun i => some (BitVec.ofNat 8 (scaleEntry (base.getD i.val 0) (scaleFactor q)))

/-- BAD_QUALITY (R102): QUALITY outside [1, 100]. -/
def qualityBad (p : Params) : Bool := decide (p.quality.toNat < 1 ∨ 100 < p.quality.toNat)

/-- The body of QT_SCALE after its check (R102). -/
def qtScaleBody (p : Params) (s : State) : Res :=
  .ok { s with
    qt0 := scaledTable (s.tables.baseQt .luma) p.quality.toNat
    qt1 := scaledTable (s.tables.baseQt .chroma) p.quality.toNat
    qtValid := true }

/-- QT_SCALE (R102). -/
def qtScaleCmd (p : Params) : State → Res := check (qualityBad p) .badQuality (qtScaleBody p)

/-- QT_SCALE (R102). -/
def execQtScale (s : State) : Host.Outcome State Fault Refusal := runCommand (writesOf .qtScale) qtScaleCmd s

end Sys2Proof.Machine
end

