-- ==== Sys2Proof/Machine/Sequencer.lean ====
section
/-!
DEFINITION. Sys2Proof/Machine/Sequencer.lean: NOP and ENCODE, the sequencer's own commands (47_orchestrator.md).
-/
namespace Sys2Proof.Machine

/-- NOP (R211). -/
def nopBody (s : State) : Res := .ok s

/-- NOP (R211). -/
def execNop (s : State) : Host.Outcome State Fault Refusal := runCommand (writesOf .nop) (fun _ => nopBody) s

/-- The overlap test of R213: both regions are non-empty and share an address. -/
def regionsOverlap (p : Params) : Bool :=
  decide (0 < p.srcLen.toNat ∧ 0 < p.dstCap.toNat ∧ p.srcAddr.toNat < p.dstAddr.toNat + p.dstCap.toNat
    ∧ p.dstAddr.toNat < p.srcAddr.toNat + p.srcLen.toNat)

/-- The number of block columns or rows of a dimension (R215): ceil(n / 8). -/
def blocksIn (n : Nat) : Nat := (n + 7) / 8

/-- The block origins in row-major order (R214): by in the outer loop, bx in the inner loop. -/
def blockOrigins (w h : Nat) : List (Nat × Nat) :=
  (List.range (blocksIn h)).flatMap fun j => (List.range (blocksIn w)).map fun i => (8 * i, 8 * j)

/-- One channel of one MCU (R212): the bodies of SAMPLE, FDCT, QUANT, ZIGZAG and ENTROPY, with the loop position
recorded (R51). -/
def encodeChannel (p : Params) (bx byy : Nat) (ch : Channel) (s : State) : Res :=
  let s := { s with encPos := some ⟨BitVec.ofNat 16 bx, BitVec.ofNat 16 byy, ch⟩ }
  ((((sampleBody p ch bx byy s).bind fdctBody).bind (quantBody (quantTableOf ch))).bind zigzagBody).bind
    (entropyBody p ch)

/-- One MCU (R214): Y, Cb, Cr in that order. -/
def encodeMcu (p : Params) (o : Nat × Nat) : State → Res := forEach (encodeChannel p o.1 o.2) [.y, .cb, .cr]

/-- The bodies of ENCODE in the order of R212, after its checks. RESET_STREAM's body is the first of them, so the output is
counted from OUT_LEN = 0: what OUT_OVERFLOW leaves (R236) is read with `start` = 0, whatever OUT_LEN was when the command
began. That reading is the model's (log 32). -/
def encodeBody (p : Params) (s : State) : Res :=
  ((((((resetStreamBody s).bind (qtScaleBody p)).bind huffBuildBody).bind (writeHeadersBody p)).bind
    (forEach (encodeMcu p) (blockOrigins p.width.toNat p.height.toNat))).bind (flushBody p)).bind (writeEoiBody p)

/-- ENCODE (R212), with the checks of R213 in their order. -/
def encodeCmd (p : Params) : State → Res :=
  check (dimensionsBad p) .badDimensions <|
    check (srcLenBad p) .badSrcLen <|
      check (qualityBad p) .badQuality <|
        check (srcRegionBad p) .badRegion <|
          check (dstRegionBad p) .badRegion <|
            check (regionsOverlap p) .badRegion <| encodeBody p

/-- ENCODE (R212). -/
def execEncode (s : State) : Host.Outcome State Fault Refusal := runCommand (writesOf .encode) encodeCmd s

end Sys2Proof.Machine
end

