-- ==== Sys2Proof/Machine/Dispatch.lean ====
section
/-!
DEFINITION. Sys2Proof/Machine/Dispatch.lean: one arm per command of 30_encoding.md R83.
-/
namespace Sys2Proof.Machine

def exec (i : Instr) (s : State) : Host.Outcome State Fault Refusal :=
  match i with
  | .nop => Sys2Proof.Machine.execNop s
  | .qtScale => Sys2Proof.Machine.execQtScale s
  | .huffBuild => Sys2Proof.Machine.execHuffBuild s
  | .resetStream => Sys2Proof.Machine.execResetStream s
  | .pushBits n => Sys2Proof.Machine.execPushBits n s
  | .flush => Sys2Proof.Machine.execFlush s
  | .fdct => Sys2Proof.Machine.execFdct s
  | .sample ch => Sys2Proof.Machine.execSample ch s
  | .quant tbl => Sys2Proof.Machine.execQuant tbl s
  | .zigzag => Sys2Proof.Machine.execZigzag s
  | .entropy ch => Sys2Proof.Machine.execEntropy ch s
  | .writeHeaders => Sys2Proof.Machine.execWriteHeaders s
  | .writeEoi => Sys2Proof.Machine.execWriteEoi s
  | .encode => Sys2Proof.Machine.execEncode s

end Sys2Proof.Machine
end

