-- ==== Sys2Proof/WellFormed.lean ====
section
/-!
DEFINITION. Sys2Proof/WellFormed.lean: the check that an instruction is one a command word can carry
(30_encoding.md R82). Channels and tables are closed sets of names, so the one open operand is the bit count.
-/
namespace Sys2Proof

/-- R82: operand kind `len` allows 0 to 32; kinds `zero`, `ch` and `tbl` allow every operand their type has. -/
def Instr.wf : Instr → Bool
  | .nop => true
  | .qtScale => true
  | .huffBuild => true
  | .resetStream => true
  | .pushBits n => decide (n.toNat ≤ 32)
  | .flush => true
  | .fdct => true
  | .sample _ => true
  | .quant _ => true
  | .zigzag => true
  | .entropy _ => true
  | .writeHeaders => true
  | .writeEoi => true
  | .encode => true

/-- The instruction is well formed. -/
abbrev Instr.WellFormed (i : Instr) : Prop := i.wf = true

end Sys2Proof
end

