-- ==== Sys2Proof/Decode.lean ====
section
/-!
DEFINITION. Sys2Proof/Decode.lean: the decoder of command words, total on every 32-bit word and rejecting by error
code, and after it the encoder. Spec: 30_encoding.md R81 to R86, spec/opcode_table.json.
-/
namespace Sys2Proof

/-- OP, bits 31:24 (R81). -/
def fieldOp (w : Word) : BitVec 8 := w.extractLsb' 24 8

/-- RSV, bits 23:6 (R81): reserved, must be zero. -/
def fieldRsv (w : Word) : BitVec 18 := w.extractLsb' 6 18

/-- IMM6, bits 5:0 (R81). -/
def fieldImm (w : Word) : BitVec 6 := w.extractLsb' 0 6

/-- Operand kind `zero` (R82): IMM6 = 0. -/
def operandZero (i : Instr) (imm : BitVec 6) : Option Instr :=
  if imm = 0 then some i else none

/-- Operand kind `ch` (R82): 0 = Y, 1 = Cb, 2 = Cr. -/
def operandChannel (f : Channel → Instr) (imm : BitVec 6) : Option Instr :=
  if imm = 0 then some (f .y) else if imm = 1 then some (f .cb) else if imm = 2 then some (f .cr) else none

/-- Operand kind `tbl` (R82): 0 = luma, 1 = chroma. -/
def operandTable (f : QTable → Instr) (imm : BitVec 6) : Option Instr :=
  if imm = 0 then some (f .luma) else if imm = 1 then some (f .chroma) else none

/-- Operand kind `len` (R82): 0 to 32. -/
def operandLen (f : BitVec 6 → Instr) (imm : BitVec 6) : Option Instr :=
  if imm.toNat ≤ 32 then some (f imm) else none

/-- The opcode map of R83: for a legal OP, how its IMM6 is read; `none` for a reserved OP (R85). -/
def opcodeRow (op : BitVec 8) : Option (BitVec 6 → Option Instr) :=
  match op.toNat with
  | 0x00 => some (operandZero .nop)
  | 0x01 => some (operandZero .qtScale)
  | 0x02 => some (operandZero .huffBuild)
  | 0x03 => some (operandZero .resetStream)
  | 0x04 => some (operandLen .pushBits)
  | 0x05 => some (operandZero .flush)
  | 0x06 => some (operandZero .fdct)
  | 0x07 => some (operandChannel .sample)
  | 0x08 => some (operandTable .quant)
  | 0x09 => some (operandZero .zigzag)
  | 0x0A => some (operandChannel .entropy)
  | 0x0B => some (operandZero .writeHeaders)
  | 0x0C => some (operandZero .writeEoi)
  | 0x0F => some (operandZero .encode)
  | _ => none

/-- Decoding a command word (R84): the opcode is checked first, then RSV, then IMM6. -/
def decode (w : Word) : Except ErrCode Instr :=
  match opcodeRow (fieldOp w) with
  | none => .error .illegalOpcode
  | some row =>
    if fieldRsv w ≠ 0 then .error .illegalField
    else
      match row (fieldImm w) with
      | none => .error .illegalField
      | some i => .ok i

/-- OP of an instruction (R83). -/
def opcodeOf : Instr → BitVec 8
  | .nop => 0x00
  | .qtScale => 0x01
  | .huffBuild => 0x02
  | .resetStream => 0x03
  | .pushBits _ => 0x04
  | .flush => 0x05
  | .fdct => 0x06
  | .sample _ => 0x07
  | .quant _ => 0x08
  | .zigzag => 0x09
  | .entropy _ => 0x0A
  | .writeHeaders => 0x0B
  | .writeEoi => 0x0C
  | .encode => 0x0F

/-- IMM6 of a channel operand (R82). -/
def immOfChannel : Channel → BitVec 6
  | .y => 0
  | .cb => 1
  | .cr => 2

/-- IMM6 of a table operand (R82). -/
def immOfTable : QTable → BitVec 6
  | .luma => 0
  | .chroma => 1

/-- IMM6 of an instruction (R82, R83). -/
def immOf : Instr → BitVec 6
  | .nop => 0
  | .qtScale => 0
  | .huffBuild => 0
  | .resetStream => 0
  | .pushBits n => n
  | .flush => 0
  | .fdct => 0
  | .sample ch => immOfChannel ch
  | .quant tbl => immOfTable tbl
  | .zigzag => 0
  | .entropy ch => immOfChannel ch
  | .writeHeaders => 0
  | .writeEoi => 0
  | .encode => 0

/-- The command word of an instruction (R81, R92): OP, then RSV = 0, then IMM6. -/
def encode (i : Instr) : Word :=
  (opcodeOf i ++ (0#18 ++ immOf i) : BitVec 32)

/-- The instruction the decoder reads from a row's word as spec/opcode_table.json numbers its bits. Every command is
one 32-bit word (R81), so a word of another length is none of them. -/
def decodeTableWord (nbits w : Nat) : Option Instr :=
  if nbits ≤ 32 ∧ w < 2 ^ nbits then
    match decode (BitVec.ofNat 32 w) with
    | .ok i => some i
    | .error _ => none
  else none

end Sys2Proof
end

