-- ==== Sys2Proof/Machine/HostPort.lean ====
section
/-!
DEFINITION. Sys2Proof/Machine/HostPort.lean: what the host can do to the block: reads and writes of the register window
(10_state.md R21 to R44), while the block is idle and while it is busy (70_reset_and_hazards.md R271, R272), and its
accesses to system memory under the duties of R270.
-/
namespace Sys2Proof.Machine

/-- What an aligned word offset of the register window names (R21). -/
inductive PortReg where
  | id
  | version
  | ctrl
  | status
  | cmd
  | arg0
  | origin
  | width
  | height
  | quality
  | srcAddr
  | srcLen
  | dstAddr
  | dstCap
  | outLen
  | bwState
  | pred (ch : Channel)
  | reserved
  | qtWin (t : QTable) (i : Fin 64)
  | blkWin (i : Fin 64)
  | qblkWin (i : Fin 64)
  | zzWin (i : Fin 64)
  | htWin (t : HTable) (sym : Fin 256)
  deriving DecidableEq, Repr

/-- The registers below 0x04C by word index (R21); the offsets from 0x04C on are reserved (R36). -/
def lowReg (word : Nat) : PortReg :=
  match word with
  | 0 => .id
  | 1 => .version
  | 2 => .ctrl
  | 3 => .status
  | 4 => .cmd
  | 5 => .arg0
  | 6 => .origin
  | 7 => .width
  | 8 => .height
  | 9 => .quality
  | 10 => .srcAddr
  | 11 => .srcLen
  | 12 => .dstAddr
  | 13 => .dstCap
  | 14 => .outLen
  | 15 => .bwState
  | 16 => .pred .y
  | 17 => .pred .cb
  | 18 => .pred .cr
  | _ => .reserved

/-- The register or window entry at an offset (R21): 64-entry windows at 0x400 to 0x8FC, the HT window from 0x1000 on,
0x400 a table (R41). -/
def portReg (off : BitVec 13) : PortReg :=
  let word := off.toNat / 4
  let entry : Fin 64 := Fin.ofNat 64 word
  match word / 64 with
  | 0 => lowReg word
  | 1 => .reserved
  | 2 => .reserved
  | 3 => .reserved
  | 4 => .qtWin .luma entry
  | 5 => .qtWin .chroma entry
  | 6 => .blkWin entry
  | 7 => .qblkWin entry
  | 8 => .zzWin entry
  | n =>
    if n < 16 then .reserved
    else
      .htWin (if n < 20 then .dcLuma else if n < 24 then .acLuma else if n < 28 then .dcChroma else .acChroma)
        (Fin.ofNat 256 word)

/-- A register-port access is an aligned word (R66). -/
def aligned (off : BitVec 13) (size : AccessSize) : Bool := decide (size = .word ∧ off.toNat % 4 = 0)

/-- The word of a store element, or a free value when it is ⊥ (R16). -/
def readElement {α : Type} (e : Option α) (f : α → Word) (s : State) : Word × State :=
  match e with
  | some a => (f a, s)
  | none => drawWord s

/-- The word of a written HT entry (R41): valid in bit 31, len in bits 20:16, code in bits 15:0; 0 when not valid. -/
def htWord (e : HtEntry) : Word :=
  if e.valid then (1#1 ++ 0#10 ++ e.len ++ e.code : BitVec 32) else 0

/-- What a read of a register or window entry returns, not looking at BUSY (R22 to R44), and the state after it (a free
value may have been drawn; nothing else changes, R66). -/
def readReg (r : PortReg) (s : State) : Word × State :=
  match r with
  | .id => (0x4A504547, s)
  | .version => (0x00000001, s)
  | .ctrl => (ctrlWord s, s)
  | .status => (statusWord s, s)
  | .cmd => (0, s)
  | .arg0 => (s.regs.arg0, s)
  | .origin => (s.regs.origin, s)
  | .width => (s.regs.width, s)
  | .height => (s.regs.height, s)
  | .quality => (s.regs.quality, s)
  | .srcAddr => (s.regs.srcAddr, s)
  | .srcLen => (s.regs.srcLen, s)
  | .dstAddr => (s.regs.dstAddr, s)
  | .dstCap => (s.regs.dstCap, s)
  | .outLen => (s.outLen, s)
  | .bwState => (bwStateWord s, s)
  | .pred ch => (s.pred.get ch, s)
  | .reserved => (0, s)
  | .qtWin t i => readElement (s.qt t)[i] (fun b => b.setWidth 32) s
  | .blkWin i => readElement s.blk[i] Config.blkRead s
  | .qblkWin i => readElement s.qblk[i] (fun c => c.signExtend 32) s
  | .zzWin i => readElement s.zz[i] (fun c => c.signExtend 32) s
  | .htWin t i => readElement (s.ht t)[i] htWord s

/-- Whether a command with these writes writes what a register shows (R88, R272). CTRL and STATUS always read their
current values. -/
def showsWritten (w : Writes) (r : PortReg) : Bool :=
  match r with
  | .id => false
  | .version => false
  | .ctrl => false
  | .status => false
  | .cmd => false
  | .arg0 => false
  | .origin => false
  | .width => false
  | .height => false
  | .quality => false
  | .srcAddr => false
  | .srcLen => false
  | .dstAddr => false
  | .dstCap => false
  | .outLen => w.outLen
  | .bwState => w.bits
  | .pred ch => w.preds.contains ch
  | .reserved => false
  | .qtWin _ _ => w.qt
  | .blkWin _ => w.blk
  | .qblkWin _ => w.qblk
  | .zzWin _ => w.zz
  | .htWin _ _ => w.ht

/-- What the running command writes (R88): nothing for a word that does not decode (R84). -/
def runningWrites (s : State) : Writes :=
  match s.pending with
  | none => {}
  | some p =>
    match decode p.word with
    | .ok i => writesOf i
    | .error _ => {}

/-- A register read at any time (R272): while BUSY = 1, what the running command writes reads as a free value. -/
def portRead (r : PortReg) (s : State) : Word × State :=
  if s.busy && showsWritten (runningWrites s) r then drawWord s else readReg r s

/-- A write to CTRL (R23), at any time: data bit 0 = 1 is the soft reset (R262), else bit 1 is IRQ_EN. -/
def ctrlWrite (data : Word) (s : State) : State :=
  if data.getLsbD 0 then softReset s else { s with irqEn := data.getLsbD 1 }

/-- A write while BUSY = 0 (R21 to R44): read-only registers and windows and reserved offsets ignore it (R36, R37). -/
def writeReg (r : PortReg) (data : Word) (s : State) : State :=
  match r with
  | .id => s
  | .version => s
  | .ctrl => ctrlWrite data s
  | .status => statusWrite data s
  | .cmd => accept data s
  | .arg0 => { s with regs := { s.regs with arg0 := data } }
  | .origin => { s with regs := { s.regs with origin := data } }
  | .width => { s with regs := { s.regs with width := data } }
  | .height => { s with regs := { s.regs with height := data } }
  | .quality => { s with regs := { s.regs with quality := data } }
  | .srcAddr => { s with regs := { s.regs with srcAddr := data } }
  | .srcLen => { s with regs := { s.regs with srcLen := data } }
  | .dstAddr => { s with regs := { s.regs with dstAddr := data } }
  | .dstCap => { s with regs := { s.regs with dstCap := data } }
  | .outLen => s
  | .bwState => s
  | .pred ch => { s with pred := s.pred.set ch data }
  | .reserved => s
  | .qtWin _ _ => s
  | .blkWin i => { s with blk := s.blk.set i (some (data.toInt : Rat)) }
  | .qblkWin i => { s with qblk := s.qblk.set i (some (data.setWidth 16)) }
  | .zzWin i => { s with zz := s.zz.set i (some (data.setWidth 16)) }
  | .htWin _ _ => s

/-- A write at any time (R271): while BUSY = 1 every write but those to CTRL and STATUS is dropped and sets OVERRUN. -/
def portWrite (r : PortReg) (data : Word) (s : State) : State :=
  if s.busy then
    if r = .ctrl then ctrlWrite data s
    else if r = .status then statusWrite data s
    else { s with overrun := true }
  else writeReg r data s

/-- A host write access to the register port: a bus error without effect unless it is an aligned word (R66, R253). -/
def regWriteAccess (off : BitVec 13) (size : AccessSize) (data : Word) (s : State) : State :=
  if aligned off size then { portWrite (portReg off) data s with resp := .ack } else { s with resp := .busError }

/-- A host read access to the register port (R66, R253). -/
def regReadAccess (off : BitVec 13) (size : AccessSize) (s : State) : State :=
  if aligned off size then
    { (portRead (portReg off) s).2 with resp := .data (portRead (portReg off) s).1 }
  else { s with resp := .busError }

/-- An address lies in [base, base + len) (R49). -/
def inRegion (a base len : Nat) : Bool := decide (base ≤ a ∧ a < base + len)

/-- An address lies in the pixel region of the command that is running (R70). -/
def inPixelRegion (s : State) (a : Nat) : Bool :=
  s.busy && inRegion a (latched s).srcAddr.toNat (latched s).srcLen.toNat

/-- An address lies in the output region of the command that is running (R70). -/
def inOutputRegion (s : State) (a : Nat) : Bool :=
  s.busy && inRegion a (latched s).dstAddr.toNat (latched s).dstCap.toNat

/-- A host write to system memory. One that breaks a duty has no move (R70, R270): any write into the output region, and
one that changes a byte of the pixel region; a write of the byte that is there already leaves the pixel region unchanged
and breaks none. -/
def memWriteAccess (addr : Word) (data : Byte) (s : State) : Host.Outcome State Fault Refusal :=
  if inOutputRegion s addr.toNat then .refused .outputRegionAccessedWhileBusy
  else if inPixelRegion s addr.toNat && decide (data ≠ readByte s addr.toNat) then
    .refused .pixelRegionChangedWhileBusy
  else .next { storeByte addr.toNat data s with resp := .ack }

/-- A host read of system memory: a host that breaks the duty of R70 (b) has no move (R270). -/
def memReadAccess (addr : Word) (s : State) : Host.Outcome State Fault Refusal :=
  if inOutputRegion s addr.toNat then .refused .outputRegionAccessedWhileBusy
  else .next { s with resp := .memData (readByte s addr.toNat) }

end Sys2Proof.Machine
end

