-- ==== Sys2Proof/Machine/Fetch.lean ====
section
/-!
DEFINITION. Sys2Proof/Machine/Fetch.lean: the core's turn (30_encoding.md R80, R84; 00_scope.md R15): the accepted
command word is decoded, run and completed; and one event of the outside world (20_memory.md R74).
-/
namespace Sys2Proof.Machine

/-- The core's turn: the pending command word is decoded before any other check (R84) and run in one step; a word that
does not decode completes with its error code and changes nothing but STATUS. With no command pending nothing happens
(log 3). -/
def coreTurn (s : State) : Host.Outcome State Fault Refusal :=
  match s.pending with
  | none => .next s
  | some p =>
    match decode p.word with
    | .ok i => exec i s
    | .error c => .next (finish (.raise c s))

/-- One event of the outside world (R74), `rest` the events after it. WAIT (R91) stands for any number of STATUS reads:
while BUSY = 1 the core moves and the host goes on waiting (R281, R282); then the STATUS read returns (log 21). -/
def eventTurn (e : Event) (rest : List Event) (s : State) : Host.Outcome State Fault Refusal :=
  let t : State := { s with inputs := rest }
  match e with
  | .core => coreTurn t
  | .regWrite off size data => .next (regWriteAccess off size data t)
  | .regRead off size => .next (regReadAccess off size t)
  | .memWrite addr data => memWriteAccess addr data t
  | .memRead addr => memReadAccess addr t
  | .wait =>
    if s.busy && s.pending.isSome then coreTurn s
    else .next { t with resp := .data (statusWord t) }
  | .hardReset => .next (hardReset t)
  | .busFault after => .next { t with busErrIn := after }

/-- Which agent moves (R74; log 1): the first event of the inputs; the core when nothing else is to come. -/
def turn (s : State) : Host.Outcome State Fault Refusal :=
  match s.inputs with
  | [] => coreTurn s
  | e :: rest => eventTurn e rest s

/-- A command word placed where the core fetches its next command: accepted (R80), with the core's turn next. -/
def placeCommand (w : Word) (s : State) : State := { accept w s with inputs := .core :: s.inputs }

end Sys2Proof.Machine
end

