-- ==== Sys2Proof/Machine/Step.lean ====
section
/-!
DEFINITION. Sys2Proof/Machine/Step.lean: one step of the machine (20_memory.md R74) and where it fetches a command.
-/
namespace Sys2Proof.Machine

/-- One step: one event of the outside world, or the core's step (R15, R74). -/
def step (s : State) : Host.Outcome State Fault Refusal := turn s

/-- `s` with the command word `w` accepted and the core's turn next, so that the very next step decodes and runs it
(R80; log 2). -/
def State.withFetchWord (s : State) (nbits w : Nat) : State := placeCommand (BitVec.ofNat 32 (w % 2 ^ nbits)) s

end Sys2Proof.Machine
end

