-- ==== Sys2Proof/Machine/Reference.lean ====
section
/-!
DEFINITION. Sys2Proof/Machine/Reference.lean: the output of the block as pure functions, which claims about the emitting
commands are stated with: bit strings and how they are cut into stuffed bytes (42_bit_writer.md R122, R124, R127, R130),
and the file of a whole image (47_orchestrator.md R214, R216, R218). No meaning calls anything of this file.
-/
namespace Sys2Proof.Machine

/-! ### Bit strings -/

/-- The bit string v[n-1:0], most significant bit first (R10, R124). -/
def bitString (v n : Nat) : List Bool := (List.range n).map fun i => v.testBit (n - 1 - i)

/-- The number a bit string writes, first bit most significant. -/
def bitsValue (l : List Bool) : Nat := l.foldl (fun a b => 2 * a + b.toNat) 0

/-- The complete bytes of a bit string (R130): each eight bits a byte, the first bit as bit 7. -/
def wholeBytes (l : List Bool) : List Byte :=
  (List.range (l.length / 8)).map fun k => BitVec.ofNat 8 (bitsValue ((l.drop (8 * k)).take 8))

/-- The bits after the last complete byte. -/
def leftBits (l : List Bool) : List Bool := l.drop (8 * (l.length / 8))

/-- A bit string with 1-bits up to the next multiple of 8 (R127, R130). -/
def padOnes (l : List Bool) : List Bool := l ++ List.replicate ((8 - l.length % 8) % 8) true

/-- Byte stuffing (R122): 0x00 after every 0xFF. -/
def stuffBytes (bs : List Byte) : List Byte := bs.flatMap fun b => if b = 0xFF then [0xFF, 0x00] else [b]

/-- The pending bits ACC[NBITS-1:0], the oldest most significant (R45). -/
def pendingBits (s : State) : List Bool := bitString s.acc.toNat s.nbits.toNat

/-- The bits of a coded item (R169), looked up. -/
def codedBits (c : Coded) : List Bool := bitString c.code c.len ++ bitString c.bits c.nbits

/-- The bytes a bit string emits: its complete bytes, stuffed (R122, R130). -/
def emittedBytes (l : List Bool) : List Byte := stuffBytes (wholeBytes l)

/-- The symbol of an item is defined in the code tables of a state (R176). -/
def SymbolDefined (s : State) (i : Item) : Prop :=
  i.nbits ≤ 15 ∧ ∃ e : HtEntry, (s.ht i.table)[i.sym]? = some (some e) ∧ e.valid = true

/-- The bits of an item under the code tables of a state (R169): the symbol's code, then the magnitude bits. -/
def itemBitsIn (s : State) (i : Item) : List Bool :=
  (match (s.ht i.table)[i.sym]? with
    | some (some e) => bitString e.code.toNat e.len.toNat
    | some none => []
    | none => []) ++ bitString i.bits i.nbits

/-! ### Code tables -/

/-- The code lengths of a specification, one for each symbol, in code order (R110). -/
def codeLengths (h : HuffSpec) : List Nat := h.bits.zipIdx.flatMap fun c => List.replicate c.1 (c.2 + 1)

/-- The canonical code of the k-th symbol (R112, R116): every earlier code of length l takes up 2^(L - l) codes of
length L. -/
def canonicalCode (ls : List Nat) (k : Nat) : Nat := ((ls.take k).map fun l => 2 ^ (ls.getD k 0 - l)).sum

/-- The form of R110 and the constraints (a) and (b) of R113. -/
structure HuffSpec.Fits (h : HuffSpec) : Prop where
  sixteen : h.bits.length = 16
  symbols : ∀ v ∈ h.vals, v < 256
  /-- R113 (a). -/
  count : h.vals.length = h.bits.sum
  /-- R113 (b). -/
  fits : ∀ k < h.vals.length, canonicalCode (codeLengths h) k < 2 ^ (codeLengths h).getD k 0

/-- The constraints of R113 on one specification, (a) to (c). -/
structure HuffSpec.Admissible (h : HuffSpec) : Prop extends h.Fits where
  /-- R113 (c): no code consists of 1-bits alone. -/
  notAllOnes : ∀ k < h.vals.length, canonicalCode (codeLengths h) k + 1 < 2 ^ (codeLengths h).getD k 0

/-- The constraints of the spec on the parameters (R101, R113; R270 item 6: a premise on the implementation). -/
structure Tables.Admissible (T : Tables) : Prop where
  /-- R101: 64 entries, each in [1, 255]. -/
  base : ∀ t, (T.baseQt t).length = 64 ∧ ∀ b ∈ T.baseQt t, 1 ≤ b ∧ b ≤ 255
  /-- R113 (a) to (c). -/
  huff : ∀ t, (T.huff t).Admissible
  /-- R113 (d): the DC tables list every category. -/
  dc : ∀ t, t = .dcLuma ∨ t = .dcChroma → ∀ c ≤ 11, c ∈ (T.huff t).vals
  /-- R113 (d): the AC tables list EOB, ZRL and every run with every category. -/
  ac : ∀ t, t = .acLuma ∨ t = .acChroma → 0x00 ∈ (T.huff t).vals ∧ 0xF0 ∈ (T.huff t).vals ∧
    ∀ run ≤ 15, ∀ c, 1 ≤ c → c ≤ 10 → run * 16 + c ∈ (T.huff t).vals

/-! ### Decoding items -/

/-- The value a magnitude field stands for (R171). -/
def unfoldBits (b n : Nat) : Int := if n = 0 then 0 else if 2 ^ (n - 1) ≤ b then b else b - (2 ^ n - 1)

/-- The coefficients that a list of AC items stands for (R172, R173), read from the symbols and the magnitude bits alone;
the coefficients after EOB are zeros. -/
def expandItems : List Item → List Int
  | [] => []
  | i :: is =>
    if i.sym = 0x00 then []
    else if i.sym = 0xF0 then List.replicate 16 0 ++ expandItems is
    else List.replicate (i.sym / 16) 0 ++ unfoldBits i.bits (i.sym % 16) :: expandItems is

/-! ### The file of an image -/

/-- The offset in the pixel buffer of the pixel under sample (x, y) of the block at (bx, by) (R61, R155). -/
def samplePixel (w h bx byy x y : Nat) : Nat := 3 * (min (byy + y) (h - 1) * w + min (bx + x) (w - 1))

/-- The samples of a block (R151), `px` the pixel buffer by offset. -/
def imageSamples (w h : Nat) (px : Nat → Byte) (ch : Channel) (o : Nat × Nat) : Vector Rat 64 :=
  Vector.ofFn fun i =>
    let a := samplePixel w h o.1 o.2 (i.val % 8) (i.val / 8)
    Config.cc.fn ch (px a) (px (a + 1)) (px (a + 2))

/-- The transformed block (R141). -/
def imageCoefs (w h : Nat) (px : Nat → Byte) (ch : Channel) (o : Nat × Nat) : Vector Rat 64 :=
  Config.fdct.fn (imageSamples w h px ch o)

/-- An entry of the scaled table of a quality (R102), natural order. -/
def qtEntry (T : Tables) (q : Nat) (t : QTable) (i : Fin 64) : Byte :=
  BitVec.ofNat 8 (scaleEntry ((T.baseQt t).getD i.val 0) (scaleFactor q))

/-- The quantized block (R161), natural order. -/
def imageQuant (T : Tables) (w h q : Nat) (px : Nat → Byte) (ch : Channel) (o : Nat × Nat) : Vector Int 64 :=
  let coefs := imageCoefs w h px ch o
  Vector.ofFn fun i => quantize Config.roundTie coefs[i] (qtEntry T q (quantTableOf ch) i)

/-- The bits of a symbol's code (R112, R169); no bits for a symbol that its table does not list. -/
def symbolBits (T : Tables) (t : HTable) (sym : Nat) : List Bool :=
  match (buildTable (T.huff t))[sym]? with
  | some (some e) => bitString e.code.toNat e.len.toNat
  | some none => []
  | none => []

/-- The bits of an item (R169). -/
def itemBits (T : Tables) (i : Item) : List Bool := symbolBits T i.table i.sym ++ bitString i.bits i.nbits

/-- The bits of a block (R169) after a block of the same channel whose DC coefficient was `pred`. -/
def imageBlockBits (T : Tables) (w h q : Nat) (px : Nat → Byte) (ch : Channel) (pred : Int) (o : Nat × Nat) : List Bool :=
  let v := imageQuant T w h q px ch o
  (blockItems ch pred ((List.finRange 64).map fun k => v[zigzagNat k])).flatMap (itemBits T)

/-- The DC coefficient of a block. -/
def imageDc (T : Tables) (w h q : Nat) (px : Nat → Byte) (o : Nat × Nat) (ch : Channel) : Int :=
  (imageQuant T w h q px ch o)[0]

/-- The bits of the MCUs at a list of origins (R214): Y, Cb, Cr at each; each channel's DC is coded against the block
before it. -/
def scanBits (T : Tables) (w h q : Nat) (px : Nat → Byte) : (Channel → Int) → List (Nat × Nat) → List Bool
  | _, [] => []
  | pred, o :: os =>
    imageBlockBits T w h q px .y (pred .y) o ++ imageBlockBits T w h q px .cb (pred .cb) o
      ++ imageBlockBits T w h q px .cr (pred .cr) o ++ scanBits T w h q px (imageDc T w h q px o) os

/-- The entropy-coded segment of an image (R216). -/
def imageScan (T : Tables) (w h q : Nat) (px : Nat → Byte) : List Byte :=
  emittedBytes (padOnes (scanBits T w h q px (fun _ => 0) (blockOrigins w h)))

/-- The file of an image (R216): the header bytes, the entropy-coded segment, FF D9. -/
def imageFile (T : Tables) (w h q : Nat) (px : Nat → Byte) : List Byte :=
  headerBytes T w h (Vector.ofFn (qtEntry T q .luma)) (Vector.ofFn (qtEntry T q .chroma)) ++ imageScan T w h q px
    ++ [0xFF, 0xD9]

/-- The file of the image that a state's registers, pixel region and configuration give (R216, R218). -/
def fileOf (p : Params) (s : State) : List Byte :=
  imageFile s.tables p.width.toNat p.height.toNat p.quality.toNat fun off => readByte s (p.srcAddr.toNat + off)

/-! ### What a command emits -/

/-- The bytes a command emits when it finds room for all of them (R126, R127, R169, R191, R199, R212). -/
def commandOutput (i : Instr) (s : State) : List Byte :=
  match i with
  | .nop => []
  | .qtScale => []
  | .huffBuild => []
  | .resetStream => []
  | .pushBits n => emittedBytes (pendingBits s ++ bitString (latched s).arg0.toNat n.toNat)
  | .flush => emittedBytes (padOnes (pendingBits s))
  | .fdct => []
  | .sample _ => []
  | .quant _ => []
  | .zigzag => []
  | .entropy ch =>
    match allWritten s.zz with
    | none => []
    | some z => emittedBytes (pendingBits s ++ (entropyItems ch z s).flatMap (itemBitsIn s))
  | .writeHeaders =>
    match allWritten s.qt0, allWritten s.qt1 with
    | some q0, some q1 => headerBytes s.tables (latched s).width.toNat (latched s).height.toNat q0 q1
    | _, _ => []
  | .writeEoi => [0xFF, 0xD9]
  | .encode => fileOf (latched s) s

/-- The origin of the last MCU in row-major order, the bottom-right one (R214, R217). -/
def lastOrigin (w h : Nat) : Nat × Nat := (8 * (blocksIn w - 1), 8 * (blocksIn h - 1))

end Sys2Proof.Machine
end

