-- ==== Sys2Proof/Safety.lean ====
section
/-!
DEFINITION. Sys2Proof/Safety.lean: what claims mean by a good state and a good run of the block: the invariants the spec
states for its registers and stores, runs without the model fault mark (60_exceptions.md R238), how a command ends (R234), its validation checks (R233)
and the memory it leaves.
-/
namespace Sys2Proof.Machine

/-- A quantization table as QT_SCALE leaves it (R39): every entry written, in [1, 255]. -/
def QtWritten (v : Vector (Option Byte) 64) : Prop := ∀ i : Fin 64, ∃ b : Byte, v[i] = some b ∧ 1 ≤ b.toNat

/-- A code table as HUFF_BUILD leaves it (R41, R112, R113 (b)): every entry written; a valid entry has a length of 1 to
16 bits and a code of that length. -/
def HtWritten (v : Vector (Option HtEntry) 256) : Prop :=
  ∀ i : Fin 256, ∃ e : HtEntry, v[i] = some e ∧
    (e.valid = true → 1 ≤ e.len.toNat ∧ e.len.toNat ≤ 16 ∧ e.code.toNat < 2 ^ e.len.toNat)

/-- The invariant of the block's state: what the rules say of every state a run reaches. -/
structure State.Inv (s : State) : Prop where
  /-- System memory is in its canonical form (R60). -/
  mem_wf : Memory.wf s.mem
  /-- BUSY is 1 exactly while the busy latch holds a command (R24, R50). -/
  busy_iff : s.busy = s.pending.isSome
  /-- The latched registers equal the registers (R50). -/
  latched_eq : ∀ p, s.pending = some p → p.params = s.regs
  /-- While a command runs, DONE, ERR and ERRCODE are as acceptance left them (R80). -/
  running_clear : s.busy = true → s.done = false ∧ s.err = false ∧ s.errcode = 0
  /-- ERRCODE is one of the codes of R231, and 0x00 exactly when ERR is 0 (R24, R25, R234). -/
  err_iff : s.err = true ↔ s.errcode ≠ 0
  errcode_le : s.errcode.toNat ≤ 0x0C
  /-- No loop position outside an ENCODE step (R51). -/
  encPos_none : s.encPos = none
  /-- QT_VALID says that QT RAM holds tables (R24, R39). -/
  qt_written : s.qtValid = true → QtWritten s.qt0 ∧ QtWritten s.qt1
  /-- HT_VALID says that HT RAM holds tables (R24, R41). -/
  ht_written : s.htValid = true → ∀ t : HTable, HtWritten (s.ht t)
  /-- The block is built with tables the spec allows (R101, R113, R270 item 6). -/
  tables_ok : s.tables.Admissible

/-- The bit writer's invariant (R45): ACC < 2^NBITS. -/
def State.BitInv (s : State) : Prop := s.acc.toNat < 2 ^ s.nbits.toNat

/-- No command of the run has read an element that holds no value (R238). -/
def State.FaultFree (s : State) : Prop := s.modelFault = none

/-- The state of a command that ends well and has changed nothing else (R234). -/
def State.succeeded (s : State) : State := { s with busy := false, done := true, pending := none, encPos := none }

/-- The state of a command that fails with a code and has changed nothing else (R234). -/
def State.failed (s : State) (c : ErrCode) : State :=
  { s with busy := false, done := true, err := true, errcode := c.code, pending := none, encPos := none }

/-- The first n accesses of the memory master from here on get an answer without error (R69; log 8). -/
def State.BusAnswers (s : State) (n : Nat) : Prop := ∀ k, s.busErrIn = some k → n ≤ k

/-- The platform's countdown after n accesses (log 8). -/
def State.busAfter (s : State) (n : Nat) : Option Nat := s.busErrIn.map (· - n)

/-- The output region does not pass the end of the address space (R68). -/
def State.DstFits (s : State) : Prop := (latched s).dstAddr.toNat + (latched s).dstCap.toNat ≤ 2 ^ 32

/-- The memory of `t` is that of `s` with the bytes `bs` from address `a` on, and nothing else changed. -/
def Stored (a : Nat) (bs : List Byte) (s t : State) : Prop :=
  (∀ k : Fin bs.length, readByte t (a + k.val) = bs[k]) ∧
    ∀ x, x < a ∨ a + bs.length ≤ x → readByte t x = readByte s x

/-- The validation checks of a command, in the order of R233: what is wrong, and the code it raises. -/
def validation (i : Instr) (s : State) : List (Bool × ErrCode) :=
  let p := latched s
  let w := p.width.toNat
  let h := p.height.toNat
  let dimensions := (decide (w < 1 ∨ 65535 < w ∨ h < 1 ∨ 65535 < h), ErrCode.badDimensions)
  let srcLength := (decide (p.srcLen.toNat ≠ w * h * 3), ErrCode.badSrcLen)
  let quality := (decide (p.quality.toNat < 1 ∨ 100 < p.quality.toNat), ErrCode.badQuality)
  let src := (decide (2 ^ 32 < p.srcAddr.toNat + p.srcLen.toNat), ErrCode.badRegion)
  let dst := (decide (2 ^ 32 < p.dstAddr.toNat + p.dstCap.toNat), ErrCode.badRegion)
  let overlap := (decide (0 < p.srcLen.toNat ∧ 0 < p.dstCap.toNat ∧ p.srcAddr.toNat < p.dstAddr.toNat + p.dstCap.toNat
    ∧ p.dstAddr.toNat < p.srcAddr.toNat + p.srcLen.toNat), ErrCode.badRegion)
  let pendingBit := (decide (s.nbits ≠ 0), ErrCode.illegalState)
  match i with
  | .nop => []
  | .qtScale => [quality]
  | .huffBuild => []
  | .resetStream => []
  | .pushBits _ => [dst]
  | .flush => [dst]
  | .fdct => []
  | .sample _ => [dimensions, srcLength, src]
  | .quant _ => [(!s.qtValid, ErrCode.notReady)]
  | .zigzag => []
  | .entropy _ => [(!s.htValid, ErrCode.notReady), dst]
  | .writeHeaders => [dimensions, (!s.qtValid || !s.htValid, ErrCode.notReady), pendingBit, dst]
  | .writeEoi => [pendingBit, dst]
  | .encode => [dimensions, srcLength, quality, src, dst, overlap]

/-- A command passes its validation checks. -/
def Valid (i : Instr) (s : State) : Prop := ∀ c ∈ validation i s, c.1 = false

/-- The commands that emit bytes (R231). -/
def emits : Instr → Bool
  | .nop => false
  | .qtScale => false
  | .huffBuild => false
  | .resetStream => false
  | .pushBits _ => true
  | .flush => true
  | .fdct => false
  | .sample _ => false
  | .quant _ => false
  | .zigzag => false
  | .entropy _ => true
  | .writeHeaders => true
  | .writeEoi => true
  | .encode => true

/-- An emitting command other than ENCODE that passes its checks and whose stores and symbols are there: it starts to
emit (R169, R191, R233). -/
def StartsToEmit (i : Instr) (s : State) : Prop :=
  emits i = true ∧ i ≠ .encode ∧ Valid i s ∧ s.BitInv ∧
    (∀ ch, i = .entropy ch → ∃ z : Vector (BitVec 16) 64, s.zz = z.map some ∧
      ∀ it ∈ entropyItems ch z s, SymbolDefined s it) ∧
    (i = .writeHeaders → ∃ q0 q1 : Vector Byte 64, s.qt0 = q0.map some ∧ s.qt1 = q1.map some)

/-- The length of the longest code of a specification (R110). -/
def HuffSpec.longest (h : HuffSpec) : Nat := (codeLengths h).foldl max 0

/-- The number of header bytes (R191, R192 to R197), which depends on how many symbols the specifications list. -/
def headerLength (T : Tables) : Nat :=
  275 + T.dcLuma.vals.length + T.acLuma.vals.length + T.dcChroma.vals.length + T.acChroma.vals.length

/-- The bits of a block at most (R220): a DC code and 11 magnitude bits, 63 times an AC code and 10 magnitude bits. -/
def blockBitsMax (T : Tables) : Nat :=
  max T.dcLuma.longest T.dcChroma.longest + 11 + 63 * (max T.acLuma.longest T.acChroma.longest + 10)

/-- A capacity with which ENCODE never overflows, computed from the tables as R220 computes it from the default ones. -/
def sufficientCapacity (T : Tables) (p : Params) : Nat :=
  headerLength T + 2 + 2 * ((3 * blockBitsMax T * (blocksIn p.width.toNat * blocksIn p.height.toNat) + 7) / 8)

/-- The host issues a command and waits for it (R93 `RUN`): the state at its completion. -/
def issue (i : Instr) (s : State) : Option State :=
  match exec i (accept (encode i) s) with
  | .next t => some t
  | .fault _ => none
  | .refused _ => none

/-- A list of commands issued one after another, each with the value of ORIGIN that the host writes before it, if any. -/
def issueAll : List (Option Word × Instr) → State → Option State
  | [], s => some s
  | (none, i) :: rest, s => (issue i s).bind (issueAll rest)
  | (some o, i) :: rest, s => (issue i { s with regs := { s.regs with origin := o } }).bind (issueAll rest)

/-- `AT bx, by` and `BLOCK ch` (R93). -/
def blockCommands (o : Nat × Nat) (ch : Channel) : List (Option Word × Instr) :=
  [(some (BitVec.ofNat 32 (o.2 * 2 ^ 16 + o.1)), .sample ch), (none, .fdct), (none, .quant (quantTableOf ch)),
    (none, .zigzag), (none, .entropy ch)]

/-- The host script of R221 for a whole image, by unit commands. -/
def unitCommands (w h : Nat) : List (Option Word × Instr) :=
  [(none, .resetStream), (none, .qtScale), (none, .huffBuild), (none, .writeHeaders)]
    ++ (blockOrigins w h).flatMap (fun o => blockCommands o .y ++ blockCommands o .cb ++ blockCommands o .cr)
    ++ [(none, .flush), (none, .writeEoi)]

/-- The core is the one that moves in the next step (R74, R281; logs 1, 21). -/
def CoreMoves (s : State) : Prop :=
  s.inputs = [] ∨ (∃ rest, s.inputs = .core :: rest) ∨ (s.busy = true ∧ ∃ rest, s.inputs = .wait :: rest)

/-- The read-write parameter register at an offset of the register window (R21, R27 to R32). -/
def paramAt (p : Params) (off : Nat) : Option Word :=
  match off with
  | 0x014 => some p.arg0
  | 0x018 => some p.origin
  | 0x01C => some p.width
  | 0x020 => some p.height
  | 0x024 => some p.quality
  | 0x028 => some p.srcAddr
  | 0x02C => some p.srcLen
  | 0x030 => some p.dstAddr
  | 0x034 => some p.dstCap
  | _ => none

/-- The "writes" column of R88: whether a command writes what an offset of the register window shows (R272). -/
def writesAt (i : Instr) (off : Nat) : Bool :=
  decide
    ((off = 0x038 ∧ (emits i = true ∨ i = .resetStream)) ∨
    (off = 0x03C ∧ ((emits i = true ∧ i ≠ .writeHeaders ∧ i ≠ .writeEoi) ∨ i = .resetStream)) ∨
    (off = 0x040 ∧ (i = .entropy .y ∨ i = .resetStream ∨ i = .encode)) ∨
    (off = 0x044 ∧ (i = .entropy .cb ∨ i = .resetStream ∨ i = .encode)) ∨
    (off = 0x048 ∧ (i = .entropy .cr ∨ i = .resetStream ∨ i = .encode)) ∨
    (0x400 ≤ off ∧ off < 0x600 ∧ (i = .qtScale ∨ i = .encode)) ∨
    (0x600 ≤ off ∧ off < 0x700 ∧ (i = .fdct ∨ i = .sample .y ∨ i = .sample .cb ∨ i = .sample .cr ∨ i = .encode)) ∨
    (0x700 ≤ off ∧ off < 0x800 ∧ (i = .quant .luma ∨ i = .quant .chroma ∨ i = .encode)) ∨
    (0x800 ≤ off ∧ off < 0x900 ∧ (i = .zigzag ∨ i = .encode)) ∨
    (0x1000 ≤ off ∧ (i = .huffBuild ∨ i = .encode)))

/-- `t` is reached from `s` by steps of the machine. -/
inductive Reaches : State → State → Prop where
  | refl (s : State) : Reaches s s
  | tail {s t u : State} : Reaches s t → step t = .next u → Reaches s u

end Sys2Proof.Machine
end

