-- ==== Sys2Proof/Certificates/Slice0/Obligations.lean ====
section
/-!
DEFINITION. Sys2Proof/Certificates/Slice0/Obligations.lean: the statements about the model, from the numbered rules of
spec/. `step { s with inputs := e :: rest }` is one step of any state in which the event `e` comes next.
-/
open Sys2Proof Sys2Proof.Machine

/-! ### Command words -/

/-- R81 to R83, R92: the decoder and the encoder agree on every word and every instruction: a word decodes to an
instruction exactly when the instruction is well formed and the word is its encoding. -/
def Obligations.DecodeEncodeAgree : Prop :=
  ∀ (w : Word) (i : Instr), decode w = .ok i ↔ i.WellFormed ∧ encode i = w

/-- R84, R85: at the core's step the opcode is checked first, then RSV and IMM6; an illegal word changes only STATUS; a
legal word runs the instruction of its opcode and operand; only the word 0 is NOP. -/
def Obligations.IllegalWordsRaise : Prop :=
  ∀ (s : State) (p : Pending), s.pending = some p → s.inputs = [] →
    let op := p.word.toNat / 2 ^ 24
    let rsv := p.word.toNat / 2 ^ 6 % 2 ^ 18
    let imm := p.word.toNat % 2 ^ 6
    let reserved := op = 0x0D ∨ op = 0x0E ∨ 0x10 ≤ op
    let largest := if op = 0x04 then 32 else if op = 0x07 ∨ op = 0x0A then 2 else if op = 0x08 then 1 else 0
    (reserved → step s = .next (s.failed .illegalOpcode)) ∧
    (¬ reserved → rsv ≠ 0 ∨ largest < imm → step s = .next (s.failed .illegalField)) ∧
    (¬ reserved → rsv = 0 → imm ≤ largest →
      ∃ i, (opcodeOf i).toNat = op ∧ (immOf i).toNat = imm ∧ step s = exec i s) ∧
    (ErrCode.illegalOpcode.code = 0x01 ∧ ErrCode.illegalField.code = 0x02) ∧
    (decode p.word = .ok .nop ↔ p.word = 0)

/-- R89, the worked encodings. -/
def Obligations.WorkedEncodings : Prop :=
  encode (.sample .cb) = 0x07000001 ∧ decode 0x07000001 = .ok (.sample .cb) ∧
  encode (.pushBits 11) = 0x0400000B ∧ decode 0x0400000B = .ok (.pushBits 11) ∧
  encode (.quant .chroma) = 0x08000001 ∧ decode 0x08000001 = .ok (.quant .chroma) ∧
  encode .encode = 0x0F000000 ∧ decode 0x0F000000 = .ok .encode ∧
  decode 0x04000021 = .error .illegalField ∧ decode 0x0D000000 = .error .illegalOpcode ∧
  decode 0x06000040 = .error .illegalField

/-- R15, R74, R80: at the core's turn a pending word that decodes to `i` runs as `i`. Model's choices, not the spec's: the
core moves when no input is left (log 1) and while the host waits (log 21), `withFetchWord` places a word as accepted, also
while BUSY = 1 (log 2), and with no command pending the core changes nothing (log 3). -/
def Obligations.StepRunsTheDecodedCommand : Prop :=
  (∀ (s : State) (p : Pending) (i : Instr), s.pending = some p → decode p.word = .ok i →
    (s.inputs = [] → step s = exec i s) ∧
    (∀ rest, step { s with inputs := .core :: rest } = exec i { s with inputs := rest }) ∧
    (∀ rest, s.busy = true → step { s with inputs := .wait :: rest } = exec i { s with inputs := .wait :: rest })) ∧
  (∀ (s : State) (w : Nat) (i : Instr), w < 2 ^ 32 → decode (BitVec.ofNat 32 w) = .ok i →
    step (s.withFetchWord 32 w) = exec i (accept (BitVec.ofNat 32 w) s)) ∧
  ∀ s : State, s.pending = none → s.inputs = [] → step s = .next s

/-- R26, R80: a write to CMD while BUSY = 0 is accepted, latching the registers and clearing DONE, ERR and ERRCODE; while
BUSY = 1 it is dropped and sets OVERRUN; CMD reads 0. -/
def Obligations.CommandWordWrite : Prop :=
  ∀ (s : State) (rest : List Event) (w : Word),
    (s.busy = false → step { s with inputs := .regWrite 0x010 .word w :: rest } =
      .next { s with
        inputs := rest, resp := .ack, pending := some ⟨w, s.regs⟩, done := false, err := false, errcode := 0, busy := true }) ∧
    (s.busy = true → step { s with inputs := .regWrite 0x010 .word w :: rest } =
      .next { s with inputs := rest, resp := .ack, overrun := true }) ∧
    step { s with inputs := .regRead 0x010 .word :: rest } = .next { s with inputs := rest, resp := .data 0 }

/-! ### The unit commands -/

/-- R211, R86: NOP completes and changes nothing else. -/
def Obligations.NopResult : Prop :=
  encode .nop = 0 ∧ decode 0 = .ok .nop ∧ ∀ s : State, exec .nop s = .next s.succeeded

/-- R102, R103: QT_SCALE for a quality in [1, 100] writes both tables by the formula, from the base tables the block is
built with, and sets QT_VALID; otherwise it raises BAD_QUALITY and changes only STATUS. -/
def Obligations.QtScaleResult : Prop :=
  encode .qtScale = 0x01000000 ∧ ErrCode.badQuality.code = 0x05 ∧ ∀ s : State,
    let q := (latched s).quality.toNat
    let f := if q < 50 then 5000 / q else 200 - 2 * q
    let table := fun base : List Nat =>
      Vector.ofFn fun i : Fin 64 => some (BitVec.ofNat 8 (min (max ((base.getD i.val 0 * f + 50) / 100) 1) 255))
    (1 ≤ q → q ≤ 100 → exec .qtScale s = .next ({ s with
      qt0 := table s.tables.baseLuma, qt1 := table s.tables.baseChroma, qtValid := true } : State).succeeded) ∧
    (q < 1 ∨ 100 < q → exec .qtScale s = .next (s.failed .badQuality))

/-- R104: for any base table with entries in [1, 255], every scaled entry lies in [1, 255]; at quality 50 it is the base
value; at a higher quality neither the scale factor nor an entry is larger. -/
def Obligations.QtScaleProperties : Prop :=
  ∀ base : List Nat, base.length = 64 → (∀ b ∈ base, 1 ≤ b ∧ b ≤ 255) →
    ∀ q1 q2 : Nat, 1 ≤ q1 → q1 < q2 → q2 ≤ 100 → scaleFactor q2 ≤ scaleFactor q1 ∧ ∀ i : Fin 64, ∃ e1 e2 e50 : Byte,
      (scaledTable base q1)[i] = some e1 ∧ (scaledTable base q2)[i] = some e2 ∧ (scaledTable base 50)[i] = some e50 ∧
      1 ≤ e1.toNat ∧ e1.toNat ≤ 255 ∧ 1 ≤ e2.toNat ∧ e2.toNat ≤ e1.toNat ∧ e50.toNat = base.getD i.val 0

/-- R112, R114: HUFF_BUILD writes the four code tables of the configuration and sets HT_VALID; with the default HUFF_SPEC
they hold the codes that R114 lists. -/
def Obligations.HuffBuildResult : Prop :=
  encode .huffBuild = 0x02000000 ∧ ∀ s : State, ∃ t : State, exec .huffBuild s = .next t ∧
    t = ({ s with
      ht0 := buildTable s.tables.dcLuma
      ht1 := buildTable s.tables.acLuma
      ht2 := buildTable s.tables.dcChroma
      ht3 := buildTable s.tables.acChroma
      htValid := true } : State).succeeded ∧
    (s.tables = Tables.defaults →
    t.ht0[0x00] = some ⟨true, 0b00, 2⟩ ∧ t.ht0[0x01] = some ⟨true, 0b010, 3⟩ ∧ t.ht0[0x0B] = some ⟨true, 0b111111110, 9⟩ ∧
    t.ht1[0x00] = some ⟨true, 0b1010, 4⟩ ∧ t.ht1[0x01] = some ⟨true, 0b00, 2⟩ ∧
    t.ht1[0xF0] = some ⟨true, 0b11111111001, 11⟩ ∧ t.ht1[0x11] = some ⟨true, 0b1100, 4⟩ ∧
    t.ht2[0x00] = some ⟨true, 0b00, 2⟩ ∧ t.ht2[0x0B] = some ⟨true, 0b11111111110, 11⟩ ∧
    t.ht3[0x00] = some ⟨true, 0b00, 2⟩ ∧ t.ht3[0x01] = some ⟨true, 0b01, 2⟩ ∧ t.ht3[0xF0] = some ⟨true, 0b1111111010, 10⟩)

/-- R112: for every specification that fits (R113 (a), (b)), the k-th symbol has the canonical code of its length, unless it is listed
again later; a symbol that is not listed is not valid. -/
def Obligations.HuffBuildCanonical : Prop :=
  ∀ h : HuffSpec, h.Fits →
    (∀ k < h.vals.length, (∀ j < h.vals.length, k < j → h.vals.getD j 0 ≠ h.vals.getD k 0) →
      (buildTable h)[h.vals.getD k 0]? = some (some ⟨true, BitVec.ofNat 16 (canonicalCode (codeLengths h) k),
        BitVec.ofNat 5 ((codeLengths h).getD k 0)⟩)) ∧
    ∀ v : Fin 256, v.val ∉ h.vals → (buildTable h)[v] = some ⟨false, 0, 0⟩

/-- R116, R113: the table of a specification that fits is prefix-free, and a shorter code precedes every longer one
numerically; in the tables of an admissible configuration no code is all ones and every symbol that ENCODE forms has one;
the default configuration is admissible. -/
def Obligations.HuffPrefixFree : Prop :=
  (∀ h : HuffSpec, h.Fits → ∀ (v w : Fin 256) (d e : HtEntry), v ≠ w →
    (buildTable h)[v] = some d → (buildTable h)[w] = some e → d.valid = true → e.valid = true →
    d.len.toNat ≤ e.len.toNat →
      e.code.toNat / 2 ^ (e.len.toNat - d.len.toNat) ≠ d.code.toNat ∧
      (d.len.toNat < e.len.toNat → d.code.toNat < e.code.toNat / 2 ^ (e.len.toNat - d.len.toNat))) ∧
  (∀ T : Tables, T.Admissible → ∀ t : HTable,
    let defined := fun v : Nat => ∃ e : HtEntry, (buildTable (T.huff t))[v]? = some (some e) ∧ e.valid = true
    (∀ (v : Fin 256) (e : HtEntry), (buildTable (T.huff t))[v] = some e → e.valid = true →
      e.code.toNat + 1 < 2 ^ e.len.toNat) ∧
    (t = .dcLuma ∨ t = .dcChroma → ∀ c ≤ 11, defined c) ∧
    (t = .acLuma ∨ t = .acChroma → defined 0x00 ∧ defined 0xF0 ∧
      ∀ run ≤ 15, ∀ c, 1 ≤ c → c ≤ 10 → defined (run * 16 + c))) ∧
  Tables.defaults.Admissible

/-- R125: RESET_STREAM clears OUT_LEN, the bit writer and the predictors, and touches no memory. -/
def Obligations.ResetStreamResult : Prop :=
  encode .resetStream = 0x03000000 ∧ ∀ s : State, exec .resetStream s =
    .next ({ s with outLen := 0, acc := 0, nbits := 0, pred := ⟨0, 0, 0⟩ } : State).succeeded

/-- R124, R126, R122: PUSH_BITS n appends the n low bits of ARG0, most significant first: the stuffed complete bytes of the
pending bits and the new ones go to memory at DST_ADDR + OUT_LEN, the bits left over are pending. Room is asked for only
where a byte is completed. The premise BitInv is R45's invariant. -/
def Obligations.PushBitsResult : Prop :=
  ∀ (s : State) (n : BitVec 6), s.BitInv → s.DstFits →
    let bits := pendingBits s ++ bitString (latched s).arg0.toNat n.toNat
    let out := emittedBytes bits
    out = [] ∨ s.outLen.toNat + out.length ≤ (latched s).dstCap.toNat → s.BusAnswers out.length →
    ∃ t : State, exec (.pushBits n) s = .next t ∧
      t = ({ s with
        mem := t.mem
        outLen := s.outLen + BitVec.ofNat 32 out.length
        acc := BitVec.ofNat 8 (bitsValue (leftBits bits))
        nbits := BitVec.ofNat 3 (leftBits bits).length
        busErrIn := s.busAfter out.length } : State).succeeded ∧
      Stored ((latched s).dstAddr.toNat + s.outLen.toNat) out s t

/-- R127, R129: FLUSH completes a partial byte with 1-bits and emits it stuffed; with NBITS = 0 it changes nothing, so a
second FLUSH is a no-op. -/
def Obligations.FlushResult : Prop :=
  (∀ s : State, s.BitInv → s.DstFits →
    let out := emittedBytes (padOnes (pendingBits s))
    s.outLen.toNat + out.length ≤ (latched s).dstCap.toNat → s.BusAnswers out.length →
    ∃ t : State, exec .flush s = .next t ∧
      t = ({ s with
        mem := t.mem
        outLen := s.outLen + BitVec.ofNat 32 out.length
        acc := 0
        nbits := 0
        busErrIn := s.busAfter out.length } : State).succeeded ∧
      Stored ((latched s).dstAddr.toNat + s.outLen.toNat) out s t) ∧
  ∀ s : State, s.DstFits → s.nbits = 0 → exec .flush s = .next s.succeeded

/-- R130: from an empty bit writer, any sequence of PushBits and then FLUSH writes the concatenated bits, padded with 1-bits
to whole bytes, cut first bit as bit 7, with 0x00 after every 0xFF (R128), provided no error occurs. -/
def Obligations.StreamLaw : Prop :=
  ∀ (p : Params) (items : List (Nat × Nat)) (s : State), s.acc = 0 → s.nbits = 0 →
    p.dstAddr.toNat + p.dstCap.toNat ≤ 2 ^ 32 →
    let out := emittedBytes (padOnes (items.flatMap fun x => bitString x.1 x.2))
    out = [] ∨ s.outLen.toNat + out.length ≤ p.dstCap.toNat → s.BusAnswers out.length →
    (∀ k : Nat, out[k]? = some 0xFF → out[k + 1]? = some 0x00) ∧
    ∃ t : State, (forEach (fun x : Nat × Nat => pushBits p x.1 x.2) items s).bind (flushBody p) = .ok t ∧
      t = { s with
        mem := t.mem, outLen := s.outLen + BitVec.ofNat 32 out.length, busErrIn := s.busAfter out.length } ∧
      Stored (p.dstAddr.toNat + s.outLen.toNat) out s t

/-- R141, R144: FDCT of a written block replaces BLK by FDCT_IMPL of it, which is within 2^-12 of the ideal transform where
every element has magnitude at most 2^15. -/
def Obligations.FdctResult : Prop :=
  encode .fdct = 0x06000000 ∧ ∀ (s : State) (f : Vector Rat 64), s.blk = f.map some →
    exec .fdct s = .next ({ s with blk := (Config.fdct.fn f).map some } : State).succeeded ∧
    ((∀ i : Fin 64, |f[i]| ≤ 2 ^ 15) → ∀ u v : Fin 8,
      |(((Config.fdct.fn f)[natIdx v u] : Rat) : ℝ) - fdctIdeal (fun i => ((f[i] : Rat) : ℝ)) u v| ≤ 1 / 2 ^ 12)

/-- R143, R145: the ideal transform is the orthonormal DCT-II in one formula; it is linear, sends a constant block to its
DC, preserves energy, and separates rows and columns; an FDCT_IMPL within its bound sends a constant block to AC
coefficients within 2^-12 of 0. -/
def Obligations.FdctIdealProperties : Prop :=
  (∀ (f : Fin 64 → ℝ) (u v : Fin 8), fdctIdeal f u v = 1 / 4 * fdctC u * fdctC v *
    ∑ x : Fin 8, ∑ y : Fin 8, f (natIdx y x) * Real.cos ((2 * (x.val : ℝ) + 1) * (u.val : ℝ) * Real.pi / 16)
      * Real.cos ((2 * (y.val : ℝ) + 1) * (v.val : ℝ) * Real.pi / 16)) ∧
  (∀ (a b : ℝ) (f g : Fin 64 → ℝ) (u v : Fin 8),
    fdctIdeal (fun i => a * f i + b * g i) u v = a * fdctIdeal f u v + b * fdctIdeal g u v) ∧
  (∀ (c : ℝ) (u v : Fin 8), fdctIdeal (fun _ => c) u v = if u = 0 ∧ v = 0 then 8 * c else 0) ∧
  (∀ f : Fin 64 → ℝ, ∑ u : Fin 8, ∑ v : Fin 8, fdctIdeal f u v ^ 2 = ∑ i : Fin 64, f i ^ 2) ∧
  (∀ (f : Fin 64 → ℝ) (u v : Fin 8), (∀ x y y' : Fin 8, f (natIdx y x) = f (natIdx y' x)) → v ≠ 0 → fdctIdeal f u v = 0) ∧
  (∀ (f : Fin 64 → ℝ) (u v : Fin 8), (∀ y x x' : Fin 8, f (natIdx y x) = f (natIdx y x')) → u ≠ 0 → fdctIdeal f u v = 0) ∧
  ∀ (impl : FdctImpl) (c : Rat), |c| ≤ 2 ^ 15 → ∀ u v : Fin 8, ¬ (u = 0 ∧ v = 0) →
    |(impl.fn (Vector.replicate 64 c))[natIdx v u]| ≤ 1 / 2 ^ 12

/-- R146: the weights of a coefficient sum in magnitude to at most 8, reached at (4, 4), and to 0 but for (0, 0); so the
bounds of every coefficient, and those of the blocks SAMPLE gives, which are reached. -/
def Obligations.FdctIdealBounds : Prop :=
  let weight := fun u v x y : Fin 8 => fdctIdeal (fun i => if i = natIdx y x then 1 else 0) u v
  (∀ u v : Fin 8, ∑ x : Fin 8, ∑ y : Fin 8, |weight u v x y| ≤ 8) ∧
  (∀ x y : Fin 8, |weight 4 4 x y| = 1 / 8) ∧
  (∀ u v : Fin 8, ¬ (u = 0 ∧ v = 0) → ∑ x : Fin 8, ∑ y : Fin 8, weight u v x y = 0) ∧
  (∀ (f g : Fin 64 → ℝ) (e : ℝ), (∀ i, |f i - g i| ≤ e) → ∀ u v : Fin 8, |fdctIdeal f u v - fdctIdeal g u v| ≤ 8 * e) ∧
  (∀ (f : Fin 64 → ℝ) (m : ℝ), (∀ i, |f i| ≤ m) → ∀ u v : Fin 8, |fdctIdeal f u v| ≤ 8 * m) ∧
  (∀ (f : Fin 64 → ℝ) (a b : ℝ), (∀ i, a ≤ f i ∧ f i ≤ b) → ∀ u v : Fin 8, ¬ (u = 0 ∧ v = 0) →
    |fdctIdeal f u v| ≤ 8 * (b - a) / 2) ∧
  (∀ f : Fin 64 → ℝ, (∀ i, -128 ≤ f i ∧ f i ≤ 127) →
    (-1024 ≤ fdctIdeal f 0 0 ∧ fdctIdeal f 0 0 ≤ 1016) ∧
    ∀ u v : Fin 8, ¬ (u = 0 ∧ v = 0) → |fdctIdeal f u v| ≤ 1020) ∧
  (∀ f : Fin 64 → ℝ, (∀ i, |f i| ≤ 255 / 2) → ∀ u v : Fin 8, |fdctIdeal f u v| ≤ 1020) ∧
  fdctIdeal (fun i => if 0 < weight 4 4 ⟨i.val % 8, by omega⟩ ⟨i.val / 8, by omega⟩ then 127 else -128) 4 4 = 1020

/-- R151, R155, R61: SAMPLE that passes its checks fills BLK with CC_IMPL of the three bytes of the clamped pixel, each
address inside the pixel region. The 192 accesses of the memory master are the model's choice (log 8). -/
def Obligations.SampleResult : Prop :=
  ∀ (s : State) (ch : Channel), Valid (.sample ch) s → s.BusAnswers 192 →
    let p := latched s
    let w := p.width.toNat
    let h := p.height.toNat
    let px := fun x : Nat => min (p.origin.toNat % 2 ^ 16 + x) (w - 1)
    let py := fun y : Nat => min (p.origin.toNat / 2 ^ 16 + y) (h - 1)
    let a := fun x y : Nat => p.srcAddr.toNat + 3 * (py y * w + px x)
    exec (.sample ch) s = .next ({ s with
      blk := Vector.ofFn fun i : Fin 64 =>
        let b := a (i.val % 8) (i.val / 8)
        some (Config.cc.fn ch (readByte s b) (readByte s (b + 1)) (readByte s (b + 2)))
      busErrIn := s.busAfter 192 } : State).succeeded ∧
    ∀ x y : Nat, p.srcAddr.toNat ≤ a x y ∧ a x y + 2 < p.srcAddr.toNat + p.srcLen.toNat ∧ a x y + 2 < 2 ^ 32

/-- R152 to R154: the ranges of the ideal conversion, its values on grey pixels and where the ranges are reached, and the
bound on CC_IMPL. -/
def Obligations.ColourConversion : Prop :=
  (∀ r g b : Byte,
    (-128 ≤ ccIdeal .y r g b ∧ ccIdeal .y r g b ≤ 127) ∧
    (-(255 / 2) ≤ ccIdeal .cb r g b ∧ ccIdeal .cb r g b ≤ 255 / 2) ∧
    (-(255 / 2) ≤ ccIdeal .cr r g b ∧ ccIdeal .cr r g b ≤ 255 / 2)) ∧
  (∀ g : Byte, ccIdeal .y g g g = (g.toNat : Rat) - 128 ∧ ccIdeal .cb g g g = 0 ∧ ccIdeal .cr g g g = 0) ∧
  (ccIdeal .y 0 0 0 = -128 ∧ ccIdeal .y 255 255 255 = 127 ∧
    ccIdeal .cb 255 255 0 = -(255 / 2) ∧ ccIdeal .cb 0 0 255 = 255 / 2 ∧
    ccIdeal .cr 255 0 0 = 255 / 2 ∧ ccIdeal .cr 0 255 255 = -(255 / 2)) ∧
  (∀ ch (r g b : Byte), ccIdeal ch r g b =
    match ch with
    | .y => 299 / 1000 * (r.toNat : Rat) + 587 / 1000 * (g.toNat : Rat) + 114 / 1000 * (b.toNat : Rat) - 128
    | .cb => -168736 / 1000000 * (r.toNat : Rat) - 331264 / 1000000 * (g.toNat : Rat) + 1 / 2 * (b.toNat : Rat)
    | .cr => 1 / 2 * (r.toNat : Rat) - 418688 / 1000000 * (g.toNat : Rat) - 81312 / 1000000 * (b.toNat : Rat)) ∧
  ∀ ch (r g b : Byte), |Config.cc.fn ch r g b - ccIdeal ch r g b| ≤ 1 / 2 ^ 16

/-- R161, R162: QUANT divides every coefficient exactly and rounds it; a result that does not fit 16 bits signed is
COEF_RANGE and nothing is written; QT_VALID = 0 is NOT_READY. -/
def Obligations.QuantResult : Prop :=
  ∀ (s : State) (tbl : QTable),
    (s.qtValid = false → exec (.quant tbl) s = .next (s.failed .notReady)) ∧
    ∀ (b : Vector Rat 64) (q : Vector Byte 64), s.qtValid = true → s.blk = b.map some → s.qt tbl = q.map some →
      let n := fun i : Fin 64 => roundTie Config.roundTie (b[i] / (q[i].toNat : Rat))
      ((∀ i, -32768 ≤ n i ∧ n i ≤ 32767) →
        exec (.quant tbl) s =
          .next ({ s with qblk := Vector.ofFn fun i : Fin 64 => some (BitVec.ofInt 16 (n i)) } : State).succeeded ∧
        ∀ i, (BitVec.ofInt 16 (n i)).toInt = n i) ∧
      ((∃ i, n i < -32768 ∨ 32767 < n i) → exec (.quant tbl) s = .next (s.failed .coefRange)) ∧
      ErrCode.notReady.code = 0x08 ∧ ErrCode.coefRange.code = 0x0C

/-- R13: round_tie gives a nearest integer; on an exact half HALF_UP the larger, HALF_AWAY the one of larger magnitude,
HALF_EVEN the even one. -/
def Obligations.RoundTieNearest : Prop :=
  ∀ (mode : RoundTie) (y : Rat),
    |(roundTie mode y : Rat) - y| ≤ 1 / 2 ∧
    (|(roundTie mode y : Rat) - y| = 1 / 2 →
      (mode = .halfUp → y < roundTie mode y) ∧
      (mode = .halfAway → |y| < |(roundTie mode y : Rat)|) ∧
      (mode = .halfEven → roundTie mode y % 2 = 0))

/-- R163: whatever admissible CC_IMPL, FDCT_IMPL and ROUND_TIE, a coefficient made by SAMPLE then FDCT is within 3 * 2^-13
of the ideal one, and QUANT rounds it as the ideal quotient wherever that is not inside the tie band; inside the band it
gives one of the two nearest integers. -/
def Obligations.TieBand : Prop :=
  ∀ (cc : CcImpl) (fd : FdctImpl) (mode : RoundTie) (ch : Channel) (px : Fin 64 → Byte × Byte × Byte) (u v : Fin 8),
    let coef : Rat := (fd.fn (Vector.ofFn fun i => cc.fn ch (px i).1 (px i).2.1 (px i).2.2))[natIdx v u]
    let ideal : ℝ := fdctIdeal (fun i => ((ccIdeal ch (px i).1 (px i).2.1 (px i).2.2 : Rat) : ℝ)) u v
    |(coef : ℝ) - ideal| ≤ 3 / 2 ^ 13 ∧
    ∀ q : Byte, 1 ≤ q.toNat →
      ((∀ k : ℤ, 3 / 2 ^ 13 < |ideal - (q.toNat : ℝ) * ((k : ℝ) + 1 / 2)|) →
        quantize mode coef q = ⌊ideal / (q.toNat : ℝ) + 1 / 2⌋) ∧
      (quantize mode coef q = ⌊ideal / (q.toNat : ℝ)⌋ ∨ quantize mode coef q = ⌊ideal / (q.toNat : ℝ)⌋ + 1)

/-- R165, R166: ZIGZAG of a written QBLK fills ZZ in zigzag order, ZZ[0] the DC coefficient, and changes nothing else. -/
def Obligations.ZigzagResult : Prop :=
  encode .zigzag = 0x09000000 ∧ zigzagNat 0 = 0 ∧ ∀ (s : State) (q : Vector (BitVec 16) 64), s.qblk = q.map some →
    exec .zigzag s = .next ({ s with zz := Vector.ofFn fun k : Fin 64 => some q[zigzagNat k] } : State).succeeded

/-- R168: ZIGZAG_NAT is a permutation that visits the anti-diagonals in order, even ones with the row decreasing, odd ones
with the row increasing. -/
def Obligations.ZigzagOrder : Prop :=
  (∀ n : Fin 64, ∃ k : Fin 64, zigzagNat k = n) ∧ (∀ j k : Fin 64, zigzagNat j = zigzagNat k → j = k) ∧
  ∀ k : Fin 63,
    let row := fun j : Fin 64 => (zigzagNat j).val / 8
    let diagonal := fun j : Fin 64 => (zigzagNat j).val / 8 + (zigzagNat j).val % 8
    let this : Fin 64 := k.castSucc
    let after : Fin 64 := k.succ
    (diagonal after = diagonal this ∧
      (if diagonal this % 2 = 0 then row after + 1 = row this else row after = row this + 1)) ∨
    diagonal after = diagonal this + 1

/-- R169, R174, R177: ENTROPY of a written ZZ whose symbols are all defined appends the bits of its items to the stream and
sets PRED[ch] to ZZ[0], sign-extended. Room is asked for only where a byte is completed. The premise BitInv is R45's
invariant. -/
def Obligations.EntropyResult : Prop :=
  ∀ (s : State) (ch : Channel) (z : Vector (BitVec 16) 64), Valid (.entropy ch) s → s.BitInv → s.zz = z.map some →
    let tdc := if ch = .y then HTable.dcLuma else .dcChroma
    let tac := if ch = .y then HTable.acLuma else .acChroma
    let items := dcItem tdc (z[0].toInt - (s.pred.get ch).toInt) :: acItems tac 0 (z.toList.tail.map BitVec.toInt)
    let bits := pendingBits s ++ items.flatMap (itemBitsIn s)
    let out := emittedBytes bits
    (∀ i ∈ items, SymbolDefined s i) → out = [] ∨ s.outLen.toNat + out.length ≤ (latched s).dstCap.toNat →
    s.BusAnswers out.length →
    ∃ t : State, exec (.entropy ch) s = .next t ∧
      t = ({ s with
        mem := t.mem
        outLen := s.outLen + BitVec.ofNat 32 out.length
        acc := BitVec.ofNat 8 (bitsValue (leftBits bits))
        nbits := BitVec.ofNat 3 (leftBits bits).length
        pred := s.pred.set ch (z[0].signExtend 32)
        busErrIn := s.busAfter out.length } : State).succeeded ∧
      Stored ((latched s).dstAddr.toNat + s.outLen.toNat) out s t

/-- R172, R173: the AC items lose nothing: a decoder that reads only the symbols and the magnitude bits gets the
coefficients back, up to the zeros after EOB; a trailing run of zeros is one EOB and no ZRL, and without one there is no
EOB. Coefficients of magnitude 2^15 have no symbol (R176). -/
def Obligations.AcItemsLossless : Prop :=
  ∀ (t : HTable) (coefs : List Int), (∀ v ∈ coefs, |v| < 2 ^ 15) →
    (∃ n, expandItems (acItems t 0 coefs) ++ List.replicate n 0 = coefs) ∧
    (∀ i ∈ acItems t 0 coefs, i.table = t ∧ i.nbits = i.sym % 16 ∧ i.bits < 2 ^ i.nbits ∧ i.sym < 256) ∧
    (coefs.getLast? ≠ some 0 → (∀ i ∈ acItems t 0 coefs, i.sym ≠ 0x00) ∧
      ∀ n, 0 < n → acItems t 0 (coefs ++ List.replicate n 0) = acItems t 0 coefs ++ [⟨t, 0x00, 0, 0⟩])

/-- R12, R171: the category is the bit length; the magnitude bits lie in [0, 2^c), start with 1 for a positive value and
with 0 for a negative one, are the low c bits of v - 1 for a negative one, and determine the value. -/
def Obligations.MagnitudeBits : Prop :=
  ∀ v : Int,
    let c := bitlen v
    (v = 0 → c = 0) ∧ (v ≠ 0 → 2 ^ (c - 1) ≤ |v| ∧ |v| < 2 ^ c ∧ 0 < c) ∧ c = Nat.clog 2 (v.natAbs + 1) ∧
    magbits v c < 2 ^ c ∧
    (0 < v → (magbits v c).testBit (c - 1) = true) ∧ (v < 0 → (magbits v c).testBit (c - 1) = false) ∧
    (0 ≤ v → (magbits v c : Int) = v) ∧ (v < 0 → (magbits v c : Int) = v + 2 ^ c - 1 ∧ (magbits v c : Int) = (v - 1) % 2 ^ c) ∧
    unfoldBits (magbits v c) c = v

/-! ### The container -/

/-- R191: WRITE_HEADERS that passes its checks and finds room appends the header bytes, without stuffing. -/
def Obligations.WriteHeadersResult : Prop :=
  encode .writeHeaders = 0x0B000000 ∧
  ∀ (s : State) (q0 q1 : Vector Byte 64), Valid .writeHeaders s → s.qt0 = q0.map some → s.qt1 = q1.map some →
    let p := latched s
    let out := headerBytes s.tables p.width.toNat p.height.toNat q0 q1
    s.outLen.toNat + out.length ≤ p.dstCap.toNat → s.BusAnswers out.length →
    ∃ t : State, exec .writeHeaders s = .next t ∧
      t = ({ s with
        mem := t.mem, outLen := s.outLen + BitVec.ofNat 32 out.length, busErrIn := s.busAfter out.length } : State).succeeded ∧
      Stored (p.dstAddr.toNat + s.outLen.toNat) out s t

/-- R192 to R198, R200: with the default HUFF_SPEC the 623 header bytes by offset; every length field counts itself and its
segment's body; only the table entries and the dimensions depend on the state. With another HUFF_SPEC whose counts fit
their fields, only the four DHT segments differ. -/
def Obligations.HeaderLayout : Prop :=
  ∀ (w h : Nat) (q0 q1 : Vector Byte 64),
    let f := headerBytes Tables.defaults w h q0 q1
    let at' := fun (from' n : Nat) => (f.drop from').take n
    let length := fun o : Nat => (f.getD o 0).toNat * 256 + (f.getD (o + 1) 0).toNat
    f.length = 623 ∧
    at' 0 25 = [0xFF, 0xD8, 0xFF, 0xE0, 0x00, 0x10, 0x4A, 0x46, 0x49, 0x46, 0x00, 0x01, 0x01, 0x00, 0x00, 0x01, 0x00, 0x01,
      0x00, 0x00, 0xFF, 0xDB, 0x00, 0x43, 0x00] ∧
    at' 25 64 = List.ofFn (fun k : Fin 64 => q0[zigzagNat k]) ∧
    at' 89 5 = [0xFF, 0xDB, 0x00, 0x43, 0x01] ∧
    at' 94 64 = List.ofFn (fun k : Fin 64 => q1[zigzagNat k]) ∧
    at' 158 5 = [0xFF, 0xC0, 0x00, 0x11, 0x08] ∧
    at' 163 4 = [BitVec.ofNat 8 (h / 256), BitVec.ofNat 8 h, BitVec.ofNat 8 (w / 256), BitVec.ofNat 8 w] ∧
    at' 167 10 = [0x03, 0x01, 0x11, 0x00, 0x02, 0x11, 0x01, 0x03, 0x11, 0x01] ∧
    (at' 177 5 = [0xFF, 0xC4, 0x00, 0x1F, 0x00] ∧ at' 210 5 = [0xFF, 0xC4, 0x00, 0xB5, 0x10] ∧
      at' 393 5 = [0xFF, 0xC4, 0x00, 0x1F, 0x01] ∧ at' 426 5 = [0xFF, 0xC4, 0x00, 0xB5, 0x11]) ∧
    (at' 182 16 = Tables.defaults.dcLuma.bits.map (BitVec.ofNat 8) ∧ at' 198 12 = Tables.defaults.dcLuma.vals.map (BitVec.ofNat 8) ∧
      at' 215 16 = Tables.defaults.acLuma.bits.map (BitVec.ofNat 8) ∧
      at' 231 162 = Tables.defaults.acLuma.vals.map (BitVec.ofNat 8) ∧
      at' 398 16 = Tables.defaults.dcChroma.bits.map (BitVec.ofNat 8) ∧
      at' 414 12 = Tables.defaults.dcChroma.vals.map (BitVec.ofNat 8) ∧
      at' 431 16 = Tables.defaults.acChroma.bits.map (BitVec.ofNat 8) ∧
      at' 447 162 = Tables.defaults.acChroma.vals.map (BitVec.ofNat 8)) ∧
    at' 609 14 = [0xFF, 0xDA, 0x00, 0x0C, 0x03, 0x01, 0x00, 0x02, 0x11, 0x03, 0x11, 0x00, 0x3F, 0x00] ∧
    (length 4 = 20 - 4 ∧ length 22 = 89 - 22 ∧ length 91 = 158 - 91 ∧ length 160 = 177 - 160 ∧ length 179 = 210 - 179 ∧
      length 212 = 393 - 212 ∧ length 395 = 426 - 395 ∧ length 428 = 609 - 428 ∧ length 611 = 623 - 611) ∧
    (∀ (w' h' : Nat) (r0 r1 : Vector Byte 64) (k : Nat),
      ¬ (25 ≤ k ∧ k ≤ 88) → ¬ (94 ≤ k ∧ k ≤ 157) → ¬ (163 ≤ k ∧ k ≤ 166) → f[k]? = (headerBytes Tables.defaults w' h' r0 r1)[k]?) ∧
    ∀ T : Tables, (∀ t, (T.huff t).Fits ∧ (∀ n ∈ (T.huff t).bits, n < 256) ∧ 19 + (T.huff t).vals.length < 2 ^ 16) →
      let dht := fun (id : Byte) (s : HuffSpec) =>
        [0xFF, 0xC4, BitVec.ofNat 8 ((19 + s.vals.length) / 256), BitVec.ofNat 8 (19 + s.vals.length), id]
          ++ s.bits.map (BitVec.ofNat 8) ++ s.vals.map (BitVec.ofNat 8)
      let g := headerBytes T w h q0 q1
      g.length = headerLength T ∧ g = f.take 177 ++ dht 0x00 T.dcLuma ++ dht 0x10 T.acLuma ++ dht 0x01 T.dcChroma
        ++ dht 0x11 T.acChroma ++ f.drop 609

/-- R199: WRITE_EOI appends FF D9, not stuffed; with bits pending it is ILLEGAL_STATE. -/
def Obligations.WriteEoiResult : Prop :=
  encode .writeEoi = 0x0C000000 ∧
  (∀ s : State, s.nbits = 0 → s.DstFits → s.outLen.toNat + 2 ≤ (latched s).dstCap.toNat → s.BusAnswers 2 →
    ∃ t : State, exec .writeEoi s = .next t ∧
      t = ({ s with mem := t.mem, outLen := s.outLen + 2, busErrIn := s.busAfter 2 } : State).succeeded ∧
      Stored ((latched s).dstAddr.toNat + s.outLen.toNat) [0xFF, 0xD9] s t) ∧
  ∀ s : State, s.nbits ≠ 0 → exec .writeEoi s = .next (s.failed .illegalState)

/-! ### ENCODE -/

/-- R213, R216, R217, R220: ENCODE that passes its checks, with the capacity of R220 and no bus error, completes without an
error: the output region holds the file of the image, OUT_LEN its length, and the stores, tables, predictors and registers
are those of R217, whatever CC_IMPL, FDCT_IMPL, ROUND_TIE and admissible tables. With the default tables the capacity is
R220's formula and the header has 623 bytes. -/
def Obligations.EncodeResult : Prop :=
  ∀ s : State, Valid .encode s → s.tables.Admissible → sufficientCapacity s.tables (latched s) ≤ (latched s).dstCap.toNat → s.busErrIn = none →
    let p := latched s
    let w := p.width.toNat
    let h := p.height.toNat
    let q := p.quality.toNat
    let px := fun off : Nat => readByte s (p.srcAddr.toNat + off)
    let dc := fun ch => BitVec.ofInt 32 (imageQuant s.tables w h q px ch (lastOrigin w h))[0]
    let last := imageQuant s.tables w h q px .cr (lastOrigin w h)
    let file := imageFile s.tables w h q px
    file.length ≤ p.dstCap.toNat ∧ file.take 2 = [0xFF, 0xD8] ∧
    file.length = headerLength s.tables + (imageScan s.tables w h q px).length + 2 ∧
    (s.tables = Tables.defaults → headerLength s.tables = 623 ∧
      sufficientCapacity s.tables p = 625 + 2 * ((4980 * (((w + 7) / 8) * ((h + 7) / 8)) + 7) / 8)) ∧
    ∃ t : State, exec .encode s = .next t ∧
      t = ({ s with
        qt0 := Vector.ofFn fun i => some (qtEntry s.tables q .luma i)
        qt1 := Vector.ofFn fun i => some (qtEntry s.tables q .chroma i)
        qtValid := true
        ht0 := buildTable s.tables.dcLuma
        ht1 := buildTable s.tables.acLuma
        ht2 := buildTable s.tables.dcChroma
        ht3 := buildTable s.tables.acChroma
        htValid := true
        outLen := BitVec.ofNat 32 file.length
        acc := 0
        nbits := 0
        pred := ⟨dc .y, dc .cb, dc .cr⟩
        blk := (imageCoefs w h px .cr (lastOrigin w h)).map some
        qblk := last.map fun n => some (BitVec.ofInt 16 n)
        zz := Vector.ofFn fun k : Fin 64 => some (BitVec.ofInt 16 last[zigzagNat k])
        mem := t.mem } : State).succeeded ∧
      Stored p.dstAddr.toNat file s t

/-- R218: of two ENCODEs with the same dimensions, quality, pixel bytes and tables, whatever their states, addresses and
capacities, the bytes that both write are the same, and when both succeed they write equally many. -/
def Obligations.EncodeDeterminism : Prop :=
  ∀ s s' : State, Valid .encode s → Valid .encode s' → s.busErrIn = none → s'.busErrIn = none →
    (latched s).width = (latched s').width → (latched s).height = (latched s').height →
    (latched s).quality = (latched s').quality → s.tables.Admissible → s'.tables = s.tables →
    (∀ off < (latched s).width.toNat * (latched s).height.toNat * 3,
      readByte s ((latched s).srcAddr.toNat + off) = readByte s' ((latched s').srcAddr.toNat + off)) →
    ∃ t t' : State, exec .encode s = .next t ∧ exec .encode s' = .next t' ∧
      (∀ k < t.outLen.toNat, k < t'.outLen.toNat →
        readByte t ((latched s).dstAddr.toNat + k) = readByte t' ((latched s').dstAddr.toNat + k)) ∧
      (t.err = false → t'.err = false → t.outLen = t'.outLen)

/-- R221: the unit commands in the order of ENCODE's pseudocode, issued by the host one after another, leave the same
memory, OUT_LEN and stores as ENCODE; only ORIGIN differs, which the host wrote. -/
def Obligations.EncodeMatchesUnitCommands : Prop :=
  ∀ s : State, Valid .encode (accept (encode .encode) s) → s.tables.Admissible →
    sufficientCapacity s.tables s.regs ≤ s.regs.dstCap.toNat → s.busErrIn = none →
    ∃ t u : State, issue .encode s = some t ∧
      issueAll (unitCommands s.regs.width.toNat s.regs.height.toNat) s = some u ∧
      t.err = false ∧ u = { t with mem := u.mem, regs := { t.regs with origin := u.regs.origin } } ∧
      ∀ a : Nat, readByte u a = readByte t a

/-- R236 for ENCODE: when the file does not fit, OUT_OVERFLOW: OUT_LEN = DST_CAP, the region holds the first bytes of the
file, the tables and their valid flags are those of QT_SCALE and HUFF_BUILD, the stores are open (`none`, or left free).
R236 counts from the OUT_LEN that the command began with; that ENCODE counts from 0, since RESET_STREAM's body comes first
(R212), also where the old OUT_LEN lies above DST_CAP, is the model's reading (log 32). -/
def Obligations.EncodeOverflow : Prop :=
  ∀ s : State, Valid .encode s → s.tables.Admissible → s.busErrIn = none →
    let p := latched s
    let q := p.quality.toNat
    let file := fileOf p s
    p.dstCap.toNat < file.length →
    ∃ t : State, exec .encode s = .next t ∧
      t = ({ s with
        qt0 := Vector.ofFn fun i => some (qtEntry s.tables q .luma i)
        qt1 := Vector.ofFn fun i => some (qtEntry s.tables q .chroma i)
        qtValid := true
        ht0 := buildTable s.tables.dcLuma
        ht1 := buildTable s.tables.acLuma
        ht2 := buildTable s.tables.dcChroma
        ht3 := buildTable s.tables.acChroma
        htValid := true
        outLen := p.dstCap
        acc := t.acc
        nbits := t.nbits
        pred := t.pred
        blk := Vector.replicate 64 none
        qblk := Vector.replicate 64 none
        zz := Vector.replicate 64 none
        mem := t.mem
        draws := t.draws } : State).failed .outOverflow ∧
      Stored p.dstAddr.toNat (file.take p.dstCap.toNat) s t

/-! ### Errors -/

/-- R236 for PUSH_BITS, FLUSH, ENTROPY, WRITE_HEADERS and WRITE_EOI: OUT_OVERFLOW leaves OUT_LEN = DST_CAP and exactly the
first bytes of the output; nothing is written when OUT_LEN already exceeds DST_CAP; ACC, NBITS and ENTROPY's predictor are
open; nothing else changes. -/
def Obligations.EmissionOverflow : Prop :=
  ∀ (s : State) (i : Instr), StartsToEmit i s →
    let p := latched s
    let out := commandOutput i s
    let room := p.dstCap.toNat - s.outLen.toNat
    out ≠ [] → p.dstCap.toNat < s.outLen.toNat + out.length → s.BusAnswers room →
    ∃ t : State, exec i s = .next t ∧
      t = ({ s with
        mem := t.mem
        outLen := if s.outLen.toNat ≤ p.dstCap.toNat then p.dstCap else s.outLen
        acc := t.acc
        nbits := t.nbits
        pred := t.pred
        draws := t.draws
        busErrIn := s.busAfter room } : State).failed .outOverflow ∧
      (∀ ch, i ≠ .entropy ch → t.pred.get ch = s.pred.get ch) ∧
      ErrCode.outOverflow.code = 0x06 ∧
      Stored (p.dstAddr.toNat + s.outLen.toNat) (out.take room) s t

/-- R237: an error response to any access of SAMPLE, of an emitting command or of ENCODE ends it with BUS_ERROR; what the
command writes is open within its bounds, everything else is unchanged; QT RAM, HT RAM and the valid flags keep what the
completed bodies gave them. ENCODE makes an access for each byte of the file and 192 for each of the three blocks of an
MCU; whatever number a run of it makes, each of them can be the one that fails. That SAMPLE's reads count as 192 accesses
is the model's choice (log 8); so are, where OUT_LEN began above DST_CAP, the order of the bounds, and, below the OUT_LEN
that ENCODE began with, that the bytes are the ones its earlier emissions left (log 16). -/
def Obligations.BusErrorState : Prop :=
  ErrCode.busError.code = 0x09 ∧
  (∀ (s : State) (ch : Channel) (k : Nat), Valid (.sample ch) s → s.busErrIn = some k → k < 192 →
    exec (.sample ch) s =
      .next (({ s with blk := Vector.replicate 64 none, busErrIn := none } : State).failed .busError)) ∧
  (∀ (s : State) (i : Instr) (k : Nat), StartsToEmit i s → s.busErrIn = some k → k < (commandOutput i s).length →
    s.outLen.toNat + k < (latched s).dstCap.toNat →
    ∃ t : State, exec i s = .next t ∧
      t = ({ s with
        mem := t.mem, outLen := t.outLen, acc := t.acc, nbits := t.nbits, pred := t.pred, draws := t.draws
        busErrIn := none } : State).failed .busError ∧
      (i = .writeHeaders ∨ i = .writeEoi → t.acc = s.acc ∧ t.nbits = s.nbits) ∧
      (∀ ch, i ≠ .entropy ch → t.pred.get ch = s.pred.get ch) ∧
      s.outLen.toNat ≤ t.outLen.toNat ∧ t.outLen.toNat ≤ (latched s).dstCap.toNat ∧
      ∀ a : Nat, a < (latched s).dstAddr.toNat + s.outLen.toNat ∨
        (latched s).dstAddr.toNat + (latched s).dstCap.toNat ≤ a → readByte t a = readByte s a) ∧
  (∀ (s : State) (k : Nat), Valid .encode s → s.tables.Admissible →
    let accesses := (fileOf (latched s) s).length
      + 576 * (((latched s).width.toNat + 7) / 8 * (((latched s).height.toNat + 7) / 8))
    sufficientCapacity s.tables (latched s) ≤ (latched s).dstCap.toNat → s.busErrIn = some (accesses + k) →
    ∃ t : State, exec .encode s = .next t ∧ t.err = s.err ∧ t.busErrIn = some k) ∧
  ∀ (s u : State) (n left k : Nat), Valid .encode s → s.tables.Admissible →
    exec .encode { s with busErrIn := some n } = .next u → u.busErrIn = some left → k < n - left →
    ∃ t : State, exec .encode { s with busErrIn := some k } = .next t ∧
      t = ({ s with
        qt0 := Vector.ofFn fun i => some (qtEntry s.tables (latched s).quality.toNat .luma i)
        qt1 := Vector.ofFn fun i => some (qtEntry s.tables (latched s).quality.toNat .chroma i)
        qtValid := true
        ht0 := buildTable s.tables.dcLuma
        ht1 := buildTable s.tables.acLuma
        ht2 := buildTable s.tables.dcChroma
        ht3 := buildTable s.tables.acChroma
        htValid := true
        blk := Vector.replicate 64 none
        qblk := Vector.replicate 64 none
        zz := Vector.replicate 64 none
        mem := t.mem, outLen := t.outLen, acc := t.acc, nbits := t.nbits, pred := t.pred, draws := t.draws
        busErrIn := none } : State).failed .busError ∧
      min s.outLen.toNat (latched s).dstCap.toNat ≤ t.outLen.toNat ∧
      t.outLen.toNat ≤ max s.outLen.toNat (latched s).dstCap.toNat ∧
      (∀ a : Nat, a < (latched s).dstAddr.toNat ∨ (latched s).dstAddr.toNat + (latched s).dstCap.toNat ≤ a →
        readByte t a = readByte s a) ∧
      ∃ m ≤ k, ∀ j : Nat, j < s.outLen.toNat → j < (latched s).dstCap.toNat →
        readByte t ((latched s).dstAddr.toNat + j) =
          ((fileOf (latched s) s).take m)[j]?.getD (readByte s ((latched s).dstAddr.toNat + j))

/-- R233, R235, R213: a command reports the first validation check that fails, in the order of R233, and changes only
STATUS; QUANT and ENTROPY check COEF_RANGE and SYMBOL_UNDEFINED before writing anything. -/
def Obligations.ValidationErrors : Prop :=
  (∀ (i : Instr) (s : State) (c : ErrCode), ((validation i s).find? fun e => e.1).map (·.2) = some c →
    exec i s = .next (s.failed c)) ∧
  (∀ (tbl : QTable) (s : State) (b : Vector Rat 64) (q : Vector Byte 64), Valid (.quant tbl) s → s.blk = b.map some →
    s.qt tbl = q.map some →
    (∃ i : Fin 64, quantize Config.roundTie b[i] q[i] < -32768 ∨ 32767 < quantize Config.roundTie b[i] q[i]) →
    exec (.quant tbl) s = .next (s.failed .coefRange)) ∧
  ∀ (ch : Channel) (s : State) (z : Vector (BitVec 16) 64), Valid (.entropy ch) s → s.zz = z.map some →
    (∀ t : HTable, HtWritten (s.ht t)) → (∃ i ∈ entropyItems ch z s, ¬ SymbolDefined s i) →
    exec (.entropy ch) s = .next (s.failed .symbolUndefined)

/-- R16, R238, with log 5: FDCT, QUANT, ZIGZAG and ENTROPY that read an element without a value set the fault mark and
report no code; that they complete, with what they write left open, is the model's reading (log 5). -/
def Obligations.UninitReads : Prop :=
  ∀ s : State,
    ((∃ i : Fin 64, s.blk[i] = none) →
      exec .fdct s =
        .next ({ s with modelFault := some .uninitRead, blk := Vector.replicate 64 none } : State).succeeded ∧
      ∀ tbl, Valid (.quant tbl) s → exec (.quant tbl) s =
        .next ({ s with modelFault := some .uninitRead, qblk := Vector.replicate 64 none } : State).succeeded) ∧
    ((∃ i : Fin 64, s.qblk[i] = none) → exec .zigzag s =
      .next ({ s with modelFault := some .uninitRead, zz := Vector.replicate 64 none } : State).succeeded) ∧
    ((∃ i : Fin 64, s.zz[i] = none) → ∀ ch, Valid (.entropy ch) s → ∃ t : State, exec (.entropy ch) s = .next t ∧
      t = ({ s with
        modelFault := some .uninitRead, mem := t.mem, outLen := t.outLen, acc := t.acc, nbits := t.nbits, pred := t.pred
        draws := t.draws } : State).succeeded ∧
      (∀ ch', ch' ≠ ch → t.pred.get ch' = s.pred.get ch') ∧
      ∀ a : Nat, a < (latched s).dstAddr.toNat + s.outLen.toNat ∨
        (latched s).dstAddr.toNat + (latched s).dstCap.toNat ≤ a → readByte t a = readByte s a)

/-- R53, R238: once set, the fault mark stays, a soft reset included, but for a hard reset; a command sets it only by reading
an element without a value; ENCODE never does. R53 and R261 leave open which reset clears the mark: that a soft reset keeps
it, being a step within the run (R263), and a hard reset clears it, starting a new one, is the model's choice (log 6). -/
def Obligations.FaultMark : Prop :=
  (∀ s t : State, step s = .next t → s.modelFault = some .uninitRead →
    t.modelFault = some .uninitRead ∨ s.inputs.head? = some .hardReset) ∧
  ∀ (i : Instr) (s t : State), s.Inv → exec i s = .next t → t.modelFault ≠ s.modelFault →
    (i = .fdct ∧ ∃ k : Fin 64, s.blk[k] = none) ∨ (∃ tbl, i = .quant tbl ∧ ∃ k : Fin 64, s.blk[k] = none) ∨
    (i = .zigzag ∧ ∃ k : Fin 64, s.qblk[k] = none) ∨ ∃ ch, i = .entropy ch ∧ ∃ k : Fin 64, s.zz[k] = none

/-! ### Rules over all commands -/

/-- R234: every command, in every state, completes: BUSY and the busy latch are cleared and DONE is set; ERR and ERRCODE are
left alone or report one of the codes of R231. For FDCT, QUANT, ZIGZAG and ENTROPY that read an element without a value
the spec leaves the hardware's result open (R16, R238); that they complete too is the model's reading (log 5). -/
def Obligations.EveryCommandCompletes : Prop :=
  ∀ (i : Instr) (s : State), ∃ t : State, exec i s = .next t ∧
    t.busy = false ∧ t.done = true ∧ t.pending = none ∧ t.encPos = none ∧
    ((t.err = s.err ∧ t.errcode = s.errcode) ∨ (t.err = true ∧ ∃ c : ErrCode, t.errcode = c.code)) ∧
    ∀ c : ErrCode, 1 ≤ c.code.toNat ∧ c.code.toNat ≤ 0x0C

/-- R88, R47, R27 to R32, R46: however a command ends, it changes only what its row of R88 writes, and STATUS; the parameter
registers, IRQ_EN and OVERRUN are never written by a command; no command clears a valid flag. (OUT_OVERFLOW also opens ACC
and NBITS of WRITE_HEADERS and WRITE_EOI, as R236 says; log 17.) -/
def Obligations.CommandsWriteOnlyTheirColumn : Prop :=
  ∀ (i : Instr) (s t : State), exec i s = .next t →
    t.regs = s.regs ∧ t.tables = s.tables ∧ t.irqEn = s.irqEn ∧ t.overrun = s.overrun ∧ t.inputs = s.inputs ∧ t.resp = s.resp ∧
    (s.qtValid = true → t.qtValid = true) ∧ (s.htValid = true → t.htValid = true) ∧
    (i ≠ .qtScale → i ≠ .encode → t.qt0 = s.qt0 ∧ t.qt1 = s.qt1 ∧ t.qtValid = s.qtValid) ∧
    (i ≠ .huffBuild → i ≠ .encode →
      t.ht0 = s.ht0 ∧ t.ht1 = s.ht1 ∧ t.ht2 = s.ht2 ∧ t.ht3 = s.ht3 ∧ t.htValid = s.htValid) ∧
    (i ≠ .fdct → (∀ ch, i ≠ .sample ch) → i ≠ .encode → t.blk = s.blk) ∧
    ((∀ tbl, i ≠ .quant tbl) → i ≠ .encode → t.qblk = s.qblk) ∧
    (i ≠ .zigzag → i ≠ .encode → t.zz = s.zz) ∧
    (emits i = false → t.mem = s.mem) ∧
    (emits i = false → i ≠ .resetStream → t.outLen = s.outLen) ∧
    (emits i = false → i ≠ .resetStream → t.acc = s.acc ∧ t.nbits = s.nbits) ∧
    (i = .writeHeaders ∨ i = .writeEoi → (t.acc = s.acc ∧ t.nbits = s.nbits) ∨ (t.err = true ∧ t.errcode = 0x06)) ∧
    ∀ ch, i ≠ .entropy ch → i ≠ .resetStream → i ≠ .encode → t.pred.get ch = s.pred.get ch

/-- R60, R62: however a command ends, every byte of memory outside its output region is as before. -/
def Obligations.OnlyOutputRegionWritten : Prop :=
  ∀ (i : Instr) (s t : State), exec i s = .next t → ∀ a : Nat,
    ¬ ((latched s).dstAddr.toNat ≤ a ∧ a < (latched s).dstAddr.toNat + (latched s).dstCap.toNat) →
    readByte t a = readByte s a

/-- R60, R88: memory matters only to SAMPLE and ENCODE, and to them only inside the pixel region: with any other memory that
agrees there, a command leaves the same state but for memory, and writes the same bytes at the same addresses. -/
def Obligations.OnlyPixelRegionRead : Prop :=
  ∀ (i : Instr) (s t u : State) (m : Memory), exec i s = .next t → exec i { s with mem := m } = .next u →
    (i = .encode ∨ (∃ ch, i = .sample ch) → ∀ a : Nat, (latched s).srcAddr.toNat ≤ a →
      a < (latched s).srcAddr.toNat + (latched s).srcLen.toNat → readByte { s with mem := m } a = readByte s a) →
    u = { t with mem := u.mem } ∧
    ∀ a : Nat, readByte u a = readByte t a ∨
      (readByte u a = readByte { s with mem := m } a ∧ readByte t a = readByte s a)

/-! ### Invariants -/

/-- R24, R39, R41, R46, R50, R51, R60: every step keeps the invariant of the block's state, and the tables it is built
with. -/
def Obligations.StepKeepsInv : Prop :=
  ∀ s t : State, s.Inv → step s = .next t → t.Inv ∧ t.tables = s.tables

/-- The invariant holds after reset. -/
def Obligations.ResetHasInv : Prop := State.reset.Inv

/-- R45: every step keeps ACC < 2^NBITS, but the core's step that ends an emitting command with OUT_OVERFLOW or BUS_ERROR,
or an ENTROPY that reads a missing element, which leave the bit writer open (R236 to R238); it holds after reset. -/
def Obligations.BitInvKept : Prop :=
  State.reset.BitInv ∧ ∀ s t : State, s.Inv → s.BitInv → step s = .next t → t.BitInv ∨
    ∃ (p : Pending) (i : Instr), CoreMoves s ∧ s.pending = some p ∧ decode p.word = .ok i ∧ emits i = true ∧
      ((t.err = true ∧ (t.errcode = 0x06 ∨ t.errcode = 0x09)) ∨ ∃ ch, i = .entropy ch ∧ ∃ k : Fin 64, s.zz[k] = none)

/-- R33: OUT_LEN <= DST_CAP at every command completion, unless DST_CAP is below the OUT_LEN that the command began with. -/
def Obligations.OutLenWithinCap : Prop :=
  ∀ (i : Instr) (s t : State), exec i s = .next t → s.outLen.toNat ≤ (latched s).dstCap.toNat →
    t.outLen.toNat ≤ (latched s).dstCap.toNat

/-! ### Reset, interrupt and the register port -/

/-- R260 to R263: the reset state; a hard reset and a soft reset put every element of the block into it, whatever the block
was doing; neither touches memory, but for the output region of a command that a soft reset abandons. That a soft reset
keeps the fault mark is the model's reading (log 6), and so is the hard reset as one step (log 18). -/
def Obligations.ResetState : Prop :=
  (let r := State.reset;
    r.irqEn = false ∧ r.busy = false ∧ r.done = false ∧ r.err = false ∧ r.overrun = false ∧ r.errcode = 0 ∧
    r.qtValid = false ∧ r.htValid = false ∧ r.regs = ⟨0, 0, 0, 0, 85, 0, 0, 0, 0⟩ ∧ r.outLen = 0 ∧ r.acc = 0 ∧ r.nbits = 0 ∧
    r.pred = ⟨0, 0, 0⟩ ∧ (∀ i : Fin 64, r.qt0[i] = none ∧ r.qt1[i] = none ∧ r.blk[i] = none ∧ r.qblk[i] = none ∧
      r.zz[i] = none) ∧ (∀ (t : HTable) (i : Fin 256), (r.ht t)[i] = none) ∧ r.pending = none ∧ r.encPos = none ∧
    r.modelFault = none ∧ irq r = false) ∧
  ∀ (s : State) (rest : List Event),
    step { s with inputs := .hardReset :: rest } = .next { State.reset with
      mem := s.mem, inputs := rest, resp := s.resp, draws := s.draws, busErrIn := s.busErrIn, tables := s.tables } ∧
    ∀ d : Word, d.getLsbD 0 = true →
      ∃ t : State, step { s with inputs := .regWrite 0x008 .word d :: rest } = .next t ∧
        t = { State.reset with
          modelFault := s.modelFault, mem := t.mem, inputs := rest, resp := .ack, draws := t.draws
          busErrIn := s.busErrIn, tables := s.tables } ∧
        (s.pending = none → t.mem = s.mem) ∧
        ∀ p, s.pending = some p → ∀ a : Nat,
          a < p.params.dstAddr.toNat ∨ p.params.dstAddr.toNat + p.params.dstCap.toNat ≤ a → readByte t a = readByte s a

/-- R23: CTRL at any time, BUSY or not: a write with bit 0 = 0 sets IRQ_EN to bit 1 and nothing else; with bit 0 = 1 IRQ_EN
is 0 afterwards; a read shows IRQ_EN in bit 1 and 0 elsewhere. -/
def Obligations.CtrlRegister : Prop :=
  ∀ (s : State) (rest : List Event) (d : Word),
    (d.getLsbD 0 = false → step { s with inputs := .regWrite 0x008 .word d :: rest } =
      .next { s with inputs := rest, resp := .ack, irqEn := d.getLsbD 1 }) ∧
    (d.getLsbD 0 = true → ∃ t : State, step { s with inputs := .regWrite 0x008 .word d :: rest } = .next t ∧
      t.irqEn = false ∧ t.busy = false ∧ t.overrun = false) ∧
    step { s with inputs := .regRead 0x008 .word :: rest } =
      .next { s with inputs := rest, resp := .data (if s.irqEn then 2 else 0) }

/-- R25: a write to STATUS at any time, BUSY or not: bit 1 clears DONE, bit 2 clears ERR and ERRCODE, bit 3 clears OVERRUN,
nothing else changes. -/
def Obligations.StatusWrite : Prop :=
  ∀ (s : State) (rest : List Event) (d : Word), step { s with inputs := .regWrite 0x00C .word d :: rest } =
    .next { s with
      inputs := rest
      resp := .ack
      done := if d.getLsbD 1 then false else s.done
      err := if d.getLsbD 2 then false else s.err
      errcode := if d.getLsbD 2 then 0 else s.errcode
      overrun := if d.getLsbD 3 then false else s.overrun }

/-- R24, R34: STATUS reads its flags and ERRCODE at their bits and 0 elsewhere, at any time; BW_STATE reads ACC and NBITS and
OUT_LEN its count while no command writes them. -/
def Obligations.StatusAndStreamReads : Prop :=
  ∀ (s : State) (rest : List Event),
    (∃ d : Word, step { s with inputs := .regRead 0x00C .word :: rest } =
      .next { s with inputs := rest, resp := .data d } ∧
      d.getLsbD 0 = s.busy ∧ d.getLsbD 1 = s.done ∧ d.getLsbD 2 = s.err ∧ d.getLsbD 3 = s.overrun ∧
      d.getLsbD 4 = s.qtValid ∧ d.getLsbD 5 = s.htValid ∧ d.getLsbD 6 = false ∧ d.getLsbD 7 = false ∧
      d.toNat / 2 ^ 8 = s.errcode.toNat) ∧
    (s.busy = false →
      step { s with inputs := .regRead 0x038 .word :: rest } = .next { s with inputs := rest, resp := .data s.outLen } ∧
      ∃ d : Word, step { s with inputs := .regRead 0x03C .word :: rest } =
        .next { s with inputs := rest, resp := .data d } ∧
        d.toNat % 2 ^ 8 = s.acc.toNat ∧ d.toNat / 2 ^ 8 = s.nbits.toNat)

/-- R240, R52: `irq` is IRQ_EN and (DONE or ERR) at every instant; it falls when STATUS bits 1 and 2 are cleared, when the
next command is accepted and at either reset, and rises at a command's completion with IRQ_EN = 1 and at once when IRQ_EN
is set while DONE = 1. Over all steps: only a completion or a write of IRQ_EN = 1 raises it; only a write that clears DONE
or ERR or IRQ_EN, an accepted command or a reset lets it fall. -/
def Obligations.InterruptOutput : Prop :=
  (∀ s : State, irq s = true ↔ s.irqEn = true ∧ (s.done = true ∨ s.err = true)) ∧
  (∀ (s : State) (rest : List Event) (d : Word),
    (d.getLsbD 1 = true → d.getLsbD 2 = true →
      ∃ t : State, step { s with inputs := .regWrite 0x00C .word d :: rest } = .next t ∧ irq t = false) ∧
    (s.busy = false → ∃ t : State, step { s with inputs := .regWrite 0x010 .word d :: rest } = .next t ∧ irq t = false) ∧
    (∃ t : State, step { s with inputs := .hardReset :: rest } = .next t ∧ irq t = false) ∧
    (d.getLsbD 0 = true →
      ∃ t : State, step { s with inputs := .regWrite 0x008 .word d :: rest } = .next t ∧ irq t = false) ∧
    (s.done = true → d.getLsbD 0 = false → d.getLsbD 1 = true →
      ∃ t : State, step { s with inputs := .regWrite 0x008 .word d :: rest } = .next t ∧ irq t = true)) ∧
  (∀ s : State, CoreMoves s → s.pending.isSome = true → s.irqEn = true → ∃ t : State, step s = .next t ∧ irq t = true) ∧
  ∀ s t : State, step s = .next t →
    (irq s = false → irq t = true → (CoreMoves s ∧ s.pending.isSome = true) ∨
      ∃ d : Word, s.inputs.head? = some (.regWrite 0x008 .word d) ∧ d.getLsbD 0 = false ∧ d.getLsbD 1 = true) ∧
    (irq s = true → irq t = false → s.inputs.head? = some .hardReset ∨
      ∃ d : Word,
        (s.inputs.head? = some (.regWrite 0x00C .word d) ∧ (d.getLsbD 1 = true ∨ d.getLsbD 2 = true)) ∨
        (s.inputs.head? = some (.regWrite 0x010 .word d) ∧ s.busy = false) ∨
        (s.inputs.head? = some (.regWrite 0x008 .word d) ∧ (d.getLsbD 0 = true ∨ d.getLsbD 1 = false)))

/-- R66, R253: a sub-word or misaligned access of the register port gets a bus error and changes nothing; an aligned word
access never gets one; a read changes nothing of the block. -/
def Obligations.PortBusErrors : Prop :=
  ∀ (s : State) (rest : List Event) (off : BitVec 13) (size : AccessSize) (d : Word),
    (size ≠ .word ∨ off.toNat % 4 ≠ 0 →
      step { s with inputs := .regWrite off size d :: rest } = .next { s with inputs := rest, resp := .busError } ∧
      step { s with inputs := .regRead off size :: rest } = .next { s with inputs := rest, resp := .busError }) ∧
    (size = .word → off.toNat % 4 = 0 →
      (∃ t : State, step { s with inputs := .regWrite off size d :: rest } = .next t ∧ t.resp = .ack) ∧
      ∃ (t : State) (w : Word), step { s with inputs := .regRead off size :: rest } = .next t ∧
        t = { s with inputs := rest, resp := .data w, draws := t.draws })

/-- R27 to R32, R35: while BUSY = 0 a write to a read-write register stores all 32 bits there and nowhere else, and a read
gives them back. -/
def Obligations.RegisterReadBack : Prop :=
  ∀ (s : State) (rest : List Event) (d : Word), s.busy = false →
    (∀ off : BitVec 13, (paramAt s.regs off.toNat).isSome = true →
      ∃ t : State, step { s with inputs := .regWrite off .word d :: .regRead off .word :: rest } = .next t ∧
        t = { s with inputs := .regRead off .word :: rest, resp := .ack, regs := t.regs } ∧
        paramAt t.regs off.toNat = some d ∧
        (∀ o : Nat, o ≠ off.toNat → paramAt t.regs o = paramAt s.regs o) ∧
        step t = .next { t with inputs := rest, resp := .data d }) ∧
    ∀ (ch : Channel) (off : BitVec 13), off = (match ch with | .y => 0x040 | .cb => 0x044 | .cr => 0x048) →
      ∃ t : State, step { s with inputs := .regWrite off .word d :: .regRead off .word :: rest } = .next t ∧
        t = { s with inputs := .regRead off .word :: rest, resp := .ack, pred := s.pred.set ch d } ∧
        (s.pred.set ch d).get ch = d ∧ (∀ c, c ≠ ch → (s.pred.set ch d).get c = s.pred.get c) ∧
        step t = .next { t with inputs := rest, resp := .data d }

/-- R22, R36, R37: ID and VERSION read their constants at any time; while BUSY = 0 a write to a read-only register or
window or to a reserved offset is ignored; a reserved offset reads 0; the read-only flags of STATUS are not written. -/
def Obligations.ReadOnlyWritesIgnored : Prop :=
  ∀ (s : State) (rest : List Event),
    step { s with inputs := .regRead 0x000 .word :: rest } = .next { s with inputs := rest, resp := .data 0x4A504547 } ∧
    step { s with inputs := .regRead 0x004 .word :: rest } = .next { s with inputs := rest, resp := .data 0x00000001 } ∧
    (∀ (off : BitVec 13) (d : Word), off.toNat % 4 = 0 →
      let reserved := (0x04C ≤ off.toNat ∧ off.toNat ≤ 0x3FC) ∨ (0x900 ≤ off.toNat ∧ off.toNat ≤ 0xFFC)
      let readOnly := off.toNat = 0x000 ∨ off.toNat = 0x004 ∨ off.toNat = 0x038 ∨ off.toNat = 0x03C ∨
        (0x400 ≤ off.toNat ∧ off.toNat ≤ 0x5FC) ∨ 0x1000 ≤ off.toNat
      (reserved ∨ readOnly → s.busy = false →
        step { s with inputs := .regWrite off .word d :: rest } = .next { s with inputs := rest, resp := .ack }) ∧
      (reserved → step { s with inputs := .regRead off .word :: rest } =
        .next { s with inputs := rest, resp := .data 0 })) ∧
    ∀ d : Word, ∃ t : State, step { s with inputs := .regWrite 0x00C .word d :: rest } = .next t ∧
      t.busy = s.busy ∧ t.qtValid = s.qtValid ∧ t.htValid = s.htValid

/-- R40 to R44: the windows while BUSY = 0: QT reads its entry, HT its packed entry, QBLK and ZZ their sign-extended element,
BLK the word BLK_READ gives; an entry or element without a value reads a word that nothing fixes (R16), and the read gives
it none; a host write sets a BLK element exactly and a QBLK or ZZ element to the low 16 bits. -/
def Obligations.Windows : Prop :=
  ∀ (s : State) (rest : List Event), s.busy = false →
    (∀ (i : Fin 64) (b : Byte),
      (s.qt0[i] = some b → step { s with inputs := .regRead (BitVec.ofNat 13 (0x400 + 4 * i.val)) .word :: rest } =
        .next { s with inputs := rest, resp := .data (b.setWidth 32) }) ∧
      (s.qt1[i] = some b → step { s with inputs := .regRead (BitVec.ofNat 13 (0x500 + 4 * i.val)) .word :: rest } =
        .next { s with inputs := rest, resp := .data (b.setWidth 32) })) ∧
    (∀ (t : Fin 4) (v : Fin 256) (e : HtEntry),
      (s.ht (match t with | 0 => .dcLuma | 1 => .acLuma | 2 => .dcChroma | 3 => .acChroma))[v] = some e →
      ∃ d : Word, step { s with
          inputs := .regRead (BitVec.ofNat 13 (0x1000 + 0x400 * t.val + 4 * v.val)) .word :: rest } =
        .next { s with inputs := rest, resp := .data d } ∧
        d.toNat = if e.valid then 2 ^ 31 + e.len.toNat * 2 ^ 16 + e.code.toNat else 0) ∧
    (∀ (i : Fin 64) (r : Rat), s.blk[i] = some r →
      step { s with inputs := .regRead (BitVec.ofNat 13 (0x600 + 4 * i.val)) .word :: rest } =
        .next { s with inputs := rest, resp := .data (Config.blkRead r) }) ∧
    (∀ (i : Fin 64) (c : BitVec 16),
      (s.qblk[i] = some c → step { s with inputs := .regRead (BitVec.ofNat 13 (0x700 + 4 * i.val)) .word :: rest } =
        .next { s with inputs := rest, resp := .data (c.signExtend 32) }) ∧
      (s.zz[i] = some c → step { s with inputs := .regRead (BitVec.ofNat 13 (0x800 + 4 * i.val)) .word :: rest } =
        .next { s with inputs := rest, resp := .data (c.signExtend 32) })) ∧
    (let readsOpen := fun off : Nat => step { s with inputs := .regRead (BitVec.ofNat 13 off) .word :: rest } =
      .next { s with inputs := rest, resp := .data (Config.freeWord s.draws), draws := s.draws + 1 }
    (∀ i : Fin 64, (s.qt0[i] = none → readsOpen (0x400 + 4 * i.val)) ∧ (s.qt1[i] = none → readsOpen (0x500 + 4 * i.val)) ∧
      (s.blk[i] = none → readsOpen (0x600 + 4 * i.val)) ∧ (s.qblk[i] = none → readsOpen (0x700 + 4 * i.val)) ∧
      (s.zz[i] = none → readsOpen (0x800 + 4 * i.val))) ∧
    ∀ v : Fin 256, (s.ht0[v] = none → readsOpen (0x1000 + 4 * v.val)) ∧ (s.ht1[v] = none → readsOpen (0x1400 + 4 * v.val)) ∧
      (s.ht2[v] = none → readsOpen (0x1800 + 4 * v.val)) ∧ (s.ht3[v] = none → readsOpen (0x1C00 + 4 * v.val))) ∧
    ∀ (i : Fin 64) (d : Word),
      step { s with inputs := .regWrite (BitVec.ofNat 13 (0x600 + 4 * i.val)) .word d :: rest } =
        .next { s with inputs := rest, resp := .ack, blk := s.blk.set i (some (d.toInt : Rat)) } ∧
      step { s with inputs := .regWrite (BitVec.ofNat 13 (0x700 + 4 * i.val)) .word d :: rest } =
        .next { s with inputs := rest, resp := .ack, qblk := s.qblk.set i (some (BitVec.ofNat 16 d.toNat)) } ∧
      step { s with inputs := .regWrite (BitVec.ofNat 13 (0x800 + 4 * i.val)) .word d :: rest } =
        .next { s with inputs := rest, resp := .ack, zz := s.zz.set i (some (BitVec.ofNat 16 d.toNat)) }

/-- R271: while BUSY = 1 a write to any offset but CTRL and STATUS is dropped and sets OVERRUN; OVERRUN stays set until a
write of 1 to STATUS bit 3 or a reset. -/
def Obligations.BusyWritesDropped : Prop :=
  (∀ (s : State) (rest : List Event) (off : BitVec 13) (d : Word), s.busy = true → off.toNat % 4 = 0 →
    off.toNat ≠ 0x008 → off.toNat ≠ 0x00C →
    step { s with inputs := .regWrite off .word d :: rest } = .next { s with inputs := rest, resp := .ack, overrun := true }) ∧
  (∀ (s t : State) (rest : List Event) (off : BitVec 13) (d : Word), off.toNat = 0x008 ∨ off.toNat = 0x00C →
    step { s with inputs := .regWrite off .word d :: rest } = .next t → d.getLsbD 0 = false ∨ off.toNat = 0x00C →
    step { s with busy := true, inputs := .regWrite off .word d :: rest } = .next { t with busy := true }) ∧
  ∀ s t : State, step s = .next t → s.overrun = true → t.overrun = true ∨
    (∃ d : Word, s.inputs.head? = some (.regWrite 0x00C .word d) ∧ d.getLsbD 3 = true) ∨
    (∃ d : Word, s.inputs.head? = some (.regWrite 0x008 .word d) ∧ d.getLsbD 0 = true) ∨
    s.inputs.head? = some .hardReset

/-- R272: while BUSY = 1 a register or window that the running command does not write reads as when idle (STATUS with
BUSY = 1); one that it writes reads a word that nothing fixes; no read disturbs the command. While a word waits that does
not decode, everything reads as when idle: such a command writes nothing (R84). -/
def Obligations.BusyReads : Prop :=
  (∀ (s t : State) (p : Pending) (i : Instr) (rest : List Event) (off : BitVec 13),
    s.pending = some p → decode p.word = .ok i → off.toNat % 4 = 0 → off.toNat ≠ 0x00C →
    (writesAt i off.toNat = false → step { s with busy := false, inputs := .regRead off .word :: rest } = .next t →
      step { s with busy := true, inputs := .regRead off .word :: rest } = .next { t with busy := true }) ∧
    (writesAt i off.toNat = true → step { s with busy := true, inputs := .regRead off .word :: rest } =
      .next { s with
        busy := true, inputs := rest, resp := .data (Config.freeWord s.draws), draws := s.draws + 1 })) ∧
  ∀ (s t : State) (p : Pending) (c : ErrCode) (rest : List Event) (off : BitVec 13),
    s.pending = some p → decode p.word = .error c → off.toNat % 4 = 0 → off.toNat ≠ 0x00C →
    step { s with busy := false, inputs := .regRead off .word :: rest } = .next t →
    step { s with busy := true, inputs := .regRead off .word :: rest } = .next { t with busy := true }

/-- R70, R74, R270: while BUSY = 1 a host that changes a byte of the pixel region or touches the output region has no move;
every other access of the host to memory, also a write that leaves a byte of the pixel region as it is, takes effect at
once: a write stores its byte and nothing else, a read gives the byte last written. -/
def Obligations.HostMemoryAccess : Prop :=
  ∀ (s : State) (rest : List Event) (a : Word) (b : Byte),
    let p := latched s
    let inOutput := s.busy = true ∧ p.dstAddr.toNat ≤ a.toNat ∧ a.toNat < p.dstAddr.toNat + p.dstCap.toNat
    let changesPixels := s.busy = true ∧ p.srcAddr.toNat ≤ a.toNat ∧ a.toNat < p.srcAddr.toNat + p.srcLen.toNat ∧
      b ≠ readByte s a.toNat
    (inOutput → (∃ r, step { s with inputs := .memWrite a b :: rest } = .refused r) ∧
      ∃ r, step { s with inputs := .memRead a :: rest } = .refused r) ∧
    (changesPixels → ∃ r, step { s with inputs := .memWrite a b :: rest } = .refused r) ∧
    (¬ inOutput → step { s with inputs := .memRead a :: rest } =
      .next { s with inputs := rest, resp := .memData (readByte s a.toNat) }) ∧
    (¬ inOutput → ¬ changesPixels → ∃ t : State, step { s with inputs := .memWrite a b :: rest } = .next t ∧
      t = { s with inputs := rest, resp := .ack, mem := t.mem } ∧ Stored a.toNat [b] s t)
end

