-- ==== Sys2Proof/Laws/Memory.lean ====
section
/-!
SUPPORT. Sys2Proof/Laws/Memory.lean: the laws of system memory: a read after a write, and that every write keeps the
canonical form.
-/
namespace Sys2Proof.Machine

/-- A read after a write to the same address gives the byte written. -/
@[simp] theorem Memory.find_put_same (m : Memory) (x : Nat) (v : Byte) : Memory.find (Memory.put m x v) x = some v := by
  induction m with
  | nil => simp [Memory.put, Memory.find]
  | cons c m ih =>
    obtain ⟨a, b⟩ := c
    unfold Memory.put
    split
    · simp [Memory.find]
    · split
      · simp [Memory.find]
      · rename_i h1 h2
        simp only [Memory.find]
        rw [if_neg (fun h => h2 h.symm), ih]

/-- A write leaves every other address alone. -/
theorem Memory.find_put_other (m : Memory) {x y : Nat} (v : Byte) (h : y ≠ x) :
    Memory.find (Memory.put m x v) y = Memory.find m y := by
  induction m with
  | nil => simp [Memory.put, Memory.find, Ne.symm h]
  | cons c m ih =>
    obtain ⟨a, b⟩ := c
    unfold Memory.put
    split
    · simp [Memory.find, Ne.symm h]
    · split
      · rename_i h2
        subst h2
        simp [Memory.find, Ne.symm h]
      · simp only [Memory.find, ih]

/-- Every address of a memory after a write is an old one or the one written. -/
theorem Memory.mem_put (m : Memory) (x : Nat) (v : Byte) {c : Host.Cell} (hc : c ∈ Memory.put m x v) :
    c ∈ m ∨ c.1 = x := by
  induction m with
  | nil => simp only [Memory.put, List.mem_singleton] at hc; subst hc; exact .inr rfl
  | cons d m ih =>
    obtain ⟨a, b⟩ := d
    unfold Memory.put at hc
    split at hc
    · rcases List.mem_cons.1 hc with rfl | h
      · exact .inr rfl
      · exact .inl h
    · split at hc
      · rcases List.mem_cons.1 hc with rfl | h
        · exact .inr rfl
        · exact .inl (List.mem_cons_of_mem _ h)
      · rcases List.mem_cons.1 hc with rfl | h
        · exact .inl List.mem_cons_self
        · exact (ih h).imp (List.mem_cons_of_mem _) id

/-- A write keeps the canonical form. -/
theorem Memory.put_wf {m : Memory} (h : Memory.wf m) {x : Nat} (hx : x < 2 ^ 32) (v : Byte) :
    Memory.wf (Memory.put m x v) := by
  refine ⟨?_, fun c hc => (Memory.mem_put m x v hc).elim (h.2 c) fun he => he ▸ hx⟩
  have hp := h.1
  clear h hx
  induction m with
  | nil => simp [Memory.put]
  | cons d m ih =>
    obtain ⟨a, b⟩ := d
    obtain ⟨hd, hm⟩ := List.pairwise_cons.1 hp
    unfold Memory.put
    split
    · rename_i hlt
      refine List.pairwise_cons.2 ⟨fun c hc => ?_, hp⟩
      rcases List.mem_cons.1 hc with rfl | h
      · exact hlt
      · exact lt_trans hlt (hd c h)
    · split
      · rename_i he
        subst he
        exact List.pairwise_cons.2 ⟨hd, hm⟩
      · rename_i h1 h2
        refine List.pairwise_cons.2 ⟨fun c hc => ?_, ih hm⟩
        rcases Memory.mem_put m x v hc with h | h
        · exact hd c h
        · rw [h]; change a < x; omega

/-- Reading one byte after a store (R63). -/
theorem readByte_storeByte (s : State) (x y : Nat) (v : Byte) :
    readByte (storeByte x v s) y = if y = x then v else readByte s y := by
  unfold readByte storeByte
  split
  · subst_vars; simp
  · simp only [Memory.find_put_other _ _ ‹_›]

/-- A read depends on the memory alone. -/
theorem readByte_congr {s t : State} (h : t.mem = s.mem) (a : Nat) : readByte t a = readByte s a := by
  unfold readByte; rw [h]

end Sys2Proof.Machine
end

