-- ==== Sys2Proof/Laws/State.lean ====
section
/-!
SUPPORT. Sys2Proof/Laws/State.lean: what each named update does to each field of the state, one lemma a field, so that
no proof unfolds a record update.
-/
namespace Sys2Proof.Machine

/-! ### storeByte -/

@[simp] theorem storeByte_irqEn (a : Nat) (b : Byte) (s : State) : (storeByte a b s).irqEn = s.irqEn := rfl
@[simp] theorem storeByte_busy (a : Nat) (b : Byte) (s : State) : (storeByte a b s).busy = s.busy := rfl
@[simp] theorem storeByte_done (a : Nat) (b : Byte) (s : State) : (storeByte a b s).done = s.done := rfl
@[simp] theorem storeByte_err (a : Nat) (b : Byte) (s : State) : (storeByte a b s).err = s.err := rfl
@[simp] theorem storeByte_overrun (a : Nat) (b : Byte) (s : State) : (storeByte a b s).overrun = s.overrun := rfl
@[simp] theorem storeByte_errcode (a : Nat) (b : Byte) (s : State) : (storeByte a b s).errcode = s.errcode := rfl
@[simp] theorem storeByte_qtValid (a : Nat) (b : Byte) (s : State) : (storeByte a b s).qtValid = s.qtValid := rfl
@[simp] theorem storeByte_htValid (a : Nat) (b : Byte) (s : State) : (storeByte a b s).htValid = s.htValid := rfl
@[simp] theorem storeByte_regs (a : Nat) (b : Byte) (s : State) : (storeByte a b s).regs = s.regs := rfl
@[simp] theorem storeByte_outLen (a : Nat) (b : Byte) (s : State) : (storeByte a b s).outLen = s.outLen := rfl
@[simp] theorem storeByte_acc (a : Nat) (b : Byte) (s : State) : (storeByte a b s).acc = s.acc := rfl
@[simp] theorem storeByte_nbits (a : Nat) (b : Byte) (s : State) : (storeByte a b s).nbits = s.nbits := rfl
@[simp] theorem storeByte_pred (a : Nat) (b : Byte) (s : State) : (storeByte a b s).pred = s.pred := rfl
@[simp] theorem storeByte_qt0 (a : Nat) (b : Byte) (s : State) : (storeByte a b s).qt0 = s.qt0 := rfl
@[simp] theorem storeByte_qt1 (a : Nat) (b : Byte) (s : State) : (storeByte a b s).qt1 = s.qt1 := rfl
@[simp] theorem storeByte_ht0 (a : Nat) (b : Byte) (s : State) : (storeByte a b s).ht0 = s.ht0 := rfl
@[simp] theorem storeByte_ht1 (a : Nat) (b : Byte) (s : State) : (storeByte a b s).ht1 = s.ht1 := rfl
@[simp] theorem storeByte_ht2 (a : Nat) (b : Byte) (s : State) : (storeByte a b s).ht2 = s.ht2 := rfl
@[simp] theorem storeByte_ht3 (a : Nat) (b : Byte) (s : State) : (storeByte a b s).ht3 = s.ht3 := rfl
@[simp] theorem storeByte_blk (a : Nat) (b : Byte) (s : State) : (storeByte a b s).blk = s.blk := rfl
@[simp] theorem storeByte_qblk (a : Nat) (b : Byte) (s : State) : (storeByte a b s).qblk = s.qblk := rfl
@[simp] theorem storeByte_zz (a : Nat) (b : Byte) (s : State) : (storeByte a b s).zz = s.zz := rfl
@[simp] theorem storeByte_pending (a : Nat) (b : Byte) (s : State) : (storeByte a b s).pending = s.pending := rfl
@[simp] theorem storeByte_encPos (a : Nat) (b : Byte) (s : State) : (storeByte a b s).encPos = s.encPos := rfl
@[simp] theorem storeByte_modelFault (a : Nat) (b : Byte) (s : State) : (storeByte a b s).modelFault = s.modelFault := rfl
@[simp] theorem storeByte_mem (a : Nat) (b : Byte) (s : State) : (storeByte a b s).mem = Memory.put s.mem a b := rfl
@[simp] theorem storeByte_inputs (a : Nat) (b : Byte) (s : State) : (storeByte a b s).inputs = s.inputs := rfl
@[simp] theorem storeByte_resp (a : Nat) (b : Byte) (s : State) : (storeByte a b s).resp = s.resp := rfl
@[simp] theorem storeByte_draws (a : Nat) (b : Byte) (s : State) : (storeByte a b s).draws = s.draws := rfl
@[simp] theorem storeByte_busErrIn (a : Nat) (b : Byte) (s : State) : (storeByte a b s).busErrIn = s.busErrIn := rfl
@[simp] theorem storeByte_tables (a : Nat) (b : Byte) (s : State) : (storeByte a b s).tables = s.tables := rfl

/-! ### accept -/

@[simp] theorem accept_irqEn (w : Word) (s : State) : (accept w s).irqEn = s.irqEn := rfl
@[simp] theorem accept_busy (w : Word) (s : State) : (accept w s).busy = true := rfl
@[simp] theorem accept_done (w : Word) (s : State) : (accept w s).done = false := rfl
@[simp] theorem accept_err (w : Word) (s : State) : (accept w s).err = false := rfl
@[simp] theorem accept_overrun (w : Word) (s : State) : (accept w s).overrun = s.overrun := rfl
@[simp] theorem accept_errcode (w : Word) (s : State) : (accept w s).errcode = 0 := rfl
@[simp] theorem accept_qtValid (w : Word) (s : State) : (accept w s).qtValid = s.qtValid := rfl
@[simp] theorem accept_htValid (w : Word) (s : State) : (accept w s).htValid = s.htValid := rfl
@[simp] theorem accept_regs (w : Word) (s : State) : (accept w s).regs = s.regs := rfl
@[simp] theorem accept_outLen (w : Word) (s : State) : (accept w s).outLen = s.outLen := rfl
@[simp] theorem accept_acc (w : Word) (s : State) : (accept w s).acc = s.acc := rfl
@[simp] theorem accept_nbits (w : Word) (s : State) : (accept w s).nbits = s.nbits := rfl
@[simp] theorem accept_pred (w : Word) (s : State) : (accept w s).pred = s.pred := rfl
@[simp] theorem accept_qt0 (w : Word) (s : State) : (accept w s).qt0 = s.qt0 := rfl
@[simp] theorem accept_qt1 (w : Word) (s : State) : (accept w s).qt1 = s.qt1 := rfl
@[simp] theorem accept_ht0 (w : Word) (s : State) : (accept w s).ht0 = s.ht0 := rfl
@[simp] theorem accept_ht1 (w : Word) (s : State) : (accept w s).ht1 = s.ht1 := rfl
@[simp] theorem accept_ht2 (w : Word) (s : State) : (accept w s).ht2 = s.ht2 := rfl
@[simp] theorem accept_ht3 (w : Word) (s : State) : (accept w s).ht3 = s.ht3 := rfl
@[simp] theorem accept_blk (w : Word) (s : State) : (accept w s).blk = s.blk := rfl
@[simp] theorem accept_qblk (w : Word) (s : State) : (accept w s).qblk = s.qblk := rfl
@[simp] theorem accept_zz (w : Word) (s : State) : (accept w s).zz = s.zz := rfl
@[simp] theorem accept_pending (w : Word) (s : State) : (accept w s).pending = some ⟨w, s.regs⟩ := rfl
@[simp] theorem accept_encPos (w : Word) (s : State) : (accept w s).encPos = s.encPos := rfl
@[simp] theorem accept_modelFault (w : Word) (s : State) : (accept w s).modelFault = s.modelFault := rfl
@[simp] theorem accept_mem (w : Word) (s : State) : (accept w s).mem = s.mem := rfl
@[simp] theorem accept_inputs (w : Word) (s : State) : (accept w s).inputs = s.inputs := rfl
@[simp] theorem accept_resp (w : Word) (s : State) : (accept w s).resp = s.resp := rfl
@[simp] theorem accept_draws (w : Word) (s : State) : (accept w s).draws = s.draws := rfl
@[simp] theorem accept_busErrIn (w : Word) (s : State) : (accept w s).busErrIn = s.busErrIn := rfl
@[simp] theorem accept_tables (w : Word) (s : State) : (accept w s).tables = s.tables := rfl

/-! ### complete -/

@[simp] theorem complete_irqEn (s : State) : (complete s).irqEn = s.irqEn := rfl
@[simp] theorem complete_busy (s : State) : (complete s).busy = false := rfl
@[simp] theorem complete_done (s : State) : (complete s).done = true := rfl
@[simp] theorem complete_err (s : State) : (complete s).err = s.err := rfl
@[simp] theorem complete_overrun (s : State) : (complete s).overrun = s.overrun := rfl
@[simp] theorem complete_errcode (s : State) : (complete s).errcode = s.errcode := rfl
@[simp] theorem complete_qtValid (s : State) : (complete s).qtValid = s.qtValid := rfl
@[simp] theorem complete_htValid (s : State) : (complete s).htValid = s.htValid := rfl
@[simp] theorem complete_regs (s : State) : (complete s).regs = s.regs := rfl
@[simp] theorem complete_outLen (s : State) : (complete s).outLen = s.outLen := rfl
@[simp] theorem complete_acc (s : State) : (complete s).acc = s.acc := rfl
@[simp] theorem complete_nbits (s : State) : (complete s).nbits = s.nbits := rfl
@[simp] theorem complete_pred (s : State) : (complete s).pred = s.pred := rfl
@[simp] theorem complete_qt0 (s : State) : (complete s).qt0 = s.qt0 := rfl
@[simp] theorem complete_qt1 (s : State) : (complete s).qt1 = s.qt1 := rfl
@[simp] theorem complete_ht0 (s : State) : (complete s).ht0 = s.ht0 := rfl
@[simp] theorem complete_ht1 (s : State) : (complete s).ht1 = s.ht1 := rfl
@[simp] theorem complete_ht2 (s : State) : (complete s).ht2 = s.ht2 := rfl
@[simp] theorem complete_ht3 (s : State) : (complete s).ht3 = s.ht3 := rfl
@[simp] theorem complete_blk (s : State) : (complete s).blk = s.blk := rfl
@[simp] theorem complete_qblk (s : State) : (complete s).qblk = s.qblk := rfl
@[simp] theorem complete_zz (s : State) : (complete s).zz = s.zz := rfl
@[simp] theorem complete_pending (s : State) : (complete s).pending = none := rfl
@[simp] theorem complete_encPos (s : State) : (complete s).encPos = none := rfl
@[simp] theorem complete_modelFault (s : State) : (complete s).modelFault = s.modelFault := rfl
@[simp] theorem complete_mem (s : State) : (complete s).mem = s.mem := rfl
@[simp] theorem complete_inputs (s : State) : (complete s).inputs = s.inputs := rfl
@[simp] theorem complete_resp (s : State) : (complete s).resp = s.resp := rfl
@[simp] theorem complete_draws (s : State) : (complete s).draws = s.draws := rfl
@[simp] theorem complete_busErrIn (s : State) : (complete s).busErrIn = s.busErrIn := rfl
@[simp] theorem complete_tables (s : State) : (complete s).tables = s.tables := rfl

/-! ### drawBits -/

@[simp] theorem drawBits_irqEn (s : State) : (drawBits s).irqEn = s.irqEn := rfl
@[simp] theorem drawBits_busy (s : State) : (drawBits s).busy = s.busy := rfl
@[simp] theorem drawBits_done (s : State) : (drawBits s).done = s.done := rfl
@[simp] theorem drawBits_err (s : State) : (drawBits s).err = s.err := rfl
@[simp] theorem drawBits_overrun (s : State) : (drawBits s).overrun = s.overrun := rfl
@[simp] theorem drawBits_errcode (s : State) : (drawBits s).errcode = s.errcode := rfl
@[simp] theorem drawBits_qtValid (s : State) : (drawBits s).qtValid = s.qtValid := rfl
@[simp] theorem drawBits_htValid (s : State) : (drawBits s).htValid = s.htValid := rfl
@[simp] theorem drawBits_regs (s : State) : (drawBits s).regs = s.regs := rfl
@[simp] theorem drawBits_outLen (s : State) : (drawBits s).outLen = s.outLen := rfl
@[simp] theorem drawBits_acc (s : State) : (drawBits s).acc = (Config.freeWord s.draws).setWidth 8 := rfl
@[simp] theorem drawBits_nbits (s : State) : (drawBits s).nbits = (Config.freeWord (s.draws + 1)).setWidth 3 := rfl
@[simp] theorem drawBits_pred (s : State) : (drawBits s).pred = s.pred := rfl
@[simp] theorem drawBits_qt0 (s : State) : (drawBits s).qt0 = s.qt0 := rfl
@[simp] theorem drawBits_qt1 (s : State) : (drawBits s).qt1 = s.qt1 := rfl
@[simp] theorem drawBits_ht0 (s : State) : (drawBits s).ht0 = s.ht0 := rfl
@[simp] theorem drawBits_ht1 (s : State) : (drawBits s).ht1 = s.ht1 := rfl
@[simp] theorem drawBits_ht2 (s : State) : (drawBits s).ht2 = s.ht2 := rfl
@[simp] theorem drawBits_ht3 (s : State) : (drawBits s).ht3 = s.ht3 := rfl
@[simp] theorem drawBits_blk (s : State) : (drawBits s).blk = s.blk := rfl
@[simp] theorem drawBits_qblk (s : State) : (drawBits s).qblk = s.qblk := rfl
@[simp] theorem drawBits_zz (s : State) : (drawBits s).zz = s.zz := rfl
@[simp] theorem drawBits_pending (s : State) : (drawBits s).pending = s.pending := rfl
@[simp] theorem drawBits_encPos (s : State) : (drawBits s).encPos = s.encPos := rfl
@[simp] theorem drawBits_modelFault (s : State) : (drawBits s).modelFault = s.modelFault := rfl
@[simp] theorem drawBits_mem (s : State) : (drawBits s).mem = s.mem := rfl
@[simp] theorem drawBits_inputs (s : State) : (drawBits s).inputs = s.inputs := rfl
@[simp] theorem drawBits_resp (s : State) : (drawBits s).resp = s.resp := rfl
@[simp] theorem drawBits_draws (s : State) : (drawBits s).draws = s.draws + 2 := rfl
@[simp] theorem drawBits_busErrIn (s : State) : (drawBits s).busErrIn = s.busErrIn := rfl
@[simp] theorem drawBits_tables (s : State) : (drawBits s).tables = s.tables := rfl

/-! ### drawPred -/

@[simp] theorem drawPred_irqEn (s : State) (ch : Channel) : (drawPred s ch).irqEn = s.irqEn := rfl
@[simp] theorem drawPred_busy (s : State) (ch : Channel) : (drawPred s ch).busy = s.busy := rfl
@[simp] theorem drawPred_done (s : State) (ch : Channel) : (drawPred s ch).done = s.done := rfl
@[simp] theorem drawPred_err (s : State) (ch : Channel) : (drawPred s ch).err = s.err := rfl
@[simp] theorem drawPred_overrun (s : State) (ch : Channel) : (drawPred s ch).overrun = s.overrun := rfl
@[simp] theorem drawPred_errcode (s : State) (ch : Channel) : (drawPred s ch).errcode = s.errcode := rfl
@[simp] theorem drawPred_qtValid (s : State) (ch : Channel) : (drawPred s ch).qtValid = s.qtValid := rfl
@[simp] theorem drawPred_htValid (s : State) (ch : Channel) : (drawPred s ch).htValid = s.htValid := rfl
@[simp] theorem drawPred_regs (s : State) (ch : Channel) : (drawPred s ch).regs = s.regs := rfl
@[simp] theorem drawPred_outLen (s : State) (ch : Channel) : (drawPred s ch).outLen = s.outLen := rfl
@[simp] theorem drawPred_acc (s : State) (ch : Channel) : (drawPred s ch).acc = s.acc := rfl
@[simp] theorem drawPred_nbits (s : State) (ch : Channel) : (drawPred s ch).nbits = s.nbits := rfl
@[simp] theorem drawPred_pred (s : State) (ch : Channel) : (drawPred s ch).pred = s.pred.set ch (Config.freeWord s.draws) := rfl
@[simp] theorem drawPred_qt0 (s : State) (ch : Channel) : (drawPred s ch).qt0 = s.qt0 := rfl
@[simp] theorem drawPred_qt1 (s : State) (ch : Channel) : (drawPred s ch).qt1 = s.qt1 := rfl
@[simp] theorem drawPred_ht0 (s : State) (ch : Channel) : (drawPred s ch).ht0 = s.ht0 := rfl
@[simp] theorem drawPred_ht1 (s : State) (ch : Channel) : (drawPred s ch).ht1 = s.ht1 := rfl
@[simp] theorem drawPred_ht2 (s : State) (ch : Channel) : (drawPred s ch).ht2 = s.ht2 := rfl
@[simp] theorem drawPred_ht3 (s : State) (ch : Channel) : (drawPred s ch).ht3 = s.ht3 := rfl
@[simp] theorem drawPred_blk (s : State) (ch : Channel) : (drawPred s ch).blk = s.blk := rfl
@[simp] theorem drawPred_qblk (s : State) (ch : Channel) : (drawPred s ch).qblk = s.qblk := rfl
@[simp] theorem drawPred_zz (s : State) (ch : Channel) : (drawPred s ch).zz = s.zz := rfl
@[simp] theorem drawPred_pending (s : State) (ch : Channel) : (drawPred s ch).pending = s.pending := rfl
@[simp] theorem drawPred_encPos (s : State) (ch : Channel) : (drawPred s ch).encPos = s.encPos := rfl
@[simp] theorem drawPred_modelFault (s : State) (ch : Channel) : (drawPred s ch).modelFault = s.modelFault := rfl
@[simp] theorem drawPred_mem (s : State) (ch : Channel) : (drawPred s ch).mem = s.mem := rfl
@[simp] theorem drawPred_inputs (s : State) (ch : Channel) : (drawPred s ch).inputs = s.inputs := rfl
@[simp] theorem drawPred_resp (s : State) (ch : Channel) : (drawPred s ch).resp = s.resp := rfl
@[simp] theorem drawPred_draws (s : State) (ch : Channel) : (drawPred s ch).draws = s.draws + 1 := rfl
@[simp] theorem drawPred_busErrIn (s : State) (ch : Channel) : (drawPred s ch).busErrIn = s.busErrIn := rfl
@[simp] theorem drawPred_tables (s : State) (ch : Channel) : (drawPred s ch).tables = s.tables := rfl

/-! ### drawOutLen -/

@[simp] theorem drawOutLen_irqEn (lo hi : Nat) (s : State) : (drawOutLen lo hi s).irqEn = s.irqEn := rfl
@[simp] theorem drawOutLen_busy (lo hi : Nat) (s : State) : (drawOutLen lo hi s).busy = s.busy := rfl
@[simp] theorem drawOutLen_done (lo hi : Nat) (s : State) : (drawOutLen lo hi s).done = s.done := rfl
@[simp] theorem drawOutLen_err (lo hi : Nat) (s : State) : (drawOutLen lo hi s).err = s.err := rfl
@[simp] theorem drawOutLen_overrun (lo hi : Nat) (s : State) : (drawOutLen lo hi s).overrun = s.overrun := rfl
@[simp] theorem drawOutLen_errcode (lo hi : Nat) (s : State) : (drawOutLen lo hi s).errcode = s.errcode := rfl
@[simp] theorem drawOutLen_qtValid (lo hi : Nat) (s : State) : (drawOutLen lo hi s).qtValid = s.qtValid := rfl
@[simp] theorem drawOutLen_htValid (lo hi : Nat) (s : State) : (drawOutLen lo hi s).htValid = s.htValid := rfl
@[simp] theorem drawOutLen_regs (lo hi : Nat) (s : State) : (drawOutLen lo hi s).regs = s.regs := rfl
@[simp] theorem drawOutLen_outLen (lo hi : Nat) (s : State) : (drawOutLen lo hi s).outLen = BitVec.ofNat 32 (lo + (Config.freeWord s.draws).toNat % (hi - lo + 1)) := rfl
@[simp] theorem drawOutLen_acc (lo hi : Nat) (s : State) : (drawOutLen lo hi s).acc = s.acc := rfl
@[simp] theorem drawOutLen_nbits (lo hi : Nat) (s : State) : (drawOutLen lo hi s).nbits = s.nbits := rfl
@[simp] theorem drawOutLen_pred (lo hi : Nat) (s : State) : (drawOutLen lo hi s).pred = s.pred := rfl
@[simp] theorem drawOutLen_qt0 (lo hi : Nat) (s : State) : (drawOutLen lo hi s).qt0 = s.qt0 := rfl
@[simp] theorem drawOutLen_qt1 (lo hi : Nat) (s : State) : (drawOutLen lo hi s).qt1 = s.qt1 := rfl
@[simp] theorem drawOutLen_ht0 (lo hi : Nat) (s : State) : (drawOutLen lo hi s).ht0 = s.ht0 := rfl
@[simp] theorem drawOutLen_ht1 (lo hi : Nat) (s : State) : (drawOutLen lo hi s).ht1 = s.ht1 := rfl
@[simp] theorem drawOutLen_ht2 (lo hi : Nat) (s : State) : (drawOutLen lo hi s).ht2 = s.ht2 := rfl
@[simp] theorem drawOutLen_ht3 (lo hi : Nat) (s : State) : (drawOutLen lo hi s).ht3 = s.ht3 := rfl
@[simp] theorem drawOutLen_blk (lo hi : Nat) (s : State) : (drawOutLen lo hi s).blk = s.blk := rfl
@[simp] theorem drawOutLen_qblk (lo hi : Nat) (s : State) : (drawOutLen lo hi s).qblk = s.qblk := rfl
@[simp] theorem drawOutLen_zz (lo hi : Nat) (s : State) : (drawOutLen lo hi s).zz = s.zz := rfl
@[simp] theorem drawOutLen_pending (lo hi : Nat) (s : State) : (drawOutLen lo hi s).pending = s.pending := rfl
@[simp] theorem drawOutLen_encPos (lo hi : Nat) (s : State) : (drawOutLen lo hi s).encPos = s.encPos := rfl
@[simp] theorem drawOutLen_modelFault (lo hi : Nat) (s : State) : (drawOutLen lo hi s).modelFault = s.modelFault := rfl
@[simp] theorem drawOutLen_mem (lo hi : Nat) (s : State) : (drawOutLen lo hi s).mem = s.mem := rfl
@[simp] theorem drawOutLen_inputs (lo hi : Nat) (s : State) : (drawOutLen lo hi s).inputs = s.inputs := rfl
@[simp] theorem drawOutLen_resp (lo hi : Nat) (s : State) : (drawOutLen lo hi s).resp = s.resp := rfl
@[simp] theorem drawOutLen_draws (lo hi : Nat) (s : State) : (drawOutLen lo hi s).draws = s.draws + 1 := rfl
@[simp] theorem drawOutLen_busErrIn (lo hi : Nat) (s : State) : (drawOutLen lo hi s).busErrIn = s.busErrIn := rfl
@[simp] theorem drawOutLen_tables (lo hi : Nat) (s : State) : (drawOutLen lo hi s).tables = s.tables := rfl

/-! ### clearStores -/

@[simp] theorem clearStores_irqEn (w : Writes) (s : State) : (clearStores w s).irqEn = s.irqEn := rfl
@[simp] theorem clearStores_busy (w : Writes) (s : State) : (clearStores w s).busy = s.busy := rfl
@[simp] theorem clearStores_done (w : Writes) (s : State) : (clearStores w s).done = s.done := rfl
@[simp] theorem clearStores_err (w : Writes) (s : State) : (clearStores w s).err = s.err := rfl
@[simp] theorem clearStores_overrun (w : Writes) (s : State) : (clearStores w s).overrun = s.overrun := rfl
@[simp] theorem clearStores_errcode (w : Writes) (s : State) : (clearStores w s).errcode = s.errcode := rfl
@[simp] theorem clearStores_qtValid (w : Writes) (s : State) : (clearStores w s).qtValid = s.qtValid := rfl
@[simp] theorem clearStores_htValid (w : Writes) (s : State) : (clearStores w s).htValid = s.htValid := rfl
@[simp] theorem clearStores_regs (w : Writes) (s : State) : (clearStores w s).regs = s.regs := rfl
@[simp] theorem clearStores_outLen (w : Writes) (s : State) : (clearStores w s).outLen = s.outLen := rfl
@[simp] theorem clearStores_acc (w : Writes) (s : State) : (clearStores w s).acc = s.acc := rfl
@[simp] theorem clearStores_nbits (w : Writes) (s : State) : (clearStores w s).nbits = s.nbits := rfl
@[simp] theorem clearStores_pred (w : Writes) (s : State) : (clearStores w s).pred = s.pred := rfl
@[simp] theorem clearStores_qt0 (w : Writes) (s : State) : (clearStores w s).qt0 = s.qt0 := rfl
@[simp] theorem clearStores_qt1 (w : Writes) (s : State) : (clearStores w s).qt1 = s.qt1 := rfl
@[simp] theorem clearStores_ht0 (w : Writes) (s : State) : (clearStores w s).ht0 = s.ht0 := rfl
@[simp] theorem clearStores_ht1 (w : Writes) (s : State) : (clearStores w s).ht1 = s.ht1 := rfl
@[simp] theorem clearStores_ht2 (w : Writes) (s : State) : (clearStores w s).ht2 = s.ht2 := rfl
@[simp] theorem clearStores_ht3 (w : Writes) (s : State) : (clearStores w s).ht3 = s.ht3 := rfl
@[simp] theorem clearStores_blk (w : Writes) (s : State) : (clearStores w s).blk = if w.blk then Vector.replicate 64 none else s.blk := rfl
@[simp] theorem clearStores_qblk (w : Writes) (s : State) : (clearStores w s).qblk = if w.qblk then Vector.replicate 64 none else s.qblk := rfl
@[simp] theorem clearStores_zz (w : Writes) (s : State) : (clearStores w s).zz = if w.zz then Vector.replicate 64 none else s.zz := rfl
@[simp] theorem clearStores_pending (w : Writes) (s : State) : (clearStores w s).pending = s.pending := rfl
@[simp] theorem clearStores_encPos (w : Writes) (s : State) : (clearStores w s).encPos = s.encPos := rfl
@[simp] theorem clearStores_modelFault (w : Writes) (s : State) : (clearStores w s).modelFault = s.modelFault := rfl
@[simp] theorem clearStores_mem (w : Writes) (s : State) : (clearStores w s).mem = s.mem := rfl
@[simp] theorem clearStores_inputs (w : Writes) (s : State) : (clearStores w s).inputs = s.inputs := rfl
@[simp] theorem clearStores_resp (w : Writes) (s : State) : (clearStores w s).resp = s.resp := rfl
@[simp] theorem clearStores_draws (w : Writes) (s : State) : (clearStores w s).draws = s.draws := rfl
@[simp] theorem clearStores_busErrIn (w : Writes) (s : State) : (clearStores w s).busErrIn = s.busErrIn := rfl
@[simp] theorem clearStores_tables (w : Writes) (s : State) : (clearStores w s).tables = s.tables := rfl

/-! ### statusWrite -/

@[simp] theorem statusWrite_irqEn (d : Word) (s : State) : (statusWrite d s).irqEn = s.irqEn := rfl
@[simp] theorem statusWrite_busy (d : Word) (s : State) : (statusWrite d s).busy = s.busy := rfl
@[simp] theorem statusWrite_done (d : Word) (s : State) : (statusWrite d s).done = if d.getLsbD 1 then false else s.done := rfl
@[simp] theorem statusWrite_err (d : Word) (s : State) : (statusWrite d s).err = if d.getLsbD 2 then false else s.err := rfl
@[simp] theorem statusWrite_overrun (d : Word) (s : State) : (statusWrite d s).overrun = if d.getLsbD 3 then false else s.overrun := rfl
@[simp] theorem statusWrite_errcode (d : Word) (s : State) : (statusWrite d s).errcode = if d.getLsbD 2 then 0 else s.errcode := rfl
@[simp] theorem statusWrite_qtValid (d : Word) (s : State) : (statusWrite d s).qtValid = s.qtValid := rfl
@[simp] theorem statusWrite_htValid (d : Word) (s : State) : (statusWrite d s).htValid = s.htValid := rfl
@[simp] theorem statusWrite_regs (d : Word) (s : State) : (statusWrite d s).regs = s.regs := rfl
@[simp] theorem statusWrite_outLen (d : Word) (s : State) : (statusWrite d s).outLen = s.outLen := rfl
@[simp] theorem statusWrite_acc (d : Word) (s : State) : (statusWrite d s).acc = s.acc := rfl
@[simp] theorem statusWrite_nbits (d : Word) (s : State) : (statusWrite d s).nbits = s.nbits := rfl
@[simp] theorem statusWrite_pred (d : Word) (s : State) : (statusWrite d s).pred = s.pred := rfl
@[simp] theorem statusWrite_qt0 (d : Word) (s : State) : (statusWrite d s).qt0 = s.qt0 := rfl
@[simp] theorem statusWrite_qt1 (d : Word) (s : State) : (statusWrite d s).qt1 = s.qt1 := rfl
@[simp] theorem statusWrite_ht0 (d : Word) (s : State) : (statusWrite d s).ht0 = s.ht0 := rfl
@[simp] theorem statusWrite_ht1 (d : Word) (s : State) : (statusWrite d s).ht1 = s.ht1 := rfl
@[simp] theorem statusWrite_ht2 (d : Word) (s : State) : (statusWrite d s).ht2 = s.ht2 := rfl
@[simp] theorem statusWrite_ht3 (d : Word) (s : State) : (statusWrite d s).ht3 = s.ht3 := rfl
@[simp] theorem statusWrite_blk (d : Word) (s : State) : (statusWrite d s).blk = s.blk := rfl
@[simp] theorem statusWrite_qblk (d : Word) (s : State) : (statusWrite d s).qblk = s.qblk := rfl
@[simp] theorem statusWrite_zz (d : Word) (s : State) : (statusWrite d s).zz = s.zz := rfl
@[simp] theorem statusWrite_pending (d : Word) (s : State) : (statusWrite d s).pending = s.pending := rfl
@[simp] theorem statusWrite_encPos (d : Word) (s : State) : (statusWrite d s).encPos = s.encPos := rfl
@[simp] theorem statusWrite_modelFault (d : Word) (s : State) : (statusWrite d s).modelFault = s.modelFault := rfl
@[simp] theorem statusWrite_mem (d : Word) (s : State) : (statusWrite d s).mem = s.mem := rfl
@[simp] theorem statusWrite_inputs (d : Word) (s : State) : (statusWrite d s).inputs = s.inputs := rfl
@[simp] theorem statusWrite_resp (d : Word) (s : State) : (statusWrite d s).resp = s.resp := rfl
@[simp] theorem statusWrite_draws (d : Word) (s : State) : (statusWrite d s).draws = s.draws := rfl
@[simp] theorem statusWrite_busErrIn (d : Word) (s : State) : (statusWrite d s).busErrIn = s.busErrIn := rfl
@[simp] theorem statusWrite_tables (d : Word) (s : State) : (statusWrite d s).tables = s.tables := rfl

/-! ### Predictors -/

@[simp] theorem Preds.get_set_same (p : Preds) (ch : Channel) (w : Word) : (p.set ch w).get ch = w := by
  cases ch <;> rfl

theorem Preds.get_set_other (p : Preds) {ch ch' : Channel} (w : Word) (h : ch' ≠ ch) :
    (p.set ch w).get ch' = p.get ch' := by
  cases ch <;> cases ch' <;> first | rfl | exact absurd rfl h

end Sys2Proof.Machine
end

