-- ==== Sys2Proof/Laws/Ops.lean ====
section
/-!
SUPPORT. Sys2Proof/Laws/Ops.lean: what each shared operation of Machine/Ops.lean can do, said once: the memory master,
sequences, byte emission, the free values drawn into memory, what an error leaves, and completion.
-/
namespace Sys2Proof.Machine

/-! ### Results and sequences -/

@[simp] theorem Res.bind_ok (s : State) (f : State → Res) : (Res.ok s).bind f = f s := rfl
@[simp] theorem Res.bind_raise (c : ErrCode) (s : State) (f : State → Res) : (Res.raise c s).bind f = .raise c s := rfl
@[simp] theorem Res.bind_uninit (s : State) (f : State → Res) : (Res.uninit s).bind f = .uninit s := rfl

theorem Res.bind_assoc (r : Res) (f g : State → Res) : (r.bind f).bind g = r.bind fun s => (f s).bind g := by
  cases r <;> rfl

@[simp] theorem Res.bind_pure (r : Res) : r.bind .ok = r := by cases r <;> rfl

theorem Res.bind_eq_ok {r : Res} {f : State → Res} {t : State} :
    r.bind f = .ok t ↔ ∃ s, r = .ok s ∧ f s = .ok t := by
  cases r <;> simp [Res.bind]

theorem Res.bind_eq_raise {r : Res} {f : State → Res} {c : ErrCode} {t : State} :
    r.bind f = .raise c t ↔ r = .raise c t ∨ ∃ s, r = .ok s ∧ f s = .raise c t := by
  cases r <;> simp [Res.bind]

theorem Res.bind_eq_uninit {r : Res} {f : State → Res} {t : State} :
    r.bind f = .uninit t ↔ r = .uninit t ∨ ∃ s, r = .ok s ∧ f s = .uninit t := by
  cases r <;> simp [Res.bind]

@[simp] theorem forEach_nil {α : Type} (f : α → State → Res) (s : State) : forEach f [] s = .ok s := rfl

theorem forEach_cons {α : Type} (f : α → State → Res) (x : α) (xs : List α) (s : State) :
    forEach f (x :: xs) s = (f x s).bind (forEach f xs) := rfl

theorem forEach_append {α : Type} (f : α → State → Res) (xs ys : List α) (s : State) :
    forEach f (xs ++ ys) s = (forEach f xs s).bind (forEach f ys) := by
  induction xs generalizing s with
  | nil => rfl
  | cons x xs ih =>
    simp only [List.cons_append, forEach_cons, Res.bind_assoc]
    cases f x s with
    | ok t => exact ih t
    | raise c t => rfl
    | uninit t => rfl

theorem forEach_flatMap {α β : Type} (f : α → State → Res) (g : β → List α) (xs : List β) (s : State) :
    forEach f (xs.flatMap g) s = forEach (fun x => forEach f (g x)) xs s := by
  induction xs generalizing s with
  | nil => rfl
  | cons x xs ih =>
    simp only [List.flatMap_cons, forEach_append, forEach_cons]
    cases forEach f (g x) s with
    | ok t => exact ih t
    | raise c t => rfl
    | uninit t => rfl

/-- A relation that holds between the state before and after each body holds over the sequence, however it ends. -/
theorem forEach_preserves {α : Type} {f : α → State → Res} {R : State → State → Prop} (hrefl : ∀ s, R s s)
    (htrans : ∀ s t u, R s t → R t u → R s u) (xs : List α) (hf : ∀ x ∈ xs, ∀ s, R s (f x s).state) (s : State) :
    R s (forEach f xs s).state := by
  induction xs generalizing s with
  | nil => exact hrefl s
  | cons x xs ih =>
    have h := hf x List.mem_cons_self s
    rw [forEach_cons]
    cases hx : f x s with
    | ok t =>
      rw [hx] at h
      exact htrans _ _ _ h (ih (fun y hy => hf y (List.mem_cons_of_mem _ hy)) t)
    | raise c t => rw [hx] at h; exact h
    | uninit t => rw [hx] at h; exact h

@[simp] theorem check_true (c : ErrCode) (next : State → Res) (s : State) : check true c next s = .raise c s := rfl
@[simp] theorem check_false (c : ErrCode) (next : State → Res) (s : State) : check false c next s = next s := rfl

/-! ### The memory master -/

/-- n accesses succeed when none of them gets an error response; only the platform's countdown moves. -/
theorem busAccess_ok {s : State} {n : Nat} (h : s.BusAnswers n) :
    busAccess n s = .ok { s with busErrIn := s.busErrIn.map (· - n) } := by
  obtain ⟨irqEn, busy, done, err, overrun, errcode, qtValid, htValid, regs, outLen, acc, nbits, pred, qt0, qt1, ht0, ht1,
    ht2, ht3, blk, qblk, zz, pending, encPos, modelFault, mem, inputs, resp, draws, busErrIn, tables⟩ := s
  cases busErrIn with
  | none => rfl
  | some k =>
    have hk : ¬ k < n := Nat.not_lt.2 (h k rfl)
    simp [busAccess, hk]

/-- The n accesses fail at an error response. -/
theorem busAccess_error {s : State} {n k : Nat} (h : s.busErrIn = some k) (hk : k < n) :
    busAccess n s = .raise .busError { s with busErrIn := none } := by
  simp [busAccess, h, hk]

/-- However the accesses end, only the platform's countdown has moved. -/
theorem busAccess_state (n : Nat) (s : State) : ∃ b, (busAccess n s).state = { s with busErrIn := b } := by
  unfold busAccess
  split
  · exact ⟨s.busErrIn, rfl⟩
  · split
    · exact ⟨none, rfl⟩
    · exact ⟨_, rfl⟩

/-! ### Byte emission -/

/-- The state after one byte has been emitted. -/
def appendByte (p : Params) (b : Byte) (s : State) : State :=
  { storeByte (outAddr p s.outLen) b s with outLen := s.outLen + 1, busErrIn := s.busErrIn.map (· - 1) }

/-- The state after a list of bytes has been emitted. -/
def appendBytes (p : Params) : List Byte → State → State
  | [], s => s
  | b :: bs, s => appendBytes p bs (appendByte p b s)

/-- EmitRaw that finds room and gets an answer. -/
theorem emitRaw_ok {p : Params} {b : Byte} {s : State} (h : s.outLen.toNat < p.dstCap.toNat) (hb : s.BusAnswers 1) :
    emitRaw p b s = .ok (appendByte p b s) := by
  simp [emitRaw, Nat.not_le.2 h, busAccess_ok hb, appendByte, storeByte]

/-- EmitRaw that finds no room changes nothing. -/
theorem emitRaw_full {p : Params} {b : Byte} {s : State} (h : p.dstCap.toNat ≤ s.outLen.toNat) :
    emitRaw p b s = .raise .outOverflow s := by
  simp [emitRaw, h]

/-- EmitRaw that finds room and gets an error response. -/
theorem emitRaw_busError {p : Params} {b : Byte} {s : State} (h : s.outLen.toNat < p.dstCap.toNat)
    (hb : s.busErrIn = some 0) : emitRaw p b s = .raise .busError { s with busErrIn := none } := by
  simp [emitRaw, Nat.not_le.2 h, busAccess_error hb Nat.one_pos]

/-- EmitRaw never reads an element without a value. -/
theorem emitRaw_cases (p : Params) (b : Byte) (s : State) :
    (s.outLen.toNat < p.dstCap.toNat ∧ s.BusAnswers 1 ∧ emitRaw p b s = .ok (appendByte p b s)) ∨
    (p.dstCap.toNat ≤ s.outLen.toNat ∧ emitRaw p b s = .raise .outOverflow s) ∨
    (s.outLen.toNat < p.dstCap.toNat ∧ s.busErrIn = some 0 ∧
      emitRaw p b s = .raise .busError { s with busErrIn := none }) := by
  rcases Nat.lt_or_ge s.outLen.toNat p.dstCap.toNat with h | h
  · by_cases hb : s.busErrIn = some 0
    · exact .inr (.inr ⟨h, hb, emitRaw_busError h hb⟩)
    · have : s.BusAnswers 1 := fun k hk => Nat.one_le_iff_ne_zero.2 fun h0 => hb (h0 ▸ hk)
      exact .inl ⟨h, this, emitRaw_ok h this⟩
  · exact .inr (.inl ⟨h, emitRaw_full h⟩)

theorem appendByte_outLen {p : Params} {b : Byte} {s : State} (h : s.outLen.toNat < p.dstCap.toNat) :
    (appendByte p b s).outLen.toNat = s.outLen.toNat + 1 := by
  have := p.dstCap.isLt
  simp only [appendByte, BitVec.toNat_add]
  change (s.outLen.toNat + 1) % 2 ^ 32 = s.outLen.toNat + 1
  rw [Nat.mod_eq_of_lt]
  omega

/-- The emitted bytes, as one change of the state: memory, OUT_LEN and the platform's countdown. -/
theorem appendBytes_eq (p : Params) (bs : List Byte) (s : State) :
    appendBytes p bs s = { s with
      mem := (appendBytes p bs s).mem
      outLen := s.outLen + BitVec.ofNat 32 bs.length
      busErrIn := s.busErrIn.map (· - bs.length) } := by
  induction bs generalizing s with
  | nil => cases h : s.busErrIn <;> simp [appendBytes, ← h]
  | cons b bs ih =>
    simp only [appendBytes]
    rw [ih]
    have e : (1#32) + BitVec.ofNat 32 bs.length = BitVec.ofNat 32 (bs.length + 1) := by
      rw [Nat.add_comm, BitVec.ofNat_add]
    cases h : s.busErrIn with
    | none => simp [appendByte, storeByte, h, e, BitVec.add_assoc]
    | some k => simp [appendByte, storeByte, h, e, BitVec.add_assoc, Nat.sub_sub, Nat.add_comm 1]

theorem appendBytes_append (p : Params) (as bs : List Byte) (s : State) :
    appendBytes p (as ++ bs) s = appendBytes p bs (appendBytes p as s) := by
  induction as generalizing s with
  | nil => rfl
  | cons a as ih => exact ih _

theorem appendBytes_outLen {p : Params} {bs : List Byte} {s : State}
    (h : s.outLen.toNat + bs.length ≤ p.dstCap.toNat) :
    (appendBytes p bs s).outLen.toNat = s.outLen.toNat + bs.length := by
  have := p.dstCap.isLt
  rw [appendBytes_eq]
  simp only [BitVec.toNat_add, BitVec.toNat_ofNat]
  rw [Nat.mod_eq_of_lt (a := bs.length) (by omega), Nat.mod_eq_of_lt (by omega)]

/-- A list of bytes that fits and is answered is emitted whole. -/
theorem forEach_emitRaw_ok {p : Params} {bs : List Byte} {s : State}
    (h : s.outLen.toNat + bs.length ≤ p.dstCap.toNat) (hb : s.BusAnswers bs.length) :
    forEach (emitRaw p) bs s = .ok (appendBytes p bs s) := by
  induction bs generalizing s with
  | nil => rfl
  | cons b bs ih =>
    rw [List.length_cons] at h hb
    have hlt : s.outLen.toNat < p.dstCap.toNat := by omega
    rw [forEach_cons, emitRaw_ok hlt fun k hk => le_trans (by omega) (hb k hk), Res.bind_ok, ih]
    · rfl
    · rw [appendByte_outLen hlt]; omega
    · intro k hk
      cases hs : s.busErrIn with
      | none => simp [appendByte, hs] at hk
      | some j =>
        have := hb j hs
        simp [appendByte, hs] at hk
        omega

/-- A list of bytes that does not fit is emitted up to DST_CAP (R236). -/
theorem forEach_emitRaw_full {p : Params} {bs : List Byte} {s : State} (h0 : s.outLen.toNat ≤ p.dstCap.toNat)
    (h : p.dstCap.toNat < s.outLen.toNat + bs.length) (hb : s.BusAnswers (p.dstCap.toNat - s.outLen.toNat)) :
    forEach (emitRaw p) bs s =
      .raise .outOverflow (appendBytes p (bs.take (p.dstCap.toNat - s.outLen.toNat)) s) := by
  set n := p.dstCap.toNat - s.outLen.toNat with hn
  have hlen : (bs.take n).length = n := by rw [List.length_take]; omega
  conv_lhs => rw [← List.take_append_drop n bs]
  rw [forEach_append, forEach_emitRaw_ok (by omega) (by rwa [hlen]), Res.bind_ok]
  have hne : bs.drop n ≠ [] := by rw [Ne, List.drop_eq_nil_iff]; omega
  obtain ⟨b, rest, hd⟩ := List.exists_cons_of_ne_nil hne
  rw [hd, forEach_cons, emitRaw_full, Res.bind_raise]
  rw [appendBytes_outLen (by omega)]
  omega

/-- A list of bytes that cannot start is not emitted. -/
theorem forEach_emitRaw_beyond {p : Params} {b : Byte} {bs : List Byte} {s : State}
    (h : p.dstCap.toNat ≤ s.outLen.toNat) : forEach (emitRaw p) (b :: bs) s = .raise .outOverflow s := by
  rw [forEach_cons, emitRaw_full h, Res.bind_raise]

/-- A list of bytes one of which gets an error response is emitted up to there (R237). -/
theorem forEach_emitRaw_busError {p : Params} {bs : List Byte} {s : State} {k : Nat} (hk : s.busErrIn = some k)
    (hlt : k < bs.length) (h : s.outLen.toNat + k < p.dstCap.toNat) :
    forEach (emitRaw p) bs s = .raise .busError { appendBytes p (bs.take k) s with busErrIn := none } := by
  have hlen : (bs.take k).length = k := by rw [List.length_take]; omega
  conv_lhs => rw [← List.take_append_drop k bs]
  rw [forEach_append, forEach_emitRaw_ok (by omega), Res.bind_ok]
  · have hne : bs.drop k ≠ [] := by rw [Ne, List.drop_eq_nil_iff]; omega
    obtain ⟨b, rest, hd⟩ := List.exists_cons_of_ne_nil hne
    rw [hd, forEach_cons, emitRaw_busError, Res.bind_raise]
    · rw [appendBytes_outLen (by omega)]; omega
    · rw [appendBytes_eq, hlen]; simp [hk]
  · intro j hj
    rw [hk] at hj
    rw [hlen]
    exact Option.some.inj hj ▸ le_rfl

/-- The address of an output byte of a region that does not pass 2^32 (R121). -/
theorem outAddr_toNat {p : Params} (hp : dstRegionBad p = false) {n : Word} (h : n.toNat < p.dstCap.toNat) :
    outAddr p n = p.dstAddr.toNat + n.toNat := by
  have hp' : p.dstAddr.toNat + p.dstCap.toNat ≤ 2 ^ 32 := by simpa [dstRegionBad] using hp
  rw [outAddr, BitVec.toNat_add, Nat.mod_eq_of_lt]
  omega

/-- Reading memory after emission: the emitted bytes at their addresses, everything else as before. -/
theorem readByte_appendBytes {p : Params} (hp : dstRegionBad p = false) {bs : List Byte} {s : State}
    (h : s.outLen.toNat + bs.length ≤ p.dstCap.toNat) (a : Nat) :
    readByte (appendBytes p bs s) a =
      if p.dstAddr.toNat + s.outLen.toNat ≤ a then
        bs[a - (p.dstAddr.toNat + s.outLen.toNat)]?.getD (readByte s a)
      else readByte s a := by
  induction bs generalizing s with
  | nil => simp [appendBytes]
  | cons b bs ih =>
    rw [List.length_cons] at h
    have hlt : s.outLen.toNat < p.dstCap.toNat := by omega
    have hb : ∀ x, readByte (appendByte p b s) x =
        if x = p.dstAddr.toNat + s.outLen.toNat then b else readByte s x := fun x => by
      rw [← outAddr_toNat hp hlt, ← readByte_storeByte]
      exact readByte_congr rfl x
    simp only [appendBytes]
    rw [ih (by rw [appendByte_outLen hlt]; omega), appendByte_outLen hlt, hb]
    rcases Nat.lt_trichotomy a (p.dstAddr.toNat + s.outLen.toNat) with ha | ha | ha
    · rw [if_neg (by omega), if_neg (by omega), if_neg (by omega)]
    · subst ha
      rw [if_neg (by omega), if_pos rfl, if_pos le_rfl, Nat.sub_self]
      rfl
    · rw [if_pos (by omega), if_neg (by omega), if_pos (by omega),
        show a - (p.dstAddr.toNat + s.outLen.toNat) = (a - (p.dstAddr.toNat + (s.outLen.toNat + 1))) + 1 by omega,
        List.getElem?_cons_succ]

/-! ### Free values in memory -/

/-- Free bytes change memory and the counter only. -/
theorem drawBytes_eq (a n : Nat) (s : State) :
    drawBytes a n s = { s with mem := (drawBytes a n s).mem, draws := s.draws + n } := by
  induction n generalizing s with
  | zero => rfl
  | succ n ih =>
    simp only [drawBytes]
    rw [ih]
    simp [storeByte, Nat.add_assoc, Nat.add_comm 1 n]

/-- Free bytes leave every other address alone. -/
theorem readByte_drawBytes {a n : Nat} {s : State} {x : Nat} (h : x < a ∨ a + n ≤ x) :
    readByte (drawBytes a n s) x = readByte s x := by
  induction n generalizing s with
  | zero => rfl
  | succ n ih =>
    simp only [drawBytes]
    rw [ih (by omega)]
    have : readByte (storeByte (a + n) ((Config.freeWord s.draws).setWidth 8) s) x = readByte s x := by
      rw [readByte_storeByte, if_neg (by omega)]
    exact (readByte_congr rfl x).trans this

/-- Free bytes keep the canonical form of memory. -/
theorem drawBytes_wf {a n : Nat} {s : State} (h : Memory.wf s.mem) (hn : n = 0 ∨ a + n ≤ 2 ^ 32) :
    Memory.wf (drawBytes a n s).mem := by
  induction n generalizing s with
  | zero => exact h
  | succ n ih =>
    simp only [drawBytes]
    exact ih (Memory.put_wf h (by omega) _) (.inr (by omega))

/-! ### What an error leaves, and completion -/

/-- The predictors drawn free: the predictors and the counter only. -/
theorem drawPreds_eq (chs : List Channel) (s : State) :
    chs.foldl drawPred s = { s with pred := (chs.foldl drawPred s).pred, draws := s.draws + chs.length } := by
  induction chs generalizing s with
  | nil => rfl
  | cons ch chs ih =>
    rw [List.foldl_cons, ih]
    simp [drawPred, Nat.add_assoc, Nat.add_comm 1]

/-- A channel that is not drawn keeps its predictor. -/
theorem drawPreds_get {chs : List Channel} {ch : Channel} (h : ch ∉ chs) (s : State) :
    (chs.foldl drawPred s).pred.get ch = s.pred.get ch := by
  induction chs generalizing s with
  | nil => rfl
  | cons c chs ih =>
    rw [List.foldl_cons, ih (fun hm => h (List.mem_cons_of_mem _ hm))]
    exact Preds.get_set_other _ _ fun he => h (he ▸ List.mem_cons_self)

/-- OUT_LEN after BUS_ERROR (R237) lies between its value at the start and DST_CAP. -/
theorem spoilOutput_outLen (p : Params) {start : Nat} (h : start < 2 ^ 32) (s : State) :
    min start p.dstCap.toNat ≤ (spoilOutput p start s).outLen.toNat ∧
      (spoilOutput p start s).outLen.toNat ≤ max start p.dstCap.toNat := by
  have hc := p.dstCap.isLt
  simp only [spoilOutput, drawOutLen, BitVec.toNat_ofNat]
  have hm := Nat.mod_lt (Config.freeWord (drawBytes (p.dstAddr.toNat + start) (dstSpan p - start) s).draws).toNat
    (show 0 < max start p.dstCap.toNat - min start p.dstCap.toNat + 1 by omega)
  rw [Nat.mod_eq_of_lt (by omega)]
  omega

/-- Memory after BUS_ERROR (R237): as before below DST_ADDR + `start` and beyond the output region. -/
theorem readByte_spoilOutput {p : Params} {start : Nat} {s : State} {a : Nat}
    (h : a < p.dstAddr.toNat + start ∨ p.dstAddr.toNat + p.dstCap.toNat ≤ a) :
    readByte (spoilOutput p start s) a = readByte s a := by
  refine (readByte_congr rfl a).trans (readByte_drawBytes (n := dstSpan p - start) ?_)
  have : dstSpan p ≤ p.dstCap.toNat := Nat.min_le_left _ _
  omega

/-- The state after OUT_OVERFLOW (R236): only the bit writer, the predictors the command writes and its stores. -/
theorem spoilOverflow_eq (w : Writes) (s : State) :
    spoilOverflow w s = { s with
      acc := (spoilOverflow w s).acc
      nbits := (spoilOverflow w s).nbits
      pred := (w.preds.foldl drawPred (drawBits s)).pred
      draws := s.draws + 2 + w.preds.length
      blk := if w.blk then Vector.replicate 64 none else s.blk
      qblk := if w.qblk then Vector.replicate 64 none else s.qblk
      zz := if w.zz then Vector.replicate 64 none else s.zz } := by
  unfold spoilOverflow
  rw [drawPreds_eq]
  simp [clearStores, drawBits]

/-- `runCommand` is never a fault or a refusal. -/
theorem runCommand_next (w : Writes) (body : Params → State → Res) (s : State) :
    runCommand w body s = .next (finish (settle w (latched s) s.outLen.toNat (body (latched s) s))) := rfl

/-- A body that ends normally. -/
theorem runCommand_ok {w : Writes} {body : Params → State → Res} {s t : State} (h : body (latched s) s = .ok t) :
    runCommand w body s = .next (complete t) := by
  simp [runCommand, h, settle, finish]

/-- A command turned away by a check, or that fails before it has changed anything (R235). -/
theorem runCommand_reject {w : Writes} {body : Params → State → Res} {s : State} {c : ErrCode}
    (h : body (latched s) s = .raise c s) (hc : c ≠ .outOverflow) (hb : c ≠ .busError)
    (hs : w.restarts = false ∨ (c ≠ .symbolUndefined ∧ c ≠ .coefRange)) :
    runCommand w body s = .next { complete s with err := true, errcode := c.code } := by
  rcases hs with hs | ⟨h1, h2⟩
  · cases c <;> simp_all [runCommand, settle, finish]
  · cases c <;> simp_all [runCommand, settle, finish]

end Sys2Proof.Machine
end

