-- ==== Sys2Proof/Laws/PerInstr.lean ====
section
/-!
SUPPORT. Sys2Proof/Laws/PerInstr.lean: the family `CommandWord`, one lemma per instruction: the word of every well-formed
instruction has the fixed bits of its row of the opcode table (30_encoding.md R83) and RSV = 0 (R81).
-/
namespace Sys2Proof.Laws.CommandWord

/-- The `match` column of R83: the opcode byte in bits 31:24. -/
def rowMatch : Instr → Word
  | .nop => 0x00000000
  | .qtScale => 0x01000000
  | .huffBuild => 0x02000000
  | .resetStream => 0x03000000
  | .pushBits _ => 0x04000000
  | .flush => 0x05000000
  | .fdct => 0x06000000
  | .sample _ => 0x07000000
  | .quant _ => 0x08000000
  | .zigzag => 0x09000000
  | .entropy _ => 0x0A000000
  | .writeHeaders => 0x0B000000
  | .writeEoi => 0x0C000000
  | .encode => 0x0F000000

/-- The `mask` column of R83: every bit for the `zero` kind, all but IMM6 for the others. -/
def rowMask : Instr → Word
  | .nop => 0xFFFFFFFF
  | .qtScale => 0xFFFFFFFF
  | .huffBuild => 0xFFFFFFFF
  | .resetStream => 0xFFFFFFFF
  | .pushBits _ => 0xFFFFFFC0
  | .flush => 0xFFFFFFFF
  | .fdct => 0xFFFFFFFF
  | .sample _ => 0xFFFFFFC0
  | .quant _ => 0xFFFFFFC0
  | .zigzag => 0xFFFFFFFF
  | .entropy _ => 0xFFFFFFC0
  | .writeHeaders => 0xFFFFFFFF
  | .writeEoi => 0xFFFFFFFF
  | .encode => 0xFFFFFFFF

/-- The word of a well-formed instruction has its row's fixed bits and RSV = 0. -/
def Statement (i : Instr) : Prop := i.WellFormed → encode i &&& rowMask i = rowMatch i ∧ fieldRsv (encode i) = 0

theorem nop : Statement .nop := by unfold Statement; decide
theorem qtScale : Statement .qtScale := by unfold Statement; decide
theorem huffBuild : Statement .huffBuild := by unfold Statement; decide
theorem resetStream : Statement .resetStream := by unfold Statement; decide
theorem pushBits (n : BitVec 6) : Statement (.pushBits n) := by
  unfold Statement
  revert n
  decide
theorem flush : Statement .flush := by unfold Statement; decide
theorem fdct : Statement .fdct := by unfold Statement; decide
theorem sample (ch : Channel) : Statement (.sample ch) := by unfold Statement; cases ch <;> decide
theorem quant (tbl : QTable) : Statement (.quant tbl) := by unfold Statement; cases tbl <;> decide
theorem zigzag : Statement .zigzag := by unfold Statement; decide
theorem entropy (ch : Channel) : Statement (.entropy ch) := by unfold Statement; cases ch <;> decide
theorem writeHeaders : Statement .writeHeaders := by unfold Statement; decide
theorem writeEoi : Statement .writeEoi := by unfold Statement; decide
theorem encode : Statement .encode := by unfold Statement; decide

end Sys2Proof.Laws.CommandWord
end

