-- ==== Sys2Proof/Laws/Stream.lean ====
section
/-!
SUPPORT. Sys2Proof/Laws/Stream.lean: the bit writer as the packing of a bit string: pushing bits emits exactly the
stuffed complete bytes of the pending bits followed by the pushed ones (42_bit_writer.md R122 to R124, R127, R130).
-/
namespace Sys2Proof.Machine

/-! ### Bit strings -/

@[simp] theorem bitString_zero (v : Nat) : bitString v 0 = [] := rfl

@[simp] theorem bitString_length (v n : Nat) : (bitString v n).length = n := by simp [bitString]

theorem bitString_succ (v n : Nat) : bitString v (n + 1) = v.testBit n :: bitString v n := by
  simp only [bitString, List.range_succ_eq_map, List.map_cons, List.map_map]
  refine congrArg₂ _ (by simp) (List.map_congr_left fun i hi => ?_)
  have := List.mem_range.1 hi
  simp only [Function.comp, Nat.succ_eq_add_one]
  congr 1
  omega

theorem bitString_snoc (v n : Nat) (x : Bool) : bitString (2 * v + x.toNat) (n + 1) = bitString v n ++ [x] := by
  induction n with
  | zero => cases x <;> simp [bitString_succ, Nat.testBit_zero]
  | succ n ih =>
    rw [bitString_succ, ih, bitString_succ v n, List.cons_append]
    congr 1
    rw [Nat.testBit_succ]
    congr 1
    cases x
    · simp
    · simp only [Bool.toNat_true]; omega

@[simp] theorem bitsValue_nil : bitsValue [] = 0 := rfl

theorem bitsValue_snoc (l : List Bool) (x : Bool) : bitsValue (l ++ [x]) = 2 * bitsValue l + x.toNat := by
  simp [bitsValue]

theorem bitsValue_lt (l : List Bool) : bitsValue l < 2 ^ l.length := by
  induction l using List.reverseRecOn with
  | nil => simp
  | append_singleton l x ih =>
    rw [bitsValue_snoc, List.length_append, List.length_singleton, pow_succ]
    have := x.toNat_le
    omega

/-- Writing down the number of a bit string gives the bit string back. -/
theorem bitString_bitsValue (l : List Bool) : bitString (bitsValue l) l.length = l := by
  induction l using List.reverseRecOn with
  | nil => rfl
  | append_singleton l x ih =>
    rw [bitsValue_snoc, List.length_append, List.length_singleton, bitString_snoc, ih]

/-- The number of a written-down number is its low bits. -/
theorem bitsValue_bitString (v n : Nat) : bitsValue (bitString v n) = v % 2 ^ n := by
  induction n generalizing v with
  | zero => simp [Nat.mod_one]
  | succ n ih =>
    have h : v = 2 * (v / 2) + (v.testBit 0).toNat := by
      have := Nat.div_add_mod v 2
      rcases Nat.mod_two_eq_zero_or_one v with h | h <;> simp [Nat.testBit_zero, h] <;> omega
    rw [h, bitString_snoc, bitsValue_snoc, ih, ← h, pow_succ]
    have h1 := Nat.mod_mul_left_div_self v 2 (2 ^ n)
    have h2 : v % (2 ^ n * 2) % 2 = v % 2 := Nat.mod_mul_left_mod v (2 ^ n) 2
    have h3 : (v.testBit 0).toNat = v % 2 := by
      rcases Nat.mod_two_eq_zero_or_one v with h | h <;> simp [Nat.testBit_zero, h]
    omega

/-! ### Cutting into bytes -/

theorem wholeBytes_short {l : List Bool} (h : l.length < 8) : wholeBytes l = [] := by
  simp [wholeBytes, Nat.div_eq_of_lt h]

theorem leftBits_short {l : List Bool} (h : l.length < 8) : leftBits l = l := by
  simp [leftBits, Nat.div_eq_of_lt h]

theorem wholeBytes_cons {a : List Bool} (ha : a.length = 8) (l : List Bool) :
    wholeBytes (a ++ l) = BitVec.ofNat 8 (bitsValue a) :: wholeBytes l := by
  have h : (a ++ l).length / 8 = l.length / 8 + 1 := by rw [List.length_append, ha]; omega
  rw [wholeBytes, h, List.range_succ_eq_map, List.map_cons, List.map_map, wholeBytes]
  refine congrArg₂ _ (by simp [ha]) (List.map_congr_left fun k _ => ?_)
  simp only [Function.comp, Nat.succ_eq_add_one]
  rw [show 8 * (k + 1) = a.length + 8 * k by omega, List.drop_length_add_append]

theorem leftBits_cons {a : List Bool} (ha : a.length = 8) (l : List Bool) : leftBits (a ++ l) = leftBits l := by
  have h : (a ++ l).length / 8 = l.length / 8 + 1 := by rw [List.length_append, ha]; omega
  rw [leftBits, h, show 8 * (l.length / 8 + 1) = a.length + 8 * (l.length / 8) by omega, List.drop_length_add_append]
  rfl

theorem leftBits_length (l : List Bool) : (leftBits l).length = l.length % 8 := by
  rw [leftBits, List.length_drop]; omega

@[simp] theorem wholeBytes_length (l : List Bool) : (wholeBytes l).length = l.length / 8 := by simp [wholeBytes]

/-- Complete bytes and what is left over determine how a longer string is cut. -/
theorem wholeBytes_append (a b : List Bool) :
    wholeBytes (a ++ b) = wholeBytes a ++ wholeBytes (leftBits a ++ b) ∧ leftBits (a ++ b) = leftBits (leftBits a ++ b) := by
  induction h : a.length / 8 generalizing a with
  | zero =>
    have h8 : a.length < 8 := by omega
    rw [wholeBytes_short h8, leftBits_short h8]
    exact ⟨rfl, rfl⟩
  | succ n ih =>
    have ht : (a.take 8).length = 8 := by rw [List.length_take]; omega
    have hd := ih (a.drop 8) (by rw [List.length_drop]; omega)
    rw [← List.take_append_drop 8 a, List.append_assoc, wholeBytes_cons ht, wholeBytes_cons ht, leftBits_cons ht,
      leftBits_cons ht, hd.1, hd.2]
    exact ⟨rfl, rfl⟩

theorem stuffBytes_append (a b : List Byte) : stuffBytes (a ++ b) = stuffBytes a ++ stuffBytes b := by
  simp [stuffBytes]

/-- Stuffing adds at most one byte for each (R126, R220). -/
theorem stuffBytes_length_le (bs : List Byte) : (stuffBytes bs).length ≤ 2 * bs.length := by
  induction bs with
  | nil => simp [stuffBytes]
  | cons b bs ih =>
    rw [show b :: bs = [b] ++ bs from rfl, stuffBytes_append, List.length_append, List.length_append]
    have : (stuffBytes [b]).length ≤ 2 := by
      simp only [stuffBytes, List.flatMap_cons, List.flatMap_nil, List.append_nil]
      split <;> simp
    simp only [List.length_singleton]
    omega

/-- After stuffing every 0xFF is followed by 0x00 (R128). -/
theorem stuffBytes_ff {bs : List Byte} {k : Nat} (h : (stuffBytes bs)[k]? = some 0xFF) :
    (stuffBytes bs)[k + 1]? = some 0x00 := by
  induction bs generalizing k with
  | nil => simp [stuffBytes] at h
  | cons b bs ih =>
    rw [show b :: bs = [b] ++ bs from rfl, stuffBytes_append] at h ⊢
    by_cases hb : b = 0xFF
    · subst hb
      match k with
      | 0 => rfl
      | 1 => simp [stuffBytes] at h
      | k + 2 => exact ih h
    · have e : stuffBytes [b] = [b] := by simp only [stuffBytes, List.flatMap_cons, List.flatMap_nil, if_neg hb]; rfl
      rw [e] at h ⊢
      match k with
      | 0 => simp at h; exact absurd h hb
      | k + 1 => exact ih h

theorem emittedBytes_short {l : List Bool} (h : l.length < 8) : emittedBytes l = [] := by
  rw [emittedBytes, wholeBytes_short h]; rfl

theorem emittedBytes_cons {a : List Bool} (ha : a.length = 8) (l : List Bool) :
    emittedBytes (a ++ l) = stuffBytes [BitVec.ofNat 8 (bitsValue a)] ++ emittedBytes l := by
  rw [emittedBytes, wholeBytes_cons ha, ← List.singleton_append, stuffBytes_append]; rfl

/-- Bits emitted in two goes: the second go starts with what the first left over (R130). -/
theorem emittedBytes_append (a b : List Bool) :
    emittedBytes (a ++ b) = emittedBytes a ++ emittedBytes (leftBits a ++ b) := by
  rw [emittedBytes, (wholeBytes_append a b).1, stuffBytes_append]; rfl

/-- A bit string emits at most two bytes for each eight bits (R220). -/
theorem emittedBytes_length_le (l : List Bool) : (emittedBytes l).length ≤ 2 * (l.length / 8) := by
  have := stuffBytes_length_le (wholeBytes l)
  rwa [wholeBytes_length] at this

/-! ### Pushing bits -/

/-- A state with other pending bits. -/
def withBits (a : BitVec 8) (n : BitVec 3) (s : State) : State := { s with acc := a, nbits := n }

@[simp] theorem withBits_withBits (a a' : BitVec 8) (n n' : BitVec 3) (s : State) :
    withBits a n (withBits a' n' s) = withBits a n s := rfl

@[simp] theorem withBits_self (s : State) : withBits s.acc s.nbits s = s := rfl

/-- A change of state under a result. -/
def Res.mapState (f : State → State) : Res → Res
  | .ok s => .ok (f s)
  | .raise c s => .raise c (f s)
  | .uninit s => .uninit (f s)

theorem busAccess_withBits (n : Nat) (a : BitVec 8) (b : BitVec 3) (s : State) :
    busAccess n (withBits a b s) = (busAccess n s).mapState (withBits a b) := by
  obtain ⟨irqEn, busy, done, err, overrun, errcode, qtValid, htValid, regs, outLen, acc, nbits, pred, qt0, qt1, ht0, ht1,
    ht2, ht3, blk, qblk, zz, pending, encPos, modelFault, mem, inputs, resp, draws, busErrIn, tables⟩ := s
  cases busErrIn with
  | none => rfl
  | some k => simp only [busAccess, withBits]; split <;> rfl

theorem emitRaw_withBits (p : Params) (x : Byte) (a : BitVec 8) (b : BitVec 3) (s : State) :
    emitRaw p x (withBits a b s) = (emitRaw p x s).mapState (withBits a b) := by
  unfold emitRaw
  rw [busAccess_withBits]
  change (if p.dstCap.toNat ≤ s.outLen.toNat then _ else _) = _
  split
  · rfl
  · cases busAccess 1 s <;> rfl

/-- Emitting bytes does not look at the pending bits. -/
theorem forEach_emitRaw_withBits (p : Params) (bs : List Byte) (a : BitVec 8) (b : BitVec 3) (s : State) :
    forEach (emitRaw p) bs (withBits a b s) = (forEach (emitRaw p) bs s).mapState (withBits a b) := by
  induction bs generalizing s with
  | nil => rfl
  | cons x bs ih =>
    rw [forEach_cons, emitRaw_withBits, forEach_cons]
    cases emitRaw p x s with
    | ok t => exact ih t
    | raise c t => rfl
    | uninit t => rfl

/-- EmitStuffed emits a byte and its stuffing (R122). -/
theorem emitStuffed_eq (p : Params) (b : Byte) (s : State) :
    emitStuffed p b s = forEach (emitRaw p) (stuffBytes [b]) s := by
  have h1 : ∀ (x : Byte) (t : State), forEach (emitRaw p) [x] t = emitRaw p x t := fun x t => Res.bind_pure _
  unfold emitStuffed stuffBytes
  simp only [List.flatMap_cons, List.flatMap_nil, List.append_nil]
  by_cases h : b = 0xFF
  · simp only [h, if_true]
    rw [forEach_cons]
    congr 1
    funext t
    exact (h1 0x00 t).symm
  · simp only [if_neg h, Res.bind_pure, h1]

theorem accWith_toNat (acc : BitVec 8) (x : Bool) : (accWith acc x).toNat = (2 * acc.toNat + x.toNat) % 256 := by
  have : ∀ a : BitVec 8, (accWith a true).toNat = (2 * a.toNat + 1) % 256 ∧ (accWith a false).toNat = 2 * a.toNat % 256 := by
    decide
  cases x <;> simp [this acc]

/-- PushBits is PushBit over the bit string (R124). -/
theorem pushBits_eq (p : Params) (v n : Nat) (s : State) : pushBits p v n s = forEach (pushBit p) (bitString v n) s := by
  induction n generalizing s with
  | zero => rfl
  | succ n ih =>
    rw [bitString_succ, forEach_cons, pushBits]
    cases pushBit p (v.testBit n) s with
    | ok t => exact ih t
    | raise c t => rfl
    | uninit t => rfl

theorem pendingBits_length (s : State) : (pendingBits s).length = s.nbits.toNat := by simp [pendingBits]

theorem bitsValue_pendingBits {s : State} (h : s.BitInv) : bitsValue (pendingBits s) = s.acc.toNat := by
  rw [pendingBits, bitsValue_bitString, Nat.mod_eq_of_lt h]

/-- What pushing bits does, in one piece: it emits the stuffed complete bytes of the pending bits followed by the pushed
ones, and fails where emitting those bytes fails; when all are emitted, the bits left over are pending. -/
theorem pushBit_spec (p : Params) (l : List Bool) {s : State} (hs : s.BitInv) :
    ∃ a n, forEach (pushBit p) l s =
        (forEach (emitRaw p) (emittedBytes (pendingBits s ++ l)) s).mapState (withBits a n) ∧
      ∀ t, forEach (emitRaw p) (emittedBytes (pendingBits s ++ l)) s = .ok t →
        a = BitVec.ofNat 8 (bitsValue (leftBits (pendingBits s ++ l))) ∧
        n = BitVec.ofNat 3 (leftBits (pendingBits s ++ l)).length := by
  induction l generalizing s with
  | nil =>
    have h8 : (pendingBits s ++ []).length < 8 := by
      rw [List.append_nil, pendingBits_length]; exact s.nbits.isLt
    refine ⟨s.acc, s.nbits, ?_, fun t _ => ?_⟩
    · rw [emittedBytes_short h8]; rfl
    · rw [leftBits_short h8, List.append_nil, bitsValue_pendingBits hs, pendingBits_length]
      simp
  | cons x l ih =>
    have hval : bitsValue (pendingBits s ++ [x]) = 2 * s.acc.toNat + x.toNat := by
      rw [bitsValue_snoc, bitsValue_pendingBits hs]
    have hx := x.toNat_le
    by_cases h7 : s.nbits = 7
    · have hlen : (pendingBits s ++ [x]).length = 8 := by simp [pendingBits_length, h7]
      have hb : BitVec.ofNat 8 (bitsValue (pendingBits s ++ [x])) = accWith s.acc x := by
        apply BitVec.eq_of_toNat_eq
        rw [accWith_toNat, hval, BitVec.toNat_ofNat]
      have hcut : pendingBits s ++ x :: l = (pendingBits s ++ [x]) ++ l := by simp
      rw [hcut, emittedBytes_cons hlen, leftBits_cons hlen, hb, forEach_append, forEach_cons]
      have hp : pushBit p x s = (forEach (emitRaw p) (stuffBytes [accWith s.acc x]) s).mapState (withBits 0 0) := by
        rw [pushBit, if_pos h7, emitStuffed_eq]
        exact forEach_emitRaw_withBits p _ 0 0 s
      rw [hp]
      cases h1 : forEach (emitRaw p) (stuffBytes [accWith s.acc x]) s with
      | raise c t => exact ⟨0, 0, rfl, fun t h => by cases h⟩
      | uninit t => exact ⟨0, 0, rfl, fun t h => by cases h⟩
      | ok t =>
        obtain ⟨a, n, he, hok⟩ := ih (s := withBits 0 0 t) (by simp [State.BitInv, withBits])
        have h0 : pendingBits (withBits 0 0 t) = [] := rfl
        rw [h0, List.nil_append, forEach_emitRaw_withBits] at he hok
        refine ⟨a, n, ?_, fun u hu => hok _ (by rw [show forEach _ _ t = _ from hu]; rfl)⟩
        simp only [Res.bind_ok, Res.mapState]
        rw [he]
        cases forEach (emitRaw p) (emittedBytes l) t <;> rfl
    · have hn : s.nbits.toNat < 7 := by
        have := s.nbits.isLt
        have : s.nbits.toNat ≠ 7 := fun h => h7 (BitVec.eq_of_toNat_eq h)
        omega
      have hacc : s.acc.toNat < 128 := lt_of_lt_of_le hs (Nat.pow_le_pow_right (by norm_num) hn.le)
      have hn1 : (s.nbits + 1).toNat = s.nbits.toNat + 1 := by
        rw [BitVec.toNat_add]; exact Nat.mod_eq_of_lt (by simp; omega)
      have ha1 : (accWith s.acc x).toNat = 2 * s.acc.toNat + x.toNat := by
        rw [accWith_toNat, Nat.mod_eq_of_lt (by omega)]
      have hpend : pendingBits (withBits (accWith s.acc x) (s.nbits + 1) s) = pendingBits s ++ [x] := by
        simp only [pendingBits, withBits]
        rw [hn1, ha1, bitString_snoc]
      obtain ⟨a, n, he, hok⟩ := ih (s := withBits (accWith s.acc x) (s.nbits + 1) s) (by
        simp only [State.BitInv, withBits] at hs ⊢
        rw [hn1, ha1, pow_succ]
        omega)
      rw [hpend, List.append_assoc, List.singleton_append, forEach_emitRaw_withBits] at he hok
      refine ⟨a, n, ?_, fun t ht => hok _ (by rw [ht]; rfl)⟩
      rw [forEach_cons, pushBit, if_neg h7, Res.bind_ok]
      refine Eq.trans he ?_
      cases forEach (emitRaw p) (emittedBytes (pendingBits s ++ x :: l)) s <;> rfl

/-- The items of a block are pushed as one bit string (R169). -/
theorem emitCoded_eq (p : Params) (cs : List Coded) (s : State) :
    forEach (emitCoded p) cs s = forEach (pushBit p) (cs.flatMap codedBits) s := by
  rw [forEach_flatMap]
  congr 1
  funext c s
  rw [emitCoded, pushBits_eq, codedBits, forEach_append]
  congr 1
  funext t
  rw [pushBits_eq]

/-- FLUSH pushes 1-bits up to the end of the byte (R127). -/
theorem flushBody_eq (p : Params) {s : State} (hs : s.BitInv) (h : s.nbits ≠ 0) :
    flushBody p s =
      (forEach (emitRaw p) (emittedBytes (padOnes (pendingBits s))) s).mapState (withBits 0 0) := by
  have key : ∀ n : BitVec 3, n ≠ 0 → ∀ a : BitVec 8, a.toNat < 2 ^ n.toNat →
      emittedBytes (padOnes (bitString a.toNat n.toNat)) = stuffBytes [flushByte a n] := by
    decide +kernel
  rw [pendingBits, key s.nbits h s.acc hs, flushBody, if_neg h, emitStuffed_eq]
  exact forEach_emitRaw_withBits p _ 0 0 s

end Sys2Proof.Machine
end

