-- ==== Sys2Proof/Laws/Tables.lean ====
section
/-!
SUPPORT. Sys2Proof/Laws/Tables.lean: the configuration: the default tables meet the constraints of the spec
(40_qt_scale.md R101, 41_huffman_build.md R113), and no shared operation changes the tables of a state (10_state.md R46).
-/
namespace Sys2Proof.Machine

/-! ### The defaults -/

theorem huffDcLuma_admissible : huffDcLuma.Admissible :=
  ⟨⟨by decide +kernel, by decide +kernel, by decide +kernel, by decide +kernel⟩, by decide +kernel⟩

theorem huffAcLuma_admissible : huffAcLuma.Admissible :=
  ⟨⟨by decide +kernel, by decide +kernel, by decide +kernel, by decide +kernel⟩, by decide +kernel⟩

theorem huffDcChroma_admissible : huffDcChroma.Admissible :=
  ⟨⟨by decide +kernel, by decide +kernel, by decide +kernel, by decide +kernel⟩, by decide +kernel⟩

theorem huffAcChroma_admissible : huffAcChroma.Admissible :=
  ⟨⟨by decide +kernel, by decide +kernel, by decide +kernel, by decide +kernel⟩, by decide +kernel⟩

/-- R101 for the defaults. -/
theorem defaults_base (t : QTable) : (Tables.defaults.baseQt t).length = 64 ∧
    ∀ b ∈ Tables.defaults.baseQt t, 1 ≤ b ∧ b ≤ 255 := by
  cases t <;> decide +kernel

/-- R113 (d) for an AC list, in a form that is decided by running through the runs and categories. -/
theorem acList_of_all {l : List Nat} (h0 : 0x00 ∈ l) (hz : 0xF0 ∈ l)
    (h : ∀ run : Fin 16, ∀ c : Fin 10, run.val * 16 + (c.val + 1) ∈ l) :
    0x00 ∈ l ∧ 0xF0 ∈ l ∧ ∀ run ≤ 15, ∀ c, 1 ≤ c → c ≤ 10 → run * 16 + c ∈ l := by
  refine ⟨h0, hz, fun run hr c h1 h10 => ?_⟩
  have := h ⟨run, by omega⟩ ⟨c - 1, by omega⟩
  rwa [show c - 1 + 1 = c by omega] at this

/-- R9, R101, R113: the defaults are admissible. -/
theorem defaults_admissible : Tables.defaults.Admissible where
  base := defaults_base
  huff := fun t => by
    cases t
    · exact huffDcLuma_admissible
    · exact huffAcLuma_admissible
    · exact huffDcChroma_admissible
    · exact huffAcChroma_admissible
  dc := by
    rintro t (rfl | rfl) <;> decide +kernel
  ac := by
    rintro t (rfl | rfl)
    · exact acList_of_all (by decide +kernel) (by decide +kernel) (by decide +kernel)
    · exact acList_of_all (by decide +kernel) (by decide +kernel) (by decide +kernel)

/-! ### The file of an image -/

/-- The file of an image depends on the registers, the memory and the configuration alone (R218). -/
theorem fileOf_congr {p : Params} {s t : State} (hm : t.mem = s.mem) (ht : t.tables = s.tables) :
    fileOf p t = fileOf p s := by
  unfold fileOf readByte
  rw [hm, ht]

/-! ### The configuration is constant -/

@[simp] theorem reset_tables : State.reset.tables = Tables.defaults := rfl

theorem drawBytes_tables (a n : Nat) (s : State) : (drawBytes a n s).tables = s.tables := by
  induction n generalizing s with
  | zero => rfl
  | succ n ih => rw [drawBytes, ih, storeByte_tables]

@[simp] theorem resetBlock_tables (mark : Option ModelFault) (s : State) : (resetBlock mark s).tables = s.tables := rfl

@[simp] theorem hardReset_tables (s : State) : (hardReset s).tables = s.tables := rfl

@[simp] theorem softReset_tables (s : State) : (softReset s).tables = s.tables := by
  show (abandon s).tables = s.tables
  unfold abandon
  split
  · exact drawBytes_tables _ _ s
  · rfl

end Sys2Proof.Machine
end

