-- ==== Sys2Proof/Laws/Transform.lean ====
section
/-!
SUPPORT. Sys2Proof/Laws/Transform.lean: the weights of the ideal transform are orthonormal (43_fdct.md R143), and what
follows for the size of their sums (R146).
-/
namespace Sys2Proof

/-- The sum of the eight cosines of odd multiples of an angle, by telescoping. -/
theorem sum_cos_odd (t : ℝ) : 2 * Real.sin t * ∑ x : Fin 8, Real.cos ((2 * (x.val : ℝ) + 1) * t) = Real.sin (16 * t) := by
  have step : ∀ n : ℕ, ∀ a : ℝ, a = (2 * (n : ℝ) + 1) →
      2 * Real.sin t * Real.cos (a * t) = Real.sin (2 * ((n : ℝ) + 1) * t) - Real.sin (2 * (n : ℝ) * t) := by
    intro n a ha
    rw [show 2 * ((n : ℝ) + 1) * t = a * t + t by rw [ha]; ring, show 2 * (n : ℝ) * t = a * t - t by rw [ha]; ring,
      Real.sin_add, Real.sin_sub]
    ring
  rw [Finset.mul_sum, Finset.sum_congr rfl fun (x : Fin 8) _ => step x.val _ rfl]
  simp only [Fin.sum_univ_eight, Fin.val_zero, Fin.val_one, Fin.val_two, Fin.isValue]
  norm_num [show ((3 : Fin 8) : ℕ) = 3 from rfl, show ((4 : Fin 8) : ℕ) = 4 from rfl, show ((5 : Fin 8) : ℕ) = 5 from rfl,
    show ((6 : Fin 8) : ℕ) = 6 from rfl, show ((7 : Fin 8) : ℕ) = 7 from rfl]

/-- The eight cosines of odd multiples of m pi / 16 cancel for 0 < m < 16. -/
theorem sum_cos_odd_zero {m : ℕ} (h0 : 0 < m) (h16 : m < 16) :
    ∑ x : Fin 8, Real.cos ((2 * (x.val : ℝ) + 1) * ((m : ℝ) * Real.pi / 16)) = 0 := by
  have h := sum_cos_odd ((m : ℝ) * Real.pi / 16)
  rw [show 16 * ((m : ℝ) * Real.pi / 16) = (m : ℝ) * Real.pi by ring, Real.sin_nat_mul_pi] at h
  have hm0 : (0 : ℝ) < m := by exact_mod_cast h0
  have hm16 : (m : ℝ) < 16 := by exact_mod_cast h16
  have hpi := Real.pi_pos
  have hs : 0 < Real.sin ((m : ℝ) * Real.pi / 16) :=
    Real.sin_pos_of_pos_of_lt_pi (by positivity) (by nlinarith)
  rcases mul_eq_zero.1 h with h | h
  · linarith
  · exact h

/-- The product of two cosines of the transform, summed over the samples. -/
theorem sum_fdctCos_mul (k l : Fin 8) :
    ∑ x : Fin 8, fdctCos k x * fdctCos l x = if k = l then (if k = 0 then 8 else 4) else 0 := by
  have hprod : ∀ a b : ℝ, Real.cos a * Real.cos b = 1 / 2 * Real.cos (a - b) + 1 / 2 * Real.cos (a + b) := by
    intro a b; rw [Real.cos_sub, Real.cos_add]; ring
  have hsum : ∀ m : ℕ, m < 16 →
      ∑ x : Fin 8, Real.cos ((2 * (x.val : ℝ) + 1) * ((m : ℝ) * Real.pi / 16)) = if m = 0 then 8 else 0 := by
    intro m hm
    split
    · subst_vars; simp
    · exact sum_cos_odd_zero (Nat.pos_of_ne_zero ‹_›) hm
  wlog hkl : l ≤ k generalizing k l
  · have h := this l k (le_of_lt (not_le.1 hkl))
    rw [Finset.sum_congr rfl fun x _ => mul_comm (fdctCos k x) (fdctCos l x), h]
    have hne : k ≠ l := fun h => hkl (h ▸ le_rfl)
    rw [if_neg hne, if_neg hne.symm]
  have h1 : ∀ x : Fin 8, fdctCos k x * fdctCos l x =
      1 / 2 * Real.cos ((2 * (x.val : ℝ) + 1) * (((k.val - l.val : ℕ) : ℝ) * Real.pi / 16))
        + 1 / 2 * Real.cos ((2 * (x.val : ℝ) + 1) * (((k.val + l.val : ℕ) : ℝ) * Real.pi / 16)) := by
    intro x
    rw [fdctCos, fdctCos, hprod, Nat.cast_sub (Fin.le_def.1 hkl)]
    push_cast
    congr 3 <;> ring
  rw [Finset.sum_congr rfl fun x _ => h1 x, Finset.sum_add_distrib, ← Finset.mul_sum, ← Finset.mul_sum,
    hsum _ (by omega), hsum _ (by omega)]
  by_cases he : k = l
  · subst he
    by_cases h0 : k = 0
    · subst h0; simp; norm_num
    · have : k.val ≠ 0 := fun h => h0 (Fin.ext h)
      rw [if_pos (by omega), if_neg (by omega), if_pos rfl, if_neg h0]; norm_num
  · have hlt : l.val < k.val := lt_of_le_of_ne (Fin.le_def.1 hkl) fun h => he (Fin.ext h.symm)
    rw [if_neg (by omega), if_neg (by omega), if_neg he]; norm_num

/-- The weights of one pass are orthonormal, row by row. -/
theorem fdctWeight_orthonormal (k l : Fin 8) :
    ∑ x : Fin 8, fdctWeight k x * fdctWeight l x = if k = l then 1 else 0 := by
  have h : ∀ x : Fin 8, fdctWeight k x * fdctWeight l x = 1 / 4 * fdctC k * fdctC l * (fdctCos k x * fdctCos l x) := by
    intro x; unfold fdctWeight; ring
  rw [Finset.sum_congr rfl fun x _ => h x, ← Finset.mul_sum, sum_fdctCos_mul]
  by_cases hkl : k = l
  · subst hkl
    rw [if_pos rfl, if_pos rfl]
    have h2 : Real.sqrt 2 * Real.sqrt 2 = 2 := Real.mul_self_sqrt (by norm_num)
    have hpos : Real.sqrt 2 ≠ 0 := by positivity
    by_cases h0 : k = 0
    · rw [if_pos h0, fdctC, if_pos h0]
      field_simp
      linarith
    · rw [if_neg h0, fdctC, if_neg h0]; norm_num
  · rw [if_neg hkl, if_neg hkl, mul_zero]

/-- The weights of one pass are orthonormal, column by column. -/
theorem fdctWeight_orthonormal_col (x y : Fin 8) :
    ∑ k : Fin 8, fdctWeight k x * fdctWeight k y = if x = y then 1 else 0 := by
  have h : (Matrix.of fdctWeight) * (Matrix.of fdctWeight).transpose = 1 := by
    ext k l
    rw [Matrix.mul_apply, Matrix.one_apply, ← fdctWeight_orthonormal]
    rfl
  have h' := mul_eq_one_comm.1 h
  have hxy := congrFun (congrFun h' x) y
  rw [Matrix.mul_apply, Matrix.one_apply] at hxy
  exact hxy

/-- The sum of the magnitudes of the weights of one pass is at most the square root of 8. -/
theorem fdctWeight_abs_sum_sq_le (k : Fin 8) : (∑ x : Fin 8, |fdctWeight k x|) ^ 2 ≤ 8 := by
  have h := Finset.sum_mul_sq_le_sq_mul_sq Finset.univ (fun _ : Fin 8 => (1 : ℝ)) (fun x => |fdctWeight k x|)
  have ho := fdctWeight_orthonormal k k
  rw [if_pos rfl] at ho
  simp only [one_mul, one_pow, Finset.sum_const, Finset.card_univ, Fintype.card_fin, sq_abs] at h
  rw [show ∑ x : Fin 8, fdctWeight k x ^ 2 = 1 by rw [← ho]; exact Finset.sum_congr rfl fun x _ => sq _] at h
  norm_num at h
  exact h

/-- The magnitudes of the weights of a coefficient sum to at most 8 (R146). -/
theorem fdctWeight_abs_sum_le (u v : Fin 8) :
    ∑ y : Fin 8, ∑ x : Fin 8, |fdctWeight u x * fdctWeight v y| ≤ 8 := by
  have hu := fdctWeight_abs_sum_sq_le u
  have hv := fdctWeight_abs_sum_sq_le v
  have hpu : 0 ≤ ∑ x : Fin 8, |fdctWeight u x| := Finset.sum_nonneg fun _ _ => abs_nonneg _
  have hpv : 0 ≤ ∑ y : Fin 8, |fdctWeight v y| := Finset.sum_nonneg fun _ _ => abs_nonneg _
  have he : ∑ y : Fin 8, ∑ x : Fin 8, |fdctWeight u x * fdctWeight v y|
      = (∑ x : Fin 8, |fdctWeight u x|) * ∑ y : Fin 8, |fdctWeight v y| := by
    rw [Finset.sum_mul_sum, Finset.sum_comm]
    exact Finset.sum_congr rfl fun _ _ => Finset.sum_congr rfl fun _ _ => abs_mul _ _
  rw [he]
  nlinarith [sq_nonneg ((∑ x : Fin 8, |fdctWeight u x|) - ∑ y : Fin 8, |fdctWeight v y|)]

end Sys2Proof
end

