-- ==== Sys2Proof/Machine/Script.lean ====
section
/-!
DEFINITION. Sys2Proof/Machine/Script.lean: the command-script syntax of 30_encoding.md R90 to R95: the lines of a host
script, what the assembler refuses, and the host accesses each line stands for. A script gives the inputs of a run
(log 29).
-/
namespace Sys2Proof.Machine.Script

/-- The register names of a script, those of R21. -/
inductive RegName where
  | id
  | version
  | ctrl
  | status
  | cmd
  | arg0
  | origin
  | width
  | height
  | quality
  | srcAddr
  | srcLen
  | dstAddr
  | dstCap
  | outLen
  | bwState
  | predY
  | predCb
  | predCr
  deriving DecidableEq, Repr

/-- The 64-entry windows of a script (R91). -/
inductive WinName where
  | qt0
  | qt1
  | blk
  | qblk
  | zz
  deriving DecidableEq, Repr

/-- What WR and RD name (R91). -/
inductive Target where
  | reg (r : RegName)
  | win (w : WinName) (i : Nat)
  | ht (t s : Nat)
  deriving DecidableEq, Repr

/-- A command mnemonic with its operand as a number (R92). -/
inductive Command where
  | nop
  | qtScale
  | huffBuild
  | resetStream
  | pushBits (n : Nat)
  | flush
  | fdct
  | sample (ch : Nat)
  | quant (tbl : Nat)
  | zigzag
  | entropy (ch : Nat)
  | writeHeaders
  | writeEoi
  | encode
  deriving DecidableEq, Repr

/-- A line of a script (R90): a host operation (R91), a command (R92) or a pseudo-instruction (R93). -/
inductive Line where
  | wr (t : Target) (value : Nat)
  | rd (t : Target)
  | wait
  | mem (addr : Nat) (bytes : List Nat)
  | command (c : Command)
  | run (c : Command)
  | push (v n : Nat)
  | origin (bx byy : Nat)
  | block (ch : Nat)
  | finish
  | clr
  | image (w h q src dst cap : Nat)
  deriving DecidableEq, Repr

/-- The offset of a register name (R21). -/
def regOffset : RegName → Nat
  | .id => 0x000
  | .version => 0x004
  | .ctrl => 0x008
  | .status => 0x00C
  | .cmd => 0x010
  | .arg0 => 0x014
  | .origin => 0x018
  | .width => 0x01C
  | .height => 0x020
  | .quality => 0x024
  | .srcAddr => 0x028
  | .srcLen => 0x02C
  | .dstAddr => 0x030
  | .dstCap => 0x034
  | .outLen => 0x038
  | .bwState => 0x03C
  | .predY => 0x040
  | .predCb => 0x044
  | .predCr => 0x048

/-- The base offset of a window (R21). -/
def winBase : WinName → Nat
  | .qt0 => 0x400
  | .qt1 => 0x500
  | .blk => 0x600
  | .qblk => 0x700
  | .zz => 0x800

/-- The offset of a target; refused outside the index ranges of R95. -/
def targetOffset : Target → Option Nat
  | .reg r => some (regOffset r)
  | .win w i => if i < 64 then some (winBase w + 4 * i) else none
  | .ht t s => if t < 4 ∧ s < 256 then some (0x1000 + 0x400 * t + 4 * s) else none

/-- A channel operand, 0 to 2 (R92). -/
def channelOf : Nat → Option Channel
  | 0 => some .y
  | 1 => some .cb
  | 2 => some .cr
  | _ => none

/-- A table operand, 0 to 1 (R92). -/
def tableOf : Nat → Option QTable
  | 0 => some .luma
  | 1 => some .chroma
  | _ => none

/-- The instruction of a mnemonic line; refused for an operand outside its kind's legal set (R92, R95). -/
def instrOf : Command → Option Instr
  | .nop => some .nop
  | .qtScale => some .qtScale
  | .huffBuild => some .huffBuild
  | .resetStream => some .resetStream
  | .pushBits n => if n ≤ 32 then some (.pushBits (BitVec.ofNat 6 n)) else none
  | .flush => some .flush
  | .fdct => some .fdct
  | .sample ch => (channelOf ch).map .sample
  | .quant tbl => (tableOf tbl).map .quant
  | .zigzag => some .zigzag
  | .entropy ch => (channelOf ch).map .entropy
  | .writeHeaders => some .writeHeaders
  | .writeEoi => some .writeEoi
  | .encode => some .encode

/-- One aligned 32-bit register write (R91); a value of more than 32 bits is refused (log 29). -/
def writeOp (t : Target) (value : Nat) : Option (List Event) :=
  if value < 2 ^ 32 then
    (targetOffset t).map fun off => [.regWrite (BitVec.ofNat 13 off) .word (BitVec.ofNat 32 value)]
  else none

/-- One aligned 32-bit register read (R91). -/
def readOp (t : Target) : Option (List Event) :=
  (targetOffset t).map fun off => [.regRead (BitVec.ofNat 13 off) .word]

/-- The host writes bytes from an address upward (R91 MEM); refused when a byte or an address does not exist. -/
def memOps : Nat → List Nat → Option (List Event)
  | _, [] => some []
  | addr, b :: bs =>
    if addr < 2 ^ 32 ∧ b < 256 then
      (memOps (addr + 1) bs).map fun es => .memWrite (BitVec.ofNat 32 addr) (BitVec.ofNat 8 b) :: es
    else none

/-- A mnemonic line is one `WR CMD, word` (R92). -/
def commandOp (c : Command) : Option (List Event) :=
  (instrOf c).bind fun i => writeOp (.reg .cmd) (Sys2Proof.encode i).toNat

/-- `RUN command` (R93): the command, then WAIT. -/
def runOp (c : Command) : Option (List Event) := (commandOp c).map fun es => es ++ [.wait]

/-- The accesses of several parts in order; refused when a part is. -/
def inOrder : List (Option (List Event)) → Option (List Event)
  | [] => some []
  | none :: _ => none
  | some es :: parts => (inOrder parts).map fun rest => es ++ rest

/-- The table of R93's BLOCK: LUMA for Y and CHROMA for CB and CR (R94). -/
def blockTable (ch : Nat) : Nat := if ch = 0 then 0 else 1

/-- The host accesses of a line (R91 to R93), or none when the assembler refuses it (R95). -/
def lineOps : Line → Option (List Event)
  | .wr t value => writeOp t value
  | .rd t => readOp t
  | .wait => some [.wait]
  | .mem addr bytes => memOps addr bytes
  | .command c => commandOp c
  | .run c => runOp c
  | .push v n => inOrder [writeOp (.reg .arg0) v, runOp (.pushBits n)]
  | .origin bx byy => writeOp (.reg .origin) ((byy <<< 16) ||| bx)
  | .block ch =>
    inOrder [runOp (.sample ch), runOp .fdct, runOp (.quant (blockTable ch)), runOp .zigzag, runOp (.entropy ch)]
  | .finish => inOrder [runOp .flush, runOp .writeEoi]
  | .clr => writeOp (.reg .status) 0x0000000E
  | .image w h q src dst cap =>
    inOrder [writeOp (.reg .width) w, writeOp (.reg .height) h, writeOp (.reg .quality) q,
      writeOp (.reg .srcAddr) src, writeOp (.reg .srcLen) (w * h * 3), writeOp (.reg .dstAddr) dst,
      writeOp (.reg .dstCap) cap]

/-! ### The written form (R90) -/

/-- The text of a line before its comment (R90). -/
def stripComment (cs : List Char) : List Char := cs.takeWhile (· != ';')

/-- The words of a line: runs of characters between spaces, tabs, commas and square brackets. -/
def wordsFrom : List Char → List Char → List (List Char)
  | [], [] => []
  | w, [] => [w.reverse]
  | w, c :: cs =>
    if c = ' ' ∨ c = '\t' ∨ c = ',' ∨ c = '[' ∨ c = ']' then
      match w with
      | [] => wordsFrom [] cs
      | _ => w.reverse :: wordsFrom [] cs
    else wordsFrom (c :: w) cs

/-- The value of a digit character in any base up to 16. -/
def digit (c : Char) : Option Nat :=
  let n := c.toNat
  if 48 ≤ n ∧ n ≤ 57 then some (n - 48)
  else if 65 ≤ n ∧ n ≤ 70 then some (n - 55)
  else if 97 ≤ n ∧ n ≤ 102 then some (n - 87)
  else none

/-- The digits of a number in a base, after the value read so far. -/
def digits (base : Nat) : Nat → List Char → Option Nat
  | acc, [] => some acc
  | acc, c :: cs =>
    match digit c with
    | none => none
    | some d => if d < base then digits base (acc * base + d) cs else none

/-- A number (R90): decimal, `0x` hexadecimal or `0b` binary. -/
def number (cs : List Char) : Option Nat :=
  match cs with
  | [] => none
  | '0' :: 'x' :: c :: rest => digits 16 0 (c :: rest)
  | '0' :: 'b' :: c :: rest => digits 2 0 (c :: rest)
  | c :: rest => digits 10 0 (c :: rest)

/-- The numbers of a list of words. -/
def numbers : List (List Char) → Option (List Nat)
  | [] => some []
  | w :: ws =>
    match number w, numbers ws with
    | some n, some ns => some (n :: ns)
    | _, _ => none

/-- A channel word (R92): Y, CB, CR or a number. -/
def channelWord (w : List Char) : Option Nat :=
  if w = ['Y'] then some 0 else if w = ['C', 'B'] then some 1 else if w = ['C', 'R'] then some 2 else number w

/-- A table word (R92): LUMA, CHROMA or a number. -/
def tableWord (w : List Char) : Option Nat :=
  if w = "LUMA".toList then some 0 else if w = "CHROMA".toList then some 1 else number w

/-- The register names as written (R21). -/
def regNames : List (List Char × RegName) :=
  [("ID".toList, .id), ("VERSION".toList, .version), ("CTRL".toList, .ctrl), ("STATUS".toList, .status),
    ("CMD".toList, .cmd), ("ARG0".toList, .arg0), ("ORIGIN".toList, .origin), ("WIDTH".toList, .width),
    ("HEIGHT".toList, .height), ("QUALITY".toList, .quality), ("SRC_ADDR".toList, .srcAddr),
    ("SRC_LEN".toList, .srcLen), ("DST_ADDR".toList, .dstAddr), ("DST_CAP".toList, .dstCap),
    ("OUT_LEN".toList, .outLen), ("BW_STATE".toList, .bwState), ("PRED_Y".toList, .predY),
    ("PRED_CB".toList, .predCb), ("PRED_CR".toList, .predCr)]

/-- The window names as written (R91). -/
def winNames : List (List Char × WinName) :=
  [("QT0".toList, .qt0), ("QT1".toList, .qt1), ("BLK".toList, .blk), ("QBLK".toList, .qblk), ("ZZ".toList, .zz)]

/-- The target at the start of the words of WR or RD, and the words after it. -/
def targetWords : List (List Char) → Option (Target × List (List Char))
  | [] => none
  | w :: ws =>
    if w = "HT".toList then
      match ws with
      | t :: s :: rest =>
        match number t, number s with
        | some t, some s => some (.ht t s, rest)
        | _, _ => none
      | _ => none
    else
      match winNames.lookup w, ws with
      | some win, i :: rest => (number i).map fun i => (.win win i, rest)
      | some _, [] => none
      | none, _ => (regNames.lookup w).map fun r => (.reg r, ws)

/-- The mnemonics without an operand, as written (R92). -/
def plainCommands : List (List Char × Command) :=
  [("NOP".toList, .nop), ("QT_SCALE".toList, .qtScale), ("HUFF_BUILD".toList, .huffBuild),
    ("RESET_STREAM".toList, .resetStream), ("FLUSH".toList, .flush), ("FDCT".toList, .fdct),
    ("ZIGZAG".toList, .zigzag), ("WRITE_HEADERS".toList, .writeHeaders), ("WRITE_EOI".toList, .writeEoi),
    ("ENCODE".toList, .encode)]

/-- A command mnemonic with its operand (R92). -/
def commandWords : List (List Char) → Option Command
  | [w] => plainCommands.lookup w
  | [w, x] =>
    if w = "PUSH_BITS".toList then (number x).map .pushBits
    else if w = "SAMPLE".toList then (channelWord x).map .sample
    else if w = "QUANT".toList then (tableWord x).map .quant
    else if w = "ENTROPY".toList then (channelWord x).map .entropy
    else none
  | _ => none

/-- A line from its words (R91 to R93); an unknown mnemonic or register name is refused (R95). -/
def lineOfWords (ws : List (List Char)) : Option Line :=
  match ws with
  | [] => none
  | w :: args =>
    if w = "WR".toList then
      match targetWords args with
      | some (t, [v]) => (number v).map (.wr t)
      | _ => none
    else if w = "RD".toList then
      match targetWords args with
      | some (t, []) => some (.rd t)
      | _ => none
    else if w = "MEM".toList then
      match numbers args with
      | some (a :: bs) => some (.mem a bs)
      | _ => none
    else if w = "RUN".toList then (commandWords args).map .run
    else if w = "WAIT".toList ∧ args = [] then some .wait
    else if w = "FINISH".toList ∧ args = [] then some .finish
    else if w = "CLR".toList ∧ args = [] then some .clr
    else if w = "PUSH".toList then
      match numbers args with
      | some [v, n] => some (.push v n)
      | _ => none
    else if w = "AT".toList then
      match numbers args with
      | some [bx, byy] => some (.origin bx byy)
      | _ => none
    else if w = "BLOCK".toList then
      match args with
      | [ch] => (channelWord ch).map .block
      | _ => none
    else if w = "IMAGE".toList then
      match numbers args with
      | some [x, h, q, src, dst, cap] => some (.image x h q src dst cap)
      | _ => none
    else (commandWords ws).map .command

/-- The host accesses of one written line: none of its own for an empty line or a comment (R90). -/
def textOps (cs : List Char) : Option (List Event) :=
  match wordsFrom [] (stripComment cs) with
  | [] => some []
  | ws => (lineOfWords ws).bind lineOps

/-- The host accesses of a script, its lines in order; refused when a line is. -/
def scriptOps (lines : List (List Char)) : Option (List Event) := inOrder (lines.map textOps)

end Sys2Proof.Machine.Script
end

