-- ==== Sys2Proof/Tests/Slice0.lean ====
section
/-!
SUPPORT. Sys2Proof/Tests/Slice0.lean: small tests, their expected values worked out in spec/ (95_test_vectors.md and the
sections named), and for every statement with hypotheses a state and operands that meet them (`witness_…`).
-/
namespace Sys2Proof.Tests

open Sys2Proof.Machine

-- One theorem after another: each parallel kernel thread would take its own stack.
set_option Elab.async false

/-! ### Words -/

/-- What the decoder reads, as an option; the words below are written out bit by bit from R81 to R83. -/
def read (w : Word) : Option Instr :=
  match decode w with
  | .ok i => some i
  | .error _ => none

/-- The error the decoder reports. -/
def refusal (w : Word) : Option ErrCode :=
  match decode w with
  | .ok _ => none
  | .error c => some c

theorem test_wf_refuses_len_33 : (Instr.pushBits 33).wf = false := by decide
theorem test_wf_refuses_len_63 : (Instr.pushBits 63).wf = false := by decide
theorem test_wf_takes_len_32 : (Instr.pushBits 32).wf = true := by decide

theorem test_decode_nop : read 0b00000000000000000000000000000000#32 = some .nop := by decide
theorem test_decode_qt_scale : read 0b00000001000000000000000000000000#32 = some .qtScale := by decide
theorem test_decode_huff_build : read 0b00000010000000000000000000000000#32 = some .huffBuild := by decide
theorem test_decode_reset_stream : read 0b00000011000000000000000000000000#32 = some .resetStream := by decide
theorem test_decode_push_bits : read 0b00000100000000000000000000100000#32 = some (.pushBits 32) ∧
    read 0b00000100000000000000000000001011#32 = some (.pushBits 11) := by decide
theorem test_decode_flush : read 0b00000101000000000000000000000000#32 = some .flush := by decide
theorem test_decode_fdct : read 0b00000110000000000000000000000000#32 = some .fdct := by decide
theorem test_decode_sample : read 0b00000111000000000000000000000000#32 = some (.sample .y) ∧
    read 0b00000111000000000000000000000001#32 = some (.sample .cb) ∧
    read 0b00000111000000000000000000000010#32 = some (.sample .cr) := by decide
theorem test_decode_quant : read 0b00001000000000000000000000000000#32 = some (.quant .luma) ∧
    read 0b00001000000000000000000000000001#32 = some (.quant .chroma) := by decide
theorem test_decode_zigzag : read 0b00001001000000000000000000000000#32 = some .zigzag := by decide
theorem test_decode_entropy : read 0b00001010000000000000000000000000#32 = some (.entropy .y) ∧
    read 0b00001010000000000000000000000010#32 = some (.entropy .cr) := by decide
theorem test_decode_write_headers : read 0b00001011000000000000000000000000#32 = some .writeHeaders := by decide
theorem test_decode_write_eoi : read 0b00001100000000000000000000000000#32 = some .writeEoi := by decide
theorem test_decode_encode : read 0b00001111000000000000000000000000#32 = some .encode := by decide

/-- 95_test_vectors.md section 10: the refused words. -/
theorem test_decode_refusals :
    [0x00000001, 0x04000021, 0x0400003F, 0x06000040, 0x06800000, 0x07000003, 0x08000002, 0x0A000003].map refusal
      = List.replicate 8 (some ErrCode.illegalField) ∧
    [0x0D000000, 0x0E000000, 0x10000000, 0xFF000000, 0x0D000040].map refusal
      = List.replicate 5 (some ErrCode.illegalOpcode) := by decide

theorem test_decode_table_word : decodeTableWord 32 0x0A000001 = some (.entropy .cb) ∧
    decodeTableWord 32 0x0D000000 = none := by decide

/-! ### Runs of one command -/

/-- The registers of program P1 (95_test_vectors.md section 11). -/
def start : State :=
  { State.reset with
    regs := ⟨0, 0, 8, 8, 50, 0x1000, 192, 0x2000, 4096⟩ }

/-- The state after a command that the host issues (`RUN`). -/
def ran (i : Instr) (s : State) : State :=
  match exec i (accept (encode i) s) with
  | .next t => t
  | .fault _ => s
  | .refused _ => s

/-- ARG0 written. -/
def arg (w : Word) (s : State) : State := { s with regs := { s.regs with arg0 := w } }

/-- An output region of the given size. -/
def cap (w : Word) (s : State) : State := { s with regs := { s.regs with dstCap := w } }

/-- What the bit-writer rows of 95_test_vectors.md section 8 show: memory, OUT_LEN, BW_STATE. -/
def stream (s : State) : Memory × Word × Word := (s.mem, s.outLen, bwStateWord s)

theorem test_nop : statusWord (ran .nop start) = 0x2 ∧ (ran .nop start).mem = [] := by decide +kernel

/-- 95_test_vectors.md 2.1 and 2.2. -/
theorem test_qt_scale_85 :
    let t := ran .qtScale State.reset
    (t.qt0.toList.take 8, t.qt1.toList.take 8)
      = ([5, 3, 3, 5, 7, 12, 15, 18].map some, [5, 5, 7, 14, 30, 30, 30, 30].map some) ∧
    t.qt0.toList.drop 56 = [22, 28, 29, 29, 34, 30, 31, 30].map some := by decide +kernel

theorem test_qt_scale_qualities :
    (let at' := fun q : Word => (ran .qtScale { start with regs := { start.regs with quality := q } }).qt0.toList.take 8
    at' 1 = List.replicate 8 (some 255) ∧ at' 10 = [80, 55, 50, 80, 120, 200, 255, 255].map some ∧
    at' 49 = [16, 11, 10, 16, 24, 41, 52, 62].map some ∧ at' 50 = [16, 11, 10, 16, 24, 40, 51, 61].map some ∧
    at' 100 = List.replicate 8 (some 1)) ∧
    statusWord (ran .qtScale { start with regs := { start.regs with quality := 101 } }) = 0x506 := by decide +kernel

/-- R102 with another base table: quality 50 gives the table itself, and the tables are left as they are. -/
theorem test_qt_scale_other_tables :
    let T : Tables := { Tables.defaults with baseChroma := List.replicate 64 200 }
    let t := ran .qtScale { start with tables := T }
    t.qt1.toList = List.replicate 64 (some 200) ∧ t.qt0[0] = some 16 ∧ t.tables = T := by decide +kernel

/-- R112 and R196 with another specification: the codes of its two symbols, and its DHT segment. -/
theorem test_huff_build_other_tables :
    let h : HuffSpec := ⟨[1, 1] ++ List.replicate 14 0, [7, 9]⟩
    let t := ran .huffBuild { start with tables := { Tables.defaults with dcChroma := h } }
    t.ht2[7] = some ⟨true, 0b0, 1⟩ ∧ t.ht2[9] = some ⟨true, 0b10, 2⟩ ∧ t.ht2[0] = some notValid ∧
    segDht .dcChroma h = [0xFF, 0xC4, 0x00, 0x15, 0x01, 1, 1, 0, 0, 0, 0, 0, 0, 0, 0, 0, 0, 0, 0, 0, 0, 7, 9] := by
  decide +kernel

/-- 95_test_vectors.md section 3: window words and long codes. -/
theorem test_huff_build :
    let t := ran .huffBuild State.reset
    (t.ht0[0x00].map htWord, t.ht1[0xF0].map htWord, t.ht3[0x00].map htWord, t.ht0[0x0C].map htWord)
      = (some 0x80020000, some 0x800B07F9, some 0x80020000, some 0x00000000) ∧ statusWord t = 0x22 ∧
    t.ht1[0xFA] = some ⟨true, 0b1111111111111110, 16⟩ ∧ t.ht1[0x82] = some ⟨true, 0b111111111000000, 15⟩ ∧
    t.ht2[0x0A] = some ⟨true, 0b1111111110, 10⟩ ∧ t.ht3[0xE1] = some ⟨true, 0b11111111100000, 14⟩ := by decide +kernel

/-- Rows B11 and B2: pending bits, cleared with the count; PRED cleared. -/
theorem test_reset_stream :
    let t := ran .resetStream { start with outLen := 7, acc := 5, nbits := 3, pred := ⟨1, 2, 3⟩ }
    (stream t, t.pred) = (([], 0, 0), ⟨0, 0, 0⟩) := by decide +kernel

/-- Rows B1, B6, B9, B10. -/
theorem test_push_bits :
    stream (ran (.pushBits 8) (arg 0xFF start)) = ([(0x2000, 0xFF), (0x2001, 0x00)], 2, 0) ∧
    stream (ran (.pushBits 2) (arg 0xFFFFFFF3 start)) = ([], 0, 0x203) ∧
    stream (ran (.pushBits 32) (arg 0xABCD1234 start))
      = ([(0x2000, 0xAB), (0x2001, 0xCD), (0x2002, 0x12), (0x2003, 0x34)], 4, 0) ∧
    stream (ran (.pushBits 1) (arg 0 (ran (.pushBits 7) (arg 0x7F start)))) = ([(0x2000, 0xFE)], 1, 0) := by decide +kernel

/-- Rows B15, B16, B18: capacity and region. -/
theorem test_push_bits_errors :
    (let t := ran (.pushBits 8) (arg 0xFF (cap 1 start)); (t.mem, t.outLen, statusWord t) = ([(0x2000, 0xFF)], 1, 0x606)) ∧
    stream (ran (.pushBits 1) (arg 1 (cap 0 start))) = ([], 0, 0x101) ∧
    statusWord (ran (.pushBits 0) { start with regs := { start.regs with dstAddr := 0xFFFFFFF0, dstCap := 0x11 } })
      = 0xB06 := by decide +kernel

/-- Rows B3, B8, B12, B13. -/
theorem test_flush :
    stream (ran .flush (ran (.pushBits 1) (arg 1 start))) = ([(0x2000, 0xFF), (0x2001, 0x00)], 2, 0) ∧
    stream (ran .flush start) = ([], 0, 0) ∧
    stream (ran .flush (ran .flush (ran (.pushBits 3) (arg 5 start)))) = ([(0x2000, 0xBF)], 1, 0) ∧
    stream (ran .flush (ran (.pushBits 5) (arg 0 start))) = ([(0x2000, 0x07)], 1, 0) := by decide +kernel

/-- 95_test_vectors.md 4.8: FDCT of an element without a value. -/
theorem test_fdct_uninit : (ran .fdct start).modelFault = some .uninitRead ∧ (ran .fdct start).errcode = 0 := by
  decide +kernel

/-- 95_test_vectors.md 4.8: the first and the second transform of the constant-100 block, at (0, 0). -/
theorem test_fdct_ideal_impulse : fdctIdeal (fun i => if i = 0 then 800 else 0) 0 0 = 100 := by
  have h2 : Real.sqrt 2 * Real.sqrt 2 = 2 := Real.mul_self_sqrt (by norm_num)
  have h0 : ∀ y x : Fin 8, natIdx y x = 0 ↔ y = 0 ∧ x = 0 := by decide
  simp [fdctIdeal, fdctRowPass, fdctC, fdctCos, Fin.sum_univ_eight, h0]
  have hpos : Real.sqrt 2 ≠ 0 := by positivity
  field_simp
  nlinarith

/-- 95_test_vectors.md 5.1. -/
theorem test_colour_ideal :
    (ccIdeal .y 255 0 0, ccIdeal .cb 255 0 0, ccIdeal .cr 255 0 0) = (-51755 / 1000, -4302768 / 100000, 255 / 2) ∧
    (ccIdeal .y 10 200 30, ccIdeal .cb 10 200 30, ccIdeal .cr 10 200 30)
      = (-419 / 100, -5294016 / 100000, -8117696 / 100000) ∧
    (ccIdeal .y 1 2 3, ccIdeal .cb 1 2 3, ccIdeal .cr 1 2 3)
      = (-126185 / 1000, 668736 / 1000000, -581312 / 1000000) := by decide +kernel

/-- 95_test_vectors.md 5.2: the pixel each sample reads in a 3 x 2 image, as its offset; 5.3: the errors. -/
theorem test_sample_pixels :
    (let p : Params := { start.regs with width := 3, height := 2, srcLen := 18 }
    pixelOffset p 0 0 0 0 0 = 0 ∧ pixelOffset p 0 0 7 0 0 = 3 * 2 ∧ pixelOffset p 0 0 1 7 2 = 3 * (3 + 1) + 2 ∧
      pixelOffset p 65535 65535 3 4 1 = 3 * (3 + 2) + 1) ∧
    (let at' := fun w h l a : Word =>
      (ran (.sample .y) { start with regs := { start.regs with width := w, height := h, srcLen := l, srcAddr := a } }).errcode
    at' 0 8 191 0 = 0x03 ∧ at' 65536 1 0 0 = 0x03 ∧ at' 8 8 191 0 = 0x04 ∧ at' 8 8 192 0xFFFFFF80 = 0x0B) := by
  decide +kernel

/-- 95_test_vectors.md section 6: quotients and their rounding. -/
theorem test_quantize :
    (∀ m, quantize m (-41404 / 100) 5 = -83 ∧ quantize m 1020 5 = 204 ∧ quantize m (7 / 2) 1 = 4) ∧
    (quantize .halfUp 800 64, quantize .halfAway 800 64, quantize .halfEven 800 64) = (13, 13, 12) ∧
    (quantize .halfUp (-5 / 2) 1, quantize .halfAway (-5 / 2) 1, quantize .halfEven (-5 / 2) 1) = (-2, -3, -2) := by
  refine ⟨fun m => ?_, ?_, ?_⟩
  · cases m <;> decide +kernel
  · decide +kernel
  · decide +kernel

theorem test_quant_not_ready : statusWord (ran (.quant .chroma) start) = 0x806 := by decide +kernel

/-- 95_test_vectors.md section 6, ZIGZAG: QBLK[j] = j. -/
theorem test_zigzag :
    let t := ran .zigzag { start with qblk := Vector.ofFn fun j : Fin 64 => some (BitVec.ofNat 16 j.val) }
    t.zz.toList.take 10 = [0, 1, 8, 16, 9, 2, 3, 10, 17, 24].map some ∧ t.zz[63] = some 63 := by decide +kernel

/-- A ZZ store with the given value at one position and at position 0, all else 0. -/
def block (dc : BitVec 16) (k : Nat) (v : BitVec 16) : Vector (Option (BitVec 16)) 64 :=
  Vector.ofFn fun i => some (if i.val = 0 then dc else if i.val = k then v else 0)

/-- A code table with the given codes, as 95_test_vectors.md section 3 lists them. -/
def codes (l : List (Nat × Nat × Nat)) : Vector (Option HtEntry) 256 :=
  Vector.ofFn fun v =>
    match l.lookup v.val with
    | some c => some ⟨true, BitVec.ofNat 16 c.1, BitVec.ofNat 5 c.2⟩
    | none => some notValid

/-- `start` with the codes that the rows below use. -/
def coded : State :=
  { start with
    htValid := true
    ht0 := codes [(0x00, 0b00, 2), (0x07, 0b11110, 5)]
    ht1 := codes [(0x00, 0b1010, 4), (0x11, 0b1100, 4), (0xF0, 0b11111111001, 11), (0xE1, 0b1111111111101011, 16)]
    ht2 := codes [(0x02, 0b10, 2)]
    ht3 := codes [(0x00, 0b00, 2), (0xF0, 0b1111111010, 10), (0xA2, 0b1111111111001001, 16)] }

/-- The bytes of a run of ENTROPY and FLUSH, with the predictors. -/
def entropyBytes (ch : Channel) (z : Vector (Option (BitVec 16)) 64) (preds : Preds) : List Byte × Preds :=
  let t := ran .flush (ran (.entropy ch) { coded with zz := z, pred := preds })
  (t.mem.map (·.2), t.pred)

/-- Rows E2, E4, E7. -/
theorem test_entropy_luma :
    entropyBytes .y (block (-64) 0 0) ⟨0, 0, 0⟩ = ([0xF3, 0xFA], ⟨-64, 0, 0⟩) ∧
    entropyBytes .y (block 0 18 1) ⟨0, 0, 0⟩ = ([0x3F, 0xCE, 0x6B], ⟨0, 0, 0⟩) ∧
    entropyBytes .y (block 0 63 (-1)) ⟨0, 0, 0⟩
      = ([0x3F, 0xCF, 0xF9, 0xFF, 0x00, 0x3F, 0xFD, 0x6F], ⟨0, 0, 0⟩) := by decide +kernel

/-- Rows E9, E14, E15. -/
theorem test_entropy_chroma_and_undefined :
    entropyBytes .cr (block 3 43 2) ⟨0, 0, 1⟩ = ([0xAF, 0xEB, 0xFA, 0xFF, 0x00, 0xC9, 0x8F], ⟨0, 0, 3⟩) ∧
    entropyBytes .cb (block 1 0 0) ⟨0, -1, 0⟩ = ([0xA3], ⟨0, 1, 0⟩) ∧
    (let t := ran (.entropy .y) { coded with zz := block (-2048) 0 0 }
    (stream t, t.pred, t.errcode) = (([], 0, 0), ⟨0, 0, 0⟩, 0x07)) := by decide +kernel

/-- 95_test_vectors.md 9.1: pieces of the header of an 8 x 8 image at quality 50, where the tables are the base tables. -/
theorem test_header_bytes :
    let q := fun l : List Nat => (Vector.ofFn fun i : Fin 64 => BitVec.ofNat 8 (l.getD i.val 0) : Vector Byte 64)
    let f := headerBytes Tables.defaults 8 8 (q baseQtLuma) (q baseQtChroma)
    let at' := fun from' n : Nat => (f.drop from').take n
    at' 16 16 = [0x00, 0x01, 0x00, 0x00, 0xFF, 0xDB, 0x00, 0x43, 0x00, 0x10, 0x0B, 0x0C, 0x0E, 0x0C, 0x0A, 0x10] ∧
    at' 160 16 = [0x00, 0x11, 0x08, 0x00, 0x08, 0x00, 0x08, 0x03, 0x01, 0x11, 0x00, 0x02, 0x11, 0x01, 0x03, 0x11] ∧
    at' 416 16 = [0x02, 0x03, 0x04, 0x05, 0x06, 0x07, 0x08, 0x09, 0x0A, 0x0B, 0xFF, 0xC4, 0x00, 0xB5, 0x11, 0x00] ∧
    at' 608 16 = [0xFA, 0xFF, 0xDA, 0x00, 0x0C, 0x03, 0x01, 0x00, 0x02, 0x11, 0x03, 0x11, 0x00, 0x3F, 0x00] ∧
    f.length = 623 := by decide +kernel

/-- 95_test_vectors.md 9.2: the checks, and an overflow after the first bytes. -/
theorem test_write_headers :
    (ran .writeHeaders start).errcode = 0x08 ∧
    (ran .writeHeaders { start with regs := { start.regs with width := 0 } }).errcode = 0x03 ∧
    (ran .writeHeaders { start with qtValid := true, htValid := true, nbits := 3 }).errcode = 0x0A ∧
    (let t := ran .writeHeaders (cap 3 { ran .qtScale start with htValid := true })
    (t.outLen, t.errcode, t.mem) = (3, 0x06, [(0x2000, 0xFF), (0x2001, 0xD8), (0x2002, 0xFF)])) := by decide +kernel

/-- 95_test_vectors.md 9.2. -/
theorem test_write_eoi :
    stream (ran .writeEoi { start with outLen := 5 }) = ([(0x2005, 0xFF), (0x2006, 0xD9)], 7, 0) ∧
    (let t := ran .writeEoi (cap 6 { start with outLen := 5 })
    (t.outLen, t.errcode, t.mem) = (6, 0x06, [(0x2005, 0xFF)])) ∧
    (ran .writeEoi { start with acc := 5, nbits := 3 }).errcode = 0x0A := by decide +kernel

/-- Program P6: the checks of ENCODE, and the overflow in the header. -/
theorem test_encode_errors :
    statusWord (ran .encode { start with regs := { start.regs with srcLen := 191 } }) = 0x406 ∧
    statusWord (ran .encode { start with regs := { start.regs with dstAddr := 0x1080 } }) = 0xB06 ∧
    (let t := ran .encode (cap 100 start)
    (statusWord t, t.outLen, t.mem.map (·.1)) = (0x636, 100, (List.range 100).map (0x2000 + ·))) := by decide +kernel

/-! ### The port and the script -/

/-- The state after the first n steps. -/
def steps : Nat → State → State
  | 0, s => s
  | n + 1, s =>
    match step s with
    | .next t => steps n t
    | .fault _ => s
    | .refused _ => s

/-- One host access. -/
def access (e : Event) (s : State) : State := steps 1 { s with inputs := [e] }

theorem test_port_id_and_reset_values :
    (access (.regRead 0x000 .word) State.reset).resp = .data 0x4A504547 ∧
    (access (.regRead 0x024 .word) State.reset).resp = .data 85 ∧
    (access (.regRead 0x00C .word) State.reset).resp = .data 0 ∧
    (access (.regRead 0x002 .half) State.reset).resp = .busError := by decide +kernel

/-- Program P2, variant P2c: a write while BUSY is dropped and sets OVERRUN. -/
theorem test_port_busy_write :
    let t := access (.regWrite 0x014 .word 5) (accept 0x04000008 (arg 0xFF start))
    (t.regs.arg0, statusWord t) = (0xFF, 0x9) := by decide +kernel

/-- R261, R263: the hard reset in a command leaves memory alone; the soft reset only what is outside the output region. -/
theorem test_resets_in_a_command :
    let s : State := { accept 0x0C000000 (cap 2 start) with mem := [(0x1FFF, 3), (0x2000, 5)] }
    ((access .hardReset s).mem, (access .hardReset s).busy) = ([(0x1FFF, 3), (0x2000, 5)], false) ∧
    (access (.regWrite 0x008 .word 1) s).mem.map (·.1) = [0x1FFF, 0x2000, 0x2001] := by decide +kernel

/-- R94, R91, R93: written lines and the accesses they stand for. -/
theorem test_script_lines :
    Script.textOps "WR ZZ[3], 0b101".toList = some [.regWrite 0x80C .word 5] ∧
    Script.textOps "PUSH 0xFF, 8 ; comment".toList
      = some [.regWrite 0x014 .word 0xFF, .regWrite 0x010 .word 0x04000008, .wait] ∧
    Script.textOps "RD HT[1][0xF0]".toList = some [.regRead 0x17C0 .word] ∧
    Script.textOps "MEM 4, 1 2".toList = some [.memWrite 4 1, .memWrite 5 2] ∧
    Script.textOps "PUSH_BITS 33".toList = none ∧ Script.textOps "WR ZZ[64], 0".toList = none := by decide +kernel

/-- Program P2: IRQ_EN, a push and its completion, read back by the host. -/
theorem test_script_runs :
    (Script.scriptOps ["WR CTRL, 2".toList, "IMAGE 8, 8, 85, 0, 0x3000, 16".toList, "PUSH 0b101, 3".toList,
      "RD BW_STATE".toList]).map
      (fun es => let t := steps 13 { State.reset with inputs := es }; (t.resp, irq t, t.inputs))
      = some (.data 0x305, true, []) := by decide +kernel

/-- The machine of the host's interface runs a placed word as its next command. -/
theorem test_core_runs_placed_word : Sys2Proof.core.step = step ∧ Sys2Proof.core.reset = State.reset ∧
    steps 1 (State.withFetchWord State.reset 32 0x03000000) = { State.reset with done := true } :=
  ⟨rfl, rfl, by decide +kernel⟩

/-! ### Witnesses: a state and operands for the hypotheses of each statement that has some -/

theorem busAnswers_of_none {s : State} {n : Nat} (h : s.busErrIn = none) : s.BusAnswers n := by
  intro k hk; rw [h] at hk; cases hk

theorem busAnswers_of_some {s : State} {n k : Nat} (h : s.busErrIn = some k) (hn : n ≤ k) : s.BusAnswers n := by
  intro j hj; rw [h] at hj; cases hj; exact hn

/-- A command accepted with the registers of `s`. -/
def issued (i : Instr) (s : State) : State := accept (encode i) s

/-- The block of which every element is `a`. -/
def constant {α : Type} (a : α) : Vector (Option α) 64 := (Vector.replicate 64 a).map some

/-- Every clause, with what the step does there: a reserved opcode, a field out of range by one, a largest operand. -/
theorem witness_IllegalWordsRaise :
    let s := fun w : Word => accept w start
    (∀ w, (s w).pending = some ⟨w, start.regs⟩ ∧ (s w).inputs = []) ∧
    [0x0D000000, 0x0E000000, 0x10000000, 0xFF000000].map (fun w => (steps 1 (s w)).errcode) = [1, 1, 1, 1] ∧
    [0x00000001, 0x04000021, 0x07000003, 0x08000002, 0x06000040, 0x06800000].map (fun w => (steps 1 (s w)).errcode)
      = [2, 2, 2, 2, 2, 2] ∧
    [0x00000000, 0x04000020, 0x08000001].map (fun w => (steps 1 (s w)).errcode) = [0, 0, 0x08] :=
  ⟨fun _ => ⟨rfl, rfl⟩, by decide +kernel, by decide +kernel, by decide +kernel⟩

theorem witness_StepRunsTheDecodedCommand :
    (issued .flush start).pending = some ⟨0x05000000, start.regs⟩ ∧ read 0x05000000 = some .flush ∧
    (issued .flush start).inputs = [] ∧ (issued .flush start).busy = true ∧ (0x05000000 : Nat) < 2 ^ 32 ∧
    start.pending = none ∧ start.inputs = [] := by decide +kernel

theorem witness_CommandWordWrite : start.busy = false ∧ (issued .flush start).busy = true := by decide +kernel

/-- Both ends of the range, and the first quality on each side of it. -/
theorem witness_QtScaleResult :
    let q := fun w : Word => (latched (issued .qtScale { start with regs := { start.regs with quality := w } })).quality.toNat
    (1 ≤ q 1 ∧ q 1 ≤ 100) ∧ (1 ≤ q 100 ∧ q 100 ≤ 100) ∧ q 0 < 1 ∧ 100 < q 101 := by decide +kernel

theorem witness_QtScaleProperties :
    baseQtLuma.length = 64 ∧ (∀ b ∈ baseQtLuma, 1 ≤ b ∧ b ≤ 255) ∧ (1 : Nat) ≤ 1 ∧ 1 < 100 ∧ 100 ≤ 100 := by
  decide +kernel

/-- A specification with one code of length 1 and one of length 2. -/
def smallSpec : HuffSpec := ⟨[1, 1] ++ List.replicate 14 0, [7, 9]⟩

theorem smallSpec_fits : smallSpec.Fits :=
  ⟨by decide +kernel, by decide +kernel, by decide +kernel, by decide +kernel⟩

theorem witness_HuffBuildResult : start.tables = Tables.defaults := rfl

theorem witness_HuffBuildCanonical : smallSpec.Fits ∧
    (0 < smallSpec.vals.length ∧ ∀ j < smallSpec.vals.length, 0 < j → smallSpec.vals.getD j 0 ≠ smallSpec.vals.getD 0 0) ∧
    (0 : Nat) ∉ smallSpec.vals :=
  ⟨smallSpec_fits, by decide +kernel, by decide +kernel⟩

theorem witness_HuffPrefixFree : Tables.defaults.Admissible ∧ smallSpec.Fits ∧ (7 : Fin 256) ≠ 9 ∧
    (buildTable smallSpec)[7] = some ⟨true, 0, 1⟩ ∧ (buildTable smallSpec)[9] = some ⟨true, 2, 2⟩ :=
  ⟨defaults_admissible, smallSpec_fits, by decide +kernel, by decide +kernel, by decide +kernel⟩

/-- Room for exactly the two bytes, and a bus that answers exactly two accesses; no byte completed, with OUT_LEN above
DST_CAP. -/
theorem witness_PushBitsResult :
    (let s := issued (.pushBits 8) { cap 2 (arg 0xFF start) with busErrIn := some 2 }
    let out := emittedBytes (pendingBits s ++ bitString (latched s).arg0.toNat 8)
    s.BitInv ∧ s.DstFits ∧ s.outLen.toNat + out.length ≤ (latched s).dstCap.toNat ∧ s.BusAnswers out.length ∧
      out = [0xFF, 0x00]) ∧
    (let s := issued (.pushBits 3) { cap 1 (arg 5 start) with outLen := 2 }
    let out := emittedBytes (pendingBits s ++ bitString (latched s).arg0.toNat 3)
    s.BitInv ∧ s.DstFits ∧ out = [] ∧ (latched s).dstCap.toNat < s.outLen.toNat ∧ s.BusAnswers out.length) :=
  ⟨⟨by unfold State.BitInv; decide +kernel, by unfold State.DstFits; decide +kernel, by decide +kernel,
    busAnswers_of_some (k := 2) rfl (by decide +kernel), by decide +kernel⟩,
    by unfold State.BitInv; decide +kernel, by unfold State.DstFits; decide +kernel, by decide +kernel, by decide +kernel,
    busAnswers_of_none rfl⟩

theorem witness_FlushResult :
    (let s := issued .flush { cap 1 start with acc := 5, nbits := 3 }
    let out := emittedBytes (padOnes (pendingBits s))
    s.BitInv ∧ s.DstFits ∧ s.outLen.toNat + out.length ≤ (latched s).dstCap.toNat ∧ s.BusAnswers out.length ∧
      out = [0xBF]) ∧
    (issued .flush (cap 0 start)).DstFits ∧ (issued .flush (cap 0 start)).nbits = 0 :=
  ⟨⟨by unfold State.BitInv; decide +kernel, by unfold State.DstFits; decide +kernel, by decide +kernel,
    busAnswers_of_none rfl, by decide +kernel⟩, by unfold State.DstFits; decide +kernel, by decide +kernel⟩

/-- Row B2: FF 00 BF, in exactly enough room. -/
theorem witness_StreamLaw :
    let p := (cap 3 start).regs
    let out := emittedBytes (padOnes ([(0xFF, 8), (5, 3)].flatMap fun x => bitString x.1 x.2))
    start.acc = 0 ∧ start.nbits = 0 ∧ p.dstAddr.toNat + p.dstCap.toNat ≤ 2 ^ 32 ∧
    start.outLen.toNat + out.length ≤ p.dstCap.toNat ∧ start.BusAnswers out.length ∧ out = [0xFF, 0x00, 0xBF] :=
  ⟨by decide +kernel, by decide +kernel, by decide +kernel, by decide +kernel, busAnswers_of_none rfl, by decide +kernel⟩

theorem witness_FdctResult :
    let s := issued .fdct { start with blk := constant (2 ^ 15) }
    s.blk = (Vector.replicate 64 (2 ^ 15 : Rat)).map some ∧
    ∀ i : Fin 64, |(Vector.replicate 64 (2 ^ 15 : Rat))[i]| ≤ 2 ^ 15 :=
  ⟨rfl, fun i => by simp⟩

theorem witness_FdctIdealProperties : |(2 ^ 15 : Rat)| ≤ 2 ^ 15 ∧ ¬ ((1 : Fin 8) = 0 ∧ (0 : Fin 8) = 0) ∧
    ∀ x y y' : Fin 8, (fun _ : Fin 64 => (1 : ℝ)) (natIdx y x) = (fun _ : Fin 64 => (1 : ℝ)) (natIdx y' x) :=
  ⟨by simp, by decide, fun _ _ _ => rfl⟩

/-- The four blocks of the bounds: two blocks one apart, the bounds themselves, and the ranges of the samples. -/
theorem witness_FdctIdealBounds :
    (∀ i : Fin 64, |(fun _ : Fin 64 => (1 : ℝ)) i - (fun _ : Fin 64 => (0 : ℝ)) i| ≤ 1) ∧
    (∀ i : Fin 64, |(fun _ : Fin 64 => (-5 : ℝ)) i| ≤ 5) ∧
    (∀ i : Fin 64, -128 ≤ (fun _ : Fin 64 => (-128 : ℝ)) i ∧ (fun _ : Fin 64 => (-128 : ℝ)) i ≤ 127) ∧
    ∀ i : Fin 64, |(fun _ : Fin 64 => (255 / 2 : ℝ)) i| ≤ 255 / 2 :=
  ⟨fun _ => by norm_num, fun _ => by norm_num, fun _ => by norm_num, fun _ => by norm_num [abs_of_nonneg]⟩

/-- The pixel region ends at the end of the address space; the bus answers exactly 192 accesses. -/
theorem witness_SampleResult :
    let s := issued (.sample .cr)
      { start with regs := { start.regs with srcAddr := 0xFFFFFF40 }, busErrIn := some 192 }
    Valid (.sample .cr) s ∧ s.BusAnswers 192 :=
  ⟨by unfold Valid; decide +kernel, busAnswers_of_some rfl (le_refl _)⟩

/-- A state with a block for QUANT whose quotients are all `v`. -/
def quantState (v : Rat) : State :=
  issued (.quant .luma) { start with qtValid := true, blk := constant v, qt0 := constant (1 : Byte) }

/-- The largest quotient that fits and the first that does not, whatever ROUND_TIE. -/
theorem witness_QuantResult :
    (issued (.quant .luma) start).qtValid = false ∧
    (∀ v, (quantState v).qtValid = true ∧ (quantState v).blk = (Vector.replicate 64 v).map some ∧
      (quantState v).qt .luma = (Vector.replicate 64 (1 : Byte)).map some) ∧
    ∀ m, roundTie m (32767 / ((1 : Byte).toNat : Rat)) = 32767 ∧ roundTie m (32768 / ((1 : Byte).toNat : Rat)) = 32768 ∧
      roundTie m (-32768 / ((1 : Byte).toNat : Rat)) = -32768 :=
  ⟨rfl, fun _ => ⟨rfl, rfl, rfl⟩, fun m => by cases m <;> decide +kernel⟩

theorem witness_RoundTieNearest : |(roundTie .halfEven (5 / 2) : Rat) - 5 / 2| = 1 / 2 := by decide +kernel

/-- Entry 16: the DC coefficient -1024 of a black block is not in the tie band; the DC coefficient 8 of a block of grey
129 is, half way between the quotients 0 and 1 (R145: a constant block c has the DC coefficient 8 c). -/
theorem witness_TieBand : 1 ≤ (16 : Byte).toNat ∧
    (8 * ccIdeal .y 0 0 0 = -1024 ∧ ∀ k : ℤ, 3 / 2 ^ 13 < |(-1024 : ℝ) - ((16 : Byte).toNat : ℝ) * ((k : ℝ) + 1 / 2)|) ∧
    (8 * ccIdeal .y 129 129 129 = 8 ∧ ∃ k : ℤ, |(8 : ℝ) - ((16 : Byte).toNat : ℝ) * ((k : ℝ) + 1 / 2)| ≤ 3 / 2 ^ 13) := by
  have h : ((16 : Byte).toNat : ℝ) = 16 := by rw [show (16 : Byte).toNat = 16 from rfl]; norm_num
  refine ⟨by decide, ⟨by decide +kernel, fun k => ?_⟩, by decide +kernel, 0, by rw [h]; norm_num⟩
  rw [h, lt_abs]
  by_cases hk : k ≤ -65
  · left
    have : (k : ℝ) ≤ -65 := by exact_mod_cast hk
    linarith
  · right
    have : (-64 : ℝ) ≤ k := by exact_mod_cast (by omega : -64 ≤ k)
    linarith

theorem witness_ZigzagResult :
    (issued .zigzag { start with qblk := constant 7 }).qblk = (Vector.replicate 64 (7 : BitVec 16)).map some := rfl

/-- A block whose symbols the tables of `coded` define (row E4), in exactly enough room. -/
def e4 : State := issued (.entropy .y) (cap 2 { coded with zz := block 0 18 1 })

def e4Coefs : Vector (BitVec 16) 64 := Vector.ofFn fun i => if i.val = 18 then 1 else 0

theorem e4_zz : e4.zz = e4Coefs.map some := by decide +kernel

theorem e4_items : entropyItems .y e4Coefs e4
    = [⟨.dcLuma, 0x00, 0, 0⟩, ⟨.acLuma, 0xF0, 0, 0⟩, ⟨.acLuma, 0x11, 1, 1⟩, ⟨.acLuma, 0x00, 0, 0⟩] := by decide +kernel

theorem e4_defined : ∀ i ∈ entropyItems .y e4Coefs e4, SymbolDefined e4 i := by
  rw [e4_items]
  intro i hi
  simp only [List.mem_cons, List.not_mem_nil, or_false] at hi
  obtain rfl | rfl | rfl | rfl := hi
  · exact ⟨by decide, ⟨true, 0b00, 2⟩, by decide +kernel, rfl⟩
  · exact ⟨by decide, ⟨true, 0b11111111001, 11⟩, by decide +kernel, rfl⟩
  · exact ⟨by decide, ⟨true, 0b1100, 4⟩, by decide +kernel, rfl⟩
  · exact ⟨by decide, ⟨true, 0b1010, 4⟩, by decide +kernel, rfl⟩

/-- Six bits and no byte, with OUT_LEN above DST_CAP: an all-zero block. -/
def zeroBlock : State := issued (.entropy .y) (cap 1 { coded with zz := block 0 0 0, outLen := 2 })

theorem witness_EntropyResult_noByte :
    let z : Vector (BitVec 16) 64 := Vector.replicate 64 0
    let items := entropyItems .y z zeroBlock
    let out := emittedBytes (pendingBits zeroBlock ++ items.flatMap (itemBitsIn zeroBlock))
    Valid (.entropy .y) zeroBlock ∧ zeroBlock.BitInv ∧ zeroBlock.zz = z.map some ∧
    (∀ i ∈ items, SymbolDefined zeroBlock i) ∧ out = [] ∧ (latched zeroBlock).dstCap.toNat < zeroBlock.outLen.toNat ∧
    zeroBlock.BusAnswers out.length := by
  refine ⟨by unfold Valid; decide +kernel, by unfold State.BitInv; decide +kernel, by decide +kernel, ?_, by decide +kernel,
    by decide +kernel, busAnswers_of_none rfl⟩
  rw [show entropyItems .y (Vector.replicate 64 0) zeroBlock = [⟨.dcLuma, 0x00, 0, 0⟩, ⟨.acLuma, 0x00, 0, 0⟩] by
    decide +kernel]
  intro i hi
  simp only [List.mem_cons, List.not_mem_nil, or_false] at hi
  obtain rfl | rfl := hi
  · exact ⟨by decide, ⟨true, 0b00, 2⟩, by decide +kernel, rfl⟩
  · exact ⟨by decide, ⟨true, 0b1010, 4⟩, by decide +kernel, rfl⟩

theorem witness_EntropyResult :
    let items := entropyItems .y e4Coefs e4
    let out := emittedBytes (pendingBits e4 ++ items.flatMap (itemBitsIn e4))
    Valid (.entropy .y) e4 ∧ e4.BitInv ∧ e4.zz = e4Coefs.map some ∧ (∀ i ∈ items, SymbolDefined e4 i) ∧
    e4.outLen.toNat + out.length ≤ (latched e4).dstCap.toNat ∧ e4.BusAnswers out.length ∧ out = [0x3F, 0xCE] :=
  ⟨by unfold Valid; decide +kernel, by unfold State.BitInv; decide +kernel, e4_zz, e4_defined, by decide +kernel,
    busAnswers_of_none rfl, by decide +kernel⟩

/-- Coefficients with and without zeros at the end. -/
theorem witness_AcItemsLossless : (∀ v ∈ ([0, -32767, 32767] : List Int), |v| < 2 ^ 15) ∧
    ([0, -32767, 32767] : List Int).getLast? ≠ some 0 ∧ ([1, 0, 0] : List Int).getLast? = some 0 := by decide +kernel

/-- The header in exactly enough room. -/
theorem witness_WriteHeadersResult :
    let s := issued .writeHeaders { cap 623 start with
      qt0 := constant (1 : Byte), qt1 := constant (2 : Byte), qtValid := true, htValid := true, busErrIn := some 623 }
    let p := latched s
    let out := headerBytes s.tables p.width.toNat p.height.toNat (Vector.replicate 64 1) (Vector.replicate 64 2)
    Valid .writeHeaders s ∧ s.qt0 = (Vector.replicate 64 (1 : Byte)).map some ∧
    s.qt1 = (Vector.replicate 64 (2 : Byte)).map some ∧ s.outLen.toNat + out.length ≤ p.dstCap.toNat ∧
    s.BusAnswers out.length :=
  ⟨by unfold Valid; decide +kernel, rfl, rfl, by decide +kernel,
    busAnswers_of_some (k := 623) rfl (by decide +kernel)⟩

theorem witness_HeaderLayout : ∀ t, (Tables.defaults.huff t).Fits ∧ (∀ n ∈ (Tables.defaults.huff t).bits, n < 256) ∧
    19 + (Tables.defaults.huff t).vals.length < 2 ^ 16 := fun t =>
  ⟨(defaults_admissible.huff t).toFits, by cases t <;> decide +kernel, by cases t <;> decide +kernel⟩

theorem witness_WriteEoiResult :
    (let s := issued .writeEoi (cap 7 { start with outLen := 5 })
    s.nbits = 0 ∧ s.DstFits ∧ s.outLen.toNat + 2 ≤ (latched s).dstCap.toNat ∧ s.BusAnswers 2) ∧
    (issued .writeEoi { start with acc := 1, nbits := 1 }).nbits ≠ 0 :=
  ⟨⟨rfl, by unfold State.DstFits; decide +kernel, by decide +kernel, busAnswers_of_none rfl⟩, by decide +kernel⟩

/-- Program P1 with exactly the capacity of R220. -/
theorem witness_EncodeResult :
    let s := issued .encode (cap 1871 start)
    Valid .encode s ∧ s.tables.Admissible ∧ sufficientCapacity s.tables (latched s) ≤ (latched s).dstCap.toNat ∧
    s.busErrIn = none ∧ s.tables = Tables.defaults :=
  ⟨by unfold Valid; decide +kernel, defaults_admissible, by decide +kernel, rfl, rfl⟩

/-- The same image with its output elsewhere. -/
theorem witness_EncodeDeterminism :
    let s := issued .encode start
    let s' := issued .encode { start with regs := { start.regs with dstAddr := 0x3000, dstCap := 700 } }
    Valid .encode s ∧ Valid .encode s' ∧ s.tables.Admissible ∧ s'.tables = s.tables ∧ s.busErrIn = none ∧ s'.busErrIn = none ∧
    (latched s).width = (latched s').width ∧ (latched s).height = (latched s').height ∧
    (latched s).quality = (latched s').quality ∧
    ∀ off < (latched s).width.toNat * (latched s).height.toNat * 3,
      readByte s ((latched s).srcAddr.toNat + off) = readByte s' ((latched s').srcAddr.toNat + off) :=
  ⟨by unfold Valid; decide +kernel, by unfold Valid; decide +kernel, defaults_admissible, rfl, rfl, rfl, rfl, rfl, rfl,
    fun _ _ => rfl⟩

theorem witness_EncodeMatchesUnitCommands :
    Valid .encode (accept (encode .encode) start) ∧ start.tables.Admissible ∧
    sufficientCapacity start.tables start.regs ≤ start.regs.dstCap.toNat ∧ start.busErrIn = none :=
  ⟨by unfold Valid; decide +kernel, defaults_admissible, by decide +kernel, rfl⟩

/-- One byte less than the header. -/
theorem witness_EncodeOverflow :
    let s := issued .encode (cap 622 start)
    Valid .encode s ∧ s.tables.Admissible ∧ s.busErrIn = none ∧
    (latched s).dstCap.toNat < (fileOf (latched s) s).length := by
  refine ⟨by unfold Valid; decide +kernel, defaults_admissible, rfl, ?_⟩
  have h : (headerBytes Tables.defaults 8 8 (Vector.ofFn (qtEntry Tables.defaults 50 .luma))
      (Vector.ofFn (qtEntry Tables.defaults 50 .chroma))).length = 623 := by
    decide +kernel
  show 622 < (imageFile Tables.defaults 8 8 50 _).length
  rw [imageFile, List.length_append, List.length_append, h]
  omega

/-- Every command of EmissionOverflow and BusErrorState: PUSH_BITS, FLUSH, ENTROPY, WRITE_HEADERS and WRITE_EOI. -/
theorem witness_StartsToEmit :
    StartsToEmit (.pushBits 8) (issued (.pushBits 8) (cap 1 (arg 0xFF start))) ∧
    StartsToEmit .flush (issued .flush (cap 0 { start with acc := 5, nbits := 3 })) ∧
    StartsToEmit (.entropy .y) e4 ∧
    StartsToEmit .writeHeaders (issued .writeHeaders { cap 622 start with
      qt0 := constant (1 : Byte), qt1 := constant (2 : Byte), qtValid := true, htValid := true }) ∧
    StartsToEmit .writeEoi (issued .writeEoi (cap 1 start)) := by
  refine ⟨⟨rfl, nofun, ?_, ?_, nofun, nofun⟩, ⟨rfl, nofun, ?_, ?_, nofun, nofun⟩, ⟨rfl, nofun, ?_, ?_, ?_, nofun⟩,
    ⟨rfl, nofun, ?_, ?_, nofun, fun _ => ⟨Vector.replicate 64 1, Vector.replicate 64 2, rfl, rfl⟩⟩,
    ⟨rfl, nofun, ?_, ?_, nofun, nofun⟩⟩
  case _ => unfold Valid; decide +kernel
  case _ => unfold State.BitInv; decide +kernel
  case _ => unfold Valid; decide +kernel
  case _ => unfold State.BitInv; decide +kernel
  case _ => unfold Valid; decide +kernel
  case _ => unfold State.BitInv; decide +kernel
  case _ =>
    rintro ch ⟨⟩
    exact ⟨e4Coefs, e4_zz, e4_defined⟩
  case _ => unfold Valid; decide +kernel
  case _ => unfold State.BitInv; decide +kernel
  case _ => unfold Valid; decide +kernel
  case _ => unfold State.BitInv; decide +kernel

/-- Row B15, with its output; OUT_LEN beyond DST_CAP. -/
theorem witness_EmissionOverflow :
    (let s := issued (.pushBits 8) (cap 1 (arg 0xFF start))
    StartsToEmit (.pushBits 8) s ∧ commandOutput (.pushBits 8) s = [0xFF, 0x00] ∧
    (latched s).dstCap.toNat < s.outLen.toNat + 2 ∧ s.BusAnswers 1) ∧
    (let s := issued .writeEoi (cap 1 { start with outLen := 2 })
    StartsToEmit .writeEoi s ∧ commandOutput .writeEoi s ≠ [] ∧ (latched s).dstCap.toNat < s.outLen.toNat + 2 ∧
    s.BusAnswers 0) := by
  refine ⟨⟨witness_StartsToEmit.1, by decide +kernel, by decide +kernel, busAnswers_of_none rfl⟩,
    ⟨⟨rfl, nofun, by unfold Valid; decide +kernel, by unfold State.BitInv; decide +kernel, nofun, nofun⟩,
      by decide, by decide +kernel, busAnswers_of_none rfl⟩⟩

/-- ENCODE of one block with the capacity of R220, and an error response only after all its accesses and seven more. -/
def encodeWhole : State :=
  let s := issued .encode (cap 1871 start)
  { s with busErrIn := some ((fileOf s.regs s).length + 576 * 1 + 7) }

theorem encodeWhole_busErrIn : encodeWhole.busErrIn = some ((fileOf (latched encodeWhole) encodeWhole).length
    + 576 * (((latched encodeWhole).width.toNat + 7) / 8 * (((latched encodeWhole).height.toNat + 7) / 8)) + 7) := by
  have hf : fileOf (latched encodeWhole) encodeWhole = fileOf (cap 1871 start).regs (issued .encode (cap 1871 start)) :=
    fileOf_congr rfl rfl
  have hn : ((latched encodeWhole).width.toNat + 7) / 8 * (((latched encodeWhole).height.toNat + 7) / 8) = 1 := rfl
  rw [hf, hn]
  rfl

/-- The last access of each command is the one that gets the error response; for ENCODE a run with all the capacity of
R220, and one out of room whose accesses are counted: 1000 - 900 of them, the last with the error response. -/
theorem witness_BusErrorState :
    (let s := issued (.sample .y) { start with busErrIn := some 191 }
    Valid (.sample .y) s ∧ s.busErrIn = some 191 ∧ 191 < 192) ∧
    (let s := issued .writeEoi { start with busErrIn := some 1 }
    StartsToEmit .writeEoi s ∧ s.busErrIn = some 1 ∧ 1 < (commandOutput .writeEoi s).length ∧
      s.outLen.toNat + 1 < (latched s).dstCap.toNat) ∧
    (Valid .encode encodeWhole ∧ encodeWhole.tables.Admissible ∧
    sufficientCapacity encodeWhole.tables (latched encodeWhole) ≤ (latched encodeWhole).dstCap.toNat ∧
    encodeWhole.busErrIn = some ((fileOf (latched encodeWhole) encodeWhole).length
      + 576 * (((latched encodeWhole).width.toNat + 7) / 8 * (((latched encodeWhole).height.toNat + 7) / 8)) + 7)) ∧
    (let s := issued .encode (cap 100 { start with outLen := 3 })
    Valid .encode s ∧ s.tables.Admissible ∧ (∃ u : State, exec .encode { s with busErrIn := some 1000 } = .next u ∧
      u.busErrIn = some 900) ∧ 99 < 1000 - 900) :=
  ⟨⟨by unfold Valid; decide +kernel, rfl, by decide⟩,
    ⟨⟨rfl, nofun, by unfold Valid; decide +kernel, by unfold State.BitInv; decide +kernel, nofun, nofun⟩, rfl, by decide,
      by decide +kernel⟩,
    ⟨by unfold Valid; decide +kernel, defaults_admissible, by decide +kernel, encodeWhole_busErrIn⟩,
    ⟨by unfold Valid; decide +kernel, defaults_admissible, ⟨_, rfl, by decide +kernel⟩, by decide⟩⟩

/-- Two checks of ENCODE fail and the first is reported (95_test_vectors.md 5.3); a quotient and a symbol that fail. -/
theorem witness_ValidationErrors :
    ((validation (.sample .y) (issued (.sample .y)
      { start with regs := { start.regs with width := 0, srcLen := 191 } })).find? fun e => e.1).map (·.2)
      = some .badDimensions ∧
    Valid (.quant .luma) (quantState 32768) ∧ (∀ m, 32767 < quantize m 32768 1) ∧
    (let s := issued (.entropy .y) { coded with zz := block (-2048) 0 0 }
    Valid (.entropy .y) s ∧ s.zz = (Vector.ofFn fun i : Fin 64 => if i.val = 0 then (-2048 : BitVec 16) else 0).map some ∧
    (coded.ht .dcLuma)[12] = some notValid) :=
  ⟨by decide +kernel, by unfold Valid; decide +kernel, fun m => by cases m <;> decide +kernel,
    by unfold Valid; decide +kernel, by decide +kernel, by decide +kernel⟩

theorem witness_UninitReads : start.blk[63] = none ∧ start.qblk[0] = none ∧ start.zz[0] = none ∧
    Valid (.quant .luma) (issued (.quant .luma) { start with qtValid := true }) ∧
    Valid (.entropy .cb) (issued (.entropy .cb) coded) :=
  ⟨by decide +kernel, by decide +kernel, by decide +kernel, by unfold Valid; decide +kernel, by unfold Valid; decide +kernel⟩

/-- The invariant of a state in which a command waits. -/
theorem inv_issued (i : Instr) : (issued i start).Inv where
  mem_wf := ⟨List.Pairwise.nil, nofun⟩
  busy_iff := rfl
  latched_eq := by rintro p ⟨⟩; rfl
  running_clear := fun _ => ⟨rfl, rfl, rfl⟩
  err_iff := by show (false = true) ↔ ((0 : BitVec 8) ≠ 0); simp
  errcode_le := by show (0 : BitVec 8).toNat ≤ _; simp
  encPos_none := rfl
  qt_written := nofun
  ht_written := nofun
  tables_ok := defaults_admissible

theorem witness_FaultMark :
    (issued .flush { start with modelFault := some .uninitRead }).modelFault = some .uninitRead ∧
    (issued .fdct start).Inv ∧ (ran .fdct start).modelFault ≠ (issued .fdct start).modelFault :=
  ⟨rfl, inv_issued _, by decide +kernel⟩

/-- A command that completes: for CommandsWriteOnlyTheirColumn, OnlyOutputRegionWritten, OutLenWithinCap and
OnlyPixelRegionRead. -/
theorem witness_exec : ∃ t : State, exec .resetStream (issued .resetStream start) = .next t ∧ t.outLen = 0 ∧
    (issued .resetStream start).outLen.toNat ≤ (latched (issued .resetStream start)).dstCap.toNat :=
  ⟨_, rfl, by decide +kernel, by decide +kernel⟩

/-- A pixel region that the other memory agrees on, and a byte outside it that differs. -/
theorem witness_OnlyPixelRegionRead :
    let s := issued (.sample .y) start
    (∀ a : Nat, (latched s).srcAddr.toNat ≤ a → a < (latched s).srcAddr.toNat + (latched s).srcLen.toNat →
      readByte { s with mem := [(0, 1)] } a = readByte s a) := by
  intro s a ha _
  have h : 0 ≠ a := by
    rintro rfl
    revert ha
    decide +kernel
  simp [readByte, Memory.find, h, s, issued, accept, start, State.reset]

theorem witness_StepKeepsInv : (issued .resetStream start).Inv ∧
    ∃ t : State, step (issued .resetStream start) = .next t ∧ t.done = true :=
  ⟨inv_issued _, _, rfl, by decide +kernel⟩

theorem witness_BitInvKept : (issued (.pushBits 3) start).Inv ∧ (issued (.pushBits 3) start).BitInv ∧
    ∃ t : State, step (issued (.pushBits 3) start) = .next t ∧ t.nbits = 3 :=
  ⟨inv_issued _, by unfold State.BitInv; decide +kernel, _, rfl, by decide +kernel⟩

/-- A completion and a CTRL write that raise `irq`; a STATUS write, an accepted command, a CTRL write and a hard reset
that let it fall. -/
theorem witness_InterruptOutput :
    (let s : State := { issued .nop start with irqEn := true }
    CoreMoves s ∧ s.pending.isSome = true ∧ irq s = false ∧ ∃ t : State, step s = .next t ∧ irq t = true) ∧
    (let s := fun d : Word => ({ ran .nop start with inputs := [.regWrite 0x008 .word d] } : State)
    irq (s 2) = false ∧ ∃ t : State, step (s 2) = .next t ∧ irq t = true) ∧
    (let s := fun e : Event => ({ ran .nop start with irqEn := true, inputs := [e] } : State)
    [.regWrite 0x00C .word 6, .regWrite 0x010 .word 0, .regWrite 0x008 .word 1, .regWrite 0x008 .word 0, .hardReset].map
      (fun e => (irq (s e), irq (steps 1 (s e)))) = List.replicate 5 (true, false)) :=
  ⟨⟨.inl rfl, by decide +kernel, by decide +kernel, _, rfl, by decide +kernel⟩,
    ⟨by decide +kernel, _, rfl, by decide +kernel⟩, by decide +kernel⟩

/-- The hypotheses of ResetState, CtrlRegister and StatusAndStreamReads: data words with each bit, a block
that is idle, busy, done. -/
theorem witness_port :
    (1 : Word).getLsbD 0 = true ∧ (2 : Word).getLsbD 0 = false ∧ (2 : Word).getLsbD 1 = true ∧
    (6 : Word).getLsbD 1 = true ∧ (6 : Word).getLsbD 2 = true ∧ start.busy = false ∧
    (issued .flush start).busy = true ∧ start.pending = none ∧
    (issued .flush start).pending = some ⟨0x05000000, start.regs⟩ ∧ (ran .nop start).done = true := by decide +kernel

theorem witness_PortBusErrors : AccessSize.half ≠ .word ∧ (0x002 : BitVec 13).toNat % 4 ≠ 0 ∧
    (0x1FFC : BitVec 13).toNat % 4 = 0 := by decide

theorem witness_RegisterReadBack : start.busy = false ∧
    ([0x014, 0x018, 0x01C, 0x020, 0x024, 0x028, 0x02C, 0x030, 0x034].all fun off => (paramAt start.regs off).isSome) := by
  decide +kernel

/-- The first and last offsets of each range. -/
theorem witness_ReadOnlyWritesIgnored : start.busy = false ∧
    ∀ off ∈ [0x04C, 0x3FC, 0x900, 0xFFC, 0x000, 0x004, 0x038, 0x03C, 0x400, 0x5FC, 0x1000, 0x1FFC],
      (BitVec.ofNat 13 off).toNat = off ∧ off % 4 = 0 := by decide +kernel

theorem witness_Windows :
    let s : State := { coded with
      qt0 := constant (5 : Byte), qt1 := constant (6 : Byte), blk := constant 7, qblk := constant (-1), zz := constant 9 }
    s.busy = false ∧ s.qt0[63] = some 5 ∧ s.qt1[0] = some 6 ∧ s.blk[63] = some 7 ∧ s.qblk[0] = some (-1) ∧
    s.zz[63] = some 9 ∧ (s.ht .acLuma)[0xF0] = some ⟨true, 0b11111111001, 11⟩ ∧
    (s.ht .acLuma)[0xFF] = some ⟨false, 0, 0⟩ ∧
    (start.busy = false ∧ start.qt0[0] = none ∧ start.qt1[63] = none ∧ start.blk[0] = none ∧ start.qblk[63] = none ∧
      start.zz[0] = none ∧ start.ht0[0] = none ∧ start.ht1[255] = none ∧ start.ht2[0] = none ∧ start.ht3[255] = none) := by
  decide +kernel

theorem witness_BusyWritesDropped :
    let s : State := { issued .flush start with overrun := true }
    s.busy = true ∧ (0x010 : BitVec 13).toNat % 4 = 0 ∧ (0x010 : BitVec 13).toNat ≠ 0x008 ∧
    (0x010 : BitVec 13).toNat ≠ 0x00C ∧ s.overrun = true ∧
    ∃ t : State, step { s with inputs := [.regWrite 0x00C .word 0x8] } = .next t ∧ t.overrun = false :=
  ⟨by decide +kernel, by decide, by decide, by decide, by decide +kernel, _, rfl, by decide +kernel⟩

theorem witness_BusyReads :
    (issued .flush start).pending = some ⟨0x05000000, start.regs⟩ ∧ read 0x05000000 = some .flush ∧
    writesAt .flush 0x038 = true ∧ writesAt .flush 0x040 = false ∧
    ∃ t : State, step { issued .flush start with busy := false, inputs := [.regRead 0x040 .word] } = .next t ∧
      t.resp = .data 0 ∧
    (accept 0x0D000000 start).pending = some ⟨0x0D000000, start.regs⟩ ∧ refusal 0x0D000000 = some .illegalOpcode :=
  ⟨by decide +kernel, by decide +kernel, by decide, by decide, _, rfl, by decide +kernel, rfl, by decide +kernel⟩

/-- The first and the last byte of both regions, and the bytes next to them; a write that leaves a pixel byte as it is. -/
theorem witness_HostMemoryAccess :
    let s : State := { issued .flush start with mem := [(0x1000, 7), (0x10BF, 9)] }
    let p := latched s
    s.busy = true ∧ (p.dstAddr.toNat, p.dstAddr.toNat + p.dstCap.toNat) = (0x2000, 0x3000) ∧
    (p.srcAddr.toNat, p.srcAddr.toNat + p.srcLen.toNat) = (0x1000, 0x10C0) ∧
    (access (.memWrite 0x10C0 1) s).resp = .ack ∧ (access (.memWrite 0x0FFF 1) s).resp = .ack ∧
    (access (.memWrite 0x3000 1) s).resp = .ack ∧ (access (.memWrite 0x1000 7) s).resp = .ack ∧
    [.memWrite 0x1000 8, .memWrite 0x10BF 7, .memWrite 0x2FFF 1, .memWrite 0x2000 1, .memRead 0x2000, .memRead 0x2FFF].map
      (fun e => (access e s).resp) = List.replicate 6 Response.none := by decide +kernel

end Sys2Proof.Tests
end

/-! ### Rounding and magnitude bits (00_scope.md R12, R13; 45_block_encoder.md R171) -/

namespace Sys2Proof.Machine

theorem roundTie_of_lt_half (mode : RoundTie) {y : Rat} (h : y - y.floor < 1 / 2) : roundTie mode y = y.floor :=
  if_pos h

theorem roundTie_of_half_lt (mode : RoundTie) {y : Rat} (h : 1 / 2 < y - y.floor) :
    roundTie mode y = y.floor + 1 :=
  (if_neg (not_lt_of_gt h)).trans (if_pos h)

theorem roundTie_halfUp_of_tie {y : Rat} (h : y - y.floor = 1 / 2) : roundTie .halfUp y = y.floor + 1 := by
  simp [roundTie, h]

theorem roundTie_halfAway_of_tie {y : Rat} (h : y - y.floor = 1 / 2) :
    roundTie .halfAway y = if 0 ≤ y then y.floor + 1 else y.floor := by
  simp [roundTie, h]

theorem roundTie_halfEven_of_tie {y : Rat} (h : y - y.floor = 1 / 2) :
    roundTie .halfEven y = if y.floor % 2 = 0 then y.floor else y.floor + 1 := by
  simp [roundTie, h]

/-- Off the exact halves every mode gives the one integer nearer than 1/2. -/
theorem roundTie_abs_sub_lt (mode : RoundTie) {y : Rat} (h : y - y.floor ≠ 1 / 2) :
    |(roundTie mode y : Rat) - y| < 1 / 2 := by
  have hlo := Rat.floor_le y
  have hhi := Rat.lt_floor_add_one y
  rw [abs_lt]
  rcases lt_or_gt_of_ne h with h | h
  · rw [roundTie_of_lt_half mode h]
    constructor <;> linarith
  · rw [roundTie_of_half_lt mode h]
    push_cast at hhi ⊢
    constructor <;> linarith

/-- On an exact half every mode gives one of the two integers next to it. -/
theorem roundTie_of_tie (mode : RoundTie) {y : Rat} (h : y - y.floor = 1 / 2) :
    roundTie mode y = y.floor ∨ roundTie mode y = y.floor + 1 := by
  cases mode with
  | halfUp => exact .inr (roundTie_halfUp_of_tie h)
  | halfAway => rw [roundTie_halfAway_of_tie h]; exact (ite_eq_or_eq _ _ _).symm
  | halfEven => rw [roundTie_halfEven_of_tie h]; exact ite_eq_or_eq _ _ _

/-- The distance to the rounded value is 1/2 only on the exact halves. -/
theorem roundTie_abs_sub_eq_half_iff (mode : RoundTie) (y : Rat) :
    |(roundTie mode y : Rat) - y| = 1 / 2 ↔ y - y.floor = 1 / 2 := by
  refine ⟨fun h => of_not_not fun hne => (roundTie_abs_sub_lt mode hne).ne h, fun h => ?_⟩
  rcases roundTie_of_tie mode h with e | e
  · rw [e, abs_sub_comm, h, abs_of_pos one_half_pos]
  · rw [e, show ((y.floor + 1 : Int) : Rat) - y = 1 / 2 by push_cast; linarith, abs_of_pos one_half_pos]

theorem lt_roundTie_halfUp {y : Rat} (h : y - y.floor = 1 / 2) : y < roundTie .halfUp y := by
  rw [roundTie_halfUp_of_tie h]
  exact Rat.lt_floor_add_one y

theorem abs_lt_abs_roundTie_halfAway {y : Rat} (h : y - y.floor = 1 / 2) :
    |y| < |(roundTie .halfAway y : Rat)| := by
  rw [roundTie_halfAway_of_tie h]
  split
  · next h0 =>
    rw [abs_of_nonneg h0]
    exact (Rat.lt_floor_add_one y).trans_le (le_abs_self _)
  · next h0 =>
    rw [abs_of_neg (not_le.1 h0)]
    exact (by linarith : -y < -(y.floor : Rat)).trans_le (neg_le_abs _)

theorem roundTie_halfEven_even {y : Rat} (h : y - y.floor = 1 / 2) : roundTie .halfEven y % 2 = 0 := by
  rw [roundTie_halfEven_of_tie h]
  split <;> omega

/-- Settles O22: only an exact half is 1/2 away from its rounded value, and there each mode picks its neighbour. -/
theorem roundTieNearest : Obligations.RoundTieNearest := by
  intro mode y
  refine ⟨?_, fun h => ?_⟩
  · by_cases h : y - y.floor = 1 / 2
    · exact ((roundTie_abs_sub_eq_half_iff mode y).2 h).le
    · exact (roundTie_abs_sub_lt mode h).le
  · have tie := (roundTie_abs_sub_eq_half_iff mode y).1 h
    refine ⟨?_, ?_, ?_⟩ <;> rintro rfl
    · exact lt_roundTie_halfUp tie
    · exact abs_lt_abs_roundTie_halfAway tie
    · exact roundTie_halfEven_even tie

/-! #### Category and magnitude bits -/

@[simp] theorem bitlen_zero : bitlen 0 = 0 := rfl

theorem bitlen_of_ne_zero {v : Int} (h : v ≠ 0) : bitlen v = Nat.log2 v.natAbs + 1 := if_neg h

theorem natAbs_lt_two_pow_bitlen (v : Int) : v.natAbs < 2 ^ bitlen v := by
  rcases eq_or_ne v 0 with rfl | h
  · exact Nat.one_pos
  · rw [bitlen_of_ne_zero h]
    exact Nat.lt_log2_self

theorem two_pow_le_natAbs_of_bitlen {v : Int} (h : v ≠ 0) : 2 ^ (bitlen v - 1) ≤ v.natAbs := by
  rw [bitlen_of_ne_zero h, Nat.add_sub_cancel]
  exact Nat.log2_self_le (Int.natAbs_ne_zero.2 h)

theorem bitlen_pos {v : Int} (h : v ≠ 0) : 0 < bitlen v := by
  rw [bitlen_of_ne_zero h]
  exact Nat.succ_pos _

/-- 2^c is twice 2^(c-1) for the category c of a nonzero value. -/
theorem two_pow_bitlen {v : Int} (h : v ≠ 0) : 2 ^ bitlen v = 2 * 2 ^ (bitlen v - 1) := by
  rw [← pow_succ', Nat.sub_add_cancel (bitlen_pos h)]

theorem bitlen_eq_clog (v : Int) : bitlen v = Nat.clog 2 (v.natAbs + 1) := by
  refine le_antisymm ?_ (Nat.clog_le_of_le_pow (natAbs_lt_two_pow_bitlen v))
  rcases eq_or_ne v 0 with rfl | h
  · exact Nat.zero_le _
  · have hlt : bitlen v - 1 < Nat.clog 2 (v.natAbs + 1) :=
      (Nat.lt_clog_iff_pow_lt one_lt_two).2 (Nat.lt_succ_of_le (two_pow_le_natAbs_of_bitlen h))
    omega

theorem magbits_of_nonneg {v : Int} (h : 0 ≤ v) (c : Nat) : magbits v c = v.natAbs := by
  rw [magbits, if_pos h]
  omega

/-- The field of a negative value is 2^c - 1 less the magnitude. -/
theorem magbits_of_neg {v : Int} (h : v < 0) (c : Nat) : magbits v c = 2 ^ c - 1 - v.natAbs := by
  rw [magbits, if_neg (not_le.2 h), ← Nat.cast_ofNat (R := Int), ← Nat.cast_pow]
  omega

theorem magbits_lt (v : Int) : magbits v (bitlen v) < 2 ^ bitlen v := by
  have hv := natAbs_lt_two_pow_bitlen v
  rcases lt_or_ge v 0 with h | h
  · rw [magbits_of_neg h]
    omega
  · rwa [magbits_of_nonneg h]

theorem two_pow_le_magbits_of_pos {v : Int} (h : 0 < v) : 2 ^ (bitlen v - 1) ≤ magbits v (bitlen v) := by
  rw [magbits_of_nonneg h.le]
  exact two_pow_le_natAbs_of_bitlen h.ne'

theorem magbits_lt_two_pow_of_neg {v : Int} (h : v < 0) : magbits v (bitlen v) < 2 ^ (bitlen v - 1) := by
  have hv := two_pow_le_natAbs_of_bitlen h.ne
  have hc := two_pow_bitlen h.ne
  have hpos := Nat.two_pow_pos (bitlen v - 1)
  rw [magbits_of_neg h]
  omega

theorem magbits_testBit_of_pos {v : Int} (h : 0 < v) : (magbits v (bitlen v)).testBit (bitlen v - 1) = true := by
  refine Nat.testBit_of_two_pow_le_and_two_pow_add_one_gt (two_pow_le_magbits_of_pos h) ?_
  rw [Nat.sub_add_cancel (bitlen_pos h.ne')]
  exact magbits_lt v

theorem natCast_magbits_of_neg {v : Int} (h : v < 0) : (magbits v (bitlen v) : Int) = v + 2 ^ bitlen v - 1 := by
  have hv := natAbs_lt_two_pow_bitlen v
  rw [magbits_of_neg h, ← Nat.cast_ofNat (R := Int), ← Nat.cast_pow]
  omega

/-- The field of a negative value is the low c bits of v - 1. -/
theorem natCast_magbits_eq_emod_of_neg {v : Int} (h : v < 0) :
    (magbits v (bitlen v) : Int) = (v - 1) % 2 ^ bitlen v := by
  have hlt : (magbits v (bitlen v) : Int) < 2 ^ bitlen v := by exact_mod_cast magbits_lt v
  calc (magbits v (bitlen v) : Int)
      = (magbits v (bitlen v) : Int) % 2 ^ bitlen v := (Int.emod_eq_of_lt (Int.natCast_nonneg _) hlt).symm
    _ = (v - 1 + 2 ^ bitlen v) % 2 ^ bitlen v := by rw [natCast_magbits_of_neg h, add_sub_right_comm]
    _ = (v - 1) % 2 ^ bitlen v := Int.add_emod_right _ _

/-- The field determines the value (R171). -/
theorem unfoldBits_magbits (v : Int) : unfoldBits (magbits v (bitlen v)) (bitlen v) = v := by
  rcases lt_trichotomy v 0 with h | rfl | h
  · rw [unfoldBits, if_neg (bitlen_pos h.ne).ne', if_neg (not_le.2 (magbits_lt_two_pow_of_neg h)),
      natCast_magbits_of_neg h]
    ring
  · rfl
  · rw [unfoldBits, if_neg (bitlen_pos h.ne').ne', if_pos (two_pow_le_magbits_of_pos h), magbits_of_nonneg h.le,
      Int.natAbs_of_nonneg h.le]

/-- Settles O28: everything follows from 2^(c-1) ≤ |v| < 2^c. -/
theorem magnitudeBits : Obligations.MagnitudeBits := by
  intro v c
  refine ⟨fun h => by simp [c, h], fun h => ⟨?_, ?_, bitlen_pos h⟩, bitlen_eq_clog v, magbits_lt v,
    magbits_testBit_of_pos, fun h => Nat.testBit_lt_two_pow (magbits_lt_two_pow_of_neg h), fun h => ?_,
    fun h => ⟨natCast_magbits_of_neg h, natCast_magbits_eq_emod_of_neg h⟩, unfoldBits_magbits v⟩
  · rw [Int.abs_eq_natAbs]
    exact_mod_cast two_pow_le_natAbs_of_bitlen h
  · rw [Int.abs_eq_natAbs]
    exact_mod_cast natAbs_lt_two_pow_bitlen v
  · rw [magbits_of_nonneg h, Int.natAbs_of_nonneg h]

end Sys2Proof.Machine

/-! ### The core's turn (00_scope.md R15; 20_memory.md R74; 30_encoding.md R80) -/

namespace Sys2Proof.Machine

/-- The core's turn runs the instruction that the pending word decodes to. -/
theorem coreTurn_of_decode {s : State} {p : Pending} {i : Instr} (hp : s.pending = some p)
    (hd : decode p.word = .ok i) : coreTurn s = exec i s := by
  simp only [coreTurn, hp, hd]

theorem coreTurn_of_idle {s : State} (hp : s.pending = none) : coreTurn s = .next s := by
  simp only [coreTurn, hp]

theorem step_of_no_inputs {s : State} (h : s.inputs = []) : step s = coreTurn s := by
  simp only [step, turn, h]

theorem step_core (s : State) (rest : List Event) :
    step { s with inputs := .core :: rest } = coreTurn { s with inputs := rest } := rfl

/-- While a command runs, a waiting host leaves the turn to the core and goes on waiting (R91; log 21). -/
theorem step_wait_busy {s : State} (rest : List Event) (hb : s.busy = true) (hp : s.pending.isSome = true) :
    step { s with inputs := .wait :: rest } = coreTurn { s with inputs := .wait :: rest } := by
  simp only [step, turn, eventTurn, hb, hp, Bool.and_self, if_true]

/-- The step after a command word has been placed is the core's turn on the state that accepted it (log 2). -/
theorem step_withFetchWord (s : State) {w : Nat} (h : w < 2 ^ 32) :
    step (s.withFetchWord 32 w) = coreTurn (accept (BitVec.ofNat 32 w) s) := by
  rw [State.withFetchWord, Nat.mod_eq_of_lt h]
  exact step_core (accept (BitVec.ofNat 32 w) s) s.inputs

/-- Settles O4: in each of the four situations the step is the core's turn. -/
theorem stepRunsTheDecodedCommand : Obligations.StepRunsTheDecodedCommand := by
  refine ⟨fun s p i hp hd => ⟨fun h => ?_, fun rest => ?_, fun rest hb => ?_⟩,
    fun s w i hw hd => ?_, fun s hp h => ?_⟩
  · rw [step_of_no_inputs h, coreTurn_of_decode hp hd]
  · exact coreTurn_of_decode hp hd
  · rw [step_wait_busy rest hb (by simp [hp])]
    exact coreTurn_of_decode hp hd
  · rw [step_withFetchWord s hw]
    exact coreTurn_of_decode (accept_pending _ _) hd
  · rw [step_of_no_inputs h, coreTurn_of_idle hp]

end Sys2Proof.Machine

/-! ### The windows of the register port (10_state.md R40 to R44) -/

namespace Sys2Proof.Machine

/-- A port offset is below 2^13, so its word index is read off the number itself. -/
theorem toNat_portOffset {n : Nat} (h : n < 2 ^ 13) : (BitVec.ofNat 13 n).toNat = n := by
  rw [BitVec.toNat_ofNat, Nat.mod_eq_of_lt h]

/-- The 64-word page that a window offset lies in. -/
theorem page_windowOffset {base k : Nat} (hb : base = 0x100 * k) (hk : k < 32) (i : Fin 64) :
    (BitVec.ofNat 13 (base + 4 * i.val)).toNat / 4 / 64 = k := by
  rw [toNat_portOffset (by omega)]
  omega

/-- The entry of its page that a window offset names. -/
theorem entry_windowOffset {base k : Nat} (hb : base = 0x100 * k) (hk : k < 32) (i : Fin 64) :
    Fin.ofNat 64 ((BitVec.ofNat 13 (base + 4 * i.val)).toNat / 4) = i := by
  rw [toNat_portOffset (by omega)]
  ext
  simp only [Fin.ofNat]
  omega

theorem portReg_qtWin_luma (i : Fin 64) : portReg (BitVec.ofNat 13 (0x400 + 4 * i.val)) = .qtWin .luma i := by
  simp only [portReg, page_windowOffset (k := 4) rfl (by decide) i, entry_windowOffset (k := 4) rfl (by decide) i]

theorem portReg_qtWin_chroma (i : Fin 64) : portReg (BitVec.ofNat 13 (0x500 + 4 * i.val)) = .qtWin .chroma i := by
  simp only [portReg, page_windowOffset (k := 5) rfl (by decide) i, entry_windowOffset (k := 5) rfl (by decide) i]

theorem portReg_blkWin (i : Fin 64) : portReg (BitVec.ofNat 13 (0x600 + 4 * i.val)) = .blkWin i := by
  simp only [portReg, page_windowOffset (k := 6) rfl (by decide) i, entry_windowOffset (k := 6) rfl (by decide) i]

theorem portReg_qblkWin (i : Fin 64) : portReg (BitVec.ofNat 13 (0x700 + 4 * i.val)) = .qblkWin i := by
  simp only [portReg, page_windowOffset (k := 7) rfl (by decide) i, entry_windowOffset (k := 7) rfl (by decide) i]

theorem portReg_zzWin (i : Fin 64) : portReg (BitVec.ofNat 13 (0x800 + 4 * i.val)) = .zzWin i := by
  simp only [portReg, page_windowOffset (k := 8) rfl (by decide) i, entry_windowOffset (k := 8) rfl (by decide) i]

/-- The offset of a code table's part of the HT window (R41). -/
def htBase : HTable → Nat
  | .dcLuma => 0x1000
  | .acLuma => 0x1400
  | .dcChroma => 0x1800
  | .acChroma => 0x1C00

theorem htBase_le (t : HTable) : htBase t ≤ 0x1C00 := by cases t <;> decide

theorem portReg_htWin (t : HTable) (v : Fin 256) : portReg (BitVec.ofNat 13 (htBase t + 4 * v.val)) = .htWin t v := by
  have ht := htBase_le t
  have hsym : Fin.ofNat 256 ((htBase t + 4 * v.val) / 4) = v := by
    ext
    simp only [Fin.ofNat]
    cases t <;> simp only [htBase] <;> omega
  obtain ⟨k, hk⟩ : ∃ k, (htBase t + 4 * v.val) / 4 / 64 = k + 16 :=
    Nat.exists_eq_add_of_le' (by cases t <;> simp only [htBase] <;> omega)
  simp only [portReg, toNat_portOffset (show htBase t + 4 * v.val < 2 ^ 13 by omega), hk, hsym]
  cases t <;> simp only [htBase] at hk <;> simp (disch := omega) only [if_pos, if_neg]

/-! #### Accesses while BUSY = 0 -/

/-- The offsets of words are the multiples of four (R66). -/
theorem aligned_word {n : Nat} (h : n % 4 = 0) : aligned (BitVec.ofNat 13 n) .word = true := by
  simp only [aligned, BitVec.toNat_ofNat, true_and, decide_eq_true_eq]
  omega

theorem step_regRead_idle {s : State} (hb : s.busy = false) {off : BitVec 13} (ha : aligned off .word = true)
    (rest : List Event) :
    step { s with inputs := .regRead off .word :: rest } =
      .next { (readReg (portReg off) { s with inputs := rest }).2 with
        resp := .data (readReg (portReg off) { s with inputs := rest }).1 } := by
  simp [step, turn, eventTurn, regReadAccess, portRead, ha, hb]

theorem step_regWrite_idle {s : State} (hb : s.busy = false) {off : BitVec 13} (ha : aligned off .word = true)
    (d : Word) (rest : List Event) :
    step { s with inputs := .regWrite off .word d :: rest } =
      .next { writeReg (portReg off) d { s with inputs := rest } with resp := .ack } := by
  simp [step, turn, eventTurn, regWriteAccess, portWrite, ha, hb]

/-- A read at an offset shows a store element: its word where it has a value, a free word where it has none (R16). -/
structure ReadsElement {α : Type} (s : State) (rest : List Event) (off : Nat) (e : Option α)
    (f : α → Word) : Prop where
  written : ∀ a, e = some a → step { s with inputs := .regRead (BitVec.ofNat 13 off) .word :: rest } =
    .next { s with inputs := rest, resp := .data (f a) }
  unwritten : e = none → step { s with inputs := .regRead (BitVec.ofNat 13 off) .word :: rest } =
    .next { s with inputs := rest, resp := .data (Config.freeWord s.draws), draws := s.draws + 1 }

/-- A register whose read is `readElement` of an element shows that element. -/
theorem readsElement_of_readReg {α : Type} {s : State} (hb : s.busy = false) {rest : List Event} {off : Nat}
    (ha : off % 4 = 0) {r : PortReg} (hr : portReg (BitVec.ofNat 13 off) = r) {e : Option α} {f : α → Word}
    (he : readReg r { s with inputs := rest } = readElement e f { s with inputs := rest }) :
    ReadsElement s rest off e f := by
  constructor
  · rintro a rfl
    rw [step_regRead_idle hb (aligned_word ha), hr, he]
    rfl
  · rintro rfl
    rw [step_regRead_idle hb (aligned_word ha), hr, he]
    rfl

section
variable {s : State} (hb : s.busy = false) (rest : List Event) (i : Fin 64)
include hb

theorem readsElement_qt0 : ReadsElement s rest (0x400 + 4 * i.val) s.qt0[i] fun b => b.setWidth 32 :=
  readsElement_of_readReg hb (by omega) (portReg_qtWin_luma i) rfl

theorem readsElement_qt1 : ReadsElement s rest (0x500 + 4 * i.val) s.qt1[i] fun b => b.setWidth 32 :=
  readsElement_of_readReg hb (by omega) (portReg_qtWin_chroma i) rfl

theorem readsElement_blk : ReadsElement s rest (0x600 + 4 * i.val) s.blk[i] Config.blkRead :=
  readsElement_of_readReg hb (by omega) (portReg_blkWin i) rfl

theorem readsElement_qblk : ReadsElement s rest (0x700 + 4 * i.val) s.qblk[i] fun c => c.signExtend 32 :=
  readsElement_of_readReg hb (by omega) (portReg_qblkWin i) rfl

theorem readsElement_zz : ReadsElement s rest (0x800 + 4 * i.val) s.zz[i] fun c => c.signExtend 32 :=
  readsElement_of_readReg hb (by omega) (portReg_zzWin i) rfl

theorem readsElement_ht (t : HTable) (v : Fin 256) : ReadsElement s rest (htBase t + 4 * v.val) (s.ht t)[v] htWord :=
  readsElement_of_readReg hb (by cases t <;> simp only [htBase] <;> omega) (portReg_htWin t v) (by cases t <;> rfl)

end

theorem toNat_append_eq_add {m n : Nat} (x : BitVec m) (y : BitVec n) :
    (x ++ y).toNat = x.toNat * 2 ^ n + y.toNat := by
  rw [BitVec.toNat_append, ← Nat.shiftLeft_add_eq_or_of_lt y.isLt, Nat.shiftLeft_eq]

/-- The packed entry of the HT window (R41): valid in bit 31, the length in bits 20:16, the code in bits 15:0. -/
theorem toNat_htWord (e : HtEntry) :
    (htWord e).toNat = if e.valid then 2 ^ 31 + e.len.toNat * 2 ^ 16 + e.code.toNat else 0 := by
  unfold htWord
  split
  · simp only [toNat_append_eq_add, BitVec.toNat_ofNat]
    omega
  · rfl

/-- Settles O57: each window's offset names its element, and the read and the write of that element do the rest. -/
theorem windows : Obligations.Windows := by
  intro s rest hb
  have hw (k : Nat) (i : Fin 64) : aligned (BitVec.ofNat 13 (0x100 * k + 4 * i.val)) .word = true :=
    aligned_word (by omega)
  refine ⟨fun i b => ⟨(readsElement_qt0 hb rest i).written b, (readsElement_qt1 hb rest i).written b⟩,
    fun t v e he => ⟨htWord e, ?_, toNat_htWord e⟩, fun i => (readsElement_blk hb rest i).written,
    fun i c => ⟨(readsElement_qblk hb rest i).written c, (readsElement_zz hb rest i).written c⟩,
    ⟨fun i => ⟨(readsElement_qt0 hb rest i).unwritten, (readsElement_qt1 hb rest i).unwritten,
      (readsElement_blk hb rest i).unwritten, (readsElement_qblk hb rest i).unwritten,
      (readsElement_zz hb rest i).unwritten⟩,
    fun v => ⟨(readsElement_ht hb rest .dcLuma v).unwritten, (readsElement_ht hb rest .acLuma v).unwritten,
      (readsElement_ht hb rest .dcChroma v).unwritten, (readsElement_ht hb rest .acChroma v).unwritten⟩⟩,
    fun i d => ⟨?_, ?_, ?_⟩⟩
  · match t with
    | 0 => exact (readsElement_ht hb rest .dcLuma v).written e he
    | 1 => exact (readsElement_ht hb rest .acLuma v).written e he
    | 2 => exact (readsElement_ht hb rest .dcChroma v).written e he
    | 3 => exact (readsElement_ht hb rest .acChroma v).written e he
  · rw [step_regWrite_idle hb (hw 6 i), portReg_blkWin]
    rfl
  · rw [step_regWrite_idle hb (hw 7 i), portReg_qblkWin, BitVec.ofNat_toNat]
    rfl
  · rw [step_regWrite_idle hb (hw 8 i), portReg_zzWin, BitVec.ofNat_toNat]
    rfl

end Sys2Proof.Machine

/-! ### The body of every command, and how a command ends (30_encoding.md R83; 60_exceptions.md R234 to R238) -/

namespace Sys2Proof.Machine

/-- The body of each command, from its first check on (R83): what `exec` gives to `runCommand`. -/
def bodyOf : Instr → Params → State → Res
  | .nop => fun _ => nopBody
  | .qtScale => qtScaleCmd
  | .huffBuild => fun _ => huffBuildBody
  | .resetStream => fun _ => resetStreamBody
  | .pushBits n => pushBitsCmd n.toNat
  | .flush => flushCmd
  | .fdct => fun _ => fdctBody
  | .sample ch => sampleCmd ch
  | .quant tbl => fun _ => quantCmd tbl
  | .zigzag => fun _ => zigzagBody
  | .entropy ch => entropyCmd ch
  | .writeHeaders => writeHeadersCmd
  | .writeEoi => writeEoiCmd
  | .encode => encodeCmd

theorem exec_eq_runCommand (i : Instr) (s : State) : exec i s = runCommand (writesOf i) (bodyOf i) s := by
  cases i <;> rfl

/-- Every command completes: `exec` answers the completion of what its body and an error leave (R15, R234). -/
theorem exec_eq_next (i : Instr) (s : State) :
    exec i s = .next (finish (settle (writesOf i) (latched s) s.outLen.toNat (bodyOf i (latched s) s))) :=
  exec_eq_runCommand i s

/-! #### What no command body changes -/

/-- The part of the state that neither a command body nor the aftermath of an error changes: it belongs to acceptance,
completion, the host port and the configuration. -/
structure Control where
  irqEn : Bool
  busy : Bool
  done : Bool
  err : Bool
  overrun : Bool
  errcode : BitVec 8
  regs : Params
  pending : Option Pending
  modelFault : Option ModelFault
  inputs : List Event
  resp : Response
  tables : Tables

/-- The control part of a state. -/
def State.control (s : State) : Control where
  irqEn := s.irqEn
  busy := s.busy
  done := s.done
  err := s.err
  overrun := s.overrun
  errcode := s.errcode
  regs := s.regs
  pending := s.pending
  modelFault := s.modelFault
  inputs := s.inputs
  resp := s.resp
  tables := s.tables

theorem control_with_blk (s : State) (v : Vector (Option Rat) 64) : ({ s with blk := v } : State).control = s.control :=
  rfl

theorem control_with_zz (s : State) (v : Vector (Option (BitVec 16)) 64) :
    ({ s with zz := v } : State).control = s.control := rfl

/-- A body that leaves the control part of the state alone, however it ends. -/
def KeepsControl (f : State → Res) : Prop := ∀ s, (f s).state.control = s.control

theorem Res.bind_control {r : Res} {f : State → Res} {s : State} (hr : r.state.control = s.control)
    (hf : KeepsControl f) : (r.bind f).state.control = s.control := by
  cases r with
  | ok t => exact (hf t).trans hr
  | raise c t => exact hr
  | uninit t => exact hr

theorem KeepsControl.check {next : State → Res} (h : KeepsControl next) (bad : Bool) (c : ErrCode) :
    KeepsControl (check bad c next) := by
  intro s
  cases bad with
  | false => exact h s
  | true => rfl

theorem KeepsControl.forEach {α : Type} {f : α → State → Res} (h : ∀ x, KeepsControl (f x)) (xs : List α) :
    KeepsControl (forEach f xs) :=
  forEach_preserves (R := fun s t => t.control = s.control) (fun _ => rfl) (fun _ _ _ h1 h2 => h2.trans h1) xs
    fun x _ => h x

theorem busAccess_keepsControl (n : Nat) : KeepsControl (busAccess n) := by
  intro s
  obtain ⟨b, hb⟩ := busAccess_state n s
  rw [hb]
  rfl

theorem emitRaw_keepsControl (p : Params) (b : Byte) : KeepsControl (emitRaw p b) := by
  intro s
  rcases emitRaw_cases p b s with ⟨_, _, h⟩ | ⟨_, h⟩ | ⟨_, _, h⟩ <;> rw [h] <;> rfl

theorem emitStuffed_keepsControl (p : Params) (b : Byte) : KeepsControl (emitStuffed p b) := fun s =>
  Res.bind_control (emitRaw_keepsControl p b s) fun t => by
    split
    · exact emitRaw_keepsControl p 0x00 t
    · rfl

theorem pushBit_keepsControl (p : Params) (x : Bool) : KeepsControl (pushBit p x) := by
  intro s
  unfold pushBit
  split
  · exact emitStuffed_keepsControl p _ _
  · rfl

theorem pushBits_keepsControl (p : Params) (v n : Nat) : KeepsControl (pushBits p v n) := by
  induction n with
  | zero => exact fun _ => rfl
  | succ n ih => exact fun s => Res.bind_control (pushBit_keepsControl p _ s) ih

theorem flushBody_keepsControl (p : Params) : KeepsControl (flushBody p) := by
  intro s
  unfold flushBody
  split
  · rfl
  · exact emitStuffed_keepsControl p _ _

theorem resetStreamBody_keepsControl : KeepsControl resetStreamBody := fun _ => rfl

theorem qtScaleBody_keepsControl (p : Params) : KeepsControl (qtScaleBody p) := fun _ => rfl

theorem huffBuildBody_keepsControl : KeepsControl huffBuildBody := fun _ => rfl

theorem fdctBody_keepsControl : KeepsControl fdctBody := by
  intro s
  unfold fdctBody
  split <;> rfl

theorem sampleBody_keepsControl (p : Params) (ch : Channel) (bx byy : Nat) : KeepsControl (sampleBody p ch bx byy) := by
  intro s
  unfold sampleBody
  exact Res.bind_control (busAccess_keepsControl 192 s) fun t => control_with_blk t _

theorem quantBody_keepsControl (tbl : QTable) : KeepsControl (quantBody tbl) := by
  intro s
  unfold quantBody
  split
  · dsimp only
    split <;> rfl
  · rfl

theorem zigzagBody_keepsControl : KeepsControl zigzagBody := by
  intro s
  unfold zigzagBody
  split
  · rfl
  · exact control_with_zz s _

theorem entropyBody_keepsControl (p : Params) (ch : Channel) : KeepsControl (entropyBody p ch) := by
  intro s
  unfold entropyBody
  split
  · rfl
  · split
    · rfl
    · rfl
    · refine Res.bind_control (KeepsControl.forEach (fun c t => ?_) _ s) fun _ => rfl
      exact Res.bind_control (pushBits_keepsControl p _ _ t) (pushBits_keepsControl p _ _)

theorem writeHeadersBody_keepsControl (p : Params) : KeepsControl (writeHeadersBody p) := by
  intro s
  unfold writeHeadersBody
  split
  · exact KeepsControl.forEach (emitRaw_keepsControl p) _ s
  · rfl

theorem writeEoiBody_keepsControl (p : Params) : KeepsControl (writeEoiBody p) :=
  KeepsControl.forEach (emitRaw_keepsControl p) _

theorem encodeChannel_keepsControl (p : Params) (bx byy : Nat) (ch : Channel) :
    KeepsControl (encodeChannel p bx byy ch) := by
  intro s
  unfold encodeChannel
  refine Res.bind_control ?_ (entropyBody_keepsControl p ch)
  refine Res.bind_control ?_ zigzagBody_keepsControl
  refine Res.bind_control ?_ (quantBody_keepsControl _)
  exact Res.bind_control (sampleBody_keepsControl p ch bx byy _) fdctBody_keepsControl

theorem encodeMcu_keepsControl (p : Params) (o : Nat × Nat) : KeepsControl (encodeMcu p o) :=
  KeepsControl.forEach (encodeChannel_keepsControl p o.1 o.2) _

theorem encodeBody_keepsControl (p : Params) : KeepsControl (encodeBody p) := by
  intro s
  unfold encodeBody
  refine Res.bind_control ?_ (writeEoiBody_keepsControl p)
  refine Res.bind_control ?_ (flushBody_keepsControl p)
  refine Res.bind_control ?_ (KeepsControl.forEach (encodeMcu_keepsControl p) _)
  refine Res.bind_control ?_ (writeHeadersBody_keepsControl p)
  refine Res.bind_control ?_ huffBuildBody_keepsControl
  exact Res.bind_control (resetStreamBody_keepsControl s) (qtScaleBody_keepsControl p)

theorem bodyOf_keepsControl (i : Instr) (p : Params) : KeepsControl (bodyOf i p) := by
  cases i with
  | nop => exact fun _ => rfl
  | qtScale => exact (qtScaleBody_keepsControl p).check _ _
  | huffBuild => exact huffBuildBody_keepsControl
  | resetStream => exact resetStreamBody_keepsControl
  | pushBits n => exact (pushBits_keepsControl p _ _).check _ _
  | flush => exact (flushBody_keepsControl p).check _ _
  | fdct => exact fdctBody_keepsControl
  | sample ch => exact (((sampleBody_keepsControl p ch _ _).check _ _).check _ _).check _ _
  | quant tbl => exact fun s => (quantBody_keepsControl tbl).check _ _ s
  | zigzag => exact zigzagBody_keepsControl
  | entropy ch => exact fun s => ((entropyBody_keepsControl p ch).check _ _).check _ _ s
  | writeHeaders => exact fun s => ((((writeHeadersBody_keepsControl p).check _ _).check _ _).check _ _).check _ _ s
  | writeEoi => exact fun s => ((writeEoiBody_keepsControl p).check _ _).check _ _ s
  | encode =>
    exact ((((((encodeBody_keepsControl p).check _ _).check _ _).check _ _).check _ _).check _ _).check _ _

/-! #### What an error leaves -/

/-- Free output (R237): memory, OUT_LEN and the counter only. -/
theorem spoilOutput_eq (p : Params) (start : Nat) (s : State) :
    spoilOutput p start s = { s with
      mem := (spoilOutput p start s).mem
      outLen := (spoilOutput p start s).outLen
      draws := (spoilOutput p start s).draws } := by
  unfold spoilOutput
  rw [drawBytes_eq]
  rfl

/-- The state after BUS_ERROR (R237): the output, the bit writer, the predictors and the stores in the "writes" column
of the command, and nothing else. -/
theorem spoilBusError_eq (w : Writes) (p : Params) (start : Nat) (s : State) :
    spoilBusError w p start s = { s with
      mem := (spoilBusError w p start s).mem
      outLen := (spoilBusError w p start s).outLen
      acc := (spoilBusError w p start s).acc
      nbits := (spoilBusError w p start s).nbits
      pred := (spoilBusError w p start s).pred
      draws := (spoilBusError w p start s).draws
      blk := if w.blk then Vector.replicate 64 none else s.blk
      qblk := if w.qblk then Vector.replicate 64 none else s.qblk
      zz := if w.zz then Vector.replicate 64 none else s.zz } := by
  dsimp only [spoilBusError]
  rw [drawPreds_eq]
  cases w.outLen <;> cases w.bits <;> simp only [if_true, if_false, Bool.false_eq_true]
  · rfl
  · rfl
  · rw [spoilOutput_eq]
    rfl
  · rw [spoilOutput_eq]
    rfl

/-- A command that writes no output, no bits and no predictor leaves its stores open after BUS_ERROR (R237). -/
theorem spoilBusError_of_stores_only {w : Writes} (ho : w.outLen = false) (hb : w.bits = false) (hp : w.preds = [])
    (p : Params) (start : Nat) (s : State) : spoilBusError w p start s = clearStores w s := by
  simp [spoilBusError, ho, hb, hp]

theorem spoilBusError_pred_get {w : Writes} {ch : Channel} (h : ch ∉ w.preds) (p : Params) (start : Nat) (s : State) :
    (spoilBusError w p start s).pred.get ch = s.pred.get ch := by
  have hout : (spoilOutput p start s).pred = s.pred := by rw [spoilOutput_eq]
  unfold spoilBusError
  rw [clearStores_pred, drawPreds_get h]
  cases w.outLen <;> cases w.bits <;> simp [hout]

/-- Memory after BUS_ERROR (R237): open only from DST_ADDR + `start` up to the end of the output region. -/
theorem readByte_spoilBusError (w : Writes) {p : Params} {start : Nat} (s : State) {a : Nat}
    (h : a < p.dstAddr.toNat + start ∨ p.dstAddr.toNat + p.dstCap.toNat ≤ a) :
    readByte (spoilBusError w p start s) a = readByte s a := by
  dsimp only [spoilBusError]
  rw [drawPreds_eq]
  cases w.outLen <;> cases w.bits <;> simp only [if_true, if_false, Bool.false_eq_true]
  · rfl
  · rfl
  · exact (readByte_congr rfl a).trans (readByte_spoilOutput h)
  · exact (readByte_congr rfl a).trans (readByte_spoilOutput h)

theorem spoilBusError_control (w : Writes) (p : Params) (start : Nat) (s : State) :
    (spoilBusError w p start s).control = s.control := by
  rw [spoilBusError_eq]
  rfl

theorem spoilOverflow_control (w : Writes) (s : State) : (spoilOverflow w s).control = s.control := by
  rw [spoilOverflow_eq]
  rfl

theorem settle_control (w : Writes) (p : Params) (start : Nat) (r : Res) :
    (settle w p start r).state.control = r.state.control := by
  cases r with
  | ok s => rfl
  | uninit s => exact spoilBusError_control w p start s
  | raise c s =>
    cases c <;> simp only [settle, Res.state]
    case outOverflow => exact spoilOverflow_control w s
    case busError => exact spoilBusError_control w p start s
    case symbolUndefined => split <;> simp [spoilOverflow_control]
    case coefRange => split <;> simp [spoilOverflow_control]

/-! #### Completion -/

/-- What every completion does to the flags (R234). -/
theorem finish_completes (r : Res) :
    (finish r).busy = false ∧ (finish r).done = true ∧ (finish r).pending = none ∧ (finish r).encPos = none := by
  cases r <;> exact ⟨rfl, rfl, rfl, rfl⟩

/-- ERR and ERRCODE at a completion (R234, R238): left alone, or the code that was raised. -/
theorem finish_err (r : Res) :
    ((finish r).err = r.state.err ∧ (finish r).errcode = r.state.errcode) ∨
      ((finish r).err = true ∧ ∃ c : ErrCode, (finish r).errcode = c.code) := by
  cases r with
  | ok s => exact .inl ⟨rfl, rfl⟩
  | raise c s => exact .inr ⟨rfl, c, rfl⟩
  | uninit s => exact .inl ⟨rfl, rfl⟩

/-- The codes of R231 are 1 to 12. -/
theorem errCode_code_bounds (c : ErrCode) : 1 ≤ c.code.toNat ∧ c.code.toNat ≤ 0x0C := by
  cases c <;> decide

/-- Settles O41: `finish` completes, and neither the body nor what an error leaves has touched ERR and ERRCODE. -/
theorem everyCommandCompletes : Obligations.EveryCommandCompletes := by
  intro i s
  set r := settle (writesOf i) (latched s) s.outLen.toNat (bodyOf i (latched s) s)
  have hc : r.state.control = s.control := (settle_control _ _ _ _).trans (bodyOf_keepsControl i _ s)
  obtain ⟨hbusy, hdone, hpending, hpos⟩ := finish_completes r
  refine ⟨finish r, exec_eq_next i s, hbusy, hdone, hpending, hpos, ?_, errCode_code_bounds⟩
  refine (finish_err r).imp_left fun ⟨he, hcode⟩ => ⟨?_, ?_⟩
  · exact he.trans (congrArg Control.err hc)
  · exact hcode.trans (congrArg Control.errcode hc)

/-! #### Reading an element without a value -/

theorem allWritten_eq_none {α : Type} {n : Nat} {v : Vector (Option α) n} (h : ∃ i : Fin n, v[i] = none) :
    allWritten v = none := by
  obtain ⟨i, hi⟩ := h
  exact dif_neg fun hall => by simpa [hi] using hall i

theorem fdctBody_uninit {s : State} (h : ∃ i : Fin 64, s.blk[i] = none) : fdctBody s = .uninit s := by
  unfold fdctBody
  rw [allWritten_eq_none h]

theorem quantBody_uninit {s : State} (h : ∃ i : Fin 64, s.blk[i] = none) (tbl : QTable) :
    quantBody tbl s = .uninit s := by
  unfold quantBody
  rw [allWritten_eq_none h]

theorem zigzagBody_uninit {s : State} (h : ∃ i : Fin 64, s.qblk[i] = none) : zigzagBody s = .uninit s := by
  unfold zigzagBody
  rw [allWritten_eq_none h]

theorem entropyBody_uninit {s : State} (h : ∃ i : Fin 64, s.zz[i] = none) (p : Params) (ch : Channel) :
    entropyBody p ch s = .uninit s := by
  unfold entropyBody
  rw [allWritten_eq_none h]

theorem quantCmd_of_valid {tbl : QTable} {s : State} (h : Valid (.quant tbl) s) : quantCmd tbl s = quantBody tbl s := by
  have hq : (!s.qtValid) = false := h _ (List.mem_singleton_self _)
  rw [quantCmd, hq, check_false]

theorem entropyCmd_of_valid {ch : Channel} {s : State} (h : Valid (.entropy ch) s) :
    entropyCmd ch (latched s) s = entropyBody (latched s) ch s := by
  have hht : (!s.htValid) = false := h (!s.htValid, .notReady) (by simp [validation])
  have hdst : dstRegionBad (latched s) = false :=
    h (dstRegionBad (latched s), .badRegion) (by simp [validation, dstRegionBad])
  rw [entropyCmd, hht, hdst, check_false, check_false]

/-- A command whose body reads an element without a value completes with the mark and without a code (R238; log 5). -/
theorem exec_of_uninit {i : Instr} {s : State} (h : bodyOf i (latched s) s = .uninit s) :
    exec i s = .next ({ spoilBusError (writesOf i) (latched s) s.outLen.toNat s with
      modelFault := some .uninitRead } : State).succeeded := by
  rw [exec_eq_next, h]
  rfl

/-- The same for a command that writes stores only: its stores are left open. -/
theorem exec_of_uninit_stores_only {i : Instr} {s : State} (h : bodyOf i (latched s) s = .uninit s)
    (ho : (writesOf i).outLen = false) (hb : (writesOf i).bits = false) (hp : (writesOf i).preds = []) :
    exec i s = .next ({ clearStores (writesOf i) s with modelFault := some .uninitRead } : State).succeeded := by
  rw [exec_of_uninit h, spoilBusError_of_stores_only ho hb hp]

/-- Settles O39: each body ends in `uninit`, and R238 leaves open what the "writes" column names. -/
theorem uninitReads : Obligations.UninitReads := by
  intro s
  refine ⟨fun h => ⟨?_, fun tbl hv => ?_⟩, fun h => ?_, fun h ch hv => ?_⟩
  · exact exec_of_uninit_stores_only (fdctBody_uninit h) rfl rfl rfl
  · exact exec_of_uninit_stores_only ((quantCmd_of_valid hv).trans (quantBody_uninit h tbl)) rfl rfl rfl
  · exact exec_of_uninit_stores_only (zigzagBody_uninit h) rfl rfl rfl
  · refine ⟨_, exec_of_uninit ((entropyCmd_of_valid hv).trans (entropyBody_uninit h _ ch)), ?_, fun ch' hne => ?_,
      fun a ha => ?_⟩
    · conv_lhs => rw [spoilBusError_eq]
      rfl
    · exact spoilBusError_pred_get (by simpa [writesOf] using hne) _ _ s
    · exact (readByte_congr rfl a).trans (readByte_spoilBusError (writesOf (.entropy ch)) s ha)

end Sys2Proof.Machine

/-! ### The moves a command body is made of (30_encoding.md R88) -/

namespace Sys2Proof.Machine

/-- One change that a command body makes to the state, allowed by the row `w` of R88 and the registers `p` that the command
runs with. The platform's countdown is no part of the block, and the loop position is ENCODE's own (R51). -/
inductive Move (w : Writes) (p : Params) (s : State) : State → Prop where
  | countdown (b : Option Nat) : Move w p s { s with busErrIn := b }
  | byte (b : Byte) (hw : w.outLen = true) (room : s.outLen.toNat < p.dstCap.toNat) : Move w p s (appendByte p b s)
  | bits (a : BitVec 8) (n : BitVec 3) (hw : w.bits = true) (inv : s.BitInv → a.toNat < 2 ^ n.toNat) :
      Move w p s (withBits a n s)
  | pred (ch : Channel) (x : Word) (hw : ch ∈ w.preds) : Move w p s { s with pred := s.pred.set ch x }
  | restart (hw : w.restarts = true) : Move w p s { s with outLen := 0, acc := 0, nbits := 0, pred := ⟨0, 0, 0⟩ }
  | position (hw : w.restarts = true) (e : Option EncPos) : Move w p s { s with encPos := e }
  | quantTables (hw : w.qt = true) (q : Nat) : Move w p s { s with
      qt0 := scaledTable (s.tables.baseQt .luma) q, qt1 := scaledTable (s.tables.baseQt .chroma) q, qtValid := true }
  | codeTables (hw : w.ht = true) : Move w p s { s with
      ht0 := buildTable (s.tables.huff .dcLuma), ht1 := buildTable (s.tables.huff .acLuma)
      ht2 := buildTable (s.tables.huff .dcChroma), ht3 := buildTable (s.tables.huff .acChroma), htValid := true }
  | blk (hw : w.blk = true) (v : Vector (Option Rat) 64) : Move w p s { s with blk := v }
  | qblk (hw : w.qblk = true) (v : Vector (Option (BitVec 16)) 64) : Move w p s { s with qblk := v }
  | zz (hw : w.zz = true) (v : Vector (Option (BitVec 16)) 64) : Move w p s { s with zz := v }

/-- Any number of moves. -/
abbrev Moves (w : Writes) (p : Params) : State → State → Prop := Relation.ReflTransGen (Move w p)

variable {w : Writes} {p : Params}

/-- A predicate that every move keeps holds after any number of them. -/
theorem Moves.invariant {P : State → Prop} (hP : ∀ s t, Move w p s t → P s → P t) {s t : State} (h : Moves w p s t)
    (hs : P s) : P t := by
  induction h with
  | refl => exact hs
  | tail _ hm ih => exact hP _ _ hm ih

/-- A part of the state that no move changes is the same after any number of them. -/
theorem Moves.frame {α : Type} {f : State → α} (hf : ∀ s t, Move w p s t → f t = f s) {s t : State}
    (h : Moves w p s t) : f t = f s :=
  h.invariant (P := fun u => f u = f s) (fun _ _ hm hu => (hf _ _ hm).trans hu) rfl

/-! #### Bodies made of moves -/

/-- The result of a body started in `s`: its state is reached by moves, and OUT_OVERFLOW is raised by emitting commands
only (R231). -/
structure Res.Within (w : Writes) (p : Params) (s : State) (r : Res) : Prop where
  moves : Moves w p s r.state
  overflow : ∀ t, r = .raise .outOverflow t → w.outLen = true

/-- A body whose every run is made of moves. -/
def MadeOfMoves (w : Writes) (p : Params) (f : State → Res) : Prop := ∀ s, (f s).Within w p s

theorem Res.Within.ok {s t : State} (h : Moves w p s t) : (Res.ok t).Within w p s :=
  ⟨h, fun _ he => nomatch he⟩

theorem Res.Within.uninit {s t : State} (h : Moves w p s t) : (Res.uninit t).Within w p s :=
  ⟨h, fun _ he => nomatch he⟩

theorem Res.Within.raise {s t : State} {c : ErrCode} (h : Moves w p s t) (hc : c ≠ .outOverflow) :
    (Res.raise c t).Within w p s :=
  ⟨h, fun _ he => absurd (Res.raise.inj he).1 hc⟩

/-- A body that ends normally after one move. -/
theorem Res.Within.okMove {s t : State} (h : Move w p s t) : (Res.ok t).Within w p s := .ok (.single h)

/-- Moves made before a body come first. -/
theorem Res.Within.after {s t : State} {r : Res} (h : Moves w p s t) (hr : r.Within w p t) : r.Within w p s :=
  ⟨h.trans hr.moves, hr.overflow⟩

theorem Res.Within.bind {r : Res} {f : State → Res} {s : State} (hr : r.Within w p s) (hf : MadeOfMoves w p f) :
    (r.bind f).Within w p s := by
  cases r with
  | ok t => exact .after hr.moves (hf t)
  | raise c t => exact hr
  | uninit t => exact hr

theorem MadeOfMoves.check {next : State → Res} (h : MadeOfMoves w p next) {c : ErrCode} (hc : c ≠ .outOverflow) (bad : Bool) :
    MadeOfMoves w p (check bad c next) := by
  intro s
  cases bad with
  | false => exact h s
  | true => exact .raise .refl hc

theorem MadeOfMoves.forEach {α : Type} {f : α → State → Res} (h : ∀ x, MadeOfMoves w p (f x)) (xs : List α) :
    MadeOfMoves w p (forEach f xs) := by
  induction xs with
  | nil => exact fun _ => .ok .refl
  | cons x xs ih => exact fun s => (h x s).bind ih

theorem busAccess_madeOfMoves (n : Nat) : MadeOfMoves w p (busAccess n) := by
  intro s
  unfold busAccess
  split
  · exact .ok .refl
  · split
    · exact .raise (.single (.countdown none)) (by decide)
    · exact .okMove (.countdown _)

section Emission
variable (ho : w.outLen = true)
include ho

theorem emitRaw_madeOfMoves (b : Byte) : MadeOfMoves w p (emitRaw p b) := by
  intro s
  rcases emitRaw_cases p b s with ⟨room, _, h⟩ | ⟨_, h⟩ | ⟨_, _, h⟩ <;> rw [h]
  · exact .okMove (.byte b ho room)
  · exact ⟨.refl, fun _ _ => ho⟩
  · exact .raise (.single (.countdown none)) (by decide)

theorem emitStuffed_madeOfMoves (b : Byte) : MadeOfMoves w p (emitStuffed p b) := by
  intro s
  rw [emitStuffed_eq]
  exact MadeOfMoves.forEach (emitRaw_madeOfMoves ho) _ s

theorem writeHeadersBody_madeOfMoves : MadeOfMoves w p (writeHeadersBody p) := by
  intro s
  unfold writeHeadersBody
  split
  · exact MadeOfMoves.forEach (emitRaw_madeOfMoves ho) _ s
  · exact .uninit .refl

theorem writeEoiBody_madeOfMoves : MadeOfMoves w p (writeEoiBody p) := MadeOfMoves.forEach (emitRaw_madeOfMoves ho) _

variable (hb : w.bits = true)
include hb

theorem emitStuffed_emptied_within (b : Byte) (s : State) :
    (emitStuffed p b { s with acc := 0, nbits := 0 }).Within w p s :=
  .after (.single (.bits 0 0 hb fun _ => by decide)) (emitStuffed_madeOfMoves ho b _)

theorem pushBit_madeOfMoves (x : Bool) : MadeOfMoves w p (pushBit p x) := by
  intro s
  unfold pushBit
  split
  · exact emitStuffed_emptied_within ho hb _ s
  next h7 =>
    refine .okMove (.bits _ _ hb fun inv => ?_)
    have hn : (s.nbits + 1).toNat = s.nbits.toNat + 1 := by
      have : s.nbits.toNat ≠ 7 := fun h => h7 (BitVec.eq_of_toNat_eq h)
      rw [BitVec.toNat_add]
      exact Nat.mod_eq_of_lt (by have := s.nbits.isLt; simp; omega)
    have hx := x.toNat_le
    have hmod := Nat.mod_le (2 * s.acc.toNat + x.toNat) 256
    rw [accWith_toNat, hn, pow_succ]
    unfold State.BitInv at inv
    omega

theorem pushBits_madeOfMoves (v n : Nat) : MadeOfMoves w p (pushBits p v n) := by
  induction n with
  | zero => exact fun _ => .ok .refl
  | succ n ih => exact fun s => (pushBit_madeOfMoves ho hb _ s).bind ih

theorem flushBody_madeOfMoves : MadeOfMoves w p (flushBody p) := by
  intro s
  unfold flushBody
  split
  · exact .ok .refl
  · exact emitStuffed_emptied_within ho hb _ s

theorem entropyBody_madeOfMoves {ch : Channel} (hp : ch ∈ w.preds) : MadeOfMoves w p (entropyBody p ch) := by
  intro s
  unfold entropyBody
  split
  · exact .uninit .refl
  · split
    · exact .raise .refl (by decide)
    · exact .uninit .refl
    · refine (MadeOfMoves.forEach (fun c t => ?_) _ s).bind fun t => .okMove (.pred ch _ hp)
      exact (pushBits_madeOfMoves ho hb _ _ t).bind (pushBits_madeOfMoves ho hb _ _)

end Emission

theorem resetStreamBody_madeOfMoves (hr : w.restarts = true) : MadeOfMoves w p resetStreamBody := fun _ => .okMove (.restart hr)

theorem qtScaleBody_madeOfMoves (hq : w.qt = true) : MadeOfMoves w p (qtScaleBody p) := fun _ => .okMove (.quantTables hq _)

theorem huffBuildBody_madeOfMoves (hh : w.ht = true) : MadeOfMoves w p huffBuildBody := fun _ => .okMove (.codeTables hh)

theorem fdctBody_madeOfMoves (hb : w.blk = true) : MadeOfMoves w p fdctBody := by
  intro s
  unfold fdctBody
  split
  · exact .uninit .refl
  · exact .okMove (.blk hb _)

theorem sampleBody_madeOfMoves (hb : w.blk = true) (ch : Channel) (bx byy : Nat) : MadeOfMoves w p (sampleBody p ch bx byy) :=
  fun s => (busAccess_madeOfMoves 192 s).bind fun _ => .okMove (.blk hb _)

theorem quantBody_madeOfMoves (hq : w.qblk = true) (tbl : QTable) : MadeOfMoves w p (quantBody tbl) := by
  intro s
  unfold quantBody
  split
  · dsimp only
    split
    · exact .raise .refl (by decide)
    · exact .okMove (.qblk hq _)
  · exact .uninit .refl

theorem zigzagBody_madeOfMoves (hz : w.zz = true) : MadeOfMoves w p zigzagBody := by
  intro s
  unfold zigzagBody
  split
  · exact .uninit .refl
  · exact .okMove (.zz hz _)

theorem encodeChannel_madeOfMoves (p : Params) (bx byy : Nat) (ch : Channel) :
    MadeOfMoves (writesOf .encode) p (encodeChannel p bx byy ch) := by
  intro s
  have hch : ch ∈ (writesOf .encode).preds := by cases ch <;> decide
  exact .after (.single (.position rfl _)) (((((sampleBody_madeOfMoves rfl ch bx byy _).bind (fdctBody_madeOfMoves rfl)).bind
    (quantBody_madeOfMoves rfl _)).bind (zigzagBody_madeOfMoves rfl)).bind (entropyBody_madeOfMoves rfl rfl hch))

theorem encodeMcu_madeOfMoves (p : Params) (o : Nat × Nat) : MadeOfMoves (writesOf .encode) p (encodeMcu p o) :=
  MadeOfMoves.forEach (encodeChannel_madeOfMoves p o.1 o.2) _

theorem encodeBody_madeOfMoves (p : Params) : MadeOfMoves (writesOf .encode) p (encodeBody p) := by
  intro s
  unfold encodeBody
  refine Res.Within.bind ?_ (writeEoiBody_madeOfMoves rfl)
  refine Res.Within.bind ?_ (flushBody_madeOfMoves rfl rfl)
  refine Res.Within.bind ?_ (MadeOfMoves.forEach (encodeMcu_madeOfMoves p) _)
  refine Res.Within.bind ?_ (writeHeadersBody_madeOfMoves rfl)
  refine Res.Within.bind ?_ (huffBuildBody_madeOfMoves rfl)
  exact (resetStreamBody_madeOfMoves rfl s).bind (qtScaleBody_madeOfMoves rfl)

/-- Every command body is made of the moves that its row of R88 allows. -/
theorem bodyOf_madeOfMoves (i : Instr) (p : Params) : MadeOfMoves (writesOf i) p (bodyOf i p) := by
  cases i with
  | nop => exact fun _ => .ok .refl
  | qtScale => exact (qtScaleBody_madeOfMoves rfl).check (by decide) _
  | huffBuild => exact huffBuildBody_madeOfMoves rfl
  | resetStream => exact resetStreamBody_madeOfMoves rfl
  | pushBits n => exact (pushBits_madeOfMoves rfl rfl _ _).check (by decide) _
  | flush => exact (flushBody_madeOfMoves rfl rfl).check (by decide) _
  | fdct => exact fdctBody_madeOfMoves rfl
  | sample ch =>
    exact (((sampleBody_madeOfMoves rfl ch _ _).check (by decide) _).check (by decide) _).check (by decide) _
  | quant tbl => exact fun s => (quantBody_madeOfMoves rfl tbl).check (by decide) _ s
  | zigzag => exact zigzagBody_madeOfMoves rfl
  | entropy ch =>
    exact fun s => ((entropyBody_madeOfMoves rfl rfl (List.mem_singleton_self ch)).check (by decide) _).check (by decide) _ s
  | writeHeaders =>
    exact fun s => ((((writeHeadersBody_madeOfMoves rfl).check (by decide) _).check (by decide) _).check (by decide) _).check
      (by decide) _ s
  | writeEoi => exact fun s => ((writeEoiBody_madeOfMoves rfl).check (by decide) _).check (by decide) _ s
  | encode =>
    exact ((((((encodeBody_madeOfMoves p).check (by decide) _).check (by decide) _).check (by decide) _).check (by decide) _).check
      (by decide) _).check (by decide) _

end Sys2Proof.Machine

/-! ### How a command ends: the moves of its body, then what its error leaves (60_exceptions.md R234 to R238) -/

namespace Sys2Proof.Machine

/-- How an error that R236 covers is raised: OUT_OVERFLOW, or ENCODE stopped in its middle (R212; log 22). -/
def SpoilsAsOverflow (w : Writes) (c : ErrCode) : Prop :=
  c = .outOverflow ∨ (w.restarts = true ∧ (c = .symbolUndefined ∨ c = .coefRange))

/-- The five ways a command ends, by the result of its body. -/
inductive Ends (i : Instr) (s : State) : State → Prop where
  | succeeds {u : State} (hbody : bodyOf i (latched s) s = .ok u) : Ends i s (finish (.ok u))
  | fails {c : ErrCode} {u : State} (hbody : bodyOf i (latched s) s = .raise c u) (hbus : c ≠ .busError)
      (hc : ¬ SpoilsAsOverflow (writesOf i) c) : Ends i s (finish (.raise c u))
  | overflows {c : ErrCode} {u : State} (hbody : bodyOf i (latched s) s = .raise c u)
      (hc : SpoilsAsOverflow (writesOf i) c) : Ends i s (finish (.raise c (spoilOverflow (writesOf i) u)))
  | busFails {u : State} (hbody : bodyOf i (latched s) s = .raise .busError u) :
      Ends i s (finish (.raise .busError (spoilBusError (writesOf i) (latched s) s.outLen.toNat u)))
  | readsNone {u : State} (hbody : bodyOf i (latched s) s = .uninit u) :
      Ends i s (finish (.uninit (spoilBusError (writesOf i) (latched s) s.outLen.toNat u)))

theorem settle_of_spoilsAsOverflow {w : Writes} {c : ErrCode} (h : SpoilsAsOverflow w c) (p : Params) (start : Nat)
    (s : State) : settle w p start (.raise c s) = .raise c (spoilOverflow w s) := by
  rcases h with rfl | ⟨hr, rfl | rfl⟩
  · rfl
  · simp [settle, hr]
  · simp [settle, hr]

theorem settle_of_not_spoilsAsOverflow {w : Writes} {c : ErrCode} (hbus : c ≠ .busError)
    (h : ¬ SpoilsAsOverflow w c) (p : Params) (start : Nat) (s : State) :
    settle w p start (.raise c s) = .raise c s := by
  cases c <;> simp_all [settle, SpoilsAsOverflow]

theorem exec_ends {i : Instr} {s t : State} (h : exec i s = .next t) : Ends i s t := by
  rw [exec_eq_next] at h
  obtain rfl := Host.Outcome.next.inj h
  cases hbody : bodyOf i (latched s) s with
  | ok u => exact .succeeds hbody
  | uninit u => exact .readsNone hbody
  | raise c u =>
    by_cases hbus : c = .busError
    · subst hbus
      exact .busFails hbody
    · by_cases hc : SpoilsAsOverflow (writesOf i) c
      · rw [settle_of_spoilsAsOverflow hc]
        exact .overflows hbody hc
      · rw [settle_of_not_spoilsAsOverflow hbus hc]
        exact .fails hbody hbus hc

theorem outLen_of_restarts {i : Instr} (h : (writesOf i).restarts = true) : (writesOf i).outLen = true := by
  cases i with
  | resetStream => rfl
  | encode => rfl
  | _ => cases h

section
variable {i : Instr} {s t : State}

/-- Only an emitting command ends as R236 says. -/
theorem outLen_of_spoilsAsOverflow {c : ErrCode} {u : State} (hbody : bodyOf i (latched s) s = .raise c u)
    (hc : SpoilsAsOverflow (writesOf i) c) : (writesOf i).outLen = true := by
  rcases hc with rfl | ⟨hr, _⟩
  · exact (bodyOf_madeOfMoves i (latched s) s).overflow u hbody
  · exact outLen_of_restarts hr

theorem moves_of_body {r : Res} (hbody : bodyOf i (latched s) s = r) : Moves (writesOf i) (latched s) s r.state :=
  hbody ▸ (bodyOf_madeOfMoves i (latched s) s).moves

/-- A predicate holds at the end of a command when the moves of its body, what its errors leave and completion keep it. -/
theorem exec_invariant {P : State → Prop} (h : exec i s = .next t)
    (hmove : ∀ u v, Move (writesOf i) (latched s) u v → P u → P v)
    (hover : (writesOf i).outLen = true → ∀ u, P u → P (spoilOverflow (writesOf i) u))
    (hbus : ∀ u, P u → P (spoilBusError (writesOf i) (latched s) s.outLen.toNat u))
    (hfin : ∀ r : Res, P r.state → P (finish r)) (hs : P s) : P t := by
  have hbody {r : Res} (he : bodyOf i (latched s) s = r) : P r.state := (moves_of_body he).invariant hmove hs
  cases exec_ends h with
  | succeeds he => exact hfin _ (hbody he)
  | fails he => exact hfin _ (hbody he)
  | overflows he hc => exact hfin _ (hover (outLen_of_spoilsAsOverflow he hc) _ (hbody he))
  | busFails he => exact hfin _ (hbus _ (hbody he))
  | readsNone he => exact hfin _ (hbus _ (hbody he))

/-- A part of the state is as before when the moves, what errors leave and completion do not change it. -/
theorem exec_frame {α : Type} {f : State → α} (h : exec i s = .next t)
    (hmove : ∀ u v, Move (writesOf i) (latched s) u v → f v = f u)
    (hover : (writesOf i).outLen = true → ∀ u, f (spoilOverflow (writesOf i) u) = f u)
    (hbus : ∀ u, f (spoilBusError (writesOf i) (latched s) s.outLen.toNat u) = f u)
    (hfin : ∀ r : Res, f (finish r) = f r.state) : f t = f s :=
  exec_invariant (P := fun u => f u = f s) h (fun u v hm hu => (hmove u v hm).trans hu)
    (fun ho u hu => (hover ho u).trans hu) (fun u hu => (hbus u).trans hu) (fun r hr => (hfin r).trans hr) rfl

end

/-! #### What each row of R88 leaves alone -/

section
variable {w : Writes} {p : Params} {s t : State}

theorem Move.qt_frame (hw : w.qt = false) (h : Move w p s t) :
    (t.qt0, t.qt1, t.qtValid) = (s.qt0, s.qt1, s.qtValid) := by
  cases h with
  | quantTables h => exact nomatch hw.symm.trans h
  | _ => rfl

theorem Move.ht_frame (hw : w.ht = false) (h : Move w p s t) :
    (t.ht0, t.ht1, t.ht2, t.ht3, t.htValid) = (s.ht0, s.ht1, s.ht2, s.ht3, s.htValid) := by
  cases h with
  | codeTables h => exact nomatch hw.symm.trans h
  | _ => rfl

theorem Move.blk_frame (hw : w.blk = false) (h : Move w p s t) : t.blk = s.blk := by
  cases h with
  | blk h => exact nomatch hw.symm.trans h
  | _ => rfl

theorem Move.qblk_frame (hw : w.qblk = false) (h : Move w p s t) : t.qblk = s.qblk := by
  cases h with
  | qblk h => exact nomatch hw.symm.trans h
  | _ => rfl

theorem Move.zz_frame (hw : w.zz = false) (h : Move w p s t) : t.zz = s.zz := by
  cases h with
  | zz h => exact nomatch hw.symm.trans h
  | _ => rfl

theorem Move.mem_frame (hw : w.outLen = false) (h : Move w p s t) : t.mem = s.mem := by
  cases h with
  | byte _ h => exact nomatch hw.symm.trans h
  | _ => rfl

theorem Move.outLen_frame (hw : w.outLen = false) (hr : w.restarts = false) (h : Move w p s t) :
    t.outLen = s.outLen := by
  cases h with
  | byte _ h => exact nomatch hw.symm.trans h
  | restart h => exact nomatch hr.symm.trans h
  | _ => rfl

theorem Move.bits_frame (hw : w.bits = false) (hr : w.restarts = false) (h : Move w p s t) :
    (t.acc, t.nbits) = (s.acc, s.nbits) := by
  cases h with
  | bits _ _ h => exact nomatch hw.symm.trans h
  | restart h => exact nomatch hr.symm.trans h
  | _ => rfl

theorem Move.pred_frame {ch : Channel} (hw : ch ∉ w.preds) (hr : w.restarts = false) (h : Move w p s t) :
    t.pred.get ch = s.pred.get ch := by
  cases h with
  | pred c x h => exact Preds.get_set_other _ _ fun he => hw (he ▸ h)
  | restart h => exact nomatch hr.symm.trans h
  | _ => rfl

theorem spoilBusError_bits (hw : w.bits = false) (start : Nat) (s : State) :
    ((spoilBusError w p start s).acc, (spoilBusError w p start s).nbits) = (s.acc, s.nbits) := by
  unfold spoilBusError
  rw [clearStores_acc, clearStores_nbits, drawPreds_eq, hw]
  cases w.outLen
  · rfl
  · simp only [if_true]
    rw [spoilOutput_eq]
    rfl

theorem spoilBusError_output (hw : w.outLen = false) (start : Nat) (s : State) :
    ((spoilBusError w p start s).mem, (spoilBusError w p start s).outLen) = (s.mem, s.outLen) := by
  unfold spoilBusError
  rw [clearStores_mem, clearStores_outLen, drawPreds_eq, hw]
  cases w.bits <;> rfl

theorem spoilOverflow_pred_get {ch : Channel} (hw : ch ∉ w.preds) (s : State) :
    (spoilOverflow w s).pred.get ch = s.pred.get ch :=
  drawPreds_get hw (drawBits s)

end

section
variable {i : Instr} {s t : State}

theorem exec_qt_frame (h : exec i s = .next t) (hw : (writesOf i).qt = false) :
    (t.qt0, t.qt1, t.qtValid) = (s.qt0, s.qt1, s.qtValid) := by
  refine exec_frame (f := fun u => (u.qt0, u.qt1, u.qtValid)) h (fun _ _ => Move.qt_frame hw) (fun _ u => ?_)
    (fun u => ?_) fun r => by cases r <;> rfl
  · rw [spoilOverflow_eq]
  · rw [spoilBusError_eq]

theorem exec_ht_frame (h : exec i s = .next t) (hw : (writesOf i).ht = false) :
    (t.ht0, t.ht1, t.ht2, t.ht3, t.htValid) = (s.ht0, s.ht1, s.ht2, s.ht3, s.htValid) := by
  refine exec_frame (f := fun u => (u.ht0, u.ht1, u.ht2, u.ht3, u.htValid)) h (fun _ _ => Move.ht_frame hw)
    (fun _ u => ?_) (fun u => ?_) fun r => by cases r <;> rfl
  · rw [spoilOverflow_eq]
  · rw [spoilBusError_eq]

theorem exec_blk_frame (h : exec i s = .next t) (hw : (writesOf i).blk = false) : t.blk = s.blk := by
  refine exec_frame h (fun _ _ => Move.blk_frame hw) (fun _ u => ?_) (fun u => ?_) fun r => by cases r <;> rfl
  · rw [spoilOverflow_eq, hw]; rfl
  · rw [spoilBusError_eq, hw]; rfl

theorem exec_qblk_frame (h : exec i s = .next t) (hw : (writesOf i).qblk = false) : t.qblk = s.qblk := by
  refine exec_frame h (fun _ _ => Move.qblk_frame hw) (fun _ u => ?_) (fun u => ?_) fun r => by cases r <;> rfl
  · rw [spoilOverflow_eq, hw]; rfl
  · rw [spoilBusError_eq, hw]; rfl

theorem exec_zz_frame (h : exec i s = .next t) (hw : (writesOf i).zz = false) : t.zz = s.zz := by
  refine exec_frame h (fun _ _ => Move.zz_frame hw) (fun _ u => ?_) (fun u => ?_) fun r => by cases r <;> rfl
  · rw [spoilOverflow_eq, hw]; rfl
  · rw [spoilBusError_eq, hw]; rfl

theorem exec_mem_frame (h : exec i s = .next t) (hw : (writesOf i).outLen = false) : t.mem = s.mem :=
  exec_frame h (fun _ _ => Move.mem_frame hw) (fun ho => nomatch hw.symm.trans ho)
    (fun u => congrArg Prod.fst (spoilBusError_output hw _ u)) fun r => by cases r <;> rfl

theorem restarts_of_outLen (hw : (writesOf i).outLen = false) : (writesOf i).restarts = false :=
  Bool.eq_false_iff.2 fun hr => nomatch hw.symm.trans (outLen_of_restarts hr)

theorem exec_outLen_frame (h : exec i s = .next t) (hw : (writesOf i).outLen = false) : t.outLen = s.outLen :=
  exec_frame h (fun _ _ => Move.outLen_frame hw (restarts_of_outLen hw)) (fun ho => nomatch hw.symm.trans ho)
    (fun u => congrArg Prod.snd (spoilBusError_output hw _ u)) fun r => by cases r <;> rfl

theorem exec_bits_frame (h : exec i s = .next t) (ho : (writesOf i).outLen = false) (hw : (writesOf i).bits = false) :
    (t.acc, t.nbits) = (s.acc, s.nbits) :=
  exec_frame (f := fun u => (u.acc, u.nbits)) h (fun _ _ => Move.bits_frame hw (restarts_of_outLen ho))
    (fun h => nomatch ho.symm.trans h) (fun u => spoilBusError_bits hw _ u) fun r => by cases r <;> rfl

theorem exec_pred_frame {ch : Channel} (h : exec i s = .next t) (hw : ch ∉ (writesOf i).preds)
    (hr : (writesOf i).restarts = false) : t.pred.get ch = s.pred.get ch :=
  exec_frame (f := fun u => u.pred.get ch) h (fun _ _ => Move.pred_frame hw hr) (fun _ => spoilOverflow_pred_get hw)
    (spoilBusError_pred_get hw _ _) fun r => by cases r <;> rfl

/-- The container commands leave the bit writer alone, but for OUT_OVERFLOW (R236; log 17). -/
theorem exec_bits_of_container (h : exec i s = .next t) (hw : (writesOf i).bits = false)
    (hr : (writesOf i).restarts = false) :
    (t.acc, t.nbits) = (s.acc, s.nbits) ∨ (t.err = true ∧ t.errcode = 0x06) := by
  have hbody {r : Res} (he : bodyOf i (latched s) s = r) : (r.state.acc, r.state.nbits) = (s.acc, s.nbits) :=
    (moves_of_body he).frame (f := fun u => (u.acc, u.nbits)) fun _ _ => Move.bits_frame hw hr
  cases exec_ends h with
  | succeeds he => exact .inl (hbody he)
  | fails he => exact .inl (hbody he)
  | overflows he hc =>
    obtain rfl := hc.resolve_right fun hrc => nomatch hr.symm.trans hrc.1
    exact .inr ⟨rfl, rfl⟩
  | busFails he => exact .inl ((spoilBusError_bits hw _ _).trans (hbody he))
  | readsNone he => exact .inl ((spoilBusError_bits hw _ _).trans (hbody he))

/-- No command clears a valid flag (R47). -/
theorem exec_valid_flags (h : exec i s = .next t) :
    (s.qtValid = true → t.qtValid = true) ∧ (s.htValid = true → t.htValid = true) := by
  refine exec_invariant (P := fun u => (s.qtValid = true → u.qtValid = true) ∧ (s.htValid = true → u.htValid = true)) h
    (fun u v hm hu => ?_) (fun _ u hu => ?_) (fun u hu => ?_) (fun r hr => by cases r <;> exact hr) ⟨id, id⟩
  · cases hm with
    | quantTables => exact ⟨fun _ => rfl, hu.2⟩
    | codeTables => exact ⟨hu.1, fun _ => rfl⟩
    | _ => exact hu
  · rw [spoilOverflow_eq]; exact hu
  · rw [spoilBusError_eq]; exact hu

/-- What completion leaves of the control part of a state, and no command writes. -/
theorem exec_control (h : exec i s = .next t) :
    t.regs = s.regs ∧ t.tables = s.tables ∧ t.irqEn = s.irqEn ∧ t.overrun = s.overrun ∧ t.inputs = s.inputs ∧
      t.resp = s.resp := by
  rw [exec_eq_next] at h
  obtain rfl := Host.Outcome.next.inj h
  have hc := (settle_control (writesOf i) (latched s) s.outLen.toNat _).trans (bodyOf_keepsControl i (latched s) s)
  have hfin (r : Res) : (finish r).regs = r.state.regs ∧ (finish r).tables = r.state.tables ∧
      (finish r).irqEn = r.state.irqEn ∧ (finish r).overrun = r.state.overrun ∧ (finish r).inputs = r.state.inputs ∧
      (finish r).resp = r.state.resp := by cases r <;> exact ⟨rfl, rfl, rfl, rfl, rfl, rfl⟩
  obtain ⟨h1, h2, h3, h4, h5, h6⟩ := hfin (settle (writesOf i) (latched s) s.outLen.toNat (bodyOf i (latched s) s))
  exact ⟨h1.trans (congrArg Control.regs hc), h2.trans (congrArg Control.tables hc),
    h3.trans (congrArg Control.irqEn hc), h4.trans (congrArg Control.overrun hc),
    h5.trans (congrArg Control.inputs hc), h6.trans (congrArg Control.resp hc)⟩

end

/-! #### The column of R88, read off the instruction -/

section
variable {i : Instr}

theorem writesOf_qt (h : i ≠ .qtScale) (he : i ≠ .encode) : (writesOf i).qt = false := by
  cases i with
  | qtScale => exact absurd rfl h
  | encode => exact absurd rfl he
  | _ => rfl

theorem writesOf_ht (h : i ≠ .huffBuild) (he : i ≠ .encode) : (writesOf i).ht = false := by
  cases i with
  | huffBuild => exact absurd rfl h
  | encode => exact absurd rfl he
  | _ => rfl

theorem writesOf_blk (h : i ≠ .fdct) (hs : ∀ ch, i ≠ .sample ch) (he : i ≠ .encode) : (writesOf i).blk = false := by
  cases i with
  | fdct => exact absurd rfl h
  | sample ch => exact absurd rfl (hs ch)
  | encode => exact absurd rfl he
  | _ => rfl

theorem writesOf_qblk (h : ∀ tbl, i ≠ .quant tbl) (he : i ≠ .encode) : (writesOf i).qblk = false := by
  cases i with
  | quant tbl => exact absurd rfl (h tbl)
  | encode => exact absurd rfl he
  | _ => rfl

theorem writesOf_zz (h : i ≠ .zigzag) (he : i ≠ .encode) : (writesOf i).zz = false := by
  cases i with
  | zigzag => exact absurd rfl h
  | encode => exact absurd rfl he
  | _ => rfl

/-- A command that emits nothing and is not RESET_STREAM writes neither OUT_LEN nor the bit writer. -/
theorem writesOf_stream (h : emits i = false) (hr : i ≠ .resetStream) :
    (writesOf i).outLen = false ∧ (writesOf i).bits = false := by
  cases i with
  | resetStream => exact absurd rfl hr
  | pushBits | flush | entropy | writeHeaders | writeEoi | encode => cases h
  | _ => exact ⟨rfl, rfl⟩

theorem writesOf_restarts (h : i ≠ .resetStream) (he : i ≠ .encode) : (writesOf i).restarts = false := by
  cases i with
  | resetStream => exact absurd rfl h
  | encode => exact absurd rfl he
  | _ => rfl

theorem writesOf_preds {ch : Channel} (h : i ≠ .entropy ch) (hr : i ≠ .resetStream) (he : i ≠ .encode) :
    ch ∉ (writesOf i).preds := by
  cases i with
  | resetStream => exact absurd rfl hr
  | encode => exact absurd rfl he
  | entropy c => exact fun hm => h (List.mem_singleton.1 hm ▸ rfl)
  | _ => exact List.not_mem_nil

end

theorem exec_mem_of_not_emits {i : Instr} {s t : State} (h : exec i s = .next t) (he : emits i = false) :
    t.mem = s.mem := by
  by_cases hr : i = .resetStream
  · subst hr
    obtain rfl := Host.Outcome.next.inj h
    rfl
  · exact exec_mem_frame h (writesOf_stream he hr).1

/-- Settles O42: one frame lemma for each column of R88. -/
theorem commandsWriteOnlyTheirColumn : Obligations.CommandsWriteOnlyTheirColumn := by
  intro i s t h
  obtain ⟨hregs, htables, hirq, hover, hinputs, hresp⟩ := exec_control h
  obtain ⟨hqv, hhv⟩ := exec_valid_flags h
  refine ⟨hregs, htables, hirq, hover, hinputs, hresp, hqv, hhv, fun h1 he => ?_, fun h1 he => ?_,
    fun h1 hs he => exec_blk_frame h (writesOf_blk h1 hs he), fun h1 he => exec_qblk_frame h (writesOf_qblk h1 he),
    fun h1 he => exec_zz_frame h (writesOf_zz h1 he), exec_mem_of_not_emits h,
    fun h1 hr => exec_outLen_frame h (writesOf_stream h1 hr).1, fun h1 hr => ?_, fun h1 => ?_,
    fun ch h1 hr he => exec_pred_frame h (writesOf_preds h1 hr he) (writesOf_restarts hr he)⟩
  · simpa using exec_qt_frame h (writesOf_qt h1 he)
  · simpa using exec_ht_frame h (writesOf_ht h1 he)
  · simpa using exec_bits_frame h (writesOf_stream h1 hr).1 (writesOf_stream h1 hr).2
  · rcases h1 with rfl | rfl <;> simpa using exec_bits_of_container h rfl rfl

/-! #### OUT_LEN (R33) -/

theorem Move.outLen_le {w : Writes} {p : Params} {s t : State} (h : Move w p s t)
    (hs : s.outLen.toNat ≤ p.dstCap.toNat) : t.outLen.toNat ≤ p.dstCap.toNat := by
  cases h with
  | byte b _ room => exact (appendByte_outLen room).trans_le room
  | restart => exact Nat.zero_le _
  | _ => exact hs

theorem spoilBusError_outLen {w : Writes} (hw : w.outLen = true) (p : Params) (start : Nat) (s : State) :
    (spoilBusError w p start s).outLen = (spoilOutput p start s).outLen := by
  unfold spoilBusError
  rw [clearStores_outLen, drawPreds_eq, hw]
  cases w.bits <;> rfl

theorem spoilBusError_outLen_le {w : Writes} {p : Params} {start : Nat} (hstart : start ≤ p.dstCap.toNat) {s : State}
    (hs : s.outLen.toNat ≤ p.dstCap.toNat) : (spoilBusError w p start s).outLen.toNat ≤ p.dstCap.toNat := by
  cases hw : w.outLen with
  | false =>
    have := congrArg Prod.snd (spoilBusError_output (p := p) hw start s)
    dsimp only at this
    rwa [this]
  | true =>
    rw [spoilBusError_outLen hw]
    exact (spoilOutput_outLen p (hstart.trans_lt p.dstCap.isLt) s).2.trans (max_le hstart le_rfl)

/-- Settles O48: an emitted byte needs room, and a free OUT_LEN is drawn below DST_CAP. -/
theorem outLenWithinCap : Obligations.OutLenWithinCap := by
  intro i s t h hs
  refine exec_invariant (P := fun u => u.outLen.toNat ≤ (latched s).dstCap.toNat) h (fun _ _ => Move.outLen_le)
    (fun _ u hu => ?_) (fun u hu => spoilBusError_outLen_le hs hu) (fun r hr => by cases r <;> exact hr) hs
  rw [spoilOverflow_eq]
  exact hu

end Sys2Proof.Machine

/-! ### The code tables HUFF_BUILD writes (41_huffman_build.md R112, R113) -/

namespace Sys2Proof.Machine

/-- The codes and lengths that the counts of the lengths from `len` on give out, in order (R112). -/
def codesFrom : Nat → List Nat → Nat → List (Nat × Nat)
  | _, [], _ => []
  | len, count :: counts, code =>
    (List.range count).map (fun j => (code + j, len)) ++ codesFrom (len + 1) counts ((code + count) * 2)

/-- A table with the entry of one symbol and its code (R112). -/
def assignCode (t : Vector (Option HtEntry) 256) (x : Nat × Nat × Nat) : Vector (Option HtEntry) 256 :=
  t.setIfInBounds x.1 (some ⟨true, BitVec.ofNat 16 x.2.1, BitVec.ofNat 5 x.2.2⟩)

theorem range_succ_codes (code len count : Nat) : (List.range (count + 1)).map (fun j => (code + j, len)) =
    (code, len) :: (List.range count).map (fun j => (code + 1 + j, len)) := by
  rw [List.range_succ_eq_map, List.map_cons, List.map_map]
  refine congrArg _ (List.map_congr_left fun j _ => ?_)
  simp only [Function.comp, Nat.succ_eq_add_one, Prod.mk.injEq, and_true]
  omega

/-- Within one length: the next symbols get consecutive codes. -/
theorem assignLength_eq (len count code : Nat) (vals : List Nat) (t : Vector (Option HtEntry) 256)
    (h : count ≤ vals.length) : assignLength len count code vals t =
      (((vals.take count).zip ((List.range count).map fun j => (code + j, len))).foldl assignCode t, code + count,
        vals.drop count) := by
  induction count generalizing code vals t with
  | zero => rfl
  | succ count ih =>
    cases vals with
    | nil => exact absurd h (by simp)
    | cons v vals =>
      rw [assignLength, ih _ _ _ (by simpa using h), range_succ_codes]
      simp [assignCode, Nat.add_assoc, Nat.add_comm 1]

/-- Over all lengths: the symbols get the codes of `codesFrom` in order. -/
theorem assignLengths_eq (len : Nat) (counts : List Nat) (code : Nat) (vals : List Nat)
    (t : Vector (Option HtEntry) 256) (h : counts.sum ≤ vals.length) :
    assignLengths len counts code vals t = (vals.zip (codesFrom len counts code)).foldl assignCode t := by
  induction counts generalizing len code vals t with
  | nil => simp [assignLengths, codesFrom]
  | cons count counts ih =>
    rw [List.sum_cons] at h
    rw [assignLengths, assignLength_eq len count code vals t (by omega)]
    dsimp only
    rw [ih _ _ _ _ (by rw [List.length_drop]; omega), codesFrom, ← List.foldl_append]
    conv_rhs => rw [← List.take_append_drop count vals]
    rw [List.zip_append (by simp; omega)]

theorem codesFrom_length (len : Nat) (counts : List Nat) (code : Nat) :
    (codesFrom len counts code).length = counts.sum := by
  induction counts generalizing len code with
  | nil => rfl
  | cons count counts ih => simp [codesFrom, ih]

/-- The lengths given out, from `len` on, each as often as its count says. -/
def lengthsFrom : Nat → List Nat → List Nat
  | _, [] => []
  | len, count :: counts => List.replicate count len ++ lengthsFrom (len + 1) counts

theorem codesFrom_lengths (len : Nat) (counts : List Nat) (code : Nat) :
    (codesFrom len counts code).map Prod.snd = lengthsFrom len counts := by
  induction counts generalizing len code with
  | nil => rfl
  | cons count counts ih => simp [codesFrom, lengthsFrom, ih, List.map_map, Function.comp_def]

theorem lengthsFrom_eq_flatMap (len : Nat) (counts : List Nat) :
    lengthsFrom (len + 1) counts = (counts.zipIdx len).flatMap fun c => List.replicate c.1 (c.2 + 1) := by
  induction counts generalizing len with
  | nil => rfl
  | cons count counts ih => rw [lengthsFrom, ih, List.zipIdx_cons, List.flatMap_cons]

theorem codeLengths_eq (h : HuffSpec) : codeLengths h = lengthsFrom 1 h.bits := (lengthsFrom_eq_flatMap 0 h.bits).symm

/-- The lengths given out lie among the `counts.length` lengths from `len` on. -/
theorem lengthsFrom_bounds {len l : Nat} {counts : List Nat} (h : l ∈ lengthsFrom len counts) :
    len ≤ l ∧ l < len + counts.length := by
  induction counts generalizing len with
  | nil => cases h
  | cons count counts ih =>
    rw [List.length_cons]
    rcases List.mem_append.1 h with h | h
    · have := List.eq_of_mem_replicate h
      omega
    · have := ih h
      omega

/-- The code space that codes of the lengths `ls` take up, counted in codes of length `len` (R116). -/
def codeSpace (ls : List Nat) (len : Nat) : Nat := (ls.map fun l => 2 ^ (len - l)).sum

theorem codeSpace_append_replicate (ls : List Nat) (n len : Nat) :
    codeSpace (ls ++ List.replicate n len) len = codeSpace ls len + n := by
  simp [codeSpace]

/-- One more bit doubles the space. -/
theorem codeSpace_succ {ls : List Nat} {len : Nat} (h : ∀ l ∈ ls, l ≤ len) :
    codeSpace ls (len + 1) = codeSpace ls len * 2 := by
  rw [codeSpace, codeSpace, ← List.sum_map_mul_right]
  refine congrArg _ (List.map_congr_left fun l hl => ?_)
  rw [Nat.succ_sub (h l hl), pow_succ]

/-- Every code is the space that the codes before it take up: the canonical codes of R112. -/
theorem codesFrom_eq_codeSpace {len : Nat} {counts before : List Nat} (hb : ∀ l ∈ before, l ≤ len) {k : Nat}
    {x : Nat × Nat} (h : (codesFrom len counts (codeSpace before len))[k]? = some x) :
    x.1 = codeSpace (before ++ (lengthsFrom len counts).take k) x.2 := by
  induction counts generalizing len before k with
  | nil => cases h
  | cons count counts ih =>
    rw [codesFrom, List.getElem?_append, List.length_map, List.length_range] at h
    rw [lengthsFrom, List.take_append, List.take_replicate, List.length_replicate]
    split at h
    next hk =>
      obtain rfl : (codeSpace before len + k, len) = x := by simpa [hk] using h
      rw [min_eq_left hk.le, Nat.sub_eq_zero_of_le hk.le, List.take_zero, List.append_nil, codeSpace_append_replicate]
    next hk =>
      have hb' : ∀ l ∈ before ++ List.replicate count len, l ≤ len := fun l hl =>
        (List.mem_append.1 hl).elim (hb l) fun hl => (List.eq_of_mem_replicate hl).le
      rw [← codeSpace_append_replicate, ← codeSpace_succ hb'] at h
      rw [min_eq_right (not_lt.1 hk), ← List.append_assoc]
      exact ih (fun l hl => (hb' l hl).trans (Nat.le_succ _)) h

/-- The k-th code of a specification is its canonical code, of the k-th length. -/
theorem codesFrom_eq_canonicalCode {h : HuffSpec} {k : Nat} {x : Nat × Nat}
    (hx : (codesFrom 1 h.bits 0)[k]? = some x) :
    x.1 = canonicalCode (codeLengths h) k ∧ (codeLengths h)[k]? = some x.2 := by
  have hl : (codeLengths h)[k]? = some x.2 := by
    rw [codeLengths_eq, ← codesFrom_lengths 1 h.bits 0, List.getElem?_map, hx]
    rfl
  refine ⟨?_, hl⟩
  rw [canonicalCode, List.getD_eq_getElem?_getD, hl, codeLengths_eq]
  exact codesFrom_eq_codeSpace (before := []) (by simp) hx

/-- The symbols of a specification with their codes and lengths, in order (R112). -/
def HuffSpec.assignments (h : HuffSpec) : List (Nat × Nat × Nat) := h.vals.zip (codesFrom 1 h.bits 0)

theorem buildTable_eq {h : HuffSpec} (hf : h.Fits) :
    buildTable h = h.assignments.foldl assignCode (Vector.replicate 256 (some notValid)) :=
  assignLengths_eq 1 h.bits 0 h.vals _ hf.count.ge

/-- Every code assigned fits its length, which is 1 to 16 (R113 (b)). -/
theorem assignments_bounds {h : HuffSpec} (hf : h.Fits) {x : Nat × Nat × Nat} (hx : x ∈ h.assignments) :
    1 ≤ x.2.2 ∧ x.2.2 ≤ 16 ∧ x.2.1 < 2 ^ x.2.2 := by
  obtain ⟨k, hk⟩ := List.mem_iff_getElem?.1 hx
  obtain ⟨hv, hc⟩ := List.getElem?_zip_eq_some.1 hk
  obtain ⟨hcode, hlen⟩ := codesFrom_eq_canonicalCode hc
  have hfit := hf.fits k (List.getElem?_eq_some_iff.1 hv).1
  rw [List.getD_eq_getElem?_getD, hlen, ← hcode] at hfit
  have hb := lengthsFrom_bounds (codeLengths_eq h ▸ List.mem_of_getElem? hlen)
  rw [hf.sixteen] at hb
  exact ⟨hb.1, Nat.le_of_lt_succ hb.2, hfit⟩

/-- An entry of HT RAM as HUFF_BUILD leaves it: written, and when valid of a length of 1 to 16 bits and a code that fits. -/
def HtEntryWritten (o : Option HtEntry) : Prop :=
  ∃ e : HtEntry, o = some e ∧ (e.valid = true → 1 ≤ e.len.toNat ∧ e.len.toNat ≤ 16 ∧ e.code.toNat < 2 ^ e.len.toNat)

theorem assignCode_get (t : Vector (Option HtEntry) 256) (x : Nat × Nat × Nat) (i : Fin 256) :
    (assignCode t x)[i] = if x.1 = i.val then some ⟨true, BitVec.ofNat 16 x.2.1, BitVec.ofNat 5 x.2.2⟩ else t[i] := by
  simp [assignCode, Vector.getElem_setIfInBounds]

theorem htEntryWritten_of_bounds {code len : Nat} (h : 1 ≤ len ∧ len ≤ 16 ∧ code < 2 ^ len) :
    HtEntryWritten (some ⟨true, BitVec.ofNat 16 code, BitVec.ofNat 5 len⟩) := by
  obtain ⟨h1, h16, hc⟩ := h
  refine ⟨_, rfl, fun _ => ?_⟩
  have hl : (BitVec.ofNat 5 len).toNat = len := by rw [BitVec.toNat_ofNat]; omega
  rw [hl]
  exact ⟨h1, h16, (BitVec.toNat_ofNat _ _).trans_lt ((Nat.mod_le _ _).trans_lt hc)⟩

/-- Assigning codes that fit keeps a table as HUFF_BUILD leaves it. -/
theorem foldl_assignCode_written {xs : List (Nat × Nat × Nat)}
    (hx : ∀ x ∈ xs, 1 ≤ x.2.2 ∧ x.2.2 ≤ 16 ∧ x.2.1 < 2 ^ x.2.2) {t : Vector (Option HtEntry) 256} (ht : HtWritten t) :
    HtWritten (xs.foldl assignCode t) := by
  induction xs generalizing t with
  | nil => exact ht
  | cons x xs ih =>
    refine ih (fun y hy => hx y (List.mem_cons_of_mem _ hy)) fun i => ?_
    rw [assignCode_get]
    split
    · exact htEntryWritten_of_bounds (hx x List.mem_cons_self)
    · exact ht i

/-- R41, R112: HUFF_BUILD writes every entry, and every valid one has a code that fits its length. -/
theorem buildTable_written {h : HuffSpec} (hf : h.Fits) : HtWritten (buildTable h) := by
  rw [buildTable_eq hf]
  refine foldl_assignCode_written (fun x hx => assignments_bounds hf hx) fun i => ⟨notValid, ?_, fun h => nomatch h⟩
  simp

/-- A symbol has a code in a table (R176). -/
def HasCode (t : Vector (Option HtEntry) 256) (sym : Nat) : Prop :=
  ∃ e : HtEntry, t[sym]? = some (some e) ∧ e.valid = true

theorem hasCode_assignCode {t : Vector (Option HtEntry) 256} {x : Nat × Nat × Nat} {sym : Nat} (hs : sym < 256)
    (h : x.1 = sym ∨ HasCode t sym) : HasCode (assignCode t x) sym := by
  have hget := assignCode_get t x ⟨sym, hs⟩
  by_cases hx : x.1 = sym
  · exact ⟨_, by simpa [hs, hx] using hget, rfl⟩
  · obtain ⟨e, he, hv⟩ := h.resolve_left hx
    exact ⟨e, by simp_all, hv⟩

theorem hasCode_foldl_assignCode {xs : List (Nat × Nat × Nat)} {t : Vector (Option HtEntry) 256} {sym : Nat}
    (hs : sym < 256) (h : (∃ x ∈ xs, x.1 = sym) ∨ HasCode t sym) : HasCode (xs.foldl assignCode t) sym := by
  induction xs generalizing t with
  | nil => exact h.resolve_left fun ⟨_, hx, _⟩ => nomatch hx
  | cons x xs ih =>
    refine ih ?_
    rcases h with ⟨y, hy, he⟩ | h
    · rcases List.mem_cons.1 hy with rfl | hy
      · exact .inr (hasCode_assignCode hs (.inl he))
      · exact .inl ⟨y, hy, he⟩
    · exact .inr (hasCode_assignCode hs (.inr h))

/-- Every symbol that a specification lists has a code. -/
theorem buildTable_hasCode {h : HuffSpec} (hf : h.Fits) {sym : Nat} (hs : sym ∈ h.vals) : HasCode (buildTable h) sym := by
  rw [buildTable_eq hf]
  refine hasCode_foldl_assignCode (hf.symbols sym hs) (.inl ?_)
  have hlen : h.vals.length ≤ (codesFrom 1 h.bits 0).length := by rw [codesFrom_length, hf.count]
  rw [← List.map_fst_zip hlen] at hs
  exact List.mem_map.1 hs

end Sys2Proof.Machine

/-! ### What one step can do (20_memory.md R74) -/

namespace Sys2Proof.Machine

/-! #### A write to the register port (10_state.md R21 to R44; 70_reset_and_hazards.md R271) -/

/-- What a write of `d` to the register `r` can do. -/
inductive PortEffect (r : PortReg) (d : Word) (s : State) : State → Prop where
  | ignored : PortEffect r d s s
  | ctrl (hr : r = .ctrl) : PortEffect r d s (ctrlWrite d s)
  | status (hr : r = .status) : PortEffect r d s (statusWrite d s)
  | accepted (hr : r = .cmd) (hb : s.busy = false) : PortEffect r d s (accept d s)
  | dropped : PortEffect r d s { s with overrun := true }
  | parameter (hb : s.busy = false) (q : Params) : PortEffect r d s { s with regs := q }
  | predictor (q : Preds) : PortEffect r d s { s with pred := q }
  | blk (v : Vector (Option Rat) 64) : PortEffect r d s { s with blk := v }
  | qblk (v : Vector (Option (BitVec 16)) 64) : PortEffect r d s { s with qblk := v }
  | zz (v : Vector (Option (BitVec 16)) 64) : PortEffect r d s { s with zz := v }

theorem writeReg_effect (r : PortReg) (d : Word) {s : State} (hb : s.busy = false) :
    PortEffect r d s (writeReg r d s) := by
  cases r with
  | ctrl => exact .ctrl rfl
  | status => exact .status rfl
  | cmd => exact .accepted rfl hb
  | arg0 | origin | width | height | quality | srcAddr | srcLen | dstAddr | dstCap => exact .parameter hb _
  | pred ch => exact .predictor _
  | blkWin i => exact .blk _
  | qblkWin i => exact .qblk _
  | zzWin i => exact .zz _
  | _ => exact .ignored

theorem portWrite_effect (r : PortReg) (d : Word) (s : State) : PortEffect r d s (portWrite r d s) := by
  unfold portWrite
  split
  · split
    · exact .ctrl ‹_›
    · split
      · exact .status ‹_›
      · exact .dropped
  · exact writeReg_effect r d (Bool.eq_false_iff.2 ‹_›)

/-- A read of the register port changes at most the counter of the free values (R66). -/
theorem portRead_state (r : PortReg) (s : State) : ∃ n, (portRead r s).2 = { s with draws := n } := by
  have element {α : Type} (e : Option α) (f : α → Word) : ∃ n, (readElement e f s).2 = { s with draws := n } := by
    cases e with
    | none => exact ⟨s.draws + 1, rfl⟩
    | some a => exact ⟨s.draws, rfl⟩
  unfold portRead
  split
  · exact ⟨s.draws + 1, rfl⟩
  · cases r with
    | qtWin | blkWin | qblkWin | zzWin | htWin => exact element _ _
    | _ => exact ⟨s.draws, rfl⟩

/-! #### The step -/

/-- What a step from `s` can lead to. -/
inductive StepTo (s : State) : State → Prop where
  /-- A read, a refused access, a wait, a moved countdown, or an idle core. -/
  | bookkeeping (inputs : List Event) (resp : Response) (draws : Nat) (b : Option Nat) :
      StepTo s { s with inputs := inputs, resp := resp, draws := draws, busErrIn := b }
  | memory (a : Word) (b : Byte) (rest : List Event) :
      StepTo s { storeByte a.toNat b { s with inputs := rest } with resp := .ack }
  | port {off : BitVec 13} {d : Word} {rest : List Event} (he : s.inputs = .regWrite off .word d :: rest)
      (ha : aligned off .word = true) :
      StepTo s { portWrite (portReg off) d { s with inputs := rest } with resp := .ack }
  | hardReset {rest : List Event} (he : s.inputs = .hardReset :: rest) : StepTo s (hardReset { s with inputs := rest })
  | command {p : Pending} {i : Instr} {t : State} (inputs : List Event) (hm : CoreMoves s) (hp : s.pending = some p)
      (hd : decode p.word = .ok i) (h : exec i { s with inputs := inputs } = .next t) : StepTo s t
  | illegal {p : Pending} {c : ErrCode} (inputs : List Event) (hm : CoreMoves s) (hp : s.pending = some p)
      (hd : decode p.word = .error c) : StepTo s (finish (.raise c { s with inputs := inputs }))

theorem coreTurn_stepTo {s t : State} (hm : CoreMoves s) (inputs : List Event)
    (h : coreTurn { s with inputs := inputs } = .next t) : StepTo s t := by
  unfold coreTurn at h
  split at h
  · obtain rfl := Host.Outcome.next.inj h
    exact .bookkeeping inputs s.resp s.draws s.busErrIn
  next p hp =>
    split at h
    next i hd => exact .command inputs hm hp hd h
    next c hd =>
      obtain rfl := Host.Outcome.next.inj h
      exact .illegal inputs hm hp hd

theorem memWriteAccess_next {a : Word} {b : Byte} {s t : State} (h : memWriteAccess a b s = .next t) :
    t = { storeByte a.toNat b s with resp := .ack } := by
  unfold memWriteAccess at h
  split at h
  · cases h
  · split at h
    · cases h
    · exact (Host.Outcome.next.inj h).symm

theorem memReadAccess_next {a : Word} {s t : State} (h : memReadAccess a s = .next t) :
    t = { s with resp := .memData (readByte s a.toNat) } := by
  unfold memReadAccess at h
  split at h
  · cases h
  · exact (Host.Outcome.next.inj h).symm

theorem aligned_size {off : BitVec 13} {size : AccessSize} (h : aligned off size = true) : size = .word :=
  (of_decide_eq_true h).1

theorem step_stepTo {s t : State} (h : step s = .next t) : StepTo s t := by
  unfold step turn at h
  cases hin : s.inputs with
  | nil =>
    rw [hin] at h
    exact coreTurn_stepTo (.inl hin) s.inputs h
  | cons e rest =>
    rw [hin] at h
    cases e with
    | core => exact coreTurn_stepTo (.inr (.inl ⟨rest, hin⟩)) rest h
    | regWrite off size d =>
      obtain rfl := Host.Outcome.next.inj h
      dsimp only [regWriteAccess]
      split
      next ha =>
        obtain rfl := aligned_size ha
        exact .port hin ha
      · exact .bookkeeping rest .busError s.draws s.busErrIn
    | regRead off size =>
      obtain rfl := Host.Outcome.next.inj h
      dsimp only [regReadAccess]
      split
      · obtain ⟨n, hn⟩ := portRead_state (portReg off) { s with inputs := rest }
        rw [hn]
        exact .bookkeeping rest _ n s.busErrIn
      · exact .bookkeeping rest .busError s.draws s.busErrIn
    | memWrite a b =>
      obtain rfl := memWriteAccess_next h
      exact .memory a b rest
    | memRead a =>
      obtain rfl := memReadAccess_next h
      exact .bookkeeping rest _ s.draws s.busErrIn
    | wait =>
      dsimp only [eventTurn] at h
      split at h
      next hb =>
        rw [Bool.and_eq_true] at hb
        exact coreTurn_stepTo (.inr (.inr ⟨hb.1, rest, hin⟩)) s.inputs h
      · obtain rfl := Host.Outcome.next.inj h
        exact .bookkeeping rest _ s.draws s.busErrIn
    | hardReset =>
      obtain rfl := Host.Outcome.next.inj h
      exact .hardReset hin
    | busFault after =>
      obtain rfl := Host.Outcome.next.inj h
      exact .bookkeeping rest s.resp s.draws after

end Sys2Proof.Machine

/-! ### The invariant of the block (10_state.md R24, R39, R41, R46, R50, R51; 20_memory.md R60) -/

namespace Sys2Proof.Machine

/-- The part of the invariant that command bodies work on: memory, the two tables and the configuration. -/
structure State.StoresInv (s : State) : Prop where
  mem_wf : Memory.wf s.mem
  qt_written : s.qtValid = true → QtWritten s.qt0 ∧ QtWritten s.qt1
  ht_written : s.htValid = true → ∀ t : HTable, HtWritten (s.ht t)
  tables_ok : s.tables.Admissible

theorem State.Inv.stores {s : State} (h : s.Inv) : s.StoresInv := ⟨h.mem_wf, h.qt_written, h.ht_written, h.tables_ok⟩

/-- A scaled table has entries in [1, 255], whatever it is scaled from (R102). -/
theorem scaledTable_written (base : List Nat) (q : Nat) : QtWritten (scaledTable base q) := by
  intro i
  refine ⟨BitVec.ofNat 8 (scaleEntry (base.getD i.val 0) (scaleFactor q)), by simp [scaledTable], ?_⟩
  simp only [scaleEntry, clampNat, BitVec.toNat_ofNat]
  omega

theorem Move.stores {w : Writes} {p : Params} {s t : State} (h : Move w p s t) (hs : s.StoresInv) : t.StoresInv := by
  obtain ⟨hmem, hqt, hht, htab⟩ := hs
  cases h with
  | byte b => exact ⟨Memory.put_wf hmem (BitVec.isLt _) b, hqt, hht, htab⟩
  | quantTables => exact ⟨hmem, fun _ => ⟨scaledTable_written _ _, scaledTable_written _ _⟩, hht, htab⟩
  | codeTables =>
    refine ⟨hmem, hqt, fun _ t => ?_, htab⟩
    cases t <;> exact buildTable_written (htab.huff _).toFits
  | _ => exact ⟨hmem, hqt, hht, htab⟩

/-- Free bytes in the output region keep the canonical form of memory. -/
theorem spoilOutput_wf {p : Params} {start : Nat} {s : State} (h : Memory.wf s.mem) :
    Memory.wf (spoilOutput p start s).mem := by
  refine drawBytes_wf (n := dstSpan p - start) h ?_
  have : dstSpan p ≤ 2 ^ 32 - p.dstAddr.toNat := Nat.min_le_right _ _
  have := p.dstAddr.isLt
  omega

theorem spoilBusError_wf {w : Writes} {p : Params} {start : Nat} {s : State} (h : Memory.wf s.mem) :
    Memory.wf (spoilBusError w p start s).mem := by
  dsimp only [spoilBusError]
  rw [drawPreds_eq]
  cases w.outLen <;> cases w.bits <;> simp only [if_true, if_false, Bool.false_eq_true]
  · exact h
  · exact h
  · exact spoilOutput_wf h
  · exact spoilOutput_wf h

theorem exec_stores {i : Instr} {s t : State} (h : exec i s = .next t) (hs : s.StoresInv) : t.StoresInv := by
  refine exec_invariant h (fun _ _ => Move.stores) (fun _ u hu => ?_) (fun u hu => ?_)
    (fun r ⟨hmem, hqt, hht, htab⟩ => by cases r <;> exact ⟨hmem, hqt, hht, htab⟩) hs
  · obtain ⟨hmem, hqt, hht, htab⟩ := hu
    rw [spoilOverflow_eq]
    exact ⟨hmem, hqt, hht, htab⟩
  · obtain ⟨hmem, hqt, hht, htab⟩ := hu
    have hwf : Memory.wf (spoilBusError (writesOf i) (latched s) s.outLen.toNat u).mem := spoilBusError_wf hmem
    rw [spoilBusError_eq]
    exact ⟨hwf, hqt, hht, htab⟩

/-- The flags at a completion (R234), with what it does to ERR and ERRCODE. -/
structure CompletedFrom (s t : State) : Prop where
  busy : t.busy = false
  done : t.done = true
  pending : t.pending = none
  encPos : t.encPos = none
  err : (t.err = s.err ∧ t.errcode = s.errcode) ∨ (t.err = true ∧ ∃ c : ErrCode, t.errcode = c.code)

theorem exec_completedFrom {i : Instr} {s t : State} (h : exec i s = .next t) : CompletedFrom s t := by
  obtain ⟨t', h', hb, hd, hp, he, herr, _⟩ := everyCommandCompletes i s
  obtain rfl := Host.Outcome.next.inj (h.symm.trans h')
  exact ⟨hb, hd, hp, he, herr⟩

theorem finish_raise_completedFrom (c : ErrCode) (s : State) : CompletedFrom s (finish (.raise c s)) :=
  ⟨rfl, rfl, rfl, rfl, .inr ⟨rfl, c, rfl⟩⟩

theorem CompletedFrom.inv {s t : State} (h : CompletedFrom s t) (hs : s.Inv) (ht : t.StoresInv) : t.Inv := by
  obtain ⟨hbusy, _, hpending, hpos, herr⟩ := h
  have hcode : (t.err = true ↔ t.errcode ≠ 0) ∧ t.errcode.toNat ≤ 0x0C := by
    rcases herr with ⟨he, hc⟩ | ⟨he, c, hc⟩
    · rw [he, hc]
      exact ⟨hs.err_iff, hs.errcode_le⟩
    · have hb := errCode_code_bounds c
      refine ⟨iff_of_true he fun h0 => ?_, hc ▸ hb.2⟩
      rw [← hc, h0] at hb
      exact absurd hb.1 (by decide)
  exact {
    mem_wf := ht.mem_wf
    busy_iff := by rw [hbusy, hpending]; rfl
    latched_eq := fun p hp => by rw [hpending] at hp; cases hp
    running_clear := fun hb => by rw [hbusy] at hb; cases hb
    err_iff := hcode.1
    errcode_le := hcode.2
    encPos_none := hpos
    qt_written := ht.qt_written
    ht_written := ht.ht_written
    tables_ok := ht.tables_ok }

/-- The invariant does not speak of the inputs, the answers, the free values and the countdown. -/
theorem State.Inv.bookkeeping {s : State} (h : s.Inv) (inputs : List Event) (resp : Response) (draws : Nat)
    (b : Option Nat) : State.Inv { s with inputs := inputs, resp := resp, draws := draws, busErrIn := b } := { h with }

theorem State.Inv.with_inputs {s : State} (h : s.Inv) (inputs : List Event) : State.Inv { s with inputs := inputs } :=
  h.bookkeeping inputs s.resp s.draws s.busErrIn

/-- The block right after a reset has the invariant, whatever memory and the configuration. -/
theorem resetBlock_inv {s : State} (hmem : Memory.wf s.mem) (htab : s.tables.Admissible) (mark : Option ModelFault) :
    (resetBlock mark s).Inv where
  mem_wf := hmem
  busy_iff := rfl
  latched_eq := fun _ hp => nomatch hp
  running_clear := fun hb => nomatch hb
  err_iff := iff_of_false (fun h => nomatch h) fun h => h rfl
  errcode_le := Nat.zero_le _
  encPos_none := rfl
  qt_written := fun hv => nomatch hv
  ht_written := fun hv => nomatch hv
  tables_ok := htab

theorem abandon_wf {s : State} (h : Memory.wf s.mem) : Memory.wf (abandon s).mem := by
  unfold abandon
  split
  next p _ =>
    refine drawBytes_wf h ?_
    have : dstSpan p.params ≤ 2 ^ 32 - p.params.dstAddr.toNat := Nat.min_le_right _ _
    have := p.params.dstAddr.isLt
    omega
  · exact h

theorem abandon_tables (s : State) : (abandon s).tables = s.tables := softReset_tables s

theorem ctrlWrite_inv (d : Word) {s : State} (h : s.Inv) : (ctrlWrite d s).Inv := by
  unfold ctrlWrite
  split
  · exact resetBlock_inv (abandon_wf h.mem_wf) ((abandon_tables s).symm ▸ h.tables_ok) _
  · exact { h with }

theorem statusWrite_inv (d : Word) {s : State} (h : s.Inv) : (statusWrite d s).Inv := by
  have hcode : ((statusWrite d s).err = true ↔ (statusWrite d s).errcode ≠ 0) ∧
      (statusWrite d s).errcode.toNat ≤ 0x0C := by
    rw [statusWrite_err, statusWrite_errcode]
    split
    · decide
    · exact ⟨h.err_iff, h.errcode_le⟩
  refine { h with err_iff := hcode.1, errcode_le := hcode.2, running_clear := fun hb => ?_ }
  obtain ⟨h1, h2, h3⟩ := h.running_clear hb
  simp [h1, h2, h3]

theorem accept_inv (w : Word) {s : State} (h : s.Inv) : (accept w s).Inv :=
  { h with
    busy_iff := rfl
    latched_eq := fun _ hp => Option.some.inj hp ▸ rfl
    running_clear := fun _ => ⟨rfl, rfl, rfl⟩
    err_iff := by simp
    errcode_le := Nat.zero_le _ }

theorem PortEffect.inv {r : PortReg} {d : Word} {s t : State} (h : PortEffect r d s t) (hs : s.Inv) : t.Inv := by
  cases h with
  | ctrl => exact ctrlWrite_inv d hs
  | status => exact statusWrite_inv d hs
  | accepted => exact accept_inv d hs
  | parameter hb q =>
    refine { hs with latched_eq := fun p hp => ?_ }
    have := hs.busy_iff
    rw [hb, hp] at this
    cases this
  | ignored => exact hs
  | _ => exact { hs with }

theorem PortEffect.tables {r : PortReg} {d : Word} {s t : State} (h : PortEffect r d s t) : t.tables = s.tables := by
  cases h with
  | ctrl =>
    unfold ctrlWrite
    split
    · exact softReset_tables s
    · rfl
  | _ => rfl

/-- Settles O45: a command ends with the stores in order and the flags of a completion; no other step touches both. -/
theorem stepKeepsInv : Obligations.StepKeepsInv := by
  intro s t hs h
  cases step_stepTo h with
  | bookkeeping inputs resp draws b => exact ⟨hs.bookkeeping inputs resp draws b, rfl⟩
  | memory a b rest => exact ⟨{ hs with mem_wf := Memory.put_wf hs.mem_wf a.isLt b }, rfl⟩
  | @port off d rest he ha =>
    have heffect := portWrite_effect (portReg off) d { s with inputs := rest }
    exact ⟨(heffect.inv (hs.with_inputs rest)).bookkeeping _ .ack _ _, heffect.tables⟩
  | @hardReset rest he =>
    exact ⟨resetBlock_inv (s := { s with inputs := rest }) hs.mem_wf hs.tables_ok none, rfl⟩
  | command inputs hm hp hd hexec =>
    have hs' := hs.with_inputs inputs
    exact ⟨(exec_completedFrom hexec).inv hs' (exec_stores hexec hs'.stores), (exec_control hexec).2.1⟩
  | @illegal p c inputs hm hp hd =>
    have hs' := hs.with_inputs inputs
    exact ⟨(finish_raise_completedFrom c _).inv hs' ⟨hs.mem_wf, hs.qt_written, hs.ht_written, hs.tables_ok⟩, rfl⟩

end Sys2Proof.Machine

/-! ### The range of a transformed block (43_fdct.md R144, R146) -/

namespace Sys2Proof

theorem fdctWeight_dc (x : Fin 8) : fdctWeight 0 x = 1 / 2 * (1 / Real.sqrt 2) := by
  simp [fdctWeight, fdctC, fdctCos]

/-- The weights of the coefficient (0, 0) are all 1/8. -/
theorem fdctWeight_dc_mul (x y : Fin 8) : fdctWeight 0 x * fdctWeight 0 y = 1 / 8 := by
  have h2 : Real.sqrt 2 * Real.sqrt 2 = 2 := Real.mul_self_sqrt (by norm_num)
  rw [fdctWeight_dc, fdctWeight_dc]
  field_simp
  linarith

/-- The weights of one pass cancel but for index 0: they are orthogonal to a constant. -/
theorem fdctWeight_sum_eq_zero {k : Fin 8} (hk : k ≠ 0) : ∑ x : Fin 8, fdctWeight k x = 0 := by
  have h := fdctWeight_orthonormal k 0
  simp only [if_neg hk, fdctWeight_dc, ← Finset.sum_mul] at h
  exact (mul_eq_zero.1 h).resolve_right (by positivity)

/-- The weights of every coefficient but (0, 0) sum to 0 (R146). -/
theorem fdctWeight_mul_sum_eq_zero {u v : Fin 8} (h : ¬ (u = 0 ∧ v = 0)) :
    ∑ y : Fin 8, ∑ x : Fin 8, fdctWeight u x * fdctWeight v y = 0 := by
  rw [Finset.sum_comm, ← Finset.sum_mul_sum]
  rcases not_and_or.1 h with hu | hv
  · rw [fdctWeight_sum_eq_zero hu, zero_mul]
  · rw [fdctWeight_sum_eq_zero hv, mul_zero]

variable {f : Fin 64 → ℝ} {a b : ℝ}

/-- The coefficient (0, 0) of a block with elements in [a, b] lies in [8 a, 8 b] (R146). -/
theorem fdctIdeal_dc_bounds (h : ∀ i, a ≤ f i ∧ f i ≤ b) : 8 * a ≤ fdctIdeal f 0 0 ∧ fdctIdeal f 0 0 ≤ 8 * b := by
  have hconst (c : ℝ) : ∑ _y : Fin 8, ∑ _x : Fin 8, c * (1 / 8) = 8 * c := by
    simp only [Finset.sum_const, Finset.card_univ, Fintype.card_fin, nsmul_eq_mul]
    push_cast
    ring
  simp only [fdctIdeal_eq_sum, fdctWeight_dc_mul]
  rw [← hconst a, ← hconst b]
  constructor
  · exact Finset.sum_le_sum fun y _ => Finset.sum_le_sum fun x _ => by linarith [(h (natIdx y x)).1]
  · exact Finset.sum_le_sum fun y _ => Finset.sum_le_sum fun x _ => by linarith [(h (natIdx y x)).2]

/-- Every other coefficient of such a block has magnitude at most 4 (b - a): a shift of the block by its middle value does
not change it, and its weights sum in magnitude to at most 8 (R146). -/
theorem fdctIdeal_ac_bound (h : ∀ i, a ≤ f i ∧ f i ≤ b) {u v : Fin 8} (huv : ¬ (u = 0 ∧ v = 0)) :
    |fdctIdeal f u v| ≤ 4 * (b - a) := by
  have hshift : fdctIdeal f u v =
      ∑ y : Fin 8, ∑ x : Fin 8, (f (natIdx y x) - (a + b) / 2) * (fdctWeight u x * fdctWeight v y) := by
    simp only [fdctIdeal_eq_sum, sub_mul, Finset.sum_sub_distrib, ← Finset.mul_sum, fdctWeight_mul_sum_eq_zero huv,
      mul_zero, sub_zero]
  have hab : 0 ≤ b - a := by linarith [(h 0).1.trans (h 0).2]
  have hdist (i : Fin 64) : |f i - (a + b) / 2| ≤ (b - a) / 2 := by
    obtain ⟨h1, h2⟩ := h i
    rw [abs_le]
    constructor <;> linarith
  rw [hshift]
  calc |∑ y : Fin 8, ∑ x : Fin 8, (f (natIdx y x) - (a + b) / 2) * (fdctWeight u x * fdctWeight v y)|
      ≤ ∑ y : Fin 8, ∑ x : Fin 8, (b - a) / 2 * |fdctWeight u x * fdctWeight v y| := by
        refine (Finset.abs_sum_le_sum_abs _ _).trans (Finset.sum_le_sum fun y _ => ?_)
        refine (Finset.abs_sum_le_sum_abs _ _).trans (Finset.sum_le_sum fun x _ => ?_)
        rw [abs_mul]
        exact mul_le_mul_of_nonneg_right (hdist _) (abs_nonneg _)
    _ = (b - a) / 2 * ∑ y : Fin 8, ∑ x : Fin 8, |fdctWeight u x * fdctWeight v y| := by simp only [Finset.mul_sum]
    _ ≤ (b - a) / 2 * 8 := by gcongr; exact fdctWeight_abs_sum_le u v
    _ = 4 * (b - a) := by ring

/-! #### The transform of the block -/

/-- Every element of a block is that of a row and a column (R140). -/
theorem exists_natIdx (i : Fin 64) : ∃ u v : Fin 8, natIdx v u = i :=
  ⟨⟨i.val % 8, by omega⟩, ⟨i.val / 8, by omega⟩, Fin.ext (Nat.div_add_mod i.val 8)⟩

/-- A block whose elements lie in [lo, hi], within the range of R144. -/
structure BlockIn (lo hi : Rat) (f : Vector Rat 64) : Prop where
  elements : ∀ i : Fin 64, lo ≤ f[i] ∧ f[i] ≤ hi
  lo_ge : -2 ^ 15 ≤ lo
  hi_le : hi ≤ 2 ^ 15

section
variable {lo hi : Rat} {g : Vector Rat 64} (hg : BlockIn lo hi g) (T : FdctImpl)
include hg

theorem FdctImpl.within_of_blockIn (u v : Fin 8) :
    |(((T.fn g)[natIdx v u] : Rat) : ℝ) - fdctIdeal (fun i => ((g[i] : Rat) : ℝ)) u v| ≤ 1 / 2 ^ 12 := by
  refine T.within g (fun i => ?_) u v
  obtain ⟨h1, h2⟩ := hg.elements i
  rw [abs_le]
  exact ⟨hg.lo_ge.trans h1, h2.trans hg.hi_le⟩

theorem BlockIn.real (i : Fin 64) : (lo : ℝ) ≤ ((g[i] : Rat) : ℝ) ∧ ((g[i] : Rat) : ℝ) ≤ (hi : ℝ) := by
  exact_mod_cast hg.elements i

/-- The transform's coefficient (0, 0). -/
theorem FdctImpl.dc_bounds :
    8 * lo - 1 / 2 ^ 12 ≤ (T.fn g)[natIdx 0 0] ∧ (T.fn g)[natIdx 0 0] ≤ 8 * hi + 1 / 2 ^ 12 := by
  obtain ⟨h1, h2⟩ := abs_le.1 (T.within_of_blockIn hg 0 0)
  obtain ⟨h3, h4⟩ := fdctIdeal_dc_bounds hg.real
  constructor <;> rw [← Rat.cast_le (K := ℝ)] <;> push_cast <;> linarith

/-- Every other coefficient of the transform. -/
theorem FdctImpl.ac_bound {i : Fin 64} (h0 : i ≠ 0) : |(T.fn g)[i]| ≤ 4 * (hi - lo) + 1 / 2 ^ 12 := by
  obtain ⟨u, v, rfl⟩ := exists_natIdx i
  have h1 := T.within_of_blockIn hg u v
  have h2 := fdctIdeal_ac_bound hg.real (u := u) (v := v) fun ⟨hu, hv⟩ => h0 (by rw [hu, hv]; rfl)
  have h3 := abs_sub_abs_le_abs_sub (((T.fn g)[natIdx v u] : Rat) : ℝ) (fdctIdeal (fun i => ((g[i] : Rat) : ℝ)) u v)
  rw [← Rat.cast_le (K := ℝ)]
  push_cast
  linarith

end

end Sys2Proof

/-! ### ENCODE with admissible tables fails for room or for the bus only (41_huffman_build.md R113; 47_orchestrator.md R212) -/

namespace Sys2Proof.Machine

/-! #### Results that a body has for want of room or of the bus only -/

/-- The result is a normal end in a state of `Q`, or one of the two errors of emission (R231). -/
inductive Res.Safe (Q : State → Prop) : Res → Prop where
  | ok {s : State} (h : Q s) : Res.Safe Q (.ok s)
  | overflow (s : State) : Res.Safe Q (.raise .outOverflow s)
  | busError (s : State) : Res.Safe Q (.raise .busError s)

theorem Res.Safe.imp {Q R : State → Prop} {r : Res} (h : r.Safe Q) (hQR : ∀ t, r.state = t → Q t → R t) : r.Safe R := by
  cases h with
  | ok h => exact .ok (hQR _ rfl h)
  | overflow s => exact .overflow s
  | busError s => exact .busError s

theorem Res.Safe.bind {Q R : State → Prop} {r : Res} {f : State → Res} (h : r.Safe Q)
    (hf : ∀ t, Q t → (f t).Safe R) : (r.bind f).Safe R := by
  cases h with
  | ok h => exact hf _ h
  | overflow s => exact .overflow s
  | busError s => exact .busError s

theorem forEach_safe {α : Type} {f : α → State → Res} {Q : State → Prop} {xs : List α}
    (hf : ∀ x s, Q s → (f x s).Safe Q) {s : State} (hs : Q s) : (forEach f xs s).Safe Q := by
  induction xs generalizing s with
  | nil => exact .ok hs
  | cons x xs ih => exact (hf x s hs).bind fun _ => ih

/-- A body that emits: it ends normally or for want of room or of the bus. -/
def Emission (f : State → Res) : Prop := ∀ s, (f s).Safe fun _ => True

theorem Emission.bind {r : Res} {f : State → Res} (hr : r.Safe fun _ => True) (hf : Emission f) :
    (r.bind f).Safe fun _ => True := hr.bind fun t _ => hf t

theorem Emission.forEach {α : Type} {f : α → State → Res} (hf : ∀ x, Emission (f x)) (xs : List α) :
    Emission (forEach f xs) := fun _ => forEach_safe (fun x s _ => hf x s) trivial

theorem emitRaw_emission (p : Params) (b : Byte) : Emission (emitRaw p b) := by
  intro s
  rcases emitRaw_cases p b s with ⟨_, _, h⟩ | ⟨_, h⟩ | ⟨_, _, h⟩ <;> rw [h]
  · exact .ok trivial
  · exact .overflow s
  · exact .busError _

theorem emitStuffed_emission (p : Params) (b : Byte) : Emission (emitStuffed p b) := by
  intro s
  rw [emitStuffed_eq]
  exact Emission.forEach (emitRaw_emission p) _ s

theorem pushBit_emission (p : Params) (x : Bool) : Emission (pushBit p x) := by
  intro s
  unfold pushBit
  split
  · exact emitStuffed_emission p _ _
  · exact .ok trivial

theorem pushBits_emission (p : Params) (v n : Nat) : Emission (pushBits p v n) := by
  intro s
  rw [pushBits_eq]
  exact Emission.forEach (pushBit_emission p) _ s

theorem flushBody_emission (p : Params) : Emission (flushBody p) := by
  intro s
  unfold flushBody
  split
  · exact .ok trivial
  · exact emitStuffed_emission p _ _

theorem emitCoded_emission (p : Params) (c : Coded) : Emission (emitCoded p c) := fun s =>
  Emission.bind (pushBits_emission p _ _ s) (pushBits_emission p _ _)

theorem writeEoiBody_emission (p : Params) : Emission (writeEoiBody p) := Emission.forEach (emitRaw_emission p) _

theorem busAccess_safe (n : Nat) (s : State) : (busAccess n s).Safe fun t => ∃ b, t = { s with busErrIn := b } := by
  unfold busAccess
  split
  · exact .ok ⟨s.busErrIn, rfl⟩
  · split
    · exact .busError _
    · exact .ok ⟨_, rfl⟩

/-! #### Stores all of whose elements are written -/

theorem allWritten_map_some {α : Type} {n : Nat} (g : Vector α n) : allWritten (g.map some) = some g := by
  rw [allWritten, dif_pos fun i => by simp]
  congr 1
  ext i hi
  simp

theorem getElem_ofFn_fin {α : Type} {n : Nat} (f : Fin n → α) (i : Fin n) : (Vector.ofFn f)[i] = f i := by simp

theorem eq_map_some_of_forall {α : Type} {n : Nat} {P : α → Prop} {v : Vector (Option α) n}
    (h : ∀ i : Fin n, ∃ a, v[i] = some a ∧ P a) : ∃ g : Vector α n, v = g.map some ∧ ∀ i : Fin n, P g[i] := by
  choose g hg hP using h
  refine ⟨Vector.ofFn g, ?_, fun i => by simpa using hP i⟩
  ext i hi : 1
  simpa using hg ⟨i, hi⟩

/-! #### The samples, the coefficients and their quantization (R152, R161) -/

/-- The least value of CC_IDEAL for a channel (R154). -/
def sampleMin : Channel → Rat
  | .y => -128
  | .cb => -255 / 2
  | .cr => -255 / 2

/-- The largest value of CC_IDEAL for a channel (R154). -/
def sampleMax : Channel → Rat
  | .y => 127
  | .cb => 255 / 2
  | .cr => 255 / 2

theorem ccIdeal_bounds (ch : Channel) (r g b : Byte) :
    sampleMin ch ≤ ccIdeal ch r g b ∧ ccIdeal ch r g b ≤ sampleMax ch := by
  have byte (x : Byte) : (0 : Rat) ≤ x.toNat ∧ (x.toNat : Rat) ≤ 255 :=
    ⟨by positivity, by exact_mod_cast Nat.le_of_lt_succ x.isLt⟩
  obtain ⟨hr0, hr1⟩ := byte r
  obtain ⟨hg0, hg1⟩ := byte g
  obtain ⟨hb0, hb1⟩ := byte b
  cases ch <;> simp only [ccIdeal, sampleMin, sampleMax] <;> constructor <;> linarith

/-- The block that SAMPLE gives lies in the range of the channel, but for EPS_CC (R153, R154). -/
theorem sampleBlock_blockIn (p : Params) (ch : Channel) (bx byy : Nat) (s : State) : ∃ g : Vector Rat 64,
    sampleBlock p ch bx byy s = g.map some ∧ BlockIn (sampleMin ch - 1 / 2 ^ 16) (sampleMax ch + 1 / 2 ^ 16) g := by
  have hsample (x y : Nat) : sampleMin ch - 1 / 2 ^ 16 ≤ sampleAt p ch bx byy x y s ∧
      sampleAt p ch bx byy x y s ≤ sampleMax ch + 1 / 2 ^ 16 := by
    unfold sampleAt
    generalize readByte s _ = r
    generalize readByte s _ = g
    generalize readByte s _ = b
    obtain ⟨h1, h2⟩ := ccIdeal_bounds ch r g b
    obtain ⟨h3, h4⟩ := abs_le.1 (Config.cc.within ch r g b)
    constructor <;> linarith
  obtain ⟨g, hg, hin⟩ := eq_map_some_of_forall (v := sampleBlock p ch bx byy s)
    (P := fun a => sampleMin ch - 1 / 2 ^ 16 ≤ a ∧ a ≤ sampleMax ch + 1 / 2 ^ 16)
    fun i => ⟨_, by simp [sampleBlock], hsample (i.val % 8) (i.val / 8)⟩
  refine ⟨g, hg, hin, ?_, ?_⟩ <;> cases ch <;> norm_num [sampleMin, sampleMax]

/-- The range of the DC coefficients of a channel (R146). -/
def DcIn (ch : Channel) (n : Int) : Prop := 8 * sampleMin ch ≤ n ∧ n ≤ 8 * sampleMax ch

theorem dcIn_iff (ch : Channel) (n : Int) : DcIn ch n ↔
    match ch with
    | .y => -1024 ≤ n ∧ n ≤ 1016
    | .cb => -1020 ≤ n ∧ n ≤ 1020
    | .cr => -1020 ≤ n ∧ n ≤ 1020 := by
  cases ch <;> simp only [DcIn, sampleMin, sampleMax] <;> norm_num <;> norm_cast

/-- A block of integers in the range of a quantized block: DC, then AC (R146, R161). -/
def CoefsIn (ch : Channel) (v : Fin 64 → Int) : Prop := DcIn ch (v 0) ∧ ∀ i, i ≠ 0 → |v i| ≤ 1020

theorem quantize_near (mode : RoundTie) (b : Rat) (q : Byte) : |(quantize mode b q : Rat) - b / q.toNat| ≤ 1 / 2 :=
  (roundTieNearest mode _).1

section
variable (mode : RoundTie) {b : Rat} {q : Byte} (hq : 1 ≤ q.toNat) {n : Int}
include hq

/-- Dividing by at least 1 and rounding to the nearest keeps an integer upper bound, also one off by less than 1/2. -/
theorem quantize_le (hn : 0 ≤ n) (h : b ≤ n + 1 / 4) : quantize mode b q ≤ n := by
  have hq' : (1 : Rat) ≤ q.toNat := by exact_mod_cast hq
  have hn' : (0 : Rat) ≤ n := by exact_mod_cast hn
  have hy : b / q.toNat ≤ n + 1 / 4 := by
    rw [div_le_iff₀ (by linarith)]
    nlinarith
  have hround := (abs_le.1 (quantize_near mode b q)).2
  have hlt : (quantize mode b q : Rat) < (n + 1 : Int) := by push_cast; linarith
  exact Int.lt_add_one_iff.1 (by exact_mod_cast hlt)

/-- The same for a lower bound. -/
theorem le_quantize (hn : n ≤ 0) (h : n - 1 / 4 ≤ b) : n ≤ quantize mode b q := by
  have hq' : (1 : Rat) ≤ q.toNat := by exact_mod_cast hq
  have hn' : (n : Rat) ≤ 0 := by exact_mod_cast hn
  have hy : n - 1 / 4 ≤ b / q.toNat := by
    rw [le_div_iff₀ (by linarith)]
    nlinarith
  have hround := (abs_le.1 (quantize_near mode b q)).1
  have hlt : ((n - 1 : Int) : Rat) < quantize mode b q := by push_cast; linarith
  exact Int.sub_one_lt_iff.1 (by exact_mod_cast hlt)

end

/-- The transform of a block of samples quantizes to coefficients in range (R146, R161). -/
theorem quantize_fdct_coefsIn (T : FdctImpl) (mode : RoundTie) {ch : Channel} {g : Vector Rat 64}
    (hg : BlockIn (sampleMin ch - 1 / 2 ^ 16) (sampleMax ch + 1 / 2 ^ 16) g) {q : Vector Byte 64}
    (hq : ∀ i : Fin 64, 1 ≤ q[i].toNat) : CoefsIn ch fun i => quantize mode (T.fn g)[i] q[i] := by
  constructor
  · obtain ⟨h1, h2⟩ : 8 * (sampleMin ch - 1 / 2 ^ 16) - 1 / 2 ^ 12 ≤ (T.fn g)[(0 : Fin 64)] ∧
      (T.fn g)[(0 : Fin 64)] ≤ 8 * (sampleMax ch + 1 / 2 ^ 16) + 1 / 2 ^ 12 := T.dc_bounds hg
    rw [dcIn_iff]
    cases ch <;> norm_num only [sampleMin, sampleMax] at h1 h2 <;>
      exact ⟨le_quantize mode (hq 0) (by norm_num) (by push_cast; linarith),
        quantize_le mode (hq 0) (by norm_num) (by push_cast; linarith)⟩
  · intro i hi
    have hac := T.ac_bound hg hi
    rw [abs_le] at hac
    have hwidth : sampleMax ch - sampleMin ch = 255 := by cases ch <;> norm_num [sampleMin, sampleMax]
    rw [abs_le]
    exact ⟨le_quantize mode (hq i) (by norm_num) (by push_cast; linarith),
      quantize_le mode (hq i) (by norm_num) (by push_cast; linarith)⟩

theorem CoefsIn.of_eq {ch : Channel} {v w : Fin 64 → Int} (h : CoefsIn ch v) (hw : ∀ i, w i = v i) : CoefsIn ch w :=
  (funext hw : w = v) ▸ h

/-- The zigzag order keeps the DC coefficient first (R167). -/
theorem CoefsIn.zigzag {ch : Channel} {v : Fin 64 → Int} (h : CoefsIn ch v) : CoefsIn ch fun k => v (zigzagNat k) := by
  have hzero : ∀ k : Fin 64, zigzagNat k = 0 → k = 0 := by decide
  exact ⟨h.1, fun k hk => h.2 _ fun h0 => hk (hzero k h0)⟩

/-- A coefficient in range fits its 16 bits. -/
theorem CoefsIn.fits {ch : Channel} {v : Fin 64 → Int} (h : CoefsIn ch v) (i : Fin 64) : |v i| ≤ 1024 := by
  rcases eq_or_ne i 0 with rfl | hi
  · have := (dcIn_iff ch _).1 h.1
    rw [abs_le]
    cases ch <;> dsimp only at this <;> omega
  · exact (h.2 i hi).trans (by norm_num)

theorem toInt_coefOfInt {n : Int} (h : |n| ≤ 1024) : (coefOfInt n).toInt = n := by
  obtain ⟨h1, h2⟩ := abs_le.1 h
  rw [coefOfInt, BitVec.toInt_ofInt, Int.bmod_eq_of_le (by norm_num; omega) (by norm_num; omega)]

/-! #### The items of a block in range have codes (R113 (d), R169) -/

theorem bitlen_le {v : Int} {n : Nat} (h : v.natAbs < 2 ^ n) : bitlen v ≤ n := by
  rw [bitlen_eq_clog]
  exact Nat.clog_le_of_le_pow h

/-- The symbols of R113 (d) of an AC table. -/
def AcSymbol (sym : Nat) : Prop :=
  sym = 0x00 ∨ sym = 0xF0 ∨ ∃ run ≤ 15, ∃ c, 1 ≤ c ∧ c ≤ 10 ∧ sym = run * 16 + c

/-- The AC items of coefficients below 2^10 have symbols of R113 (d). -/
theorem acItems_symbols (t : HTable) {coefs : List Int} (h : ∀ v ∈ coefs, |v| ≤ 1020) (run : Nat) :
    ∀ i ∈ acItems t run coefs, i.table = t ∧ i.nbits ≤ 15 ∧ AcSymbol i.sym := by
  induction coefs generalizing run with
  | nil =>
    intro i hi
    unfold acItems at hi
    split at hi
    · obtain rfl := List.mem_singleton.1 hi
      exact ⟨rfl, Nat.zero_le _, .inl rfl⟩
    · cases hi
  | cons v vs ih =>
    have ih := ih fun x hx => h x (List.mem_cons_of_mem _ hx)
    intro i hi
    unfold acItems at hi
    split at hi
    · exact ih _ i hi
    next hv =>
      rcases List.mem_append.1 hi with hi | hi
      · obtain rfl := List.eq_of_mem_replicate hi
        exact ⟨rfl, Nat.zero_le _, .inr (.inl rfl)⟩
      · rcases List.mem_cons.1 hi with rfl | hi
        · have hb : bitlen v ≤ 10 := bitlen_le (by have := abs_le.1 (h v List.mem_cons_self); omega)
          refine ⟨rfl, hb.trans (by norm_num), .inr (.inr ⟨run % 16, by omega, bitlen v, bitlen_pos hv, hb, ?_⟩)⟩
          rw [← Nat.shiftLeft_add_eq_or_of_lt (hb.trans_lt (by norm_num)), Nat.shiftLeft_eq]
        · exact ih 0 i hi

/-- The code tables are those of the configuration, which is admissible (R113). -/
structure CodesReady (s : State) : Prop where
  admissible : s.tables.Admissible
  built : ∀ t : HTable, s.ht t = buildTable (s.tables.huff t)

theorem dcTable_hasCode {s : State} (hs : CodesReady s) (ch : Channel) {c : Nat} (hc : c ≤ 11) :
    HasCode (s.ht (dcTable ch)) c := by
  rw [hs.built]
  refine buildTable_hasCode (hs.admissible.huff _).toFits (hs.admissible.dc _ ?_ c hc)
  cases ch <;> simp [dcTable]

theorem acTable_hasCode {s : State} (hs : CodesReady s) (ch : Channel) {sym : Nat} (hsym : AcSymbol sym) :
    HasCode (s.ht (acTable ch)) sym := by
  rw [hs.built]
  refine buildTable_hasCode (hs.admissible.huff _).toFits ?_
  obtain ⟨heob, hzrl, hrun⟩ := hs.admissible.ac (acTable ch) (by cases ch <;> simp [acTable])
  rcases hsym with rfl | rfl | ⟨run, hr, c, h1, h10, rfl⟩
  · exact heob
  · exact hzrl
  · exact hrun run hr c h1 h10

/-- Every item of a block in range, after a predictor in range, has a code (R169, R176). -/
theorem entropyItems_defined {s : State} (hs : CodesReady s) {ch : Channel} (hpred : DcIn ch (s.pred.get ch).toInt)
    {z : Vector (BitVec 16) 64} (hz : CoefsIn ch fun i => z[i].toInt) :
    ∀ i ∈ entropyItems ch z s, SymbolDefined s i := by
  have hlen : (z.toList.map BitVec.toInt).length = 64 := by simp
  intro i hi
  rcases List.mem_cons.1 hi with rfl | hi
  · have hdc : ((z.toList.map BitVec.toInt).headD 0 - (s.pred.get ch).toInt).natAbs < 2 ^ 11 := by
      have h0 : (z.toList.map BitVec.toInt).headD 0 = z[(0 : Fin 64)].toInt := by
        rw [List.headD_eq_head?_getD, List.head?_eq_getElem?]
        simp
      have h1 := (dcIn_iff ch _).1 hz.1
      have h2 := (dcIn_iff ch _).1 hpred
      rw [h0]
      cases ch <;> dsimp only at h1 h2 <;> omega
    have hb := bitlen_le hdc
    exact ⟨hb.trans (by norm_num), dcTable_hasCode hs ch hb⟩
  · have hac : ∀ v ∈ (z.toList.map BitVec.toInt).tail, |v| ≤ 1020 := by
      intro v hv
      obtain ⟨k, hk, rfl⟩ := List.mem_iff_getElem.1 hv
      rw [List.length_tail, hlen] at hk
      rw [List.getElem_tail, List.getElem_map]
      exact hz.2 ⟨k + 1, by omega⟩ fun h => nomatch congrArg Fin.val h
    obtain ⟨htable, hnbits, hsym⟩ := acItems_symbols (acTable ch) hac 0 i hi
    exact ⟨hnbits, htable ▸ acTable_hasCode hs ch hsym⟩

theorem lookup_coded {s : State} {i : Item} (h : SymbolDefined s i) : ∃ c, lookup s i = .coded c := by
  obtain ⟨hn, e, he, hv⟩ := h
  exact ⟨⟨e.code.toNat, e.len.toNat, i.bits, i.nbits⟩, by simp [lookup, Nat.not_lt.2 hn, he, hv]⟩

theorem lookupAll_coded {s : State} {items : List Item} (h : ∀ i ∈ items, SymbolDefined s i) :
    ∃ cs, lookupAll s items = .coded cs := by
  induction items with
  | nil => exact ⟨[], rfl⟩
  | cons i items ih =>
    obtain ⟨c, hc⟩ := lookup_coded (h i List.mem_cons_self)
    obtain ⟨cs, hcs⟩ := ih fun j hj => h j (List.mem_cons_of_mem _ hj)
    exact ⟨c :: cs, by simp [lookupAll, hc, hcs]⟩

/-! #### One channel of one MCU -/

/-- What holds before and after every block that ENCODE codes: the tables are built, and the predictors are DC coefficients
of their channels (R212, R217). -/
structure ScanReady (s : State) : Prop extends CodesReady s where
  quant : ∀ t : QTable, QtWritten (s.qt t)
  preds : ∀ ch : Channel, DcIn ch (s.pred.get ch).toInt

/-- The row of R88 of bit emission alone. -/
def emissionRow : Writes := { outLen := true, bits := true }

theorem emitCoded_madeOfMoves (p : Params) (c : Coded) : MadeOfMoves emissionRow p (emitCoded p c) := fun s =>
  (pushBits_madeOfMoves rfl rfl _ _ s).bind (pushBits_madeOfMoves rfl rfl _ _)

/-- The part of the state that `ScanReady` speaks of. -/
def State.scanPart (s : State) := (s.tables, s.qt0, s.qt1, s.ht0, s.ht1, s.ht2, s.ht3, s.pred)

theorem ScanReady.congr {s t : State} (hs : ScanReady s) (h : t.scanPart = s.scanPart) : ScanReady t := by
  simp only [State.scanPart, Prod.mk.injEq] at h
  obtain ⟨htab, hq0, hq1, h0, h1, h2, h3, hpred⟩ := h
  have hht (x : HTable) : t.ht x = s.ht x := by cases x <;> assumption
  have hqt (x : QTable) : t.qt x = s.qt x := by cases x <;> assumption
  exact ⟨⟨htab ▸ hs.admissible, fun x => by rw [hht, htab, hs.built]⟩, fun x => hqt x ▸ hs.quant x,
    fun ch => hpred ▸ hs.preds ch⟩

theorem Move.scanPart_frame {p : Params} {s t : State} (h : Move emissionRow p s t) : t.scanPart = s.scanPart := by
  cases h with
  | countdown | byte | bits => rfl
  | pred _ _ hw => exact absurd hw List.not_mem_nil
  | restart hw | position hw | quantTables hw | codeTables hw | blk hw | qblk hw | zz hw => exact nomatch hw

/-- A body that only emits keeps what it was ready for. -/
theorem ScanReady.safe_of_emission {p : Params} {s : State} (hs : ScanReady s) {r : Res}
    (he : r.Safe fun _ => True) (hm : r.Within emissionRow p s) : r.Safe ScanReady :=
  he.imp fun _ ht _ => hs.congr (ht ▸ hm.moves.frame fun _ _ => Move.scanPart_frame)

section
variable {s : State} (hs : ScanReady s) (ch : Channel)
include hs

theorem sampleBody_safe (p : Params) (bx byy : Nat) : (sampleBody p ch bx byy s).Safe fun t => ScanReady t ∧
    ∃ g : Vector Rat 64, t.blk = g.map some ∧ BlockIn (sampleMin ch - 1 / 2 ^ 16) (sampleMax ch + 1 / 2 ^ 16) g := by
  unfold sampleBody
  refine (busAccess_safe 192 s).bind fun t ⟨b, ht⟩ => .ok ⟨hs.congr ?_, sampleBlock_blockIn p ch bx byy t⟩
  unfold State.scanPart
  rw [ht]

theorem fdctBody_safe {g : Vector Rat 64} (hg : s.blk = g.map some) :
    (fdctBody s).Safe fun t => ScanReady t ∧ t.blk = (Config.fdct.fn g).map some := by
  unfold fdctBody
  rw [hg, allWritten_map_some]
  exact .ok ⟨hs.congr rfl, rfl⟩

theorem quantBody_safe {g : Vector Rat 64} (hb : s.blk = (Config.fdct.fn g).map some)
    (hg : BlockIn (sampleMin ch - 1 / 2 ^ 16) (sampleMax ch + 1 / 2 ^ 16) g) :
    (quantBody (quantTableOf ch) s).Safe fun t => ScanReady t ∧
      ∃ v : Vector (BitVec 16) 64, t.qblk = v.map some ∧ CoefsIn ch fun i => v[i].toInt := by
  obtain ⟨q, hq, hq1⟩ := eq_map_some_of_forall (hs.quant (quantTableOf ch))
  have hin := quantize_fdct_coefsIn Config.fdct Config.roundTie hg hq1
  unfold quantBody
  rw [hb, hq, allWritten_map_some, allWritten_map_some]
  dsimp only
  rw [if_neg]
  · refine .ok ⟨hs.congr rfl, _, (Vector.map_map (f := coefOfInt) (g := some)).symm, ?_⟩
    refine hin.of_eq fun i => ?_
    rw [Fin.getElem_fin, Vector.getElem_map, Vector.getElem_ofFn]
    exact toInt_coefOfInt (hin.fits i)
  · rintro ⟨i, hi⟩
    rw [getElem_ofFn_fin] at hi
    have := abs_le.1 (hin.fits i)
    omega

theorem zigzagBody_safe {v : Vector (BitVec 16) 64} (hv : s.qblk = v.map some) (hin : CoefsIn ch fun i => v[i].toInt) :
    (zigzagBody s).Safe fun t => ScanReady t ∧
      ∃ z : Vector (BitVec 16) 64, t.zz = z.map some ∧ CoefsIn ch fun i => z[i].toInt := by
  unfold zigzagBody
  rw [hv, allWritten_map_some]
  refine .ok ⟨hs.congr rfl, Vector.ofFn fun k => v[zigzagNat k], ?_, hin.zigzag.of_eq fun k => ?_⟩
  · ext i hi : 1
    simp
  · rw [getElem_ofFn_fin]

theorem entropyBody_safe (p : Params) {z : Vector (BitVec 16) 64} (hz : s.zz = z.map some)
    (hin : CoefsIn ch fun i => z[i].toInt) : (entropyBody p ch s).Safe ScanReady := by
  obtain ⟨cs, hcs⟩ := lookupAll_coded (entropyItems_defined hs.toCodesReady (hs.preds ch) hin)
  unfold entropyBody
  rw [hz, allWritten_map_some]
  dsimp only
  rw [hcs]
  refine (hs.safe_of_emission (p := p) (Emission.forEach (emitCoded_emission p) cs s)
    (MadeOfMoves.forEach (emitCoded_madeOfMoves p) cs s)).bind fun t ht => ?_
  refine .ok { ht with preds := fun c => ?_ }
  by_cases hc : c = ch
  · subst hc
    rw [Preds.get_set_same, BitVec.toInt_signExtend_of_le (by norm_num)]
    exact hin.1
  · rw [Preds.get_set_other _ _ hc]
    exact ht.preds c

theorem encodeChannel_safe (p : Params) (bx byy : Nat) : (encodeChannel p bx byy ch s).Safe ScanReady := by
  unfold encodeChannel
  refine Res.Safe.bind (Q := fun t => ScanReady t ∧
    ∃ z : Vector (BitVec 16) 64, t.zz = z.map some ∧ CoefsIn ch fun i => z[i].toInt) ?_
    fun t ⟨ht, z, hz, hin⟩ => entropyBody_safe ht ch p hz hin
  refine Res.Safe.bind (Q := fun t => ScanReady t ∧
    ∃ v : Vector (BitVec 16) 64, t.qblk = v.map some ∧ CoefsIn ch fun i => v[i].toInt) ?_
    fun t ⟨ht, v, hv, hin⟩ => zigzagBody_safe ht ch hv hin
  rw [Res.bind_assoc]
  have hs' : ScanReady { s with encPos := some ⟨BitVec.ofNat 16 bx, BitVec.ofNat 16 byy, ch⟩ } := hs.congr rfl
  refine (sampleBody_safe hs' ch p bx byy).bind fun t ⟨ht, g, hg, hin⟩ => ?_
  exact (fdctBody_safe ht hg).bind fun u ⟨hu, hb⟩ => quantBody_safe hu ch hb hin

end

/-! #### The whole of ENCODE -/

theorem writeHeadersBody_emission {s : State} (h0 : QtWritten s.qt0) (h1 : QtWritten s.qt1) (p : Params) :
    (writeHeadersBody p s).Safe fun _ => True := by
  obtain ⟨q0, hq0, _⟩ := eq_map_some_of_forall h0
  obtain ⟨q1, hq1, _⟩ := eq_map_some_of_forall h1
  unfold writeHeadersBody
  rw [hq0, hq1, allWritten_map_some, allWritten_map_some]
  exact Emission.forEach (emitRaw_emission p) _ s

theorem encodeMcu_safe {s : State} (hs : ScanReady s) (p : Params) (o : Nat × Nat) :
    (encodeMcu p o s).Safe ScanReady :=
  forEach_safe (fun ch _ ht => encodeChannel_safe ht ch p o.1 o.2) hs

/-- ENCODE's bodies up to the headers leave the block ready for the scan. -/
theorem encodeSetup_safe {s : State} (hs : s.tables.Admissible) (p : Params) :
    (((resetStreamBody s).bind (qtScaleBody p)).bind huffBuildBody).Safe ScanReady := by
  refine .ok ⟨⟨hs, fun t => ?_⟩, fun t => ?_, fun ch => ?_⟩
  · cases t <;> rfl
  · cases t <;> exact scaledTable_written _ _
  · change DcIn ch (Preds.get ⟨0, 0, 0⟩ ch).toInt
    rw [dcIn_iff]
    cases ch <;> decide

/-- ENCODE with admissible tables ends normally, or for want of room or of the bus. -/
theorem encodeBody_emission {s : State} (hs : s.tables.Admissible) (p : Params) :
    (encodeBody p s).Safe fun _ => True := by
  unfold encodeBody
  refine Emission.bind (Emission.bind ?_ (flushBody_emission p)) (writeEoiBody_emission p)
  refine Res.Safe.imp (Q := ScanReady) ?_ fun _ _ _ => trivial
  refine Res.Safe.bind (Q := ScanReady) ?_ fun t ht => forEach_safe (fun o _ hu => encodeMcu_safe hu p o) ht
  refine (encodeSetup_safe hs p).bind fun t ht => ?_
  exact ht.safe_of_emission (p := p) (writeHeadersBody_emission (ht.quant .luma) (ht.quant .chroma) p)
    (writeHeadersBody_madeOfMoves rfl t)

end Sys2Proof.Machine

/-! ### The fault mark (10_state.md R53; 60_exceptions.md R238) -/

namespace Sys2Proof.Machine

/-! #### The bodies that read an element without a value -/

theorem exists_none_of_allWritten {α : Type} {n : Nat} {v : Vector (Option α) n} (h : allWritten v = none) :
    ∃ i : Fin n, v[i] = none := by
  by_contra hall
  have hsome : ∀ i : Fin n, v[i].isSome = true := fun i => Option.isSome_iff_ne_none.2 fun hi => hall ⟨i, hi⟩
  rw [allWritten, dif_pos hsome] at h
  cases h

theorem check_eq_uninit {bad : Bool} {c : ErrCode} {next : State → Res} {s u : State}
    (h : check bad c next s = .uninit u) : bad = false ∧ next s = .uninit u := by
  cases bad with
  | false => exact ⟨rfl, h⟩
  | true => cases h

theorem Res.Safe.ne_uninit {Q : State → Prop} {r : Res} (h : r.Safe Q) (u : State) : r ≠ .uninit u := by
  rintro rfl
  cases h

theorem fdctBody_eq_uninit {s u : State} (h : fdctBody s = .uninit u) : ∃ k : Fin 64, s.blk[k] = none := by
  unfold fdctBody at h
  split at h
  · exact exists_none_of_allWritten ‹_›
  · cases h

theorem zigzagBody_eq_uninit {s u : State} (h : zigzagBody s = .uninit u) : ∃ k : Fin 64, s.qblk[k] = none := by
  unfold zigzagBody at h
  split at h
  · exact exists_none_of_allWritten ‹_›
  · cases h

theorem quantBody_eq_uninit {tbl : QTable} {s u : State} (hq : QtWritten (s.qt tbl)) (h : quantBody tbl s = .uninit u) :
    ∃ k : Fin 64, s.blk[k] = none := by
  obtain ⟨q, hq, _⟩ := eq_map_some_of_forall hq
  unfold quantBody at h
  rw [hq, allWritten_map_some] at h
  cases hb : allWritten s.blk with
  | none => exact exists_none_of_allWritten hb
  | some b =>
    rw [hb] at h
    dsimp only at h
    split at h <;> cases h

/-- Written code tables leave no symbol without a value (log 23). -/
theorem lookupAll_ne_unwritten {s : State} (hs : ∀ t : HTable, HtWritten (s.ht t)) (items : List Item) :
    lookupAll s items ≠ .unwritten := by
  have hone (i : Item) : lookup s i ≠ .unwritten := by
    intro h
    unfold lookup at h
    split at h
    · cases h
    · split at h
      · cases h
      next hnone =>
        obtain ⟨hlt, hget⟩ := Vector.getElem?_eq_some_iff.1 hnone
        obtain ⟨e, he, _⟩ := hs i.table ⟨i.sym, hlt⟩
        cases hget.symm.trans he
      · split at h <;> cases h
  induction items with
  | nil => exact fun h => nomatch h
  | cons i items ih =>
    unfold lookupAll
    cases hi : lookup s i with
    | undefined => exact fun h => nomatch h
    | unwritten => exact absurd hi (hone i)
    | coded c =>
      cases hl : lookupAll s items with
      | undefined => exact fun h => nomatch h
      | unwritten => exact absurd hl ih
      | coded cs => exact fun h => nomatch h

theorem entropyBody_eq_uninit {p : Params} {ch : Channel} {s u : State} (hs : ∀ t : HTable, HtWritten (s.ht t))
    (h : entropyBody p ch s = .uninit u) : ∃ k : Fin 64, s.zz[k] = none := by
  unfold entropyBody at h
  split at h
  · exact exists_none_of_allWritten ‹_›
  · split at h
    · cases h
    · exact absurd ‹_› (lookupAll_ne_unwritten hs _)
    · rcases Res.bind_eq_uninit.1 h with h | ⟨_, _, h⟩
      · exact absurd h ((Emission.forEach (emitCoded_emission p) _ s).ne_uninit u)
      · cases h

theorem writeHeadersCmd_ne_uninit {p : Params} {s : State} (hs : s.Inv) (u : State) :
    writeHeadersCmd p s ≠ .uninit u := by
  intro h
  obtain ⟨_, h⟩ := check_eq_uninit h
  obtain ⟨hready, h⟩ := check_eq_uninit h
  obtain ⟨_, h⟩ := check_eq_uninit h
  obtain ⟨_, h⟩ := check_eq_uninit h
  have hq : s.qtValid = true := by
    rw [Bool.not_eq_false', Bool.and_eq_true] at hready
    exact hready.1
  obtain ⟨h0, h1⟩ := hs.qt_written hq
  exact (writeHeadersBody_emission h0 h1 p).ne_uninit u h

/-- ENCODE is its bodies, or one of the validation errors of R213, which changes nothing. -/
theorem encodeCmd_cases (p : Params) (s : State) :
    encodeCmd p s = encodeBody p s ∨ encodeCmd p s = .raise .badDimensions s ∨ encodeCmd p s = .raise .badSrcLen s ∨
      encodeCmd p s = .raise .badQuality s ∨ encodeCmd p s = .raise .badRegion s := by
  unfold encodeCmd check
  split_ifs <;> simp

theorem encodeCmd_ne_uninit {p : Params} {s : State} (hs : s.Inv) (u : State) : encodeCmd p s ≠ .uninit u := by
  rcases encodeCmd_cases p s with h | h | h | h | h <;> rw [h]
  · exact (encodeBody_emission hs.tables_ok p).ne_uninit u
  all_goals exact Res.noConfusion

/-- The command reads an element of the store it works on that has no value (R238). -/
def ReadsMissing (i : Instr) (s : State) : Prop :=
  (i = .fdct ∧ ∃ k : Fin 64, s.blk[k] = none) ∨ (∃ tbl, i = .quant tbl ∧ ∃ k : Fin 64, s.blk[k] = none) ∨
    (i = .zigzag ∧ ∃ k : Fin 64, s.qblk[k] = none) ∨ ∃ ch, i = .entropy ch ∧ ∃ k : Fin 64, s.zz[k] = none

theorem readsMissing_of_uninit {i : Instr} {s u : State} (hs : s.Inv) (h : bodyOf i (latched s) s = .uninit u) :
    ReadsMissing i s := by
  cases i with
  | nop | huffBuild | resetStream => cases h
  | qtScale => cases (check_eq_uninit h).2
  | pushBits n => exact absurd (check_eq_uninit h).2 ((pushBits_emission _ _ _ s).ne_uninit u)
  | flush => exact absurd (check_eq_uninit h).2 ((flushBody_emission _ s).ne_uninit u)
  | fdct => exact .inl ⟨rfl, fdctBody_eq_uninit h⟩
  | sample ch =>
    obtain ⟨_, h⟩ := check_eq_uninit h
    obtain ⟨_, h⟩ := check_eq_uninit h
    obtain ⟨_, h⟩ := check_eq_uninit h
    rcases Res.bind_eq_uninit.1 h with h | ⟨_, _, h⟩
    · exact absurd h ((busAccess_safe 192 s).ne_uninit u)
    · cases h
  | quant tbl =>
    obtain ⟨hq, h⟩ := check_eq_uninit h
    obtain ⟨h0, h1⟩ := hs.qt_written (by simpa using hq)
    exact .inr (.inl ⟨tbl, rfl, quantBody_eq_uninit (by cases tbl <;> assumption) h⟩)
  | zigzag => exact .inr (.inr (.inl ⟨rfl, zigzagBody_eq_uninit h⟩))
  | entropy ch =>
    obtain ⟨hv, h⟩ := check_eq_uninit h
    exact .inr (.inr (.inr ⟨ch, rfl,
      entropyBody_eq_uninit (hs.ht_written (by simpa using hv)) (check_eq_uninit h).2⟩))
  | writeHeaders => exact absurd h (writeHeadersCmd_ne_uninit hs u)
  | writeEoi => exact absurd (check_eq_uninit (check_eq_uninit h).2).2 ((writeEoiBody_emission _ s).ne_uninit u)
  | encode => exact absurd h (encodeCmd_ne_uninit hs u)

/-! #### The mark over a step -/

/-- A command sets the mark when its body reads an element without a value, and leaves it alone otherwise. -/
theorem exec_modelFault {i : Instr} {s t : State} (h : exec i s = .next t) :
    t.modelFault = s.modelFault ∨
      (t.modelFault = some .uninitRead ∧ ∃ u, bodyOf i (latched s) s = .uninit u) := by
  have hbody {r : Res} (he : bodyOf i (latched s) s = r) : r.state.modelFault = s.modelFault :=
    he ▸ congrArg Control.modelFault (bodyOf_keepsControl i (latched s) s)
  cases exec_ends h with
  | succeeds he => exact .inl (hbody he)
  | fails he => exact .inl (hbody he)
  | overflows he => exact .inl ((congrArg Control.modelFault (spoilOverflow_control _ _)).trans (hbody he))
  | busFails he => exact .inl ((congrArg Control.modelFault (spoilBusError_control _ _ _ _)).trans (hbody he))
  | @readsNone u he => exact .inr ⟨rfl, u, he⟩

theorem PortEffect.modelFault {r : PortReg} {d : Word} {s t : State} (h : PortEffect r d s t) :
    t.modelFault = s.modelFault := by
  cases h with
  | ctrl =>
    unfold ctrlWrite
    split <;> rfl
  | _ => rfl

/-- Settles O40: of all steps only a hard reset clears the mark, and only a body that reads ⊥ sets it. -/
theorem faultMark : Obligations.FaultMark := by
  refine ⟨fun s t h hs => ?_, fun i s t hs h hne => ?_⟩
  · cases step_stepTo h with
    | bookkeeping | memory | illegal => exact .inl hs
    | port => exact .inl ((portWrite_effect _ _ _).modelFault.trans hs)
    | hardReset he => exact .inr (by rw [he]; rfl)
    | command inputs _ _ _ hexec =>
      rcases exec_modelFault hexec with h | ⟨h, _⟩
      · exact .inl (h.trans hs)
      · exact .inl h
  · obtain ⟨_, u, hu⟩ := (exec_modelFault h).resolve_left hne
    exact readsMissing_of_uninit hs hu

end Sys2Proof.Machine

/-! ### The bit writer's invariant (10_state.md R45) -/

namespace Sys2Proof.Machine

theorem bitInv_of_zero {s : State} (ha : s.acc = 0) (hn : s.nbits = 0) : s.BitInv := by
  rw [State.BitInv, ha, hn]
  decide

theorem State.BitInv.of_bits_eq {s t : State} (hs : s.BitInv) (h : (t.acc, t.nbits) = (s.acc, s.nbits)) : t.BitInv := by
  obtain ⟨ha, hn⟩ := Prod.mk.inj h
  rw [State.BitInv, ha, hn]
  exact hs

theorem Move.bitInv {w : Writes} {p : Params} {s t : State} (h : Move w p s t) (hs : s.BitInv) : t.BitInv := by
  cases h with
  | bits a n _ inv => exact inv hs
  | restart => exact bitInv_of_zero rfl rfl
  | _ => exact hs

theorem Res.Safe.raise_code {Q : State → Prop} {r : Res} (h : r.Safe Q) {c : ErrCode} {u : State}
    (hr : r = .raise c u) : c = .outOverflow ∨ c = .busError := by
  subst hr
  cases h with
  | overflow => exact .inl rfl
  | busError => exact .inr rfl

/-- ENCODE with admissible tables never meets a coefficient out of range or a symbol without a code (R212). -/
theorem encodeCmd_ne_raise {p : Params} {s : State} (hs : s.tables.Admissible) {c : ErrCode}
    (hc : c = .symbolUndefined ∨ c = .coefRange) (u : State) : encodeCmd p s ≠ .raise c u := by
  intro hr
  rcases encodeCmd_cases p s with h | h | h | h | h
  · rcases (encodeBody_emission hs p).raise_code (h.symm.trans hr) with rfl | rfl <;> simp at hc
  all_goals
    obtain ⟨rfl, _⟩ := Res.raise.inj (h.symm.trans hr)
    simp at hc

/-- An emitting command with admissible tables spoils its bits as R236 says at OUT_OVERFLOW only. -/
theorem eq_outOverflow_of_spoils {i : Instr} {s u : State} {c : ErrCode} (hs : s.tables.Admissible)
    (he : emits i = true) (hbody : bodyOf i (latched s) s = .raise c u) (hc : SpoilsAsOverflow (writesOf i) c) :
    c = .outOverflow := by
  refine hc.resolve_right fun ⟨hr, hcode⟩ => ?_
  cases i with
  | encode => exact encodeCmd_ne_raise hs hcode u hbody
  | resetStream => cases he
  | _ => cases hr

theorem exec_bitInv {i : Instr} {s t : State} (hs : s.Inv) (hb : s.BitInv) (h : exec i s = .next t) : t.BitInv ∨
    (emits i = true ∧ ((t.err = true ∧ (t.errcode = 0x06 ∨ t.errcode = 0x09)) ∨
      ∃ ch, i = .entropy ch ∧ ∃ k : Fin 64, s.zz[k] = none)) := by
  have hbody {r : Res} (he : bodyOf i (latched s) s = r) : r.state.BitInv :=
    (moves_of_body he).invariant (fun _ _ => Move.bitInv) hb
  cases he : emits i with
  | false =>
    by_cases hr : i = .resetStream
    · subst hr
      obtain rfl := Host.Outcome.next.inj h
      exact .inl (bitInv_of_zero rfl rfl)
    · obtain ⟨ho, hw⟩ := writesOf_stream he hr
      exact .inl (hb.of_bits_eq (exec_bits_frame h ho hw))
  | true =>
    cases exec_ends h with
    | succeeds hu => exact .inl (hbody hu)
    | fails hu => exact .inl (hbody hu)
    | overflows hu hc =>
      obtain rfl := eq_outOverflow_of_spoils hs.tables_ok he hu hc
      exact .inr ⟨rfl, .inl ⟨rfl, .inl rfl⟩⟩
    | busFails => exact .inr ⟨rfl, .inl ⟨rfl, .inr rfl⟩⟩
    | readsNone hu =>
      rcases readsMissing_of_uninit hs hu with ⟨rfl, _⟩ | ⟨_, rfl, _⟩ | ⟨rfl, _⟩ | hzz
      · cases he
      · cases he
      · cases he
      · exact .inr ⟨rfl, .inr hzz⟩

theorem PortEffect.bitInv {r : PortReg} {d : Word} {s t : State} (h : PortEffect r d s t) (hs : s.BitInv) :
    t.BitInv := by
  cases h with
  | ctrl =>
    unfold ctrlWrite
    split
    · exact bitInv_of_zero rfl rfl
    · exact hs
  | _ => exact hs

/-- Settles O47: bodies keep ACC < 2^NBITS, and ENCODE has no failure but those of emission that could open it. -/
theorem bitInvKept : Obligations.BitInvKept := by
  refine ⟨bitInv_of_zero rfl rfl, fun s t hs hb h => ?_⟩
  cases step_stepTo h with
  | bookkeeping | memory | illegal => exact .inl hb
  | @port off d rest =>
    exact .inl ((portWrite_effect (portReg off) d { s with inputs := rest }).bitInv hb)
  | hardReset => exact .inl (bitInv_of_zero rfl rfl)
  | @command p i _ inputs hm hp hd hexec =>
    refine (exec_bitInv (hs.with_inputs inputs) hb hexec).imp_right fun ⟨he, hends⟩ => ?_
    exact ⟨p, i, hm, hp, hd, he, hends⟩

end Sys2Proof.Machine

/-! ### Accesses of the register port at any time (10_state.md R21 to R37) -/

namespace Sys2Proof.Machine

theorem step_regWrite (s : State) {off : BitVec 13} (ha : aligned off .word = true) (d : Word) (rest : List Event) :
    step { s with inputs := .regWrite off .word d :: rest } =
      .next { portWrite (portReg off) d { s with inputs := rest } with resp := .ack } := by
  simp [step, turn, eventTurn, regWriteAccess, ha]

theorem step_regRead (s : State) {off : BitVec 13} (ha : aligned off .word = true) (rest : List Event) :
    step { s with inputs := .regRead off .word :: rest } =
      .next { (portRead (portReg off) { s with inputs := rest }).2 with
        resp := .data (portRead (portReg off) { s with inputs := rest }).1 } := by
  simp [step, turn, eventTurn, regReadAccess, ha]

/-- CTRL and STATUS are written while BUSY = 1 too (R271). -/
theorem portWrite_ctrl (d : Word) (s : State) : portWrite .ctrl d s = ctrlWrite d s := by
  unfold portWrite
  split <;> rfl

theorem portWrite_status (d : Word) (s : State) : portWrite .status d s = statusWrite d s := by
  unfold portWrite
  split <;> rfl

/-- What no command writes reads the same while BUSY = 1 (R272). -/
theorem portRead_of_not_written {r : PortReg} (h : ∀ w, showsWritten w r = false) (s : State) :
    portRead r s = readReg r s := by
  unfold portRead
  rw [h, Bool.and_false]
  rfl

theorem step_ctrlWrite (s : State) (d : Word) (rest : List Event) :
    step { s with inputs := .regWrite 0x008 .word d :: rest } =
      .next { ctrlWrite d { s with inputs := rest } with resp := .ack } := by
  rw [step_regWrite s rfl]
  exact congrArg (fun u : State => Host.Outcome.next { u with resp := .ack }) (portWrite_ctrl d _)

theorem step_statusWrite (s : State) (d : Word) (rest : List Event) :
    step { s with inputs := .regWrite 0x00C .word d :: rest } =
      .next { statusWrite d { s with inputs := rest } with resp := .ack } := by
  rw [step_regWrite s rfl]
  exact congrArg (fun u : State => Host.Outcome.next { u with resp := .ack }) (portWrite_status d _)

theorem step_cmdWrite {s : State} (hb : s.busy = false) (w : Word) (rest : List Event) :
    step { s with inputs := .regWrite 0x010 .word w :: rest } =
      .next { accept w { s with inputs := rest } with resp := .ack } := step_regWrite_idle hb rfl w rest

/-- A read of a register that no command writes and whose read draws nothing. -/
theorem step_regRead_fixed {s : State} {off : BitVec 13} (ha : aligned off .word = true)
    (hw : ∀ w, showsWritten w (portReg off) = false) {d : Word} (rest : List Event)
    (hr : readReg (portReg off) { s with inputs := rest } = (d, { s with inputs := rest })) :
    step { s with inputs := .regRead off .word :: rest } = .next { s with inputs := rest, resp := .data d } := by
  rw [step_regRead s ha, portRead_of_not_written hw, hr]

/-- Settles O5: an idle block accepts the word, a busy one drops it. -/
theorem commandWordWrite : Obligations.CommandWordWrite := by
  intro s rest w
  refine ⟨fun hb => step_cmdWrite hb w rest, fun hb => ?_, step_regRead_fixed rfl (fun _ => rfl) rest rfl⟩
  rw [step_regWrite s rfl]
  simp [portWrite, hb, portReg, lowReg]

theorem ctrlWord_eq (s : State) : ctrlWord s = if s.irqEn then 2 else 0 := by
  unfold ctrlWord
  cases s.irqEn <;> rfl

theorem ctrlWrite_of_softReset {d : Word} (h : d.getLsbD 0 = true) (s : State) : ctrlWrite d s = softReset s :=
  if_pos h

theorem ctrlWrite_of_irqEn {d : Word} (h : d.getLsbD 0 = false) (s : State) :
    ctrlWrite d s = { s with irqEn := d.getLsbD 1 } := if_neg (Bool.eq_false_iff.1 h)

/-- Settles O50: bit 0 chooses between the soft reset and a write of IRQ_EN. -/
theorem ctrlRegister : Obligations.CtrlRegister := by
  intro s rest d
  refine ⟨fun h => ?_, fun h => ⟨_, step_ctrlWrite s d rest, ?_⟩,
    step_regRead_fixed rfl (fun _ => rfl) rest (congrArg (Prod.mk · _) (ctrlWord_eq _))⟩
  · rw [step_ctrlWrite, ctrlWrite_of_irqEn h]
  · rw [ctrlWrite_of_softReset h]
    exact ⟨rfl, rfl, rfl⟩

/-- Settles O51: at any time STATUS clears by the bits of the data. -/
theorem statusWriteHolds : Obligations.StatusWrite := fun s rest d => step_statusWrite s d rest

/-! #### STATUS, OUT_LEN and BW_STATE -/

theorem toNat_append_div {m n : Nat} (x : BitVec m) (y : BitVec n) : (x ++ y).toNat / 2 ^ n = x.toNat := by
  rw [toNat_append_eq_add, mul_comm, Nat.mul_add_div (Nat.two_pow_pos n), Nat.div_eq_of_lt y.isLt, Nat.add_zero]

theorem toNat_append_mod {m n : Nat} (x : BitVec m) (y : BitVec n) : (x ++ y).toNat % 2 ^ n = y.toNat := by
  rw [toNat_append_eq_add, Nat.mul_add_mod_self_right, Nat.mod_eq_of_lt y.isLt]

/-- ERRCODE stands above the six flags and two zeros (R24). -/
theorem statusWord_errcode (s : State) : (statusWord s).toNat / 2 ^ 8 = s.errcode.toNat := by
  rw [show (2 : Nat) ^ 8 = 2 ^ 1 * 2 ^ 1 * 2 ^ 1 * 2 ^ 1 * 2 ^ 1 * 2 ^ 1 * 2 ^ 2 from rfl]
  simp only [← Nat.div_div_eq_div_mul, statusWord, toNat_append_div]
  exact (toNat_append_eq_add _ _).trans (Nat.zero_add _)

theorem getLsbD_append_flagBit_zero {n : Nat} (x : BitVec n) (b : Bool) : (x ++ flagBit b).getLsbD 0 = b := by
  rw [BitVec.getLsbD_append]
  cases b <;> rfl

theorem getLsbD_append_flagBit_succ {n : Nat} (x : BitVec n) (b : Bool) (i : Nat) :
    (x ++ flagBit b).getLsbD (i + 1) = x.getLsbD i := by
  simp [BitVec.getLsbD_append]

/-- The eight low bits of STATUS (R24). -/
theorem statusWord_flags (s : State) : (statusWord s).getLsbD 0 = s.busy ∧ (statusWord s).getLsbD 1 = s.done ∧
    (statusWord s).getLsbD 2 = s.err ∧ (statusWord s).getLsbD 3 = s.overrun ∧ (statusWord s).getLsbD 4 = s.qtValid ∧
    (statusWord s).getLsbD 5 = s.htValid ∧ (statusWord s).getLsbD 6 = false ∧ (statusWord s).getLsbD 7 = false := by
  simp only [statusWord, getLsbD_append_flagBit_zero, getLsbD_append_flagBit_succ, true_and]
  simp only [BitVec.getLsbD_append]
  exact ⟨rfl, rfl⟩

theorem bwStateWord_fields (s : State) :
    (bwStateWord s).toNat % 2 ^ 8 = s.acc.toNat ∧ (bwStateWord s).toNat / 2 ^ 8 = s.nbits.toNat := by
  unfold bwStateWord
  rw [toNat_append_mod, toNat_append_div]
  exact ⟨rfl, (toNat_append_eq_add _ _).trans (Nat.zero_add _)⟩

/-- Settles O52: the fields of the two words, and the port shows them. -/
theorem statusAndStreamReads : Obligations.StatusAndStreamReads := by
  intro s rest
  refine ⟨⟨statusWord s, step_regRead_fixed rfl (fun _ => rfl) rest rfl, ?_⟩, fun hb => ⟨?_, bwStateWord s, ?_,
    bwStateWord_fields s⟩⟩
  · obtain ⟨h0, h1, h2, h3, h4, h5, h6, h7⟩ := statusWord_flags s
    exact ⟨h0, h1, h2, h3, h4, h5, h6, h7, statusWord_errcode s⟩
  · exact step_regRead_idle hb rfl rest
  · exact step_regRead_idle hb rfl rest

/-! #### Read-only and reserved offsets (R36, R37) -/

theorem eq_of_toNat {off : BitVec 13} {n : Nat} (h : off.toNat = n) : off = BitVec.ofNat 13 n := by
  rw [← h, BitVec.ofNat_toNat, BitVec.setWidth_eq]

theorem lowReg_reserved {word : Nat} (h : 19 ≤ word) : lowReg word = .reserved := by
  obtain ⟨k, rfl⟩ := Nat.exists_eq_add_of_le' h
  rfl

theorem portReg_reserved {off : BitVec 13}
    (h : (0x04C ≤ off.toNat ∧ off.toNat ≤ 0x3FC) ∨ (0x900 ≤ off.toNat ∧ off.toNat ≤ 0xFFC)) :
    portReg off = .reserved := by
  rcases h with ⟨h1, h2⟩ | ⟨h1, h2⟩
  · rcases (by omega : off.toNat / 4 / 64 = 0 ∨ off.toNat / 4 / 64 = 1 ∨ off.toNat / 4 / 64 = 2 ∨
      off.toNat / 4 / 64 = 3) with h | h | h | h <;> simp only [portReg, h]
    exact lowReg_reserved (by omega)
  · obtain ⟨k, hk⟩ := Nat.exists_eq_add_of_le' (by omega : 9 ≤ off.toNat / 4 / 64)
    simp only [portReg, hk, if_pos (show k + 9 < 16 by omega)]

/-- Above the low registers, the offsets of QT RAM and HT RAM name their windows (R39, R41). -/
theorem portReg_tableWindow {off : BitVec 13}
    (h : (0x400 ≤ off.toNat ∧ off.toNat ≤ 0x5FC) ∨ 0x1000 ≤ off.toNat) :
    (∃ t i, portReg off = .qtWin t i) ∨ ∃ t i, portReg off = .htWin t i := by
  rcases (by omega : off.toNat / 4 / 64 = 4 ∨ off.toNat / 4 / 64 = 5 ∨ 16 ≤ off.toNat / 4 / 64) with h | h | h
  · exact .inl ⟨.luma, Fin.ofNat 64 (off.toNat / 4), by simp only [portReg, h]⟩
  · exact .inl ⟨.chroma, Fin.ofNat 64 (off.toNat / 4), by simp only [portReg, h]⟩
  · obtain ⟨k, hk⟩ := Nat.exists_eq_add_of_le' h
    simp only [portReg, hk, if_neg (show ¬ k + 16 < 16 by omega)]
    exact .inr ⟨_, _, rfl⟩

/-- A write that an idle block ignores. -/
theorem step_regWrite_ignored {s : State} (hb : s.busy = false) {off : BitVec 13} (ha : aligned off .word = true)
    {d : Word} {rest : List Event} (h : writeReg (portReg off) d { s with inputs := rest } = { s with inputs := rest }) :
    step { s with inputs := .regWrite off .word d :: rest } = .next { s with inputs := rest, resp := .ack } := by
  rw [step_regWrite_idle hb ha, h]

theorem writeReg_readOnly {off : BitVec 13} (h : off.toNat = 0x000 ∨ off.toNat = 0x004 ∨ off.toNat = 0x038 ∨
    off.toNat = 0x03C ∨ (0x400 ≤ off.toNat ∧ off.toNat ≤ 0x5FC) ∨ 0x1000 ≤ off.toNat) (d : Word) (s : State) :
    writeReg (portReg off) d s = s := by
  rcases h with h | h | h | h | h
  · rw [eq_of_toNat h]; rfl
  · rw [eq_of_toNat h]; rfl
  · rw [eq_of_toNat h]; rfl
  · rw [eq_of_toNat h]; rfl
  · rcases portReg_tableWindow h with ⟨t, i, hr⟩ | ⟨t, i, hr⟩ <;> rw [hr] <;> rfl

/-- Settles O56: these offsets name registers that a write leaves alone. -/
theorem readOnlyWritesIgnored : Obligations.ReadOnlyWritesIgnored := by
  intro s rest
  refine ⟨step_regRead_fixed rfl (fun _ => rfl) rest rfl, step_regRead_fixed rfl (fun _ => rfl) rest rfl,
    fun off d h4 => ⟨fun h hb => ?_, fun h => ?_⟩, fun d => ⟨_, step_statusWrite s d rest, rfl, rfl, rfl⟩⟩
  · have ha : aligned off .word = true := decide_eq_true ⟨rfl, h4⟩
    rcases h with h | h
    · exact step_regWrite_ignored hb ha (by rw [portReg_reserved h]; rfl)
    · exact step_regWrite_ignored hb ha (writeReg_readOnly h d _)
  · have ha : aligned off .word = true := decide_eq_true ⟨rfl, h4⟩
    exact step_regRead_fixed ha (fun _ => by rw [portReg_reserved h]; rfl) rest (by rw [portReg_reserved h]; rfl)

/-! #### Read-write registers (R27 to R32, R35) -/

/-- The offsets of the parameter registers (R27 to R32). -/
def paramOffsets : List (BitVec 13) := [0x014, 0x018, 0x01C, 0x020, 0x024, 0x028, 0x02C, 0x030, 0x034]

/-- The parameters with the register at an offset replaced. -/
def setParam (off : Nat) (d : Word) (p : Params) : Params where
  arg0 := if off = 0x014 then d else p.arg0
  origin := if off = 0x018 then d else p.origin
  width := if off = 0x01C then d else p.width
  height := if off = 0x020 then d else p.height
  quality := if off = 0x024 then d else p.quality
  srcAddr := if off = 0x028 then d else p.srcAddr
  srcLen := if off = 0x02C then d else p.srcLen
  dstAddr := if off = 0x030 then d else p.dstAddr
  dstCap := if off = 0x034 then d else p.dstCap

theorem mem_paramOffsets {p : Params} {off : BitVec 13} (h : (paramAt p off.toNat).isSome = true) :
    off ∈ paramOffsets := by
  have hn : off.toNat ∈ paramOffsets.map BitVec.toNat := by
    unfold paramAt at h
    split at h
    pick_goal 10
    · cases h
    all_goals
      rw [‹off.toNat = _›]
      decide
  obtain ⟨o, ho, he⟩ := List.mem_map.1 hn
  exact BitVec.eq_of_toNat_eq he ▸ ho

theorem paramAt_setParam_other (p : Params) (d : Word) {n o : Nat} (h : o ≠ n) :
    paramAt (setParam n d p) o = paramAt p o := by
  unfold paramAt
  split <;> simp only [setParam, if_neg h.symm]

theorem aligned_param {off : BitVec 13} (h : off ∈ paramOffsets) : aligned off .word = true := by
  revert off
  simp only [paramOffsets, List.forall_mem_cons]
  exact ⟨rfl, rfl, rfl, rfl, rfl, rfl, rfl, rfl, rfl, fun _ h => nomatch h⟩

section
variable {off : BitVec 13} (h : off ∈ paramOffsets) (d : Word)
include h

theorem paramAt_setParam_same (p : Params) : paramAt (setParam off.toNat d p) off.toNat = some d := by
  revert off
  simp only [paramOffsets, List.forall_mem_cons]
  exact ⟨rfl, rfl, rfl, rfl, rfl, rfl, rfl, rfl, rfl, fun _ h => nomatch h⟩

theorem writeReg_param (s : State) :
    writeReg (portReg off) d s = { s with regs := setParam off.toNat d s.regs } := by
  revert off
  simp only [paramOffsets, List.forall_mem_cons]
  exact ⟨rfl, rfl, rfl, rfl, rfl, rfl, rfl, rfl, rfl, fun _ h => nomatch h⟩

theorem readReg_param (s : State) :
    readReg (portReg off) { s with regs := setParam off.toNat d s.regs } =
      (d, { s with regs := setParam off.toNat d s.regs }) := by
  revert off
  simp only [paramOffsets, List.forall_mem_cons]
  exact ⟨rfl, rfl, rfl, rfl, rfl, rfl, rfl, rfl, rfl, fun _ h => nomatch h⟩

end

/-- The offset of a predictor (R35). -/
def predOffset : Channel → BitVec 13
  | .y => 0x040
  | .cb => 0x044
  | .cr => 0x048

theorem portReg_predOffset (ch : Channel) : portReg (predOffset ch) = .pred ch := by cases ch <;> rfl

theorem aligned_predOffset (ch : Channel) : aligned (predOffset ch) .word = true := by cases ch <;> rfl

/-- Settles O55: the offsets of the read-write registers name them, and a read shows what was stored. -/
theorem registerReadBack : Obligations.RegisterReadBack := by
  intro s rest d hb
  refine ⟨fun off hoff => ?_, fun ch off hoff => ?_⟩
  · have h := mem_paramOffsets hoff
    have ha := aligned_param h
    refine ⟨{ s with
      inputs := .regRead off .word :: rest, resp := .ack, regs := setParam off.toNat d s.regs }, ?_, rfl,
      paramAt_setParam_same h d s.regs, fun o ho => paramAt_setParam_other s.regs d ho, ?_⟩
    · rw [step_regWrite_idle hb ha, writeReg_param h]
    · refine (step_regRead_idle (s := { s with resp := .ack, regs := setParam off.toNat d s.regs }) hb ha rest).trans ?_
      have := readReg_param h d { s with inputs := rest, resp := .ack }
      dsimp only at this ⊢
      rw [this]
  · obtain rfl : off = predOffset ch := by cases ch <;> exact hoff
    have ha := aligned_predOffset ch
    refine ⟨{ s with inputs := .regRead (predOffset ch) .word :: rest, resp := .ack, pred := s.pred.set ch d }, ?_, rfl,
      Preds.get_set_same _ _ _, fun c hc => Preds.get_set_other _ _ hc, ?_⟩
    · rw [step_regWrite_idle hb ha, portReg_predOffset]
      rfl
    · refine (step_regRead_idle (s := { s with resp := .ack, pred := s.pred.set ch d }) hb ha rest).trans ?_
      rw [portReg_predOffset]
      simp only [readReg, Preds.get_set_same]

end Sys2Proof.Machine

/-! ### The interrupt output (10_state.md R52; 60_exceptions.md R240) -/

namespace Sys2Proof.Machine

theorem irq_eq_true {s : State} : irq s = true ↔ s.irqEn = true ∧ (s.done = true ∨ s.err = true) := by
  simp [irq]

theorem irq_of_disabled {s : State} (h : s.irqEn = false) : irq s = false := by simp [irq, h]

/-- A completed command with IRQ_EN = 1 raises the output. -/
theorem irq_of_done {s : State} (he : s.irqEn = true) (hd : s.done = true) : irq s = true := by simp [irq, he, hd]

/-! #### The offsets of the registers that it depends on -/

theorem lowReg_eq {word : Nat} {r : PortReg} (h : lowReg word = r) :
    (r = .ctrl → word = 2) ∧ (r = .status → word = 3) ∧ (r = .cmd → word = 4) := by
  subst h
  unfold lowReg
  split <;> simp

/-- CTRL, STATUS and CMD stand at the offsets that R21 gives them, and nowhere else. -/
theorem portReg_eq {off : BitVec 13} (ha : aligned off .word = true) {r : PortReg} (h : portReg off = r) :
    (r = .ctrl → off = 0x008) ∧ (r = .status → off = 0x00C) ∧ (r = .cmd → off = 0x010) := by
  have h4 : off.toNat % 4 = 0 := (of_decide_eq_true ha).2
  unfold portReg at h
  dsimp only at h
  split at h
  · obtain ⟨hctrl, hstatus, hcmd⟩ := lowReg_eq h
    refine ⟨fun hr => eq_of_toNat (n := 0x008) ?_, fun hr => eq_of_toNat (n := 0x00C) ?_,
      fun hr => eq_of_toNat (n := 0x010) ?_⟩
    · have := hctrl hr
      omega
    · have := hstatus hr
      omega
    · have := hcmd hr
      omega
  all_goals (subst h; simp)
  split <;> simp

/-! #### What a write does to it -/

section
variable {r : PortReg} {d : Word} {s t : State}

theorem irq_statusWrite_le (d : Word) {s : State} (h : irq (statusWrite d s) = true) : irq s = true := by
  obtain ⟨he, hf⟩ := irq_eq_true.1 h
  refine irq_eq_true.2 ⟨he, hf.imp (fun hd => ?_) fun hd => ?_⟩
  · rw [statusWrite_done] at hd
    split at hd
    · cases hd
    · exact hd
  · rw [statusWrite_err] at hd
    split at hd
    · cases hd
    · exact hd

/-- Only a write of IRQ_EN = 1 raises the output. -/
theorem PortEffect.irq_rises (h : PortEffect r d s t) (hs : irq s = false) (ht : irq t = true) :
    r = .ctrl ∧ d.getLsbD 0 = false ∧ d.getLsbD 1 = true := by
  cases h with
  | ctrl hr =>
    cases h0 : d.getLsbD 0 with
    | true =>
      rw [ctrlWrite_of_softReset h0] at ht
      cases ht
    | false =>
      rw [ctrlWrite_of_irqEn h0] at ht
      exact ⟨hr, rfl, (irq_eq_true.1 ht).1⟩
  | status => exact nomatch hs.symm.trans (irq_statusWrite_le d ht)
  | accepted => exact nomatch (irq_eq_true.1 ht).2
  | _ => exact nomatch hs.symm.trans ht

/-- Only a write that clears DONE, ERR or IRQ_EN, an accepted command or a soft reset lets it fall. -/
theorem PortEffect.irq_falls (h : PortEffect r d s t) (hs : irq s = true) (ht : irq t = false) :
    (r = .status ∧ (d.getLsbD 1 = true ∨ d.getLsbD 2 = true)) ∨ (r = .cmd ∧ s.busy = false) ∨
      (r = .ctrl ∧ (d.getLsbD 0 = true ∨ d.getLsbD 1 = false)) := by
  cases h with
  | ctrl hr =>
    refine .inr (.inr ⟨hr, ?_⟩)
    by_contra hd
    obtain ⟨h0, h1⟩ := not_or.1 hd
    rw [ctrlWrite_of_irqEn (Bool.eq_false_iff.2 h0)] at ht
    exact nomatch ht.symm.trans (irq_eq_true.2 ⟨Bool.not_eq_false _ ▸ h1, (irq_eq_true.1 hs).2⟩)
  | status hr =>
    refine .inl ⟨hr, ?_⟩
    by_contra hd
    obtain ⟨h1, h2⟩ := not_or.1 hd
    have hkeep : irq (statusWrite d s) = irq s := by
      simp only [irq, statusWrite_irqEn, statusWrite_done, statusWrite_err, if_neg h1, if_neg h2]
    exact nomatch ht.symm.trans (hkeep.trans hs)
  | accepted hr hb => exact .inr (.inl ⟨hr, hb⟩)
  | _ => exact nomatch ht.symm.trans hs

end

/-! #### What the core's turn does to it -/

/-- A pending command completes at the core's turn (R234), whether its word decodes or not. -/
theorem coreTurn_completes {s : State} (hp : s.pending.isSome = true) :
    ∃ t, coreTurn s = .next t ∧ t.done = true ∧ t.irqEn = s.irqEn := by
  obtain ⟨p, hp⟩ := Option.isSome_iff_exists.1 hp
  cases hd : decode p.word with
  | ok i =>
    obtain ⟨t, ht, _, hdone, _⟩ := everyCommandCompletes i s
    obtain ⟨_, _, hirq, _⟩ := exec_control ht
    exact ⟨t, (coreTurn_of_decode hp hd).trans ht, hdone, hirq⟩
  | error c => exact ⟨finish (.raise c s), by simp only [coreTurn, hp, hd], rfl, rfl⟩

/-- Where the core moves, the step is its turn on the inputs that are left. -/
theorem step_of_coreMoves {s : State} (h : CoreMoves s) (hp : s.pending.isSome = true) :
    ∃ inputs, step s = coreTurn { s with inputs := inputs } := by
  rcases h with h | ⟨rest, h⟩ | ⟨hb, rest, h⟩
  · exact ⟨s.inputs, step_of_no_inputs h⟩
  · have hstep := step_core s rest
    rw [← h] at hstep
    exact ⟨rest, hstep⟩
  · have hstep := step_wait_busy rest hb hp
    rw [← h] at hstep
    exact ⟨s.inputs, hstep⟩

/-- A completion never lets the output fall. -/
theorem irq_exec {i : Instr} {s t : State} (h : exec i s = .next t) (hs : irq s = true) : irq t = true := by
  obtain ⟨_, _, hirq, _⟩ := exec_control h
  exact irq_of_done (hirq.trans (irq_eq_true.1 hs).1) (exec_completedFrom h).done

/-- Settles O53: the formula, then what each kind of step does to the three flags in it. -/
theorem interruptOutput : Obligations.InterruptOutput := by
  refine ⟨fun s => irq_eq_true, fun s rest d => ⟨fun h1 h2 => ⟨_, step_statusWrite s d rest, ?_⟩,
    fun hb => ⟨_, step_cmdWrite hb d rest, ?_⟩, ⟨_, rfl, irq_of_disabled rfl⟩, fun h0 => ⟨_, step_ctrlWrite s d rest, ?_⟩,
    fun hd h0 h1 => ⟨_, step_ctrlWrite s d rest, ?_⟩⟩, fun s hm hp he => ?_, fun s t h => ⟨fun hs ht => ?_, fun hs ht => ?_⟩⟩
  · simp [irq, h1, h2]
  · simp [irq]
  · rw [ctrlWrite_of_softReset h0]
    exact irq_of_disabled rfl
  · rw [ctrlWrite_of_irqEn h0]
    exact irq_of_done h1 hd
  · obtain ⟨inputs, hstep⟩ := step_of_coreMoves hm hp
    obtain ⟨t, ht, hdone, hirq⟩ := coreTurn_completes (s := { s with inputs := inputs }) hp
    exact ⟨t, hstep.trans ht, irq_of_done (hirq.trans he) hdone⟩
  · cases step_stepTo h with
    | bookkeeping | memory => exact nomatch hs.symm.trans ht
    | @port off d rest hin ha =>
      obtain ⟨hr, h0, h1⟩ := (portWrite_effect (portReg off) d { s with inputs := rest }).irq_rises hs ht
      obtain rfl := (portReg_eq ha rfl).1 hr
      exact .inr ⟨d, by rw [hin]; rfl, h0, h1⟩
    | hardReset => cases ht
    | command inputs hm hp => exact .inl ⟨hm, by rw [hp]; rfl⟩
    | illegal inputs hm hp => exact .inl ⟨hm, by rw [hp]; rfl⟩
  · cases step_stepTo h with
    | bookkeeping | memory => exact nomatch ht.symm.trans hs
    | @port off d rest hin ha =>
      have hhead : s.inputs.head? = some (.regWrite off .word d) := by rw [hin]; rfl
      obtain ⟨hctrl, hstatus, hcmd⟩ := portReg_eq ha rfl
      refine .inr ⟨d, ?_⟩
      rcases (portWrite_effect (portReg off) d { s with inputs := rest }).irq_falls hs ht with
        ⟨hr, hd⟩ | ⟨hr, hb⟩ | ⟨hr, hd⟩
      · exact .inl ⟨hstatus hr ▸ hhead, hd⟩
      · exact .inr (.inl ⟨hcmd hr ▸ hhead, hb⟩)
      · exact .inr (.inr ⟨hctrl hr ▸ hhead, hd⟩)
    | hardReset hin => exact .inl (by rw [hin]; rfl)
    | command inputs _ _ _ hexec => exact nomatch ht.symm.trans (irq_exec hexec hs)
    | illegal => exact nomatch ht.symm.trans (irq_of_done (irq_eq_true.1 hs).1 rfl)

end Sys2Proof.Machine

/-! ### The host's accesses to memory (20_memory.md R70, R74; 70_reset_and_hazards.md R270) -/

namespace Sys2Proof.Machine

theorem step_memWrite (s : State) (a : Word) (b : Byte) (rest : List Event) :
    step { s with inputs := .memWrite a b :: rest } = memWriteAccess a b { s with inputs := rest } := rfl

theorem step_memRead (s : State) (a : Word) (rest : List Event) :
    step { s with inputs := .memRead a :: rest } = memReadAccess a { s with inputs := rest } := rfl

theorem inOutputRegion_iff (s : State) (a : Nat) : inOutputRegion s a = true ↔
    s.busy = true ∧ (latched s).dstAddr.toNat ≤ a ∧ a < (latched s).dstAddr.toNat + (latched s).dstCap.toNat := by
  simp [inOutputRegion, inRegion]

theorem inPixelRegion_iff (s : State) (a : Nat) : inPixelRegion s a = true ↔
    s.busy = true ∧ (latched s).srcAddr.toNat ≤ a ∧ a < (latched s).srcAddr.toNat + (latched s).srcLen.toNat := by
  simp [inPixelRegion, inRegion]

section
variable {s : State} {a : Word}

theorem memAccess_refused (b : Byte) (h : inOutputRegion s a.toNat = true) :
    memWriteAccess a b s = .refused .outputRegionAccessedWhileBusy ∧
      memReadAccess a s = .refused .outputRegionAccessedWhileBusy := ⟨if_pos h, if_pos h⟩

theorem memWriteAccess_changesPixels {b : Byte} (hp : inPixelRegion s a.toNat = true) (hb : b ≠ readByte s a.toNat) :
    ∃ r, memWriteAccess a b s = .refused r := by
  unfold memWriteAccess
  split
  · exact ⟨_, rfl⟩
  · rw [hp, decide_eq_true hb]
    exact ⟨_, rfl⟩

theorem memReadAccess_outside (h : ¬ inOutputRegion s a.toNat = true) :
    memReadAccess a s = .next { s with resp := .memData (readByte s a.toNat) } := if_neg h

theorem memWriteAccess_outside {b : Byte} (h : ¬ inOutputRegion s a.toNat = true)
    (hp : ¬ (inPixelRegion s a.toNat = true ∧ b ≠ readByte s a.toNat)) :
    memWriteAccess a b s = .next { storeByte a.toNat b s with resp := .ack } := by
  unfold memWriteAccess
  rw [if_neg h, if_neg]
  rwa [Bool.and_eq_true, decide_eq_true_iff]

end

theorem stored_storeByte (a : Nat) (b : Byte) (s : State) : Stored a [b] s (storeByte a b s) := by
  refine ⟨fun ⟨k, hk⟩ => ?_, fun x hx => ?_⟩
  · obtain rfl : k = 0 := Nat.lt_one_iff.1 hk
    simp [readByte_storeByte]
  · rw [List.length_singleton] at hx
    rw [readByte_storeByte, if_neg (by omega)]

/-- Settles O60: the step is the access, and the two regions decide whether it has a move. -/
theorem hostMemoryAccess : Obligations.HostMemoryAccess := by
  intro s rest a b
  have hout := inOutputRegion_iff { s with inputs := rest } a.toNat
  have hpix := inPixelRegion_iff { s with inputs := rest } a.toNat
  refine ⟨fun h => ?_, fun ⟨hb, h1, h2, hne⟩ => ?_, fun h => ?_, fun h hp => ?_⟩
  · obtain ⟨hw, hr⟩ := memAccess_refused b (hout.2 h)
    exact ⟨⟨_, hw⟩, _, hr⟩
  · exact memWriteAccess_changesPixels (hpix.2 ⟨hb, h1, h2⟩) hne
  · exact memReadAccess_outside (mt hout.1 h)
  · refine ⟨_, memWriteAccess_outside (mt hout.1 h) fun ⟨hin, hne⟩ => hp ?_, rfl, ?_⟩
    · obtain ⟨hb, h1, h2⟩ := hpix.1 hin
      exact ⟨hb, h1, h2, hne⟩
    · exact stored_storeByte a.toNat b { s with inputs := rest }

end Sys2Proof.Machine

/-! ### Memory outside the output region (20_memory.md R60, R62, R68) -/

namespace Sys2Proof.Machine

/-- A code that a validation check raises (R233): what is raised with it, the command leaves as it was (R235). -/
def ErrCode.IsCheck (c : ErrCode) : Prop :=
  c ≠ .outOverflow ∧ c ≠ .busError ∧ c ≠ .symbolUndefined ∧ c ≠ .coefRange

/-- The result is that of a body turned away in `s` by a check. -/
def Res.Rejects (s : State) (r : Res) : Prop := ∃ c, ErrCode.IsCheck c ∧ r = .raise c s

theorem check_rejects {bad : Bool} {c : ErrCode} (hc : ErrCode.IsCheck c) {next : State → Res} {s : State}
    (h : bad = true ∨ (next s).Rejects s) : (check bad c next s).Rejects s := by
  cases bad with
  | true => exact ⟨c, hc, rfl⟩
  | false => exact h.resolve_left Bool.false_ne_true

/-- An emitting command with an output region beyond the end of the address space does not start (R68, R233). -/
theorem bodyOf_rejects {i : Instr} (he : emits i = true) {p : Params} (hp : dstRegionBad p = true) (s : State) :
    (bodyOf i p s).Rejects s := by
  have hregion (next : State → Res) : (check (dstRegionBad p) .badRegion next s).Rejects s :=
    check_rejects (by unfold ErrCode.IsCheck; decide) (.inl hp)
  have hcheck {bad : Bool} {c : ErrCode} {next : State → Res} (h : (next s).Rejects s)
      (hc : ErrCode.IsCheck c := by unfold ErrCode.IsCheck; decide) : (check bad c next s).Rejects s :=
    check_rejects hc (.inr h)
  cases i with
  | pushBits | flush => exact hregion _
  | entropy | writeEoi => exact hcheck (hregion _)
  | writeHeaders => exact hcheck (hcheck (hcheck (hregion _)))
  | encode => exact hcheck (hcheck (hcheck (hcheck (hregion _))))
  | _ => cases he

/-- A command turned away by a check leaves memory as it was. -/
theorem exec_mem_of_rejects {i : Instr} {s t : State} (h : exec i s = .next t) (hr : (bodyOf i (latched s) s).Rejects s) :
    t.mem = s.mem := by
  obtain ⟨c, ⟨h1, h2, h3, h4⟩, hbody⟩ := hr
  rw [exec_eq_runCommand, runCommand_reject hbody h1 h2 (.inr ⟨h3, h4⟩)] at h
  obtain rfl := Host.Outcome.next.inj h
  rfl

/-- A move writes memory in the output region only. -/
theorem Move.readByte_outside {w : Writes} {p : Params} (hp : dstRegionBad p = false) {a : Nat}
    (ha : ¬ (p.dstAddr.toNat ≤ a ∧ a < p.dstAddr.toNat + p.dstCap.toNat)) {s t : State} (h : Move w p s t) :
    readByte t a = readByte s a := by
  cases h with
  | byte b _ room =>
    have haddr := outAddr_toNat hp room
    refine (readByte_congr (s := storeByte (outAddr p s.outLen) b s) rfl a).trans ?_
    rw [readByte_storeByte, if_neg (by omega)]
  | _ => rfl

/-- Settles O43: an output region beyond the address space lets no command emit; in any other every byte emitted or drawn
free has its address. -/
theorem onlyOutputRegionWritten : Obligations.OnlyOutputRegionWritten := by
  intro i s t h a ha
  cases he : emits i with
  | false => exact readByte_congr (exec_mem_of_not_emits h he) a
  | true =>
    cases hp : dstRegionBad (latched s) with
    | true => exact readByte_congr (exec_mem_of_rejects h (bodyOf_rejects he hp s)) a
    | false =>
      refine exec_frame (f := fun u => readByte u a) h (fun _ _ => Move.readByte_outside hp ha) (fun _ u => ?_)
        (fun u => readByte_spoilBusError _ u (by omega)) fun r => by cases r <;> rfl
      rw [spoilOverflow_eq]
      rfl

end Sys2Proof.Machine

/-! ### Two runs that differ in what is outside the block: system memory and the platform's countdown (20_memory.md R60, R69) -/

namespace Sys2Proof.Machine

/-- The block `s` with another memory and another countdown. -/
def State.onPlatform (s : State) (m : Memory) (b : Option Nat) : State := { s with mem := m, busErrIn := b }

/-- How the platforms of two runs are related: memory and countdown of the one, then of the other. -/
abbrev PlatformRel := Memory → Option Nat → Memory → Option Nat → Prop

/-- Two states of one block on related platforms. -/
inductive Coupled (P : PlatformRel) (s : State) : State → Prop where
  | mk {m : Memory} {b : Option Nat} (h : P s.mem s.busErrIn m b) : Coupled P s (s.onPlatform m b)

/-- The two runs of a body end alike, in coupled states; or, where `E` allows it, the second fails on the bus. -/
inductive Res.Coupled (P : PlatformRel) (E : Prop) : Res → Res → Prop where
  | ok {s s' : State} (h : Machine.Coupled P s s') : Res.Coupled P E (.ok s) (.ok s')
  | raise {s s' : State} (c : ErrCode) (h : Machine.Coupled P s s') : Res.Coupled P E (.raise c s) (.raise c s')
  | uninit {s s' : State} (h : Machine.Coupled P s s') : Res.Coupled P E (.uninit s) (.uninit s')
  | busFails {r : Res} {s' : State} (hE : E) (hb : s'.busErrIn = none) : Res.Coupled P E r (.raise .busError s')

/-- A body that couples its two runs. -/
def Couples (P : PlatformRel) (E : Prop) (f : State → Res) : Prop := ∀ s s', Coupled P s s' → (f s).Coupled P E (f s')

/-- What the accesses of the memory master need of the relation. -/
structure PlatformRel.Lawful (P : PlatformRel) (E : Prop) : Prop where
  store : ∀ {m m' : Memory} {b b' : Option Nat} (a : Nat) (v : Byte), P m b m' b' → P (m.put a v) b (m'.put a v) b'
  access : ∀ n, Couples P E (busAccess n)

variable {P : PlatformRel} {E : Prop}

theorem Res.Coupled.bind {r r' : Res} {f : State → Res} (h : r.Coupled P E r') (hf : Couples P E f) :
    (r.bind f).Coupled P E (r'.bind f) := by
  cases h with
  | ok h => exact hf _ _ h
  | raise c h => exact .raise c h
  | uninit h => exact .uninit h
  | busFails hE hb => exact .busFails hE hb

theorem Couples.check {next : State → Res} {bad : Bool} (h : bad = false → Couples P E next) (c : ErrCode) :
    Couples P E (check bad c next) := by
  intro s s' hs
  cases bad with
  | true => exact .raise c hs
  | false => exact h rfl s s' hs

theorem Res.Coupled.ite {c : Prop} [Decidable c] {r₁ r₂ r₁' r₂' : Res} (h₁ : r₁.Coupled P E r₁') (h₂ : r₂.Coupled P E r₂') :
    (if c then r₁ else r₂).Coupled P E (if c then r₁' else r₂') := by
  split
  · exact h₁
  · exact h₂

theorem Couples.forEach {α : Type} {f : α → State → Res} (h : ∀ x, Couples P E (f x)) (xs : List α) :
    Couples P E (forEach f xs) := by
  induction xs with
  | nil => exact fun _ _ hs => .ok hs
  | cons x xs ih => exact fun s s' hs => (h x s s' hs).bind ih

/-! #### Bodies that make no access -/

theorem nopBody_couples : Couples P E nopBody := fun _ _ hs => .ok hs

theorem resetStreamBody_couples : Couples P E resetStreamBody := by
  rintro s _ ⟨h⟩
  exact .ok ⟨h⟩

theorem qtScaleBody_couples (p : Params) : Couples P E (qtScaleBody p) := by
  rintro s _ ⟨h⟩
  exact .ok ⟨h⟩

theorem huffBuildBody_couples : Couples P E huffBuildBody := by
  rintro s _ ⟨h⟩
  exact .ok ⟨h⟩

theorem fdctBody_couples : Couples P E fdctBody := by
  rintro s _ ⟨h⟩
  dsimp only [fdctBody, State.onPlatform]
  cases allWritten s.blk with
  | none => exact .uninit ⟨h⟩
  | some f => exact .ok ⟨h⟩

theorem zigzagBody_couples : Couples P E zigzagBody := by
  rintro s _ ⟨h⟩
  dsimp only [zigzagBody, State.onPlatform]
  cases allWritten s.qblk with
  | none => exact .uninit ⟨h⟩
  | some q => exact .ok ⟨h⟩

theorem quantBody_couples (tbl : QTable) : Couples P E (quantBody tbl) := by
  rintro s _ ⟨h⟩
  have hqt (m b) : (s.onPlatform m b).qt tbl = s.qt tbl := by cases tbl <;> rfl
  unfold quantBody
  rw [hqt]
  dsimp only [State.onPlatform]
  cases allWritten s.blk <;> cases allWritten (s.qt tbl) <;> dsimp only
  case some.some b q => exact .ite (.raise _ ⟨h⟩) (.ok ⟨h⟩)
  all_goals exact .uninit ⟨h⟩

/-! #### Emission -/

section
variable (hP : P.Lawful E) (p : Params)
include hP

theorem emitRaw_couples (b : Byte) : Couples P E (emitRaw p b) := by
  rintro s _ ⟨h⟩
  refine .ite (.raise _ ⟨h⟩) ((hP.access 1 s _ ⟨h⟩).bind ?_)
  rintro t _ ⟨ht⟩
  exact .ok ⟨hP.store _ b ht⟩

theorem emitStuffed_couples (b : Byte) : Couples P E (emitStuffed p b) := by
  intro s s' hs
  rw [emitStuffed_eq, emitStuffed_eq]
  exact Couples.forEach (emitRaw_couples hP p) _ s s' hs

theorem pushBit_couples (x : Bool) : Couples P E (pushBit p x) := by
  rintro s _ ⟨h⟩
  exact .ite (emitStuffed_couples hP p _ (withBits 0 0 s) _ ⟨h⟩) (.ok ⟨h⟩)

theorem pushBits_couples (v n : Nat) : Couples P E (pushBits p v n) := by
  intro s s' hs
  rw [pushBits_eq, pushBits_eq]
  exact Couples.forEach (pushBit_couples hP p) _ s s' hs

theorem flushBody_couples : Couples P E (flushBody p) := by
  rintro s _ ⟨h⟩
  exact .ite (.ok ⟨h⟩) (emitStuffed_couples hP p _ (withBits 0 0 s) _ ⟨h⟩)

theorem writeHeadersBody_couples : Couples P E (writeHeadersBody p) := by
  rintro s _ ⟨h⟩
  dsimp only [writeHeadersBody, State.onPlatform]
  cases allWritten s.qt0 <;> cases allWritten s.qt1
  case some.some => exact Couples.forEach (emitRaw_couples hP p) _ _ _ ⟨h⟩
  all_goals exact .uninit ⟨h⟩

theorem writeEoiBody_couples : Couples P E (writeEoiBody p) := Couples.forEach (emitRaw_couples hP p) _

omit hP in
theorem lookupAll_onPlatform (s : State) (m : Memory) (b : Option Nat) (items : List Item) :
    lookupAll (s.onPlatform m b) items = lookupAll s items := by
  have hone (i : Item) : lookup (s.onPlatform m b) i = lookup s i := by
    unfold lookup
    rw [show (s.onPlatform m b).ht i.table = s.ht i.table by cases i.table <;> rfl]
  induction items with
  | nil => rfl
  | cons i items ih => rw [lookupAll, lookupAll, hone, ih]

theorem entropyBody_couples (ch : Channel) : Couples P E (entropyBody p ch) := by
  rintro s _ @⟨m, b, h⟩
  unfold entropyBody
  rw [show (s.onPlatform m b).zz = s.zz from rfl]
  cases allWritten s.zz with
  | none => exact .uninit ⟨h⟩
  | some z =>
    dsimp only
    rw [lookupAll_onPlatform, show entropyItems ch z (s.onPlatform m b) = entropyItems ch z s from rfl]
    cases lookupAll s (entropyItems ch z s) with
    | undefined => exact .raise _ ⟨h⟩
    | unwritten => exact .uninit ⟨h⟩
    | coded cs =>
      refine (Couples.forEach (fun c t t' ht => ?_) cs _ _ ⟨h⟩).bind ?_
      · exact (pushBits_couples hP p _ _ t t' ht).bind (pushBits_couples hP p _ _)
      · rintro t _ ⟨ht⟩
        exact .ok ⟨ht⟩

/-! #### SAMPLE and ENCODE: where the two memories show the same pixels -/

/-- Coupled states show the same blocks of samples. -/
def PlatformRel.SamePixels (P : PlatformRel) (p : Params) : Prop :=
  ∀ s s', Coupled P s s' → ∀ ch bx byy, sampleBlock p ch bx byy s' = sampleBlock p ch bx byy s

variable {p} (hpix : P.SamePixels p)
include hpix

theorem sampleBody_couples (ch : Channel) (bx byy : Nat) : Couples P E (sampleBody p ch bx byy) := by
  intro s s' hs
  refine (hP.access 192 s s' hs).bind fun t t' ht => ?_
  rw [hpix t t' ht ch bx byy]
  obtain ⟨h⟩ := ht
  exact .ok ⟨h⟩

theorem encodeChannel_couples (bx byy : Nat) (ch : Channel) : Couples P E (encodeChannel p bx byy ch) := by
  rintro s _ ⟨h⟩
  let t : State := { s with encPos := some ⟨BitVec.ofNat 16 bx, BitVec.ofNat 16 byy, ch⟩ }
  exact ((((sampleBody_couples hP hpix ch bx byy t _ ⟨h⟩).bind fdctBody_couples).bind (quantBody_couples _)).bind
    zigzagBody_couples).bind (entropyBody_couples hP p ch)

theorem encodeMcu_couples (o : Nat × Nat) : Couples P E (encodeMcu p o) :=
  Couples.forEach (encodeChannel_couples hP hpix o.1 o.2) _

theorem encodeBody_couples : Couples P E (encodeBody p) := by
  intro s s' hs
  exact ((((((resetStreamBody_couples s s' hs).bind (qtScaleBody_couples p)).bind huffBuildBody_couples).bind
    (writeHeadersBody_couples hP p)).bind (Couples.forEach (encodeMcu_couples hP hpix) _)).bind
      (flushBody_couples hP p)).bind (writeEoiBody_couples hP p)

end

/-! #### Every command -/

/-- The checks of R213 after which SAMPLE and ENCODE read the pixel region. -/
structure Params.PixelsFit (p : Params) : Prop where
  dimensions : dimensionsBad p = false
  srcLen : srcLenBad p = false
  srcRegion : srcRegionBad p = false

theorem bodyOf_couples (hP : P.Lawful E) {i : Instr} {p : Params}
    (hpix : i = .encode ∨ (∃ ch, i = .sample ch) → p.PixelsFit → P.SamePixels p) : Couples P E (bodyOf i p) := by
  cases i with
  | nop => exact nopBody_couples
  | qtScale => exact .check (fun _ => qtScaleBody_couples p) _
  | huffBuild => exact huffBuildBody_couples
  | resetStream => exact resetStreamBody_couples
  | pushBits n => exact .check (fun _ => pushBits_couples hP p _ _) _
  | flush => exact .check (fun _ => flushBody_couples hP p) _
  | fdct => exact fdctBody_couples
  | sample ch =>
    exact .check (fun hdim => .check (fun hlen => .check (fun hsrc =>
      sampleBody_couples hP (hpix (.inr ⟨ch, rfl⟩) ⟨hdim, hlen, hsrc⟩) ch _ _) _) _) _
  | quant tbl =>
    rintro s _ ⟨h⟩
    exact Couples.check (fun _ => quantBody_couples tbl) _ s _ ⟨h⟩
  | zigzag => exact zigzagBody_couples
  | entropy ch =>
    rintro s _ ⟨h⟩
    exact Couples.check (fun _ => .check (fun _ => entropyBody_couples hP p ch) _) _ s _ ⟨h⟩
  | writeHeaders =>
    rintro s _ ⟨h⟩
    exact Couples.check (fun _ => .check (fun _ => .check (fun _ => .check (fun _ =>
      writeHeadersBody_couples hP p) _) _) _) _ s _ ⟨h⟩
  | writeEoi =>
    rintro s _ ⟨h⟩
    exact Couples.check (fun _ => .check (fun _ => writeEoiBody_couples hP p) _) _ s _ ⟨h⟩
  | encode =>
    exact .check (fun hdim => .check (fun hlen => .check (fun _ => .check (fun hsrc => .check (fun _ => .check (fun _ =>
      encodeBody_couples hP (hpix (.inl rfl) ⟨hdim, hlen, hsrc⟩)) _) _) _) _) _) _

end Sys2Proof.Machine

/-! #### What an error leaves, and completion -/

namespace Sys2Proof.Machine

section
variable {P : PlatformRel} {E : Prop} (hP : P.Lawful E)

theorem drawPreds_coupled (chs : List Channel) {s s' : State} (h : Coupled P s s') :
    Coupled P (chs.foldl drawPred s) (chs.foldl drawPred s') := by
  induction chs generalizing s s' with
  | nil => exact h
  | cons ch chs ih =>
    obtain ⟨h⟩ := h
    exact ih (s := drawPred s ch) ⟨h⟩

theorem drawBits_coupled {s s' : State} (h : Coupled P s s') : Coupled P (drawBits s) (drawBits s') := by
  obtain ⟨h⟩ := h
  exact ⟨h⟩

theorem drawOutLen_coupled (lo hi : Nat) {s s' : State} (h : Coupled P s s') :
    Coupled P (drawOutLen lo hi s) (drawOutLen lo hi s') := by
  obtain ⟨h⟩ := h
  exact ⟨h⟩

theorem clearStores_coupled (w : Writes) {s s' : State} (h : Coupled P s s') :
    Coupled P (clearStores w s) (clearStores w s') := by
  obtain ⟨h⟩ := h
  exact ⟨h⟩

theorem spoilOverflow_coupled (w : Writes) {s s' : State} (h : Coupled P s s') :
    Coupled P (spoilOverflow w s) (spoilOverflow w s') :=
  clearStores_coupled w (drawPreds_coupled w.preds (drawBits_coupled h))

include hP

theorem drawBytes_coupled (a n : Nat) {s s' : State} (h : Coupled P s s') :
    Coupled P (drawBytes a n s) (drawBytes a n s') := by
  induction n generalizing s s' with
  | zero => exact h
  | succ n ih =>
    obtain ⟨h⟩ := h
    exact ih ⟨hP.store _ _ h⟩

theorem spoilOutput_coupled (p : Params) (start : Nat) {s s' : State} (h : Coupled P s s') :
    Coupled P (spoilOutput p start s) (spoilOutput p start s') :=
  drawOutLen_coupled _ _ (drawBytes_coupled hP _ _ h)

theorem spoilBusError_coupled (w : Writes) (p : Params) (start : Nat) {s s' : State} (h : Coupled P s s') :
    Coupled P (spoilBusError w p start s) (spoilBusError w p start s') := by
  have hout : Coupled P (if w.outLen then spoilOutput p start s else s)
      (if w.outLen then spoilOutput p start s' else s') := by
    split
    · exact spoilOutput_coupled hP p start h
    · exact h
  have hbits {t t' : State} (ht : Coupled P t t') :
      Coupled P (if w.bits then drawBits t else t) (if w.bits then drawBits t' else t') := by
    split
    · exact drawBits_coupled ht
    · exact ht
  exact clearStores_coupled w (drawPreds_coupled w.preds (hbits hout))

theorem settle_coupled (w : Writes) (p : Params) (start : Nat) {r r' : Res} (h : r.Coupled P E r') :
    (settle w p start r).Coupled P E (settle w p start r') := by
  cases h with
  | ok h => exact .ok h
  | uninit h => exact .uninit (spoilBusError_coupled hP w p start h)
  | busFails hE hb =>
    refine .busFails hE ?_
    rw [spoilBusError_eq]
    exact hb
  | raise c h =>
    by_cases hbus : c = .busError
    · subst hbus
      exact .raise _ (spoilBusError_coupled hP w p start h)
    · by_cases hc : SpoilsAsOverflow w c
      · rw [settle_of_spoilsAsOverflow hc, settle_of_spoilsAsOverflow hc]
        exact .raise _ (spoilOverflow_coupled w h)
      · rw [settle_of_not_spoilsAsOverflow hbus hc, settle_of_not_spoilsAsOverflow hbus hc]
        exact .raise _ h

end

theorem finish_coupled {P : PlatformRel} {r r' : Res} (h : r.Coupled P False r') : Coupled P (finish r) (finish r') := by
  cases h with
  | ok h | raise c h | uninit h =>
    obtain ⟨h⟩ := h
    exact ⟨h⟩
  | busFails hE => exact hE.elim

/-- Two runs of a command on related platforms end in coupled states. -/
theorem exec_coupled {P : PlatformRel} (hP : P.Lawful False) {i : Instr} {s s' t u : State} (hs : Coupled P s s')
    (hbody : Couples P False (bodyOf i (latched s))) (ht : exec i s = .next t) (hu : exec i s' = .next u) :
    Coupled P t u := by
  rw [exec_eq_next] at ht hu
  obtain rfl := Host.Outcome.next.inj ht
  obtain rfl := Host.Outcome.next.inj hu
  have hb := hbody s s' hs
  obtain ⟨_⟩ := hs
  exact finish_coupled (settle_coupled hP _ _ _ hb)

/-! #### The pixel region (R61, R151) -/

theorem dimensions_of_ok {p : Params} (h : dimensionsBad p = false) :
    1 ≤ p.width.toNat ∧ p.width.toNat ≤ 65535 ∧ 1 ≤ p.height.toNat ∧ p.height.toNat ≤ 65535 := by
  simp only [dimensionsBad, decide_eq_false_iff_not] at h
  omega

theorem pixelOffset_lt {p : Params} (h : dimensionsBad p = false) (bx byy x y : Nat) {c : Nat} (hc : c < 3) :
    pixelOffset p bx byy x y c < p.width.toNat * p.height.toNat * 3 := by
  obtain ⟨hw, _, hh, _⟩ := dimensions_of_ok h
  have hrow : min (byy + y) (p.height.toNat - 1) * p.width.toNat ≤ (p.height.toNat - 1) * p.width.toNat :=
    Nat.mul_le_mul_right _ (min_le_right _ _)
  have hcol : min (bx + x) (p.width.toNat - 1) ≤ p.width.toNat - 1 := min_le_right _ _
  have harea : (p.height.toNat - 1) * p.width.toNat + p.width.toNat = p.width.toNat * p.height.toNat := by
    rw [← Nat.succ_mul, Nat.succ_eq_add_one, Nat.sub_add_cancel hh, mul_comm]
  unfold pixelOffset
  omega

namespace Params.PixelsFit
variable {p : Params} (h : p.PixelsFit)
include h

theorem srcLen_eq : p.srcLen.toNat = p.width.toNat * p.height.toNat * 3 := by
  simpa [srcLenBad] using h.srcLen

theorem srcRegion_le : p.srcAddr.toNat + p.srcLen.toNat ≤ 2 ^ 32 := by
  simpa [srcRegionBad] using h.srcRegion

theorem pixelAddr_eq (bx byy x y : Nat) {c : Nat} (hc : c < 3) :
    pixelAddr p bx byy x y c = p.srcAddr.toNat + pixelOffset p bx byy x y c := by
  have hlt := pixelOffset_lt h.dimensions bx byy x y hc
  have hlen := h.srcLen_eq
  have hregion := h.srcRegion_le
  rw [pixelAddr, BitVec.toNat_add, BitVec.toNat_ofNat]
  omega

theorem pixelAddr_mem (bx byy x y : Nat) {c : Nat} (hc : c < 3) :
    p.srcAddr.toNat ≤ pixelAddr p bx byy x y c ∧ pixelAddr p bx byy x y c < p.srcAddr.toNat + p.srcLen.toNat := by
  have hlt := pixelOffset_lt h.dimensions bx byy x y hc
  rw [h.pixelAddr_eq bx byy x y hc, h.srcLen_eq]
  omega

/-- SAMPLE reads nothing outside the pixel region. -/
theorem sampleBlock_congr {s t : State}
    (hst : ∀ a, p.srcAddr.toNat ≤ a → a < p.srcAddr.toNat + p.srcLen.toNat → readByte t a = readByte s a)
    (ch : Channel) (bx byy : Nat) : sampleBlock p ch bx byy t = sampleBlock p ch bx byy s := by
  have hread (x y : Nat) {c : Nat} (hc : c < 3) :
      readByte t (pixelAddr p bx byy x y c) = readByte s (pixelAddr p bx byy x y c) :=
    hst _ (h.pixelAddr_mem bx byy x y hc).1 (h.pixelAddr_mem bx byy x y hc).2
  simp only [sampleBlock, sampleAt, hread _ _ (show 0 < 3 by norm_num), hread _ _ (show 1 < 3 by norm_num),
    hread _ _ (show 2 < 3 by norm_num)]

end Params.PixelsFit

/-! #### Runs on two memories -/

/-- The byte a memory shows at an address (log 7): what `readByte` reads. -/
def Memory.byteAt (m : Memory) (a : Nat) : Byte := (m.find a).getD (Config.initialByte a)

theorem readByte_eq_byteAt (s : State) (a : Nat) : readByte s a = s.mem.byteAt a := rfl

theorem Memory.byteAt_put (m : Memory) (a x : Nat) (v : Byte) :
    (m.put a v).byteAt x = if x = a then v else m.byteAt x := by
  split
  · subst_vars
    simp [byteAt]
  · rw [byteAt, Memory.find_put_other m v ‹_›, byteAt]

/-- The same countdown; and at each address the same byte, or in each memory the byte of `m₀` and `m₀'` still. -/
def sameWrites (m₀ m₀' : Memory) : PlatformRel := fun m b m' b' =>
  b' = b ∧ ∀ a, m'.byteAt a = m.byteAt a ∨ (m'.byteAt a = m₀'.byteAt a ∧ m.byteAt a = m₀.byteAt a)

theorem sameWrites_lawful (m₀ m₀' : Memory) : (sameWrites m₀ m₀').Lawful False where
  store := by
    rintro m m' b b' a v ⟨hb, h⟩
    refine ⟨hb, fun x => ?_⟩
    rw [Memory.byteAt_put, Memory.byteAt_put]
    split
    · exact .inl rfl
    · exact h x
  access := by
    rintro n s _ @⟨m, b, rfl, h⟩
    unfold busAccess
    dsimp only [State.onPlatform]
    cases hb : s.busErrIn with
    | none => exact .ok ⟨hb.symm, h⟩
    | some k => exact .ite (.raise _ ⟨rfl, h⟩) (.ok ⟨rfl, h⟩)

/-- Memories that agree on the pixel region and are written alike still agree there. -/
theorem sameWrites_samePixels {m₀ m₀' : Memory} {p : Params} (hp : p.PixelsFit)
    (h : ∀ a, p.srcAddr.toNat ≤ a → a < p.srcAddr.toNat + p.srcLen.toNat → m₀'.byteAt a = m₀.byteAt a) :
    (sameWrites m₀ m₀').SamePixels p := by
  rintro s _ ⟨_, hs⟩ ch bx byy
  refine hp.sampleBlock_congr (fun a h1 h2 => ?_) ch bx byy
  rcases hs a with he | ⟨he', he⟩
  · exact he
  · exact he'.trans ((h a h1 h2).trans he.symm)

/-- Settles O44: the two runs stay coupled, since only SAMPLE and ENCODE read memory, and only in the pixel region. -/
theorem onlyPixelRegionRead : Obligations.OnlyPixelRegionRead := by
  intro i s t u m ht hu hpix
  have hs : Coupled (sameWrites s.mem m) s { s with mem := m } :=
    ⟨rfl, fun _ => .inr ⟨rfl, rfl⟩⟩
  have hbody : Couples (sameWrites s.mem m) False (bodyOf i (latched s)) :=
    bodyOf_couples (sameWrites_lawful _ _) fun hi hfit => sameWrites_samePixels hfit (hpix hi)
  obtain ⟨rfl, h⟩ := exec_coupled (sameWrites_lawful _ _) hs hbody ht hu
  exact ⟨rfl, h⟩

end Sys2Proof.Machine

/-! ### What a body emits and how many accesses it makes, however it ends (20_memory.md R69; 42_bit_writer.md R121) -/

namespace Sys2Proof.Machine

variable {p : Params}

/-- Of the output, just the bytes `bs` have come between `s` and `t`. -/
structure Emitted (p : Params) (bs : List Byte) (s t : State) : Prop where
  mem : t.mem = (appendBytes p bs s).mem
  outLen : t.outLen = (appendBytes p bs s).outLen
  fits : s.outLen.toNat + bs.length ≤ p.dstCap.toNat

theorem appendBytes_congr {s t : State} (hm : t.mem = s.mem) (ho : t.outLen = s.outLen) (bs : List Byte) :
    (appendBytes p bs t).mem = (appendBytes p bs s).mem ∧ (appendBytes p bs t).outLen = (appendBytes p bs s).outLen := by
  induction bs generalizing s t with
  | nil => exact ⟨hm, ho⟩
  | cons b bs ih => exact ih (by simp [appendByte, hm, ho]) (by simp [appendByte, ho])

section
variable {bs cs : List Byte} {s t u : State}

theorem Emitted.nothing (hm : t.mem = s.mem) (ho : t.outLen = s.outLen) (hs : s.outLen.toNat ≤ p.dstCap.toNat) :
    Emitted p [] s t := ⟨hm, ho, hs⟩

theorem Emitted.toNat_outLen (h : Emitted p bs s t) : t.outLen.toNat = s.outLen.toNat + bs.length := by
  rw [h.outLen, appendBytes_outLen h.fits]

theorem Emitted.room (h : Emitted p bs s t) : t.outLen.toNat ≤ p.dstCap.toNat := h.toNat_outLen.trans_le h.fits

theorem Emitted.trans (h : Emitted p bs s t) (h' : Emitted p cs t u) : Emitted p (bs ++ cs) s u := by
  obtain ⟨hmem, hout⟩ := appendBytes_congr h.mem h.outLen cs
  have hfits := h'.fits
  rw [h.toNat_outLen] at hfits
  refine ⟨?_, ?_, by rw [List.length_append]; omega⟩
  · rw [appendBytes_append, ← hmem, h'.mem]
  · rw [appendBytes_append, ← hout, h'.outLen]

theorem Emitted.readByte (hp : dstRegionBad p = false) (h : Emitted p bs s t) (a : Nat) : readByte t a =
    if p.dstAddr.toNat + s.outLen.toNat ≤ a then bs[a - (p.dstAddr.toNat + s.outLen.toNat)]?.getD (readByte s a)
    else readByte s a := (readByte_congr h.mem a).trans (readByte_appendBytes hp h.fits a)

theorem Emitted.readByte_outside (hp : dstRegionBad p = false) (h : Emitted p bs s t) {a : Nat}
    (ha : a < p.dstAddr.toNat + s.outLen.toNat ∨ p.dstAddr.toNat + p.dstCap.toNat ≤ a) : Machine.readByte t a = Machine.readByte s a := by
  have hfits := h.fits
  rw [h.readByte hp]
  split
  · rw [List.getElem?_eq_none (by omega)]
    rfl
  · rfl

end

/-- The result of a body started in `s` that emits the bytes `bs`, makes `x` accesses beside theirs, and ends normally in a
state of `Q`: or it stops before a byte without room (R236), or at the access with the error response (R237); the output is
then a proper or whole prefix of `bs`. -/
inductive Res.Emits (p : Params) (bs : List Byte) (x : Nat) (Q : State → Prop) (s : State) : Res → Prop where
  | ok {t : State} (he : Emitted p bs s t) (ha : s.BusAnswers (bs.length + x))
      (hc : t.busErrIn = s.busAfter (bs.length + x)) (hQ : Q t) : Res.Emits p bs x Q s (.ok t)
  | overflow {t : State} {out : List Byte} (he : Emitted p out s t) (hpre : out <+: bs) (hlt : out.length < bs.length)
      (hfull : p.dstCap.toNat ≤ s.outLen.toNat + out.length) : Res.Emits p bs x Q s (.raise .outOverflow t)
  | busError {t : State} {out : List Byte} {k : Nat} (he : Emitted p out s t) (hpre : out <+: bs)
      (hk : s.busErrIn = some k) (hlt : k < bs.length + x) (hout : out.length ≤ k) (hb : t.busErrIn = none) :
      Res.Emits p bs x Q s (.raise .busError t)

section
variable {bs cs : List Byte} {x y : Nat} {Q R : State → Prop} {s : State} {r : Res}

theorem Res.Emits.imp (h : r.Emits p bs x Q s) (hQ : ∀ t, r = .ok t → Emitted p bs s t → Q t → R t) :
    r.Emits p bs x R s := by
  cases h with
  | ok he ha hc h => exact .ok he ha hc (hQ _ rfl he h)
  | overflow he hpre hlt hfull => exact .overflow he hpre hlt hfull
  | busError he hpre hk hlt hout hb => exact .busError he hpre hk hlt hout hb

theorem busAnswers_add {m n : Nat} {t : State} (hs : s.BusAnswers m) (ht : t.busErrIn = s.busAfter m)
    (h : t.BusAnswers n) : s.BusAnswers (m + n) := by
  intro k hk
  have h1 := hs k hk
  have h2 := h (k - m) (by rw [ht, State.busAfter, hk]; rfl)
  omega

theorem busAfter_add {m n : Nat} {t : State} (ht : t.busErrIn = s.busAfter m) : t.busAfter n = s.busAfter (m + n) := by
  rw [State.busAfter, ht, State.busAfter, State.busAfter]
  cases s.busErrIn with
  | none => rfl
  | some k => simp [Nat.sub_sub]

theorem Res.Emits.bind (h : r.Emits p bs x Q s) {f : State → Res}
    (hf : ∀ t, t.outLen.toNat ≤ p.dstCap.toNat → Q t → (f t).Emits p cs y R t) :
    (r.bind f).Emits p (bs ++ cs) (x + y) R s := by
  have hlen : (bs ++ cs).length + (x + y) = (bs.length + x) + (cs.length + y) := by rw [List.length_append]; omega
  cases h with
  | overflow he hpre hlt hfull =>
    exact .overflow he (hpre.trans (List.prefix_append _ _)) (by rw [List.length_append]; omega) hfull
  | busError he hpre hk hlt hout hb =>
    exact .busError he (hpre.trans (List.prefix_append _ _)) hk (by omega) hout hb
  | @ok t he ha hc hQ =>
    have hroom := he.toNat_outLen
    have hnext := hf t he.room hQ
    rw [Res.bind_ok]
    generalize f t = r at hnext ⊢
    cases hnext with
    | ok he' ha' hc' hR =>
      refine .ok (he.trans he') ?_ ?_ hR <;> rw [hlen]
      · exact busAnswers_add ha hc ha'
      · exact hc'.trans (busAfter_add hc)
    | overflow he' hpre hlt hfull =>
      refine .overflow (he.trans he') ((List.prefix_append_right_inj bs).2 hpre) ?_ ?_ <;> rw [List.length_append]
      · rw [List.length_append]
        omega
      · omega
    | @busError u out k he' hpre hk hlt hout hb =>
      rw [hc, State.busAfter, Option.map_eq_some_iff] at hk
      obtain ⟨j, hj, rfl⟩ := hk
      have := ha j hj
      refine .busError (he.trans he') ((List.prefix_append_right_inj bs).2 hpre) hj (by omega) ?_ hb
      rw [List.length_append]
      omega

/-- A change of the state that neither memory nor OUT_LEN nor the countdown shows. -/
theorem Res.Emits.mapState (h : r.Emits p bs x Q s) {f : State → State}
    (hf : ∀ t, (f t).mem = t.mem ∧ (f t).outLen = t.outLen ∧ (f t).busErrIn = t.busErrIn) (hQ : ∀ t, Q t → R (f t)) :
    (r.mapState f).Emits p bs x R s := by
  have hemitted {out : List Byte} {t : State} (he : Emitted p out s t) : Emitted p out s (f t) :=
    ⟨(hf t).1.trans he.mem, (hf t).2.1.trans he.outLen, he.fits⟩
  cases h with
  | ok he ha hc h => exact .ok (hemitted he) ha ((hf _).2.2.trans hc) (hQ _ h)
  | overflow he hpre hlt hfull => exact .overflow (hemitted he) hpre hlt hfull
  | busError he hpre hk hlt hout hb => exact .busError (hemitted he) hpre hk hlt hout ((hf _).2.2.trans hb)

/-- The same before the body. -/
theorem Res.Emits.start {s' : State} (h : r.Emits p bs x Q s') (hm : s'.mem = s.mem) (ho : s'.outLen = s.outLen)
    (hb : s'.busErrIn = s.busErrIn) : r.Emits p bs x Q s := by
  have hemitted {out : List Byte} {t : State} (he : Emitted p out s' t) : Emitted p out s t := by
    obtain ⟨hmem, hout⟩ := appendBytes_congr (p := p) hm ho out
    exact ⟨he.mem.trans hmem, he.outLen.trans hout, ho ▸ he.fits⟩
  cases h with
  | ok he ha hc h =>
    refine .ok (hemitted he) (fun k hk => ha k (hb.trans hk)) (hc.trans ?_) h
    rw [State.busAfter, hb, State.busAfter]
  | overflow he hpre hlt hfull => exact .overflow (hemitted he) hpre hlt (ho ▸ hfull)
  | busError he hpre hk hlt hout hn => exact .busError (hemitted he) hpre (hb.symm.trans hk) hlt hout hn

/-- A body that ends normally and shows nothing of itself outside the block. -/
theorem Res.Emits.nothing {t : State} (hs : s.outLen.toNat ≤ p.dstCap.toNat) (hm : t.mem = s.mem)
    (ho : t.outLen = s.outLen) (hb : t.busErrIn = s.busErrIn) (hQ : Q t) : (Res.ok t).Emits p [] 0 Q s := by
  refine .ok (.nothing hm ho hs) (fun _ _ => Nat.zero_le _) (hb.trans ?_) hQ
  rw [State.busAfter]
  cases s.busErrIn <;> rfl

/-- A body that shows nothing of itself, after another. -/
theorem Res.Emits.bindLocal (h : r.Emits p bs x Q s) {f : State → Res}
    (hf : ∀ t, t.outLen.toNat ≤ p.dstCap.toNat → Q t → (f t).Emits p [] 0 R t) : (r.bind f).Emits p bs x R s := by
  have hbind := h.bind hf
  rwa [List.append_nil, Nat.add_zero] at hbind

/-- A body that shows no byte of itself, before another. -/
theorem Res.Emits.accessBind (h : r.Emits p [] x Q s) {f : State → Res}
    (hf : ∀ t, t.outLen.toNat ≤ p.dstCap.toNat → Q t → (f t).Emits p cs 0 R t) : (r.bind f).Emits p cs x R s := h.bind hf

end

/-! #### The emitting operations -/

theorem busAccess_emits (n : Nat) {s : State} (hs : s.outLen.toNat ≤ p.dstCap.toNat) :
    (busAccess n s).Emits p [] n (fun t => ∃ b, t = { s with busErrIn := b }) s := by
  by_cases ha : s.BusAnswers n
  · rw [busAccess_ok ha]
    exact .ok (.nothing rfl rfl hs) (by simpa using ha) (by simp [State.busAfter]) ⟨_, rfl⟩
  · unfold State.BusAnswers at ha
    push Not at ha
    obtain ⟨k, hk, hlt⟩ := ha
    rw [busAccess_error hk hlt]
    exact .busError (.nothing rfl rfl hs) List.prefix_rfl hk (by simpa using hlt) (Nat.zero_le k) rfl

theorem emitRaw_emits (b : Byte) {s : State} (hs : s.outLen.toNat ≤ p.dstCap.toNat) :
    (emitRaw p b s).Emits p [b] 0 (fun t => t = appendByte p b s) s := by
  rcases emitRaw_cases p b s with ⟨room, ha, h⟩ | ⟨hfull, h⟩ | ⟨_, hk, h⟩ <;> rw [h]
  · exact .ok ⟨rfl, rfl, room⟩ ha rfl rfl
  · exact .overflow (.nothing rfl rfl hs) List.nil_prefix Nat.one_pos hfull
  · exact .busError (.nothing rfl rfl hs) List.nil_prefix hk Nat.one_pos le_rfl rfl

theorem forEach_emitRaw_emits (bs : List Byte) {s : State} (hs : s.outLen.toNat ≤ p.dstCap.toNat) :
    (forEach (emitRaw p) bs s).Emits p bs 0 (fun t => t = appendBytes p bs s) s := by
  induction bs generalizing s with
  | nil => exact .nothing hs rfl rfl rfl rfl
  | cons b bs ih =>
    refine (emitRaw_emits b hs).bind (cs := bs) (y := 0) fun t ht hb => ?_
    subst hb
    exact ih ht

/-- The state after the pending bits have become `l`, fewer than eight. -/
theorem pendingBits_withBits {l : List Bool} (hl : l.length < 8) (s : State) :
    let t := withBits (BitVec.ofNat 8 (bitsValue l)) (BitVec.ofNat 3 l.length) s
    pendingBits t = l ∧ t.BitInv := by
  have hlt := bitsValue_lt l
  have h8 : 2 ^ l.length ≤ 2 ^ 7 := Nat.pow_le_pow_right (by norm_num) (by omega)
  have hacc : (BitVec.ofNat 8 (bitsValue l)).toNat = bitsValue l := by rw [BitVec.toNat_ofNat]; omega
  have hn : (BitVec.ofNat 3 l.length).toNat = l.length := by rw [BitVec.toNat_ofNat]; omega
  constructor
  · simp only [pendingBits, withBits]
    rw [hacc, hn, bitString_bitsValue]
  · simp only [State.BitInv, withBits]
    rwa [hacc, hn]

/-- Pushed bits: the stuffed complete bytes come out, and what is left over is pending (R124, R130). -/
theorem forEach_pushBit_emits (l : List Bool) {s : State} (hb : s.BitInv) (hs : s.outLen.toNat ≤ p.dstCap.toNat) :
    (forEach (pushBit p) l s).Emits p (emittedBytes (pendingBits s ++ l)) 0 (fun t =>
      (∃ a n, t = withBits a n (appendBytes p (emittedBytes (pendingBits s ++ l)) s)) ∧
        pendingBits t = leftBits (pendingBits s ++ l) ∧ t.BitInv) s := by
  obtain ⟨a, n, he, hok⟩ := pushBit_spec p l hb
  rw [he]
  refine ((forEach_emitRaw_emits (emittedBytes (pendingBits s ++ l)) hs).imp fun t ht _ heq =>
    And.intro ht heq).mapState (fun t => ⟨rfl, rfl, rfl⟩) fun t ⟨ht, heq⟩ => ?_
  obtain ⟨rfl, rfl⟩ := hok t ht
  have hleft := leftBits_length (pendingBits s ++ l)
  exact ⟨⟨_, _, congrArg (withBits _ _) heq⟩, pendingBits_withBits (by omega) t⟩

theorem flushBody_emits {s : State} (hb : s.BitInv) (hs : s.outLen.toNat ≤ p.dstCap.toNat) :
    (flushBody p s).Emits p (emittedBytes (padOnes (pendingBits s))) 0 (fun t =>
      (∃ a n, t = withBits a n (appendBytes p (emittedBytes (padOnes (pendingBits s))) s)) ∧
        pendingBits t = [] ∧ t.BitInv) s := by
  by_cases h0 : s.nbits = 0
  · have hpend : pendingBits s = [] := by rw [pendingBits, h0]; rfl
    rw [flushBody, if_pos h0, hpend]
    exact .nothing hs rfl rfl rfl ⟨⟨s.acc, s.nbits, rfl⟩, hpend, hb⟩
  · rw [flushBody_eq p hb h0]
    exact (forEach_emitRaw_emits _ hs).mapState (fun t => ⟨rfl, rfl, rfl⟩) fun t ht =>
      ⟨⟨0, 0, congrArg (withBits 0 0) ht⟩, rfl, by simp [State.BitInv, withBits]⟩

end Sys2Proof.Machine

/-! ### The emitting commands (42_bit_writer.md R126, R127; 45_block_encoder.md R169; 46_container.md R191, R199) -/

namespace Sys2Proof.Machine

/-! #### The bits of coded items -/

theorem codedBits_of_lookup {s : State} {i : Item} {c : Coded} (h : lookup s i = .coded c) :
    codedBits c = itemBitsIn s i := by
  unfold lookup at h
  split at h
  · cases h
  · split at h
    · cases h
    · cases h
    next e he =>
      split at h
      · obtain rfl := Lookup.coded.inj h
        rw [itemBitsIn, he]
        rfl
      · cases h

theorem codedBits_of_lookupAll {s : State} {items : List Item} {cs : List Coded} (h : lookupAll s items = .coded cs) :
    cs.flatMap codedBits = items.flatMap (itemBitsIn s) := by
  induction items generalizing cs with
  | nil =>
    obtain rfl := Lookups.coded.inj h
    rfl
  | cons i items ih =>
    unfold lookupAll at h
    cases hi : lookup s i with
    | undefined | unwritten =>
      rw [hi] at h
      cases h
    | coded c =>
      cases hl : lookupAll s items with
      | undefined | unwritten =>
        rw [hi, hl] at h
        cases h
      | coded cs' =>
        rw [hi, hl] at h
        obtain rfl := Lookups.coded.inj h
        rw [List.flatMap_cons, List.flatMap_cons, codedBits_of_lookup hi, ih hl]

/-- ENTROPY on a written block with defined symbols pushes the bits of its items and keeps the DC coefficient (R169). -/
theorem entropyBody_eq {p : Params} {ch : Channel} {s : State} {z : Vector (BitVec 16) 64} (hz : s.zz = z.map some)
    (hdef : ∀ i ∈ entropyItems ch z s, SymbolDefined s i) : entropyBody p ch s =
      (forEach (pushBit p) ((entropyItems ch z s).flatMap (itemBitsIn s)) s).bind fun t =>
        .ok { t with pred := t.pred.set ch (z[0].signExtend 32) } := by
  obtain ⟨cs, hcs⟩ := lookupAll_coded hdef
  unfold entropyBody
  rw [hz, allWritten_map_some]
  dsimp only
  rw [hcs, ← codedBits_of_lookupAll hcs, ← emitCoded_eq]

/-! #### The commands that pass their checks (R233) -/

section
variable {s : State}

theorem dstRegion_of_valid {i : Instr} (he : emits i = true) (h : Valid i s) : dstRegionBad (latched s) = false := by
  refine h (dstRegionBad (latched s), .badRegion) ?_
  cases i with
  | pushBits | flush | entropy | writeHeaders | writeEoi | encode => simp [validation, dstRegionBad]
  | _ => cases he

theorem pushBitsCmd_of_valid {n : BitVec 6} (h : Valid (.pushBits n) s) :
    pushBitsCmd n.toNat (latched s) s = pushBits (latched s) (latched s).arg0.toNat n.toNat s := by
  rw [pushBitsCmd, dstRegion_of_valid rfl h, check_false]

theorem flushCmd_of_valid (h : Valid .flush s) : flushCmd (latched s) s = flushBody (latched s) s := by
  rw [flushCmd, dstRegion_of_valid rfl h, check_false]

theorem writeHeadersCmd_of_valid (h : Valid .writeHeaders s) :
    writeHeadersCmd (latched s) s = writeHeadersBody (latched s) s := by
  have hdim : dimensionsBad (latched s) = false := h (dimensionsBad (latched s), .badDimensions) (by
    simp [validation, dimensionsBad])
  have hready : (!s.qtValid || !s.htValid) = false := h (!s.qtValid || !s.htValid, .notReady) (by simp [validation])
  have hbits : decide (s.nbits ≠ 0) = false := h (decide (s.nbits ≠ 0), .illegalState) (by simp [validation])
  rw [← Bool.not_and] at hready
  rw [writeHeadersCmd, hdim, hready, hbits, dstRegion_of_valid rfl h, check_false, check_false, check_false, check_false]

theorem writeEoiCmd_of_valid (h : Valid .writeEoi s) : writeEoiCmd (latched s) s = writeEoiBody (latched s) s := by
  have hbits : decide (s.nbits ≠ 0) = false := h (decide (s.nbits ≠ 0), .illegalState) (by simp [validation])
  rw [writeEoiCmd, hbits, dstRegion_of_valid rfl h, check_false, check_false]

theorem sampleCmd_of_valid {ch : Channel} (h : Valid (.sample ch) s) :
    sampleCmd ch (latched s) s = sampleBody (latched s) ch (latched s).bx (latched s).byy s := by
  have hdim : dimensionsBad (latched s) = false := h (dimensionsBad (latched s), .badDimensions) (by
    simp [validation, dimensionsBad])
  have hlen : srcLenBad (latched s) = false := h (srcLenBad (latched s), .badSrcLen) (by simp [validation, srcLenBad])
  have hsrc : srcRegionBad (latched s) = false := h (srcRegionBad (latched s), .badRegion) (by
    simp [validation, srcRegionBad])
  rw [sampleCmd, hdim, hlen, hsrc, check_false, check_false, check_false]

end

/-! #### What they emit -/

theorem mapState_withBits_self (p : Params) (bs : List Byte) (s : State) :
    (forEach (emitRaw p) bs s).mapState (withBits s.acc s.nbits) = forEach (emitRaw p) bs s :=
  (forEach_emitRaw_withBits p bs s.acc s.nbits s).symm

theorem writeHeadersBody_eq {p : Params} {s : State} {q0 q1 : Vector Byte 64} (h0 : s.qt0 = q0.map some)
    (h1 : s.qt1 = q1.map some) : writeHeadersBody p s =
      forEach (emitRaw p) (headerBytes s.tables p.width.toNat p.height.toNat q0 q1) s := by
  unfold writeHeadersBody
  rw [h0, h1, allWritten_map_some, allWritten_map_some]

theorem commandOutput_writeHeaders {s : State} {q0 q1 : Vector Byte 64} (h0 : s.qt0 = q0.map some)
    (h1 : s.qt1 = q1.map some) : commandOutput .writeHeaders s =
      headerBytes s.tables (latched s).width.toNat (latched s).height.toNat q0 q1 := by
  unfold commandOutput
  dsimp only
  rw [h0, h1, allWritten_map_some, allWritten_map_some]

/-- An emitting command other than ENCODE emits its output byte by byte, with other pending bits, and then does the rest. -/
theorem bodyOf_eq_emission {i : Instr} {s : State} (h : StartsToEmit i s) : ∃ a n f, bodyOf i (latched s) s =
    ((forEach (emitRaw (latched s)) (commandOutput i s) s).mapState (withBits a n)).bind f := by
  obtain ⟨he, hne, hv, hb, hent, hhdr⟩ := h
  cases i with
  | pushBits k =>
    obtain ⟨a, n, hspec, _⟩ := pushBit_spec (latched s) (bitString (latched s).arg0.toNat k.toNat) hb
    refine ⟨a, n, .ok, (pushBitsCmd_of_valid hv).trans ?_⟩
    rw [pushBits_eq, hspec, Res.bind_pure]
    rfl
  | flush =>
    by_cases h0 : s.nbits = 0
    · refine ⟨s.acc, s.nbits, .ok, (flushCmd_of_valid hv).trans ?_⟩
      have hpend : pendingBits s = [] := by rw [pendingBits, h0]; rfl
      have hout : commandOutput .flush s = [] := by
        change emittedBytes (padOnes (pendingBits s)) = []
        rw [hpend]
        exact emittedBytes_short (by simp [padOnes])
      rw [mapState_withBits_self, Res.bind_pure, hout, forEach_nil, flushBody, if_pos h0]
    · refine ⟨0, 0, .ok, (flushCmd_of_valid hv).trans ?_⟩
      rw [flushBody_eq _ hb h0, Res.bind_pure]
      rfl
  | entropy ch =>
    obtain ⟨z, hz, hdef⟩ := hent ch rfl
    obtain ⟨a, n, hspec, _⟩ := pushBit_spec (latched s) ((entropyItems ch z s).flatMap (itemBitsIn s)) hb
    refine ⟨a, n, fun t => .ok { t with pred := t.pred.set ch (z[0].signExtend 32) }, (entropyCmd_of_valid hv).trans ?_⟩
    rw [entropyBody_eq hz hdef, hspec]
    dsimp only [commandOutput]
    rw [hz, allWritten_map_some]
  | writeHeaders =>
    obtain ⟨q0, q1, h0, h1⟩ := hhdr rfl
    refine ⟨s.acc, s.nbits, .ok, (writeHeadersCmd_of_valid hv).trans ?_⟩
    rw [mapState_withBits_self, Res.bind_pure, writeHeadersBody_eq h0 h1, commandOutput_writeHeaders h0 h1]
  | writeEoi =>
    refine ⟨s.acc, s.nbits, .ok, (writeEoiCmd_of_valid hv).trans ?_⟩
    rw [mapState_withBits_self, Res.bind_pure]
    rfl
  | encode => exact absurd rfl hne
  | _ => cases he

end Sys2Proof.Machine

/-! ### The state after BUS_ERROR (60_exceptions.md R237) -/

namespace Sys2Proof.Machine

/-- `s` with everything that the stream and the block stores of `v` hold. -/
def State.withScan (s v : State) : State :=
  { s with
    mem := v.mem, outLen := v.outLen, acc := v.acc, nbits := v.nbits, pred := v.pred, blk := v.blk, qblk := v.qblk
    zz := v.zz, encPos := v.encPos, busErrIn := v.busErrIn }

/-- Moves that touch neither QT RAM nor HT RAM change no more than that. -/
theorem Move.eq_withScan {w : Writes} (hq : w.qt = false) (hh : w.ht = false) {p : Params} {s u v : State}
    (h : Move w p u v) (hu : u = s.withScan u) : v = s.withScan v := by
  cases h with
  | countdown b => exact congrArg (fun x : State => { x with busErrIn := b }) hu
  | byte b => exact congrArg (fun x : State => { x with
      mem := u.mem.put (outAddr p u.outLen) b, outLen := u.outLen + 1, busErrIn := u.busErrIn.map (· - 1) }) hu
  | bits a n => exact congrArg (withBits a n) hu
  | pred ch x => exact congrArg (fun y : State => { y with pred := u.pred.set ch x }) hu
  | restart => exact congrArg (fun x : State => { x with outLen := 0, acc := 0, nbits := 0, pred := ⟨0, 0, 0⟩ }) hu
  | position _ e => exact congrArg (fun x : State => { x with encPos := e }) hu
  | blk _ b => exact congrArg (fun x : State => { x with blk := b }) hu
  | qblk _ b => exact congrArg (fun x : State => { x with qblk := b }) hu
  | zz _ b => exact congrArg (fun x : State => { x with zz := b }) hu
  | quantTables h => exact nomatch hq.symm.trans h
  | codeTables h => exact nomatch hh.symm.trans h

/-- What BUS_ERROR leaves of a state that differs from `s` in the stream and the block stores only. -/
theorem spoilBusError_withScan (w : Writes) (p : Params) (start : Nat) {s v : State} (hv : v = s.withScan v) :
    spoilBusError w p start v = { s with
      mem := (spoilBusError w p start v).mem
      outLen := (spoilBusError w p start v).outLen
      acc := (spoilBusError w p start v).acc
      nbits := (spoilBusError w p start v).nbits
      pred := (spoilBusError w p start v).pred
      draws := (spoilBusError w p start v).draws
      encPos := v.encPos
      busErrIn := v.busErrIn
      blk := if w.blk then Vector.replicate 64 none else v.blk
      qblk := if w.qblk then Vector.replicate 64 none else v.qblk
      zz := if w.zz then Vector.replicate 64 none else v.zz } :=
  (spoilBusError_eq w p start v).trans (congrArg (fun x : State => { x with
    mem := (spoilBusError w p start v).mem
    outLen := (spoilBusError w p start v).outLen
    acc := (spoilBusError w p start v).acc
    nbits := (spoilBusError w p start v).nbits
    pred := (spoilBusError w p start v).pred
    draws := (spoilBusError w p start v).draws
    encPos := v.encPos
    busErrIn := v.busErrIn
    blk := if w.blk then Vector.replicate 64 none else v.blk
    qblk := if w.qblk then Vector.replicate 64 none else v.qblk
    zz := if w.zz then Vector.replicate 64 none else v.zz }) hv)

theorem exec_of_busError {i : Instr} {s v : State} (h : bodyOf i (latched s) s = .raise .busError v) :
    exec i s = .next ((spoilBusError (writesOf i) (latched s) s.outLen.toNat v).failed .busError) := by
  rw [exec_eq_next, h]
  rfl

/-- OUT_LEN after BUS_ERROR of an emitting command. -/
theorem spoilBusError_outLen_bounds {w : Writes} (hw : w.outLen = true) (p : Params) (s v : State) :
    min s.outLen.toNat p.dstCap.toNat ≤ (spoilBusError w p s.outLen.toNat v).outLen.toNat ∧
      (spoilBusError w p s.outLen.toNat v).outLen.toNat ≤ max s.outLen.toNat p.dstCap.toNat := by
  rw [spoilBusError_outLen hw]
  exact spoilOutput_outLen p s.outLen.isLt v

/-- SAMPLE with an error response to one of its reads. -/
theorem exec_sample_busError {s : State} {ch : Channel} {k : Nat} (hv : Valid (.sample ch) s) (hk : s.busErrIn = some k)
    (hlt : k < 192) : exec (.sample ch) s =
      .next (({ s with blk := Vector.replicate 64 none, busErrIn := none } : State).failed .busError) := by
  have hbody : bodyOf (.sample ch) (latched s) s = .raise .busError { s with busErrIn := none } := by
    refine (sampleCmd_of_valid hv).trans ?_
    rw [sampleBody, busAccess_error hk hlt, Res.bind_raise]
  rw [exec_of_busError hbody, spoilBusError_of_stores_only rfl rfl rfl]
  rfl

/-! #### The emitting commands other than ENCODE -/

/-- The rows of R88 of the emitting commands other than ENCODE: the stream, and a predictor. -/
theorem writesOf_of_emits {i : Instr} (he : emits i = true) (hne : i ≠ .encode) :
    (writesOf i).outLen = true ∧ (writesOf i).restarts = false ∧ (writesOf i).qt = false ∧ (writesOf i).ht = false ∧
      (writesOf i).blk = false ∧ (writesOf i).qblk = false ∧ (writesOf i).zz = false := by
  cases i with
  | encode => exact absurd rfl hne
  | pushBits | flush | entropy | writeHeaders | writeEoi => exact ⟨rfl, rfl, rfl, rfl, rfl, rfl, rfl⟩
  | _ => cases he

section
variable {i : Instr} {s : State} {k : Nat} (h : StartsToEmit i s) (hk : s.busErrIn = some k)
  (hlt : k < (commandOutput i s).length) (hroom : s.outLen.toNat + k < (latched s).dstCap.toNat)
include h hk hlt hroom

/-- The body stops at the byte that gets the error response, with the bytes before it emitted. -/
theorem bodyOf_busError : ∃ v, bodyOf i (latched s) s = .raise .busError v ∧ v.busErrIn = none ∧
    Emitted (latched s) ((commandOutput i s).take k) s v := by
  obtain ⟨a, n, f, hbody⟩ := bodyOf_eq_emission h
  rw [forEach_emitRaw_busError hk hlt hroom] at hbody
  exact ⟨_, hbody, rfl, rfl, rfl, by rw [List.length_take]; omega⟩

theorem exec_emission_busError : ∃ t : State, exec i s = .next t ∧
    t = ({ s with
      mem := t.mem, outLen := t.outLen, acc := t.acc, nbits := t.nbits, pred := t.pred, draws := t.draws
      busErrIn := none } : State).failed .busError ∧
    s.outLen.toNat ≤ t.outLen.toNat ∧ t.outLen.toNat ≤ (latched s).dstCap.toNat ∧
    ∀ a : Nat, a < (latched s).dstAddr.toNat + s.outLen.toNat ∨
      (latched s).dstAddr.toNat + (latched s).dstCap.toNat ≤ a → readByte t a = readByte s a := by
  obtain ⟨v, hbody, hbus, hemit⟩ := bodyOf_busError h hk hlt hroom
  obtain ⟨he, hne, hv, _⟩ := h
  obtain ⟨hout, _, hqt, hht, hblk, hqblk, hzz⟩ := writesOf_of_emits he hne
  have hm : Moves (writesOf i) (latched s) s v := moves_of_body hbody
  have hscan : v = s.withScan v :=
    hm.invariant (P := fun u => u = s.withScan u) (fun _ _ hmove hu => hmove.eq_withScan hqt hht hu) rfl
  have hstate := spoilBusError_withScan (writesOf i) (latched s) s.outLen.toNat hscan
  rw [hblk, hqblk, hzz, hbus, hm.frame fun _ _ => Move.blk_frame hblk, hm.frame fun _ _ => Move.qblk_frame hqblk,
    hm.frame fun _ _ => Move.zz_frame hzz] at hstate
  obtain ⟨hmin, hmax⟩ := spoilBusError_outLen_bounds hout (latched s) s v
  refine ⟨_, exec_of_busError hbody, (congrArg (State.failed · .busError) hstate).trans rfl, ?_, ?_, fun a ha => ?_⟩
  · exact (le_min le_rfl (by omega)).trans hmin
  · exact hmax.trans (max_le (by omega) le_rfl)
  · refine (readByte_congr rfl a).trans ((readByte_spoilBusError (writesOf i) v ha).trans ?_)
    exact hemit.readByte_outside (dstRegion_of_valid he hv) ha

end

end Sys2Proof.Machine

/-! ### ENCODE emits the file of the image (47_orchestrator.md R212, R214, R216) -/

namespace Sys2Proof.Machine

/-! #### The block of an image: samples, coefficients, quantized coefficients, items -/

theorem cc_bounds (ch : Channel) (r g b : Byte) :
    sampleMin ch - 1 / 2 ^ 16 ≤ Config.cc.fn ch r g b ∧ Config.cc.fn ch r g b ≤ sampleMax ch + 1 / 2 ^ 16 := by
  obtain ⟨h1, h2⟩ := ccIdeal_bounds ch r g b
  obtain ⟨h3, h4⟩ := abs_le.1 (Config.cc.within ch r g b)
  constructor <;> linarith

section
variable (T : Tables) (w h q : Nat) (px : Nat → Byte) (ch : Channel) (o : Nat × Nat)

theorem imageSamples_blockIn :
    BlockIn (sampleMin ch - 1 / 2 ^ 16) (sampleMax ch + 1 / 2 ^ 16) (imageSamples w h px ch o) := by
  refine ⟨fun i => ?_, ?_, ?_⟩
  · rw [imageSamples, getElem_ofFn_fin]
    exact cc_bounds ch _ _ _
  all_goals cases ch <;> norm_num [sampleMin, sampleMax]

theorem qtEntry_pos (t : QTable) (i : Fin 64) : 1 ≤ (qtEntry T q t i).toNat := by
  simp only [qtEntry, scaleEntry, clampNat, BitVec.toNat_ofNat]
  omega

/-- The quantized block of an image is in range (R146, R161). -/
theorem imageQuant_coefsIn : CoefsIn ch fun i => (imageQuant T w h q px ch o)[i] := by
  refine (quantize_fdct_coefsIn Config.fdct Config.roundTie (imageSamples_blockIn w h px ch o)
    (q := Vector.ofFn (qtEntry T q (quantTableOf ch))) fun i => ?_).of_eq fun i => ?_
  · rw [getElem_ofFn_fin]
    exact qtEntry_pos T q _ i
  · rw [imageQuant, getElem_ofFn_fin, getElem_ofFn_fin]
    rfl

theorem imageQuant_fits (i : Fin 64) : |(imageQuant T w h q px ch o)[i]| ≤ 1024 :=
  (imageQuant_coefsIn T w h q px ch o).fits i

theorem imageDc_dcIn : DcIn ch (imageDc T w h q px o ch) := (imageQuant_coefsIn T w h q px ch o).1

/-- The quantized block as ZIGZAG leaves it in ZZ (R165). -/
def imageZigzag : Vector (BitVec 16) 64 :=
  Vector.ofFn fun k : Fin 64 => coefOfInt (imageQuant T w h q px ch o)[zigzagNat k]

theorem imageZigzag_toInt (k : Fin 64) :
    (imageZigzag T w h q px ch o)[k].toInt = (imageQuant T w h q px ch o)[zigzagNat k] := by
  rw [imageZigzag, getElem_ofFn_fin]
  exact toInt_coefOfInt (imageQuant_fits T w h q px ch o (zigzagNat k))

theorem imageZigzag_dc : (imageZigzag T w h q px ch o)[0].toInt = imageDc T w h q px o ch := by
  have h0 := imageZigzag_toInt T w h q px ch o 0
  unfold imageDc
  generalize imageQuant T w h q px ch o = v at h0 ⊢
  exact h0

theorem imageZigzag_toList : (imageZigzag T w h q px ch o).toList.map BitVec.toInt =
    (List.finRange 64).map fun k => (imageQuant T w h q px ch o)[zigzagNat k] := by
  rw [imageZigzag, Vector.toList_ofFn, List.map_ofFn, List.ofFn_eq_map]
  refine List.map_congr_left fun k _ => ?_
  rw [Function.comp_apply]
  exact toInt_coefOfInt (imageQuant_fits T w h q px ch o (zigzagNat k))

end

/-! #### The bodies of one channel on the block of an image -/

theorem Params.PixelsFit.sampleBlock_eq {p : Params} (hp : p.PixelsFit) {s : State} {px : Nat → Byte}
    (hpx : ∀ off < p.width.toNat * p.height.toNat * 3, readByte s (p.srcAddr.toNat + off) = px off)
    (ch : Channel) (o : Nat × Nat) :
    sampleBlock p ch o.1 o.2 s = (imageSamples p.width.toNat p.height.toNat px ch o).map some := by
  have hread (x y : Nat) {c : Nat} (hc : c < 3) : readByte s (pixelAddr p o.1 o.2 x y c) =
      px (samplePixel p.width.toNat p.height.toNat o.1 o.2 x y + c) := by
    rw [hp.pixelAddr_eq o.1 o.2 x y hc]
    exact hpx _ (pixelOffset_lt hp.dimensions o.1 o.2 x y hc)
  ext i hi : 1
  simp only [sampleBlock, sampleAt, imageSamples, Vector.getElem_ofFn, Vector.getElem_map,
    hread _ _ (show 0 < 3 by norm_num), hread _ _ (show 1 < 3 by norm_num), hread _ _ (show 2 < 3 by norm_num)]
  rfl

section
variable {s : State}

theorem fdctBody_ok {g : Vector Rat 64} (hg : s.blk = g.map some) :
    fdctBody s = .ok { s with blk := (Config.fdct.fn g).map some } := by
  unfold fdctBody
  rw [hg, allWritten_map_some]

variable {T : Tables} {w h q : Nat} {px : Nat → Byte} {ch : Channel} {o : Nat × Nat}

theorem quantBody_image (hb : s.blk = (imageCoefs w h px ch o).map some)
    (hq : s.qt (quantTableOf ch) = (Vector.ofFn (qtEntry T q (quantTableOf ch))).map some) :
    quantBody (quantTableOf ch) s =
      .ok { s with qblk := ((imageQuant T w h q px ch o).map coefOfInt).map some } := by
  have hn : (Vector.ofFn fun i : Fin 64 => quantize Config.roundTie (imageCoefs w h px ch o)[i]
      (Vector.ofFn (qtEntry T q (quantTableOf ch)))[i]) = imageQuant T w h q px ch o := by
    simp only [getElem_ofFn_fin]
    rfl
  unfold quantBody
  rw [hb, hq, allWritten_map_some, allWritten_map_some]
  dsimp only
  rw [hn, Vector.map_map, if_neg]
  · congr
  · rintro ⟨i, hi⟩
    have := abs_le.1 (imageQuant_fits T w h q px ch o i)
    omega

theorem zigzag_map_coefOfInt (v : Vector Int 64) :
    (Vector.ofFn fun k : Fin 64 => some (v.map coefOfInt)[zigzagNat k]) =
      (Vector.ofFn fun k : Fin 64 => coefOfInt v[zigzagNat k]).map some := by
  ext i hi : 1
  simp

theorem zigzagBody_image (hq : s.qblk = ((imageQuant T w h q px ch o).map coefOfInt).map some) :
    zigzagBody s = .ok { s with zz := (imageZigzag T w h q px ch o).map some } := by
  unfold zigzagBody
  rw [hq, allWritten_map_some]
  dsimp only
  rw [zigzag_map_coefOfInt]
  rfl

end

end Sys2Proof.Machine

/-! #### The state of the scan between two blocks (R214, R217) -/

namespace Sys2Proof.Machine

/-- The checks of R213 that the emission of the file depends on. -/
structure Params.EncodeFits (p : Params) : Prop extends p.PixelsFit where
  dstRegion : dstRegionBad p = false
  overlap : regionsOverlap p = false

/-- What ENCODE keeps between blocks: the tables of the configuration `T` and of the quality, the pixels `px`, the DC
coefficients `dc` of the blocks before in the predictors, and the pending bits `l`. -/
structure ScanState (p : Params) (T : Tables) (px : Nat → Byte) (dc : Channel → Int) (l : List Bool) (s : State) : Prop where
  tables : s.tables = T
  qt : ∀ t, s.qt t = (Vector.ofFn (qtEntry T p.quality.toNat t)).map some
  ht : ∀ t, s.ht t = buildTable (T.huff t)
  preds : ∀ ch, (s.pred.get ch).toInt = dc ch ∧ DcIn ch (dc ch)
  pixels : ∀ off < p.width.toNat * p.height.toNat * 3, readByte s (p.srcAddr.toNat + off) = px off
  bits : s.BitInv
  pending : pendingBits s = l

section
variable {p : Params} {T : Tables} {px : Nat → Byte} {dc : Channel → Int} {l l' : List Bool} {s t : State}

theorem ScanState.pending_length (hs : ScanState p T px dc l s) : l.length < 8 := by
  rw [← hs.pending, pendingBits_length]
  exact s.nbits.isLt

/-- A state that has the same tables, predictors and pixels is one of the scan too. -/
theorem ScanState.congr (hs : ScanState p T px dc l s) (h : t.scanPart = s.scanPart)
    (hpx : ∀ off < p.width.toNat * p.height.toNat * 3,
      readByte t (p.srcAddr.toNat + off) = readByte s (p.srcAddr.toNat + off))
    (hb : t.BitInv) (hl : pendingBits t = l') : ScanState p T px dc l' t := by
  simp only [State.scanPart, Prod.mk.injEq] at h
  obtain ⟨htab, hq0, hq1, h0, h1, h2, h3, hpred⟩ := h
  have hht (x : HTable) : t.ht x = s.ht x := by cases x <;> assumption
  have hqt (x : QTable) : t.qt x = s.qt x := by cases x <;> assumption
  exact {
    tables := htab.trans hs.tables
    qt := fun x => (hqt x).trans (hs.qt x)
    ht := fun x => (hht x).trans (hs.ht x)
    preds := hpred ▸ hs.preds
    pixels := fun off hoff => (hpx off hoff).trans (hs.pixels off hoff)
    bits := hb
    pending := hl }

/-- The same where the pending bits and memory are as before. -/
theorem ScanState.local (hs : ScanState p T px dc l s) (h : t.scanPart = s.scanPart)
    (hw : (t.mem, t.acc, t.nbits) = (s.mem, s.acc, s.nbits)) : ScanState p T px dc l t := by
  simp only [Prod.mk.injEq] at hw
  obtain ⟨hm, ha, hn⟩ := hw
  refine hs.congr h (fun off _ => readByte_congr hm _) (hs.bits.of_bits_eq (Prod.ext ha hn)) ?_
  rw [pendingBits, ha, hn]
  exact hs.pending

theorem ScanState.with_blk (hs : ScanState p T px dc l s) (v : Vector (Option Rat) 64) :
    ScanState p T px dc l { s with blk := v } := hs.local rfl rfl

theorem ScanState.with_qblk (hs : ScanState p T px dc l s) (v : Vector (Option (BitVec 16)) 64) :
    ScanState p T px dc l { s with qblk := v } := hs.local rfl rfl

theorem ScanState.with_zz (hs : ScanState p T px dc l s) (v : Vector (Option (BitVec 16)) 64) :
    ScanState p T px dc l { s with zz := v } := hs.local rfl rfl

theorem scanPart_withBits_appendBytes (bs : List Byte) (a : BitVec 8) (n : BitVec 3) (s : State) :
    (withBits a n (appendBytes p bs s)).scanPart = s.scanPart := by
  rw [appendBytes_eq]
  rfl

/-- Emission leaves the pixels alone, since the two regions do not overlap (R213). -/
theorem ScanState.emitted (hs : ScanState p T px dc l s) (hp : p.EncodeFits) {bs : List Byte}
    (he : Emitted p bs s t) (h : t.scanPart = s.scanPart) (hb : t.BitInv) (hl : pendingBits t = l') :
    ScanState p T px dc l' t := by
  refine hs.congr h (fun off hoff => he.readByte_outside hp.dstRegion ?_) hb hl
  have hlen := hp.srcLen_eq
  have hoverlap := hp.overlap
  simp only [regionsOverlap, decide_eq_false_iff_not] at hoverlap
  omega

/-! #### The items of the next block -/

/-- The bits of the next block of an image (R169). -/
abbrev Params.blockBits (p : Params) (T : Tables) (px : Nat → Byte) (ch : Channel) (pred : Int) (o : Nat × Nat) : List Bool :=
  imageBlockBits T p.width.toNat p.height.toNat p.quality.toNat px ch pred o

/-- The DC coefficient of a block of an image. -/
abbrev Params.blockDc (p : Params) (T : Tables) (px : Nat → Byte) (o : Nat × Nat) (ch : Channel) : Int :=
  imageDc T p.width.toNat p.height.toNat p.quality.toNat px o ch

/-- A block of an image in zigzag order. -/
abbrev Params.blockZigzag (p : Params) (T : Tables) (px : Nat → Byte) (ch : Channel) (o : Nat × Nat) :
    Vector (BitVec 16) 64 := imageZigzag T p.width.toNat p.height.toNat p.quality.toNat px ch o

theorem itemBitsIn_eq (hht : ∀ t, s.ht t = buildTable (T.huff t)) (i : Item) : itemBitsIn s i = itemBits T i := by
  unfold itemBitsIn itemBits symbolBits
  rw [hht]

variable (ch : Channel) (o : Nat × Nat)

theorem ScanState.items_bits (hs : ScanState p T px dc l s) :
    (entropyItems ch (p.blockZigzag T px ch o) s).flatMap (itemBitsIn s) = p.blockBits T px ch (dc ch) o := by
  rw [entropyItems, (hs.preds ch).1, imageZigzag_toList, funext (itemBitsIn_eq hs.ht)]
  rfl

theorem ScanState.items_defined (hs : ScanState p T px dc l s) (hT : T.Admissible) :
    ∀ i ∈ entropyItems ch (p.blockZigzag T px ch o) s, SymbolDefined s i := by
  obtain ⟨hpred, hdc⟩ := hs.preds ch
  refine entropyItems_defined ⟨hs.tables ▸ hT, fun t => hs.tables ▸ hs.ht t⟩ (hpred ▸ hdc) ?_
  exact (imageQuant_coefsIn T _ _ _ px ch o).zigzag.of_eq (imageZigzag_toInt T _ _ _ px ch o)

/-! #### One channel of one MCU -/

/-- The scan goes on with the DC coefficient of the block in the channel's predictor. -/
theorem ScanState.setPred (hs : ScanState p T px dc l s) :
    ScanState p T px (Function.update dc ch (p.blockDc T px o ch)) l
      { s with pred := s.pred.set ch ((p.blockZigzag T px ch o)[0].signExtend 32) } where
  tables := hs.tables
  qt := hs.qt
  ht := hs.ht
  pixels := hs.pixels
  bits := hs.bits
  pending := hs.pending
  preds := fun c => by
    by_cases hc : c = ch
    · subst hc
      rw [Function.update_self, Preds.get_set_same, BitVec.toInt_signExtend_of_le (by norm_num), imageZigzag_dc]
      exact ⟨rfl, imageDc_dcIn T _ _ _ px c o⟩
    · rw [Function.update_of_ne hc, Preds.get_set_other _ _ hc]
      exact hs.preds c

variable (hp : p.EncodeFits) (hs : ScanState p T px dc l s) (hroom : s.outLen.toNat ≤ p.dstCap.toNat)
include hp hs hroom

theorem sampleBody_emits : (sampleBody p ch o.1 o.2 s).Emits p [] 192 (fun t => ScanState p T px dc l t ∧
    t.blk = (imageSamples p.width.toNat p.height.toNat px ch o).map some) s := by
  unfold sampleBody
  refine (busAccess_emits 192 hroom).bindLocal fun t ht ⟨b, htb⟩ => ?_
  have hst : ScanState p T px dc l t := by
    rw [htb]
    exact hs.local rfl rfl
  exact .nothing ht rfl rfl rfl ⟨hst.with_blk _, hp.sampleBlock_eq hst.pixels ch o⟩

theorem entropyBody_emits (hT : T.Admissible) (hz : s.zz = (p.blockZigzag T px ch o).map some) :
    (entropyBody p ch s).Emits p (emittedBytes (l ++ p.blockBits T px ch (dc ch) o)) 0
      (ScanState p T px (Function.update dc ch (p.blockDc T px o ch)) (leftBits (l ++ p.blockBits T px ch (dc ch) o))) s := by
  rw [entropyBody_eq hz (hs.items_defined ch o hT), hs.items_bits ch o]
  have hpush := forEach_pushBit_emits (p.blockBits T px ch (dc ch) o) hs.bits hroom
  rw [hs.pending] at hpush
  have hscan := hpush.imp (R := ScanState p T px dc (leftBits (l ++ p.blockBits T px ch (dc ch) o)))
    fun t _ he ⟨⟨a, n, ht⟩, hl, hb⟩ =>
      hs.emitted hp he (ht ▸ scanPart_withBits_appendBytes _ a n s) hb hl
  refine hscan.bindLocal fun t ht hst => ?_
  exact .nothing ht rfl rfl rfl (hst.setPred ch o)

theorem encodeChannel_emits (hT : T.Admissible) :
    (encodeChannel p o.1 o.2 ch s).Emits p (emittedBytes (l ++ p.blockBits T px ch (dc ch) o)) 192
      (ScanState p T px (Function.update dc ch (p.blockDc T px o ch)) (leftBits (l ++ p.blockBits T px ch (dc ch) o))) s := by
  let s₀ : State := { s with encPos := some ⟨BitVec.ofNat 16 o.1, BitVec.ofNat 16 o.2, ch⟩ }
  have hs₀ : ScanState p T px dc l s₀ := hs.local rfl rfl
  refine Res.Emits.start (s' := s₀) ?_ rfl rfl rfl
  have hsample := sampleBody_emits ch o hp hs₀ hroom
  have hfdct := hsample.bindLocal (f := fdctBody) (R := fun t => ScanState p T px dc l t ∧
      t.blk = (imageCoefs p.width.toNat p.height.toNat px ch o).map some) fun t ht ⟨hst, hb⟩ => by
    rw [fdctBody_ok hb]
    exact .nothing ht rfl rfl rfl ⟨hst.with_blk _, rfl⟩
  have hquant := hfdct.bindLocal (f := quantBody (quantTableOf ch)) (R := fun t => ScanState p T px dc l t ∧
      t.qblk = ((imageQuant T p.width.toNat p.height.toNat p.quality.toNat px ch o).map coefOfInt).map some)
      fun t ht ⟨hst, hb⟩ => by
    rw [quantBody_image hb (hst.qt _)]
    exact .nothing ht rfl rfl rfl ⟨hst.with_qblk _, rfl⟩
  have hzigzag := hquant.bindLocal (f := zigzagBody) (R := fun t => ScanState p T px dc l t ∧
      t.zz = (p.blockZigzag T px ch o).map some) fun t ht ⟨hst, hb⟩ => by
    rw [zigzagBody_image hb]
    exact .nothing ht rfl rfl rfl ⟨hst.with_zz _, rfl⟩
  exact hzigzag.accessBind fun t ht ⟨hst, hz⟩ => entropyBody_emits ch o hp hst ht hT hz

end

end Sys2Proof.Machine

/-! #### The MCUs, and the whole file (R214, R216) -/

namespace Sys2Proof.Machine

theorem leftBits_append (a b : List Bool) : leftBits (a ++ b) = leftBits (leftBits a ++ b) := (wholeBytes_append a b).2

/-- Padding concerns the bits left over after the complete bytes (R127, R130). -/
theorem emittedBytes_padOnes (l : List Bool) :
    emittedBytes (padOnes l) = emittedBytes l ++ emittedBytes (padOnes (leftBits l)) := by
  rw [padOnes, emittedBytes_append, padOnes, leftBits_length, Nat.mod_mod]

/-- Two bodies that emit bits one after the other emit them as one string. -/
theorem Res.Emits.bindBits {p : Params} {l A B : List Bool} {x y : Nat} {Q R : State → Prop} {s : State} {r : Res}
    (h : r.Emits p (emittedBytes (l ++ A)) x Q s) {f : State → Res}
    (hf : ∀ t, t.outLen.toNat ≤ p.dstCap.toNat → Q t → (f t).Emits p (emittedBytes (leftBits (l ++ A) ++ B)) y R t) :
    (r.bind f).Emits p (emittedBytes (l ++ (A ++ B))) (x + y) R s := by
  rw [← List.append_assoc, emittedBytes_append]
  exact h.bind hf

section
variable {p : Params} {T : Tables} {px : Nat → Byte} (hp : p.EncodeFits) (hT : T.Admissible)
include hp hT

/-- The bits of one MCU (R214). -/
abbrev Params.mcuBits (p : Params) (T : Tables) (px : Nat → Byte) (dc : Channel → Int) (o : Nat × Nat) : List Bool :=
  p.blockBits T px .y (dc .y) o ++ (p.blockBits T px .cb (dc .cb) o ++ p.blockBits T px .cr (dc .cr) o)

theorem encodeMcu_emits {dc : Channel → Int} {l : List Bool} {s : State} (hs : ScanState p T px dc l s)
    (hroom : s.outLen.toNat ≤ p.dstCap.toNat) (o : Nat × Nat) :
    (encodeMcu p o s).Emits p (emittedBytes (l ++ p.mcuBits T px dc o)) 576
      (ScanState p T px (p.blockDc T px o) (leftBits (l ++ p.mcuBits T px dc o))) s := by
  have hdc : Function.update (Function.update (Function.update dc .y (p.blockDc T px o .y)) .cb (p.blockDc T px o .cb)) .cr
      (p.blockDc T px o .cr) = p.blockDc T px o := by
    funext ch
    cases ch <;> rfl
  have hleft (A B C : List Bool) : leftBits (leftBits (leftBits (l ++ A) ++ B) ++ C) = leftBits (l ++ (A ++ (B ++ C))) := by
    rw [← leftBits_append, List.append_assoc, ← leftBits_append, List.append_assoc]
  unfold encodeMcu
  rw [forEach_cons]
  refine (encodeChannel_emits .y o hp hs hroom hT).bindBits (y := 192 + 192) fun t ht hst => ?_
  rw [forEach_cons]
  refine (encodeChannel_emits .cb o hp hst ht hT).bindBits fun u hu hsu => ?_
  rw [forEach_cons, funext (forEach_nil (encodeChannel p o.1 o.2)), Res.bind_pure]
  refine (encodeChannel_emits .cr o hp hsu hu hT).imp fun v _ _ hv => ?_
  rw [hdc, hleft] at hv
  exact hv

theorem encodeMcus_emits (os : List (Nat × Nat)) {dc : Channel → Int} {l : List Bool} {s : State}
    (hs : ScanState p T px dc l s) (hroom : s.outLen.toNat ≤ p.dstCap.toNat) :
    let bits := scanBits T p.width.toNat p.height.toNat p.quality.toNat px dc os
    (forEach (encodeMcu p) os s).Emits p (emittedBytes (l ++ bits)) (576 * os.length)
      (fun t => ∃ dc', ScanState p T px dc' (leftBits (l ++ bits)) t) s := by
  induction os generalizing dc l s with
  | nil =>
    have h8 := hs.pending_length
    simp only [scanBits, List.append_nil]
    rw [emittedBytes_short h8, leftBits_short h8]
    exact .nothing hroom rfl rfl rfl ⟨dc, hs⟩
  | cons o os ih =>
    have hbits : scanBits T p.width.toNat p.height.toNat p.quality.toNat px dc (o :: os) = p.mcuBits T px dc o ++
        scanBits T p.width.toNat p.height.toNat p.quality.toNat px (p.blockDc T px o) os := by
      rw [scanBits, List.append_assoc (p.blockBits T px .y (dc .y) o)]
    dsimp only
    rw [forEach_cons, hbits, List.length_cons, Nat.mul_succ, Nat.add_comm]
    refine (encodeMcu_emits hp hT hs hroom o).bindBits fun t ht hst => (ih hst ht).imp fun u _ _ hu => ?_
    rwa [← leftBits_append, List.append_assoc] at hu

omit hT

theorem ScanState.after_appendBytes {dc : Channel → Int} {l : List Bool} {bs : List Byte} {s t : State}
    (hs : ScanState p T px dc l s) (he : Emitted p bs s t) (ht : t = appendBytes p bs s) : ScanState p T px dc l t := by
  have hbits : (t.acc, t.nbits) = (s.acc, s.nbits) := by rw [ht, appendBytes_eq]
  obtain ⟨ha, hn⟩ := Prod.mk.inj hbits
  refine hs.emitted hp he ?_ (hs.bits.of_bits_eq hbits) ?_
  · rw [ht]
    exact scanPart_withBits_appendBytes bs (appendBytes p bs s).acc (appendBytes p bs s).nbits s
  · rw [pendingBits, ha, hn]
    exact hs.pending

theorem writeHeadersBody_emits {dc : Channel → Int} {s : State} (hs : ScanState p T px dc [] s)
    (hroom : s.outLen.toNat ≤ p.dstCap.toNat) :
    (writeHeadersBody p s).Emits p (headerBytes T p.width.toNat p.height.toNat
      (Vector.ofFn (qtEntry T p.quality.toNat .luma)) (Vector.ofFn (qtEntry T p.quality.toNat .chroma))) 0
      (ScanState p T px dc []) s := by
  rw [writeHeadersBody_eq (hs.qt .luma) (hs.qt .chroma), hs.tables]
  exact (forEach_emitRaw_emits _ hroom).imp fun t _ he ht => ScanState.after_appendBytes hp hs he ht

theorem flushBody_scan_emits {dc : Channel → Int} {l : List Bool} {s : State} (hs : ScanState p T px dc l s)
    (hroom : s.outLen.toNat ≤ p.dstCap.toNat) :
    (flushBody p s).Emits p (emittedBytes (padOnes l)) 0 (ScanState p T px dc []) s := by
  have hflush := flushBody_emits hs.bits hroom
  rw [hs.pending] at hflush
  exact hflush.imp fun t _ he ⟨⟨a, n, ht⟩, hl, hb⟩ =>
    hs.emitted hp he (ht ▸ scanPart_withBits_appendBytes _ a n s) hb hl

end

/-! #### The whole of ENCODE (R212) -/

/-- The state of the block before its first access: the bodies of RESET_STREAM, QT_SCALE and HUFF_BUILD. -/
def encodeSetup (p : Params) (s : State) : State :=
  { s with
    outLen := 0, acc := 0, nbits := 0, pred := ⟨0, 0, 0⟩
    qt0 := scaledTable (s.tables.baseQt .luma) p.quality.toNat
    qt1 := scaledTable (s.tables.baseQt .chroma) p.quality.toNat
    qtValid := true
    ht0 := buildTable (s.tables.huff .dcLuma)
    ht1 := buildTable (s.tables.huff .acLuma)
    ht2 := buildTable (s.tables.huff .dcChroma)
    ht3 := buildTable (s.tables.huff .acChroma)
    htValid := true }

/-- The bodies of ENCODE that make accesses: headers, MCUs, FLUSH and EOI. -/
def encodeFile (p : Params) (s : State) : Res :=
  (((writeHeadersBody p s).bind (forEach (encodeMcu p) (blockOrigins p.width.toNat p.height.toNat))).bind
    (flushBody p)).bind (writeEoiBody p)

theorem encodeBody_eq (p : Params) (s : State) : encodeBody p s = encodeFile p (encodeSetup p s) := by
  have hsetup : ((resetStreamBody s).bind (qtScaleBody p)).bind huffBuildBody = .ok (encodeSetup p s) := rfl
  unfold encodeBody encodeFile
  rw [hsetup, Res.bind_ok]

theorem scaledTable_eq (T : Tables) (q : Nat) (t : QTable) :
    scaledTable (T.baseQt t) q = (Vector.ofFn (qtEntry T q t)).map some := by
  ext i hi : 1
  rw [Vector.getElem_map, scaledTable, Vector.getElem_ofFn, Vector.getElem_ofFn, qtEntry]

theorem encodeSetup_scanState (p : Params) (s : State) : ScanState p s.tables
    (fun off => readByte s (p.srcAddr.toNat + off)) (fun _ => 0) [] (encodeSetup p s) where
  tables := rfl
  qt := fun t => by
    rw [← scaledTable_eq]
    cases t <;> rfl
  ht := fun t => by cases t <;> rfl
  preds := fun ch => by
    rw [show (encodeSetup p s).pred = ⟨0, 0, 0⟩ from rfl, dcIn_iff]
    cases ch <;> decide
  pixels := fun _ _ => rfl
  bits := by simp [State.BitInv, encodeSetup]
  pending := rfl

theorem length_blockOrigins (w h : Nat) : (blockOrigins w h).length = blocksIn w * blocksIn h := by
  simp [blockOrigins, List.length_flatMap, mul_comm]

/-- ENCODE emits the file of the image, with 576 more accesses for each MCU (R216; log 8). -/
theorem encodeFile_emits {p : Params} (hp : p.EncodeFits) {s : State} (hT : s.tables.Admissible) :
    (encodeFile p (encodeSetup p s)).Emits p (fileOf p s) (576 * (blocksIn p.width.toNat * blocksIn p.height.toNat))
      (fun t => ∃ dc, ScanState p s.tables (fun off => readByte s (p.srcAddr.toNat + off)) dc [] t) (encodeSetup p s) := by
  have hheaders := writeHeadersBody_emits hp (encodeSetup_scanState p s) (Nat.zero_le _)
  have hmcus := hheaders.bind fun t ht hst =>
    encodeMcus_emits hp hT (blockOrigins p.width.toNat p.height.toNat) hst ht
  have hflush := hmcus.bind (y := 0) fun t ht ⟨dc, hst⟩ =>
    (flushBody_scan_emits hp hst ht).imp (R := fun u => ∃ dc, ScanState p s.tables _ dc [] u) fun u _ _ hu => ⟨dc, hu⟩
  have heoi := hflush.bind (f := writeEoiBody p) (y := 0) fun t ht ⟨dc, hst⟩ =>
    (forEach_emitRaw_emits [0xFF, 0xD9] ht).imp (R := fun u => ∃ dc, ScanState p s.tables _ dc [] u)
      fun u _ he hu => ⟨dc, ScanState.after_appendBytes hp hst he hu⟩
  rw [List.nil_append, length_blockOrigins, Nat.zero_add, Nat.add_zero, List.append_assoc (headerBytes _ _ _ _ _),
    ← emittedBytes_padOnes] at heoi
  exact heoi

end Sys2Proof.Machine

/-! ### A capacity that the file of any image fits (47_orchestrator.md R220) -/

namespace Sys2Proof.Machine

/-! #### The header -/

theorem length_dhtLength (n : Nat) : (dhtLength n).length = 2 := by
  unfold dhtLength
  split <;> rfl

theorem length_segDqt (t : QTable) (q : Vector Byte 64) : (segDqt t q).length = 69 := by
  simp [segDqt, be16]

theorem length_segDht (t : HTable) {h : HuffSpec} (hb : h.bits.length = 16) :
    (segDht t h).length = 21 + h.vals.length := by
  simp only [segDht, List.length_append, length_dhtLength, List.length_map, List.length_cons, List.length_nil, hb]

theorem length_headerBytes {T : Tables} (hT : ∀ t, (T.huff t).bits.length = 16) (w h : Nat) (q0 q1 : Vector Byte 64) :
    (headerBytes T w h q0 q1).length = headerLength T := by
  simp only [headerBytes, List.length_append, length_segDqt, length_segDht _ (hT _)]
  simp only [segSoi, segApp0, segSof0, segSos, be16, List.length_append, List.length_cons, List.length_nil, headerLength,
    Tables.huff]
  omega

/-! #### The codes -/

theorem le_foldl_max (ls : List Nat) (n : Nat) : n ≤ ls.foldl max n ∧ ∀ l ∈ ls, l ≤ ls.foldl max n := by
  induction ls generalizing n with
  | nil => exact ⟨le_rfl, fun _ hl => nomatch hl⟩
  | cons x xs ih =>
    obtain ⟨hstart, hrest⟩ := ih (max n x)
    exact ⟨(le_max_left n x).trans hstart, List.forall_mem_cons.2 ⟨(le_max_right n x).trans hstart, hrest⟩⟩

theorem le_longest {h : HuffSpec} {l : Nat} (hl : l ∈ codeLengths h) : l ≤ h.longest := (le_foldl_max _ 0).2 l hl

theorem assignments_length_le {h : HuffSpec} {x : Nat × Nat × Nat} (hx : x ∈ h.assignments) : x.2.2 ≤ h.longest := by
  refine le_longest ?_
  rw [codeLengths_eq, ← codesFrom_lengths 1 h.bits 0]
  exact List.mem_map_of_mem (List.of_mem_zip hx).2

/-- No code of the table is longer than `n`. -/
def CodesWithin (n : Nat) (t : Vector (Option HtEntry) 256) : Prop := ∀ (i : Fin 256) (e : HtEntry), t[i] = some e → e.len.toNat ≤ n

theorem foldl_assignCode_within {n : Nat} {xs : List (Nat × Nat × Nat)} (hx : ∀ x ∈ xs, x.2.2 ≤ n)
    {t : Vector (Option HtEntry) 256} (ht : CodesWithin n t) : CodesWithin n (xs.foldl assignCode t) := by
  induction xs generalizing t with
  | nil => exact ht
  | cons x xs ih =>
    refine ih (fun y hy => hx y (List.mem_cons_of_mem _ hy)) fun i e he => ?_
    rw [assignCode_get] at he
    split at he
    · obtain rfl := Option.some.inj he
      exact (BitVec.toNat_ofNat _ _).trans_le ((Nat.mod_le _ _).trans (hx x List.mem_cons_self))
    · exact ht i e he

theorem buildTable_within {h : HuffSpec} (hf : h.Fits) : CodesWithin h.longest (buildTable h) := by
  rw [buildTable_eq hf]
  refine foldl_assignCode_within (fun x hx => assignments_length_le hx) fun i e he => ?_
  obtain rfl : notValid = e := by simpa using he
  exact Nat.zero_le _

theorem length_symbolBits_le {T : Tables} {t : HTable} (hf : (T.huff t).Fits) (sym : Nat) :
    (symbolBits T t sym).length ≤ (T.huff t).longest := by
  unfold symbolBits
  split
  next e he =>
    obtain ⟨hlt, hget⟩ := Vector.getElem?_eq_some_iff.1 he
    rw [bitString_length]
    exact buildTable_within hf ⟨sym, hlt⟩ e hget
  · exact Nat.zero_le _
  · exact Nat.zero_le _

theorem length_itemBits_le {T : Tables} {i : Item} (hf : (T.huff i.table).Fits) :
    (itemBits T i).length ≤ (T.huff i.table).longest + i.nbits := by
  rw [itemBits, List.length_append, bitString_length]
  exact Nat.add_le_add_right (length_symbolBits_le hf i.sym) _

/-! #### The blocks -/

/-- The AC items of a block: each coefficient, coded or passed over, takes at most one code and 10 magnitude bits. -/
theorem length_acItems_bits_le {T : Tables} {t : HTable} (hf : (T.huff t).Fits) {n : Nat} (hn : (T.huff t).longest ≤ n)
    {coefs : List Int} (hc : ∀ v ∈ coefs, |v| ≤ 1020) (run : Nat) :
    ((acItems t run coefs).flatMap (itemBits T)).length ≤ (run + coefs.length) * (n + 10) := by
  have hitem {sym bits nbits : Nat} (hb : nbits ≤ 10) : (itemBits T ⟨t, sym, bits, nbits⟩).length ≤ n + 10 :=
    (length_itemBits_le (i := ⟨t, sym, bits, nbits⟩) hf).trans (Nat.add_le_add hn hb)
  induction coefs generalizing run with
  | nil =>
    unfold acItems
    split
    · simp only [List.flatMap_cons, List.flatMap_nil, List.append_nil, List.length_nil, Nat.add_zero]
      exact (hitem (Nat.zero_le 10)).trans (Nat.le_mul_of_pos_left _ ‹_›)
    · exact Nat.zero_le _
  | cons v vs ih =>
    have ih := ih fun x hx => hc x (List.mem_cons_of_mem _ hx)
    rw [List.length_cons]
    unfold acItems
    split
    · exact (ih (run + 1)).trans (Nat.mul_le_mul_right _ (by omega))
    · have hbits : bitlen v ≤ 10 := bitlen_le (by have := abs_le.1 (hc v List.mem_cons_self); omega)
      have hzrl : ((List.replicate (run / 16) (zrl t)).flatMap (itemBits T)).length ≤ run * (n + 10) := by
        rw [List.length_flatMap, List.map_replicate, List.sum_replicate_nat]
        exact Nat.mul_le_mul (Nat.div_le_self _ _) (hitem (Nat.zero_le 10))
      have hsym := hitem (sym := ((run % 16) <<< 4) ||| bitlen v) (bits := magbits v (bitlen v)) hbits
      have hrest := ih 0
      rw [List.flatMap_append, List.flatMap_cons, List.length_append, List.length_append]
      rw [Nat.zero_add] at hrest
      calc _ ≤ run * (n + 10) + (n + 10 + vs.length * (n + 10)) := by omega
        _ = (run + (vs.length + 1)) * (n + 10) := by ring

/-- The bits of a block in range at most (R220). -/
theorem length_blockItems_bits_le {T : Tables} (hT : T.Admissible) {ch : Channel} {pred : Int} (hpred : DcIn ch pred)
    {v : Fin 64 → Int} (hv : CoefsIn ch v) :
    ((blockItems ch pred ((List.finRange 64).map v)).flatMap (itemBits T)).length ≤ blockBitsMax T := by
  have hhead : ((List.finRange 64).map v).headD 0 = v 0 := by rw [List.finRange_succ]; rfl
  have htail : ((List.finRange 64).map v).tail = (List.finRange 63).map fun k => v k.succ := by
    rw [List.finRange_succ, List.map_cons, List.tail_cons, List.map_map]
    rfl
  have hdc : bitlen (v 0 - pred) ≤ 11 := bitlen_le (by
    have h1 := (dcIn_iff ch _).1 hv.1
    have h2 := (dcIn_iff ch _).1 hpred
    cases ch <;> dsimp only at h1 h2 <;> omega)
  have hdcTable : (T.huff (dcTable ch)).longest ≤ max T.dcLuma.longest T.dcChroma.longest := by
    cases ch
    · exact le_max_left _ _
    all_goals exact le_max_right _ _
  have hacTable : (T.huff (acTable ch)).longest ≤ max T.acLuma.longest T.acChroma.longest := by
    cases ch
    · exact le_max_left _ _
    all_goals exact le_max_right _ _
  have hcode := length_itemBits_le (i := dcItem (dcTable ch) (v 0 - pred)) (hT.huff _).toFits
  have hac := length_acItems_bits_le (hT.huff (acTable ch)).toFits hacTable
    (coefs := (List.finRange 63).map fun k => v k.succ) (List.forall_mem_map.2 fun k _ => hv.2 _ (Fin.succ_ne_zero k)) 0
  rw [blockItems, hhead, htail, List.flatMap_cons, List.length_append, blockBitsMax]
  rw [List.length_map, List.length_finRange, Nat.zero_add] at hac
  dsimp only [dcItem] at hcode ⊢
  omega

/-- The bits of a block of an image at most (R220). -/
theorem length_imageBlockBits_le {T : Tables} (hT : T.Admissible) (w h q : Nat) (px : Nat → Byte) {ch : Channel} {pred : Int}
    (hpred : DcIn ch pred) (o : Nat × Nat) : (imageBlockBits T w h q px ch pred o).length ≤ blockBitsMax T :=
  length_blockItems_bits_le hT hpred (imageQuant_coefsIn T w h q px ch o).zigzag

theorem length_scanBits_le {T : Tables} (hT : T.Admissible) (w h q : Nat) (px : Nat → Byte) {dc : Channel → Int}
    (hdc : ∀ ch, DcIn ch (dc ch)) (os : List (Nat × Nat)) :
    (scanBits T w h q px dc os).length ≤ 3 * blockBitsMax T * os.length := by
  induction os generalizing dc with
  | nil => exact Nat.zero_le _
  | cons o os ih =>
    have hy := length_imageBlockBits_le hT w h q px (hdc .y) o
    have hcb := length_imageBlockBits_le hT w h q px (hdc .cb) o
    have hcr := length_imageBlockBits_le hT w h q px (hdc .cr) o
    have hrest := ih fun ch => imageDc_dcIn T w h q px ch o
    rw [scanBits, List.length_append, List.length_append, List.length_append, List.length_cons, Nat.mul_succ]
    omega

theorem length_padOnes_div (l : List Bool) : (padOnes l).length / 8 = (l.length + 7) / 8 := by
  rw [padOnes, List.length_append, List.length_replicate]
  omega

/-- The file of an image fits the capacity of R220. -/
theorem length_fileOf_le {s : State} (hT : s.tables.Admissible) (p : Params) :
    (fileOf p s).length ≤ sufficientCapacity s.tables p := by
  have hscan := length_scanBits_le hT p.width.toNat p.height.toNat p.quality.toNat
    (fun off => readByte s (p.srcAddr.toNat + off)) (dc := fun _ => 0) (fun ch => by rw [dcIn_iff]; cases ch <;> decide)
    (blockOrigins p.width.toNat p.height.toNat)
  have hbytes := emittedBytes_length_le (padOnes (scanBits s.tables p.width.toNat p.height.toNat p.quality.toNat
    (fun off => readByte s (p.srcAddr.toNat + off)) (fun _ => 0) (blockOrigins p.width.toNat p.height.toNat)))
  rw [length_blockOrigins] at hscan
  rw [length_padOnes_div] at hbytes
  rw [fileOf, imageFile, imageScan, List.length_append, List.length_append,
    length_headerBytes fun t => (hT.huff t).sixteen, sufficientCapacity]
  simp only [List.length_cons, List.length_nil]
  omega

end Sys2Proof.Machine

/-! ### Which accesses of ENCODE can fail, and what a failure leaves (20_memory.md R69; 60_exceptions.md R237; logs 8 and 16) -/

namespace Sys2Proof.Machine

theorem encodeFits_of_valid {s : State} (h : Valid .encode s) : (latched s).EncodeFits where
  dimensions := h (dimensionsBad (latched s), .badDimensions) (by simp [validation, dimensionsBad])
  srcLen := h (srcLenBad (latched s), .badSrcLen) (by simp [validation, srcLenBad])
  srcRegion := h (srcRegionBad (latched s), .badRegion) (by simp [validation, srcRegionBad])
  dstRegion := dstRegion_of_valid rfl h
  overlap := h (regionsOverlap (latched s), .badRegion) (by simp [validation, regionsOverlap])

theorem encodeCmd_of_valid {s : State} (h : Valid .encode s) :
    bodyOf .encode (latched s) s = encodeFile (latched s) (encodeSetup (latched s) s) := by
  have hp := encodeFits_of_valid h
  have hq : qualityBad (latched s) = false := h (qualityBad (latched s), .badQuality) (by simp [validation, qualityBad])
  rw [← encodeBody_eq]
  change encodeCmd (latched s) s = _
  rw [encodeCmd, hp.dimensions, hp.srcLen, hq, hp.srcRegion, hp.dstRegion, hp.overlap, check_false, check_false,
    check_false, check_false, check_false, check_false]

/-! #### A run that no access of its own fails -/

/-- The platform's countdown at the end of a command is that at the end of its body. -/
theorem exec_busErrIn {i : Instr} {s t : State} (h : exec i s = .next t) :
    t.busErrIn = (bodyOf i (latched s) s).state.busErrIn := by
  cases exec_ends h with
  | succeeds hbody | fails hbody =>
    rw [hbody]
    rfl
  | overflows hbody =>
    rw [hbody, spoilOverflow_eq]
    rfl
  | busFails hbody | readsNone hbody =>
    rw [hbody, spoilBusError_eq]
    rfl

/-- With the capacity of R220 and an error response only after its last access, ENCODE succeeds. -/
theorem exec_encode_whole {s : State} {k : Nat} (hv : Valid .encode s) (hT : s.tables.Admissible)
    (hcap : sufficientCapacity s.tables (latched s) ≤ (latched s).dstCap.toNat)
    (hk : s.busErrIn = some ((fileOf (latched s) s).length +
      576 * (blocksIn (latched s).width.toNat * blocksIn (latched s).height.toNat) + k)) :
    ∃ t, exec .encode s = .next t ∧ t.err = s.err ∧ t.busErrIn = some k := by
  have hfile := encodeFile_emits (encodeFits_of_valid hv) hT
  have hfits := (length_fileOf_le hT (latched s)).trans hcap
  have hcontrol := bodyOf_keepsControl .encode (latched s) s
  rw [exec_eq_next]
  rw [encodeCmd_of_valid hv] at hcontrol ⊢
  generalize encodeFile (latched s) (encodeSetup (latched s) s) = r at hfile hcontrol
  cases hfile with
  | @ok t he ha hc hQ =>
    refine ⟨complete t, rfl, congrArg Control.err hcontrol, hc.trans ?_⟩
    change s.busErrIn.map _ = _
    rw [hk]
    exact congrArg some (Nat.add_sub_cancel_left _ _)
  | @overflow t out he hpre hlt hfull =>
    change _ ≤ 0 + _ at hfull
    omega
  | @busError t out j he hpre hj hlt =>
    obtain rfl := Option.some.inj (hk.symm.trans hj)
    omega

/-! #### Two runs of which the one's countdown is `d` ahead of the other's -/

/-- The same memory, and the first countdown is `d` more than the second. -/
def countdownAhead (d : Nat) : PlatformRel := fun m b m' b' => m' = m ∧ ∃ j, b' = some j ∧ b = some (j + d)

theorem countdownAhead_lawful (d : Nat) : (countdownAhead d).Lawful True where
  store := by
    rintro m _ b b' a v ⟨rfl, h⟩
    exact ⟨rfl, h⟩
  access := by
    rintro n s _ @⟨_, _, rfl, j, rfl, hb⟩
    by_cases hj : j < n
    · rw [busAccess_error (s := s.onPlatform s.mem (some j)) rfl hj]
      exact .busFails trivial rfl
    · rw [busAccess_ok fun k hk => by rw [hb] at hk; have := Option.some.inj hk; omega,
        busAccess_ok (s := s.onPlatform s.mem (some j)) fun k hk => by have := Option.some.inj hk; omega]
      refine .ok ⟨rfl, j - n, rfl, ?_⟩
      change s.busErrIn.map _ = _
      rw [hb]
      refine congrArg some ?_
      change j + d - n = j - n + d
      omega

theorem countdownAhead_samePixels (d : Nat) {p : Params} (hp : p.PixelsFit) : (countdownAhead d).SamePixels p := by
  rintro s _ ⟨hm, _⟩ ch bx byy
  exact hp.sampleBlock_congr (fun a _ _ => readByte_congr hm a) ch bx byy

/-- A command that had accesses left to make when its countdown was larger fails on the bus when it is smaller. -/
theorem bodyOf_busError_of_countdown {i : Instr} {s u : State} {n left k : Nat}
    (hu : exec i { s with busErrIn := some n } = .next u) (hleft : u.busErrIn = some left) (hk : k < n - left) :
    ∃ v, bodyOf i (latched s) { s with busErrIn := some k } = .raise .busError v := by
  have hstart : Coupled (countdownAhead (n - k)) { s with busErrIn := some n } { s with busErrIn := some k } :=
    ⟨rfl, k, rfl, congrArg some (by omega)⟩
  have hbody := bodyOf_couples (countdownAhead_lawful (n - k)) (i := i) (p := latched s)
    (fun _ hp => countdownAhead_samePixels _ hp) _ _ hstart
  have hend : (bodyOf i (latched s) { s with busErrIn := some n }).state.busErrIn = some left :=
    (exec_busErrIn hu).symm.trans hleft
  generalize bodyOf i (latched s) { s with busErrIn := some n } = r at hbody hend
  generalize bodyOf i (latched s) { s with busErrIn := some k } = r' at hbody
  cases hbody with
  | @busFails _ v _ _ => exact ⟨v, rfl⟩
  | ok h | raise c h | uninit h =>
    obtain ⟨_, j, _, hj⟩ := h
    have := Option.some.inj (hend.symm.trans hj)
    omega

/-! #### What a failed access leaves -/

/-- The row of R88 of the bodies of ENCODE that make accesses: the tables have been written before them. -/
def scanRow : Writes := { writesOf .encode with qt := false, ht := false }

theorem encodeChannel_madeOfScanMoves (p : Params) (bx byy : Nat) (ch : Channel) :
    MadeOfMoves scanRow p (encodeChannel p bx byy ch) := by
  intro s
  have hch : ch ∈ scanRow.preds := by cases ch <;> decide
  exact .after (.single (.position rfl _)) (((((sampleBody_madeOfMoves rfl ch bx byy _).bind (fdctBody_madeOfMoves rfl)).bind
    (quantBody_madeOfMoves rfl _)).bind (zigzagBody_madeOfMoves rfl)).bind (entropyBody_madeOfMoves rfl rfl hch))

theorem encodeMcu_madeOfScanMoves (p : Params) (o : Nat × Nat) : MadeOfMoves scanRow p (encodeMcu p o) :=
  MadeOfMoves.forEach (encodeChannel_madeOfScanMoves p o.1 o.2) _

theorem encodeFile_madeOfScanMoves (p : Params) : MadeOfMoves scanRow p (encodeFile p) := by
  intro s
  unfold encodeFile
  refine Res.Within.bind ?_ (writeEoiBody_madeOfMoves rfl)
  refine Res.Within.bind ?_ (flushBody_madeOfMoves rfl rfl)
  exact Res.Within.bind (writeHeadersBody_madeOfMoves rfl s) (MadeOfMoves.forEach (encodeMcu_madeOfScanMoves p) _)

theorem readByte_failed (s : State) (c : ErrCode) (a : Nat) : readByte (s.failed c) a = readByte s a :=
  readByte_congr rfl a

/-- The bytes at DST_ADDR after ENCODE has emitted `bs`. -/
theorem Emitted.readByte_encodeSetup {p : Params} {bs : List Byte} {s v : State} (hp : dstRegionBad p = false)
    (h : Emitted p bs (encodeSetup p s) v) (a : Nat) :
    Machine.readByte v (p.dstAddr.toNat + a) = bs[a]?.getD (Machine.readByte s (p.dstAddr.toNat + a)) := by
  have hlen : (encodeSetup p s).outLen.toNat = 0 := rfl
  have hmem : Machine.readByte (encodeSetup p s) (p.dstAddr.toNat + a) = Machine.readByte s (p.dstAddr.toNat + a) :=
    readByte_congr rfl _
  rw [h.readByte hp, hlen, hmem, Nat.add_zero, if_pos (Nat.le_add_right _ _), Nat.add_sub_cancel_left]

section
variable {s : State} (hv : Valid .encode s) (hT : s.tables.Admissible)
include hv hT

/-- A run of ENCODE that fails on the bus stops among its accesses, with a prefix of the file emitted. -/
theorem encodeFile_busError {v : State} (hbody : bodyOf .encode (latched s) s = .raise .busError v) :
    v = (encodeSetup (latched s) s).withScan v ∧ v.busErrIn = none ∧ ∃ j m, s.busErrIn = some j ∧ m ≤ j ∧
      Emitted (latched s) ((fileOf (latched s) s).take m) (encodeSetup (latched s) s) v := by
  rw [encodeCmd_of_valid hv] at hbody
  have hfile := encodeFile_emits (encodeFits_of_valid hv) hT
  have hmoves := (encodeFile_madeOfScanMoves (latched s) (encodeSetup (latched s) s)).moves
  rw [hbody] at hfile hmoves
  have hscan := hmoves.invariant (P := fun u => u = (encodeSetup (latched s) s).withScan u)
    (fun _ _ hmove hu => hmove.eq_withScan rfl rfl hu) rfl
  cases hfile with
  | @busError _ out j he hpre hj hlt hout hb =>
    rw [List.prefix_iff_eq_take.1 hpre] at he
    exact ⟨hscan, hb, j, out.length, hj, hout, he⟩

/-- BUS_ERROR of ENCODE: the tables are those that its first bodies wrote, and the stream is open within its bounds. -/
theorem exec_encode_busError {v : State} (hbody : bodyOf .encode (latched s) s = .raise .busError v) :
    ∃ t, exec .encode s = .next t ∧
      t = ({ s with
        qt0 := Vector.ofFn fun i => some (qtEntry s.tables (latched s).quality.toNat .luma i)
        qt1 := Vector.ofFn fun i => some (qtEntry s.tables (latched s).quality.toNat .chroma i)
        qtValid := true
        ht0 := buildTable s.tables.dcLuma
        ht1 := buildTable s.tables.acLuma
        ht2 := buildTable s.tables.dcChroma
        ht3 := buildTable s.tables.acChroma
        htValid := true
        blk := Vector.replicate 64 none
        qblk := Vector.replicate 64 none
        zz := Vector.replicate 64 none
        mem := t.mem, outLen := t.outLen, acc := t.acc, nbits := t.nbits, pred := t.pred, draws := t.draws
        busErrIn := none } : State).failed .busError ∧
      min s.outLen.toNat (latched s).dstCap.toNat ≤ t.outLen.toNat ∧
      t.outLen.toNat ≤ max s.outLen.toNat (latched s).dstCap.toNat ∧
      (∀ a : Nat, a < (latched s).dstAddr.toNat ∨ (latched s).dstAddr.toNat + (latched s).dstCap.toNat ≤ a →
        readByte t a = readByte s a) ∧
      ∃ j m, s.busErrIn = some j ∧ m ≤ j ∧ ∀ a : Nat, a < s.outLen.toNat → a < (latched s).dstCap.toNat →
        readByte t ((latched s).dstAddr.toNat + a) =
          ((fileOf (latched s) s).take m)[a]?.getD (readByte s ((latched s).dstAddr.toNat + a)) := by
  obtain ⟨hscan, hb, j, m, hj, hm, hemit⟩ := encodeFile_busError hv hT hbody
  have hexec := exec_of_busError hbody
  have hstate := spoilBusError_withScan (writesOf .encode) (latched s) s.outLen.toNat hscan
  rw [hb] at hstate
  obtain ⟨hmin, hmax⟩ := spoilBusError_outLen_bounds (w := writesOf .encode) rfl (latched s) s v
  refine ⟨_, hexec, (congrArg (State.failed · .busError) hstate).trans rfl, hmin, hmax,
    fun a ha => onlyOutputRegionWritten _ _ _ hexec a (by omega), j, m, hj, hm, fun a ha hcap => ?_⟩
  rw [readByte_failed, readByte_spoilBusError _ _ (.inl (by omega)),
    hemit.readByte_encodeSetup (dstRegion_of_valid rfl hv)]

end

/-- Settles O37. SAMPLE fails before its reads, the emitting commands at the byte whose access fails, and ENCODE wherever a
run with a larger countdown still had accesses to make. -/
theorem busErrorState : Obligations.BusErrorState := by
  refine ⟨rfl, fun s ch k hv hk hlt => exec_sample_busError hv hk hlt, fun s i k h hk hlt hroom => ?_,
    fun s k hv hT hcap hk => exec_encode_whole hv hT hcap hk, fun s u n left k hv hT hu hleft hk => ?_⟩
  · obtain ⟨t, hexec, hstate, hmin, hmax, hmem⟩ := exec_emission_busError h hk hlt hroom
    obtain ⟨he, hne, _⟩ := h
    have hreset : i ≠ .resetStream := fun hi => by rw [hi] at he; cases he
    have hrestarts := writesOf_restarts hreset hne
    refine ⟨t, hexec, hstate, fun hi => ?_, fun ch hch => exec_pred_frame hexec (writesOf_preds hch hreset hne) hrestarts,
      hmin, hmax, hmem⟩
    have hbits : (writesOf i).bits = false := by obtain rfl | rfl := hi <;> rfl
    obtain hkeep | ⟨_, hcode⟩ := exec_bits_of_container hexec hbits hrestarts
    · exact Prod.mk.inj hkeep
    · rw [hstate] at hcode
      cases hcode
  · obtain ⟨v, hbody⟩ := bodyOf_busError_of_countdown hu hleft hk
    obtain ⟨t, hexec, hstate, hmin, hmax, hout, j, m, hj, hm, hbytes⟩ :=
      exec_encode_busError (s := { s with busErrIn := some k }) hv hT hbody
    obtain rfl := Option.some.inj hj
    exact ⟨t, hexec, hstate, hmin, hmax, hout, m, hm, hbytes⟩

end Sys2Proof.Machine

/-! ### Command words (30_encoding.md R81 to R92) -/

namespace Sys2Proof

/-! #### The three fields of a word (R81) -/

theorem toNat_fieldOp (w : Word) : (fieldOp w).toNat = w.toNat / 2 ^ 24 := by
  rw [fieldOp, BitVec.extractLsb'_toNat, Nat.shiftRight_eq_div_pow]
  omega

theorem toNat_fieldRsv (w : Word) : (fieldRsv w).toNat = w.toNat / 2 ^ 6 % 2 ^ 18 := by
  rw [fieldRsv, BitVec.extractLsb'_toNat, Nat.shiftRight_eq_div_pow]

theorem toNat_fieldImm (w : Word) : (fieldImm w).toNat = w.toNat % 2 ^ 6 := by
  rw [fieldImm, BitVec.extractLsb'_toNat, Nat.shiftRight_zero]

/-- The number of a word whose fields are given. -/
theorem toNat_ofFields (op : BitVec 8) (rsv : BitVec 18) (imm : BitVec 6) :
    (op ++ (rsv ++ imm)).toNat = op.toNat * 2 ^ 24 + rsv.toNat * 2 ^ 6 + imm.toNat := by
  rw [Machine.toNat_append_eq_add, Machine.toNat_append_eq_add, Nat.add_assoc]

/-- A word has the fields it is put together from, and no two words have the same. -/
theorem ofFields_eq_iff {op : BitVec 8} {rsv : BitVec 18} {imm : BitVec 6} {w : Word} :
    op ++ (rsv ++ imm) = w ↔ fieldOp w = op ∧ fieldRsv w = rsv ∧ fieldImm w = imm := by
  simp only [BitVec.toNat_eq, toNat_ofFields, toNat_fieldOp, toNat_fieldRsv, toNat_fieldImm]
  omega

theorem encode_eq_iff {i : Instr} {w : Word} :
    encode i = w ↔ fieldOp w = opcodeOf i ∧ fieldRsv w = 0 ∧ fieldImm w = immOf i := ofFields_eq_iff

/-! #### The rows of the opcode map (R82, R83) -/

/-- What the row of an opcode reads: for every operand up to the largest, the instruction of that opcode and operand; for
no larger operand anything. -/
structure RowReads (op : BitVec 8) (largest : Nat) (row : BitVec 6 → Option Instr) : Prop where
  reads : ∀ imm, imm.toNat ≤ largest → ∃ i, row imm = some i ∧ opcodeOf i = op ∧ immOf i = imm ∧ i.WellFormed
  rejects : ∀ imm, largest < imm.toNat → row imm = none

theorem operandZero_reads {op : BitVec 8} {i : Instr} (hop : opcodeOf i = op) (himm : immOf i = 0)
    (hi : i.WellFormed) : RowReads op 0 (operandZero i) where
  reads imm h := by
    obtain rfl : imm = 0 := BitVec.eq_of_toNat_eq (Nat.le_zero.1 h)
    exact ⟨i, rfl, hop, himm, hi⟩
  rejects imm h := if_neg fun he => by simp [he] at h

theorem operandLen_reads : RowReads 0x04 32 (operandLen .pushBits) where
  reads imm h := ⟨.pushBits imm, if_pos h, rfl, rfl, decide_eq_true h⟩
  rejects _ h := if_neg (Nat.not_le.2 h)

theorem operandTable_reads : RowReads 0x08 1 (operandTable .quant) where
  reads imm h := by
    obtain h | h : imm.toNat = 0 ∨ imm.toNat = 1 := by omega
    · obtain rfl : imm = 0 := BitVec.eq_of_toNat_eq h
      exact ⟨.quant .luma, rfl, rfl, rfl, rfl⟩
    · obtain rfl : imm = 1 := BitVec.eq_of_toNat_eq h
      exact ⟨.quant .chroma, rfl, rfl, rfl, rfl⟩
  rejects imm h := by
    have h0 : imm ≠ 0 := fun he => by simp [he] at h
    have h1 : imm ≠ 1 := fun he => by simp [he] at h
    rw [operandTable, if_neg h0, if_neg h1]

theorem operandChannel_reads {op : BitVec 8} {f : Channel → Instr}
    (hf : ∀ ch, opcodeOf (f ch) = op ∧ immOf (f ch) = immOfChannel ch ∧ (f ch).WellFormed) :
    RowReads op 2 (operandChannel f) where
  reads imm h := by
    obtain h | h | h : imm.toNat = 0 ∨ imm.toNat = 1 ∨ imm.toNat = 2 := by omega
    · obtain rfl : imm = 0 := BitVec.eq_of_toNat_eq h
      exact ⟨f .y, rfl, hf .y⟩
    · obtain rfl : imm = 1 := BitVec.eq_of_toNat_eq h
      exact ⟨f .cb, rfl, hf .cb⟩
    · obtain rfl : imm = 2 := BitVec.eq_of_toNat_eq h
      exact ⟨f .cr, rfl, hf .cr⟩
  rejects imm h := by
    have h0 : imm ≠ 0 := fun he => by simp [he] at h
    have h1 : imm ≠ 1 := fun he => by simp [he] at h
    have h2 : imm ≠ 2 := fun he => by simp [he] at h
    rw [operandChannel, if_neg h0, if_neg h1, if_neg h2]

/-- The reserved opcodes (R85). -/
abbrev ReservedOp (op : Nat) : Prop := op = 0x0D ∨ op = 0x0E ∨ 0x10 ≤ op

/-- The largest operand of an opcode that is not reserved (R82, R83). -/
abbrev largestOperand (op : Nat) : Nat :=
  if op = 0x04 then 32 else if op = 0x07 ∨ op = 0x0A then 2 else if op = 0x08 then 1 else 0

theorem opcodeRow_of_reserved {op : BitVec 8} (h : ReservedOp op.toNat) : opcodeRow op = none := by
  unfold opcodeRow
  split
  pick_goal 15
  · rfl
  all_goals omega

/-- One instruction of each row of R83. -/
def rowInstrs : List Instr :=
  [.nop, .qtScale, .huffBuild, .resetStream, .pushBits 0, .flush, .fdct, .sample .y, .quant .luma, .zigzag, .entropy .y,
    .writeHeaders, .writeEoi, .encode]

theorem exists_opcodeOf {op : BitVec 8} (h : ¬ ReservedOp op.toNat) : ∃ i ∈ rowInstrs, opcodeOf i = op := by
  revert op
  decide

theorem opcodeRow_opcodeOf (i : Instr) : ∃ row, opcodeRow (opcodeOf i) = some row ∧
    RowReads (opcodeOf i) (largestOperand (opcodeOf i).toNat) row := by
  cases i with
  | pushBits n => exact ⟨_, rfl, operandLen_reads⟩
  | sample ch => exact ⟨_, rfl, operandChannel_reads fun _ => ⟨rfl, rfl, rfl⟩⟩
  | entropy ch => exact ⟨_, rfl, operandChannel_reads fun _ => ⟨rfl, rfl, rfl⟩⟩
  | quant tbl => exact ⟨_, rfl, operandTable_reads⟩
  | _ => exact ⟨_, rfl, operandZero_reads rfl rfl rfl⟩

theorem opcodeRow_of_legal {op : BitVec 8} (h : ¬ ReservedOp op.toNat) :
    ∃ row, opcodeRow op = some row ∧ RowReads op (largestOperand op.toNat) row := by
  obtain ⟨i, -, rfl⟩ := exists_opcodeOf h
  exact opcodeRow_opcodeOf i

/-- The row of a well-formed instruction reads it back from its operand. -/
theorem opcodeRow_immOf {i : Instr} (hi : i.WellFormed) :
    ∃ row, opcodeRow (opcodeOf i) = some row ∧ row (immOf i) = some i := by
  cases i with
  | pushBits n => exact ⟨_, rfl, if_pos (of_decide_eq_true hi)⟩
  | sample ch => exact ⟨_, rfl, by cases ch <;> rfl⟩
  | entropy ch => exact ⟨_, rfl, by cases ch <;> rfl⟩
  | quant tbl => exact ⟨_, rfl, by cases tbl <;> rfl⟩
  | _ => exact ⟨_, rfl, rfl⟩

/-! #### Decoding (R84, R85) -/

section
variable {w : Word}

theorem decode_of_reserved (h : ReservedOp (fieldOp w).toNat) : decode w = .error .illegalOpcode := by
  rw [decode, opcodeRow_of_reserved h]

/-- A word with a legal opcode is illegal for RSV or IMM6, or it decodes to the instruction of its opcode and operand. -/
theorem decode_of_legal (h : ¬ ReservedOp (fieldOp w).toNat) :
    ((fieldRsv w ≠ 0 ∨ largestOperand (fieldOp w).toNat < (fieldImm w).toNat) ∧ decode w = .error .illegalField) ∨
    (fieldRsv w = 0 ∧ (fieldImm w).toNat ≤ largestOperand (fieldOp w).toNat ∧ ∃ i, decode w = .ok i ∧
      opcodeOf i = fieldOp w ∧ immOf i = fieldImm w ∧ i.WellFormed) := by
  obtain ⟨row, hrow, hreads⟩ := opcodeRow_of_legal h
  unfold decode
  rw [hrow]
  dsimp only
  by_cases hrsv : fieldRsv w = 0
  · rcases Nat.lt_or_ge (largestOperand (fieldOp w).toNat) (fieldImm w).toNat with himm | himm
    · rw [hreads.rejects _ himm]
      exact .inl ⟨.inr himm, ite_self _⟩
    · obtain ⟨i, hi, hfields⟩ := hreads.reads _ himm
      rw [hi, if_neg (not_not.2 hrsv)]
      exact .inr ⟨hrsv, himm, i, rfl, hfields⟩
  · exact .inl ⟨.inl hrsv, if_pos hrsv⟩

/-- What a word decodes to has the word's fields. -/
theorem fields_of_decode {i : Instr} (h : decode w = .ok i) :
    (fieldOp w = opcodeOf i ∧ fieldRsv w = 0 ∧ fieldImm w = immOf i) ∧ i.WellFormed := by
  by_cases hop : ReservedOp (fieldOp w).toNat
  · rw [decode_of_reserved hop] at h
    cases h
  · obtain ⟨-, he⟩ | ⟨hrsv, -, j, hj, hopj, himmj, hwf⟩ := decode_of_legal hop
    · rw [he] at h
      cases h
    · obtain rfl := Except.ok.inj (hj.symm.trans h)
      exact ⟨⟨hopj.symm, hrsv, himmj.symm⟩, hwf⟩

/-- The encoding of a well-formed instruction decodes to it. -/
theorem decode_encode {i : Instr} (hi : i.WellFormed) : decode (encode i) = .ok i := by
  obtain ⟨hop, hrsv, himm⟩ := encode_eq_iff.1 (rfl : encode i = encode i)
  obtain ⟨row, hrow, hi⟩ := opcodeRow_immOf hi
  unfold decode
  rw [hop, hrsv, himm, hrow]
  dsimp only
  rw [hi]
  exact if_neg (not_not.2 rfl)

theorem decode_eq_ok_iff {i : Instr} : decode w = .ok i ↔ i.WellFormed ∧ encode i = w := by
  constructor
  · intro h
    obtain ⟨hfields, hi⟩ := fields_of_decode h
    exact ⟨hi, encode_eq_iff.2 hfields⟩
  · rintro ⟨hi, rfl⟩
    exact decode_encode hi

end

/-- Settles O1: a word decodes to the instruction that has its fields, and those of an encoding are its instruction's. -/
theorem decodeEncodeAgree : Obligations.DecodeEncodeAgree := fun _ _ => decode_eq_ok_iff

end Sys2Proof

namespace Sys2Proof.Machine

/-- The core's turn on a word that does not decode changes only STATUS (R84). -/
theorem coreTurn_of_decode_error {s : State} {p : Pending} {c : ErrCode} (hp : s.pending = some p)
    (hd : decode p.word = .error c) : coreTurn s = .next (s.failed c) := by
  simp only [coreTurn, hp, hd]
  rfl

/-- Settles O2: the three clauses are the three ways in which decoding ends. -/
theorem illegalWordsRaise : Obligations.IllegalWordsRaise := by
  intro s p hp hin op rsv imm reserved largest
  have hop : (fieldOp p.word).toNat = op := toNat_fieldOp p.word
  have himm : (fieldImm p.word).toNat = imm := toNat_fieldImm p.word
  have hrsv : fieldRsv p.word = 0 ↔ rsv = 0 := by
    rw [BitVec.toNat_eq, toNat_fieldRsv]
    rfl
  have hlegal (h : ¬ reserved) := decode_of_legal (w := p.word) (hop.symm ▸ h)
  rw [hop, himm] at hlegal
  rw [step_of_no_inputs hin]
  refine ⟨fun h => ?_, fun h hbad => ?_, fun h hr hi => ?_, ⟨rfl, rfl⟩, ?_⟩
  · exact coreTurn_of_decode_error hp (decode_of_reserved (hop.symm ▸ h))
  · obtain ⟨-, hd⟩ | ⟨hr, hi, -⟩ := hlegal h
    · exact coreTurn_of_decode_error hp hd
    · exact absurd hbad (not_or.2 ⟨not_not.2 (hrsv.1 hr), Nat.not_lt.2 hi⟩)
  · obtain ⟨hbad, -⟩ | ⟨-, -, i, hd, hopi, himmi, -⟩ := hlegal h
    · exact absurd hbad (not_or.2 ⟨not_not.2 (hrsv.2 hr), Nat.not_lt.2 hi⟩)
    · exact ⟨i, by rw [hopi, hop], by rw [himmi, himm], coreTurn_of_decode hp hd⟩
  · exact decode_eq_ok_iff.trans ⟨fun h => h.2.symm, fun h => ⟨rfl, h.symm⟩⟩

/-- Settles O3: the legal words by decoding what their instructions encode to. -/
theorem workedEncodings : Obligations.WorkedEncodings :=
  ⟨rfl, decode_encode (i := .sample .cb) rfl, rfl, decode_encode (i := .pushBits 11) rfl, rfl,
    decode_encode (i := .quant .chroma) rfl, rfl, decode_encode (i := .encode) rfl, rfl, rfl, rfl⟩

/-- Settles O6: the body of NOP is empty, so the command is its completion. -/
theorem nopResult : Obligations.NopResult :=
  ⟨rfl, decode_encode (i := .nop) rfl, fun s => runCommand_ok (s := s) (body := fun _ => nopBody) rfl⟩

end Sys2Proof.Machine

/-! ### Reads while BUSY = 1 (70_reset_and_hazards.md R272) -/

namespace Sys2Proof.Machine

/-! #### The columns of R88 -/

section
variable (i : Instr)

theorem writesOf_outLen_eq : (writesOf i).outLen = decide (emits i = true ∨ i = .resetStream) := by
  cases i <;> rfl

theorem writesOf_bits_eq : (writesOf i).bits =
    decide ((emits i = true ∧ i ≠ .writeHeaders ∧ i ≠ .writeEoi) ∨ i = .resetStream) := by
  cases i <;> rfl

theorem writesOf_preds_eq (ch : Channel) :
    (writesOf i).preds.contains ch = decide (i = .entropy ch ∨ i = .resetStream ∨ i = .encode) := by
  cases i with
  | entropy c => cases c <;> cases ch <;> rfl
  | resetStream | encode => cases ch <;> rfl
  | _ => rfl

theorem writesOf_qt_eq : (writesOf i).qt = decide (i = .qtScale ∨ i = .encode) := by
  cases i <;> rfl

theorem writesOf_blk_eq : (writesOf i).blk =
    decide (i = .fdct ∨ i = .sample .y ∨ i = .sample .cb ∨ i = .sample .cr ∨ i = .encode) := by
  cases i with
  | sample ch => cases ch <;> rfl
  | _ => rfl

theorem writesOf_qblk_eq : (writesOf i).qblk = decide (i = .quant .luma ∨ i = .quant .chroma ∨ i = .encode) := by
  cases i with
  | quant tbl => cases tbl <;> rfl
  | _ => rfl

theorem writesOf_zz_eq : (writesOf i).zz = decide (i = .zigzag ∨ i = .encode) := by
  cases i <;> rfl

theorem writesOf_ht_eq : (writesOf i).ht = decide (i = .huffBuild ∨ i = .encode) := by
  cases i <;> rfl

end

theorem portReg_low {off : BitVec 13} (h : off.toNat < 0x04C) : portReg off = lowReg (off.toNat / 4) := by
  simp only [portReg, show off.toNat / 4 / 64 = 0 by omega]

/-- The registers below 0x038 are written by no command. -/
theorem showsWritten_lowReg {word : Nat} (h : word < 14) (w : Writes) : showsWritten w (lowReg word) = false := by
  interval_cases word <;> rfl

/-- A command's row of R88, read at an offset. -/
theorem showsWritten_portReg (i : Instr) {off : BitVec 13} (h4 : off.toNat % 4 = 0) :
    showsWritten (writesOf i) (portReg off) = writesAt i off.toNat := by
  unfold writesAt
  obtain h | h | h | h | h | h | h | h | h | h | h | h | h : off.toNat < 0x038 ∨ off.toNat = 0x038 ∨ off.toNat = 0x03C ∨
    off.toNat = 0x040 ∨ off.toNat = 0x044 ∨ off.toNat = 0x048 ∨
    ((0x04C ≤ off.toNat ∧ off.toNat ≤ 0x3FC) ∨ (0x900 ≤ off.toNat ∧ off.toNat ≤ 0xFFC)) ∨
    off.toNat / 4 / 64 = 4 ∨ off.toNat / 4 / 64 = 5 ∨ off.toNat / 4 / 64 = 6 ∨ off.toNat / 4 / 64 = 7 ∨
    off.toNat / 4 / 64 = 8 ∨ 16 ≤ off.toNat / 4 / 64 := by omega
  · rw [portReg_low (by omega), showsWritten_lowReg (by omega), eq_comm, decide_eq_false_iff_not]
    grind
  · rw [eq_of_toNat h]
    exact (writesOf_outLen_eq i).trans (by simp)
  · rw [eq_of_toNat h]
    exact (writesOf_bits_eq i).trans (by simp)
  · rw [eq_of_toNat h]
    exact (writesOf_preds_eq i .y).trans (by simp)
  · rw [eq_of_toNat h]
    exact (writesOf_preds_eq i .cb).trans (by simp)
  · rw [eq_of_toNat h]
    exact (writesOf_preds_eq i .cr).trans (by simp)
  · rw [portReg_reserved h, eq_comm, showsWritten, decide_eq_false_iff_not]
    grind
  · simp only [portReg, h, showsWritten, writesOf_qt_eq, decide_eq_decide]
    grind
  · simp only [portReg, h, showsWritten, writesOf_qt_eq, decide_eq_decide]
    grind
  · simp only [portReg, h, showsWritten, writesOf_blk_eq, decide_eq_decide]
    grind
  · simp only [portReg, h, showsWritten, writesOf_qblk_eq, decide_eq_decide]
    grind
  · simp only [portReg, h, showsWritten, writesOf_zz_eq, decide_eq_decide]
    grind
  · obtain ⟨k, hk⟩ := Nat.exists_eq_add_of_le' h
    simp only [portReg, hk, if_neg (show ¬ k + 16 < 16 by omega), showsWritten, writesOf_ht_eq, decide_eq_decide]
    grind

theorem lowReg_ne_status {word : Nat} (h : word ≠ 3) : lowReg word ≠ .status := by
  unfold lowReg
  split
  pick_goal 4
  · exact absurd rfl h
  all_goals nofun

theorem portReg_ne_status {off : BitVec 13} (h4 : off.toNat % 4 = 0) (hne : off.toNat ≠ 0x00C) :
    portReg off ≠ .status := by
  unfold portReg
  dsimp only
  split
  case h_1 => exact lowReg_ne_status (by omega)
  case h_10 => split <;> nofun
  all_goals nofun

/-! #### The two reads -/

/-- Only STATUS shows BUSY. -/
theorem readReg_with_busy {r : PortReg} (hr : r ≠ .status) (b : Bool) (s : State) :
    readReg r { s with busy := b } = ((readReg r s).1, { (readReg r s).2 with busy := b }) := by
  have helem {α : Type} (e : Option α) (f : α → Word) : readElement e f { s with busy := b } =
      ((readElement e f s).1, { (readElement e f s).2 with busy := b }) := by cases e <;> rfl
  cases r with
  | status => exact absurd rfl hr
  | qtWin t i => cases t <;> exact helem _ _
  | blkWin i | qblkWin i | zzWin i => exact helem _ _
  | htWin t i => cases t <;> exact helem _ _
  | _ => rfl

/-- A read while BUSY = 1 of what the running command does not write is the read of an idle block (R272). -/
theorem step_regRead_busy_of_not_written {s t : State} {rest : List Event} {off : BitVec 13} (h4 : off.toNat % 4 = 0)
    (hne : off.toNat ≠ 0x00C) (hw : showsWritten (runningWrites s) (portReg off) = false)
    (h : step { s with busy := false, inputs := .regRead off .word :: rest } = .next t) :
    step { s with busy := true, inputs := .regRead off .word :: rest } = .next { t with busy := true } := by
  have ha : aligned off .word = true := decide_eq_true ⟨rfl, h4⟩
  have hr := readReg_with_busy (portReg_ne_status h4 hne) true { s with busy := false, inputs := rest }
  have hbusy : portRead (portReg off) { s with busy := true, inputs := rest } =
      readReg (portReg off) { s with busy := true, inputs := rest } := by
    unfold portRead
    rw [show runningWrites { s with busy := true, inputs := rest } = runningWrites s from rfl, hw, Bool.and_false]
    rfl
  rw [step_regRead_idle (s := { s with busy := false }) rfl ha] at h
  obtain rfl := Host.Outcome.next.inj h
  refine (step_regRead { s with busy := true } ha rest).trans ?_
  dsimp only at hr ⊢
  rw [hbusy, hr]

/-- A read while BUSY = 1 of what the running command writes returns a free word (R272). -/
theorem step_regRead_busy_of_written {s : State} {rest : List Event} {off : BitVec 13} (h4 : off.toNat % 4 = 0)
    (hw : showsWritten (runningWrites s) (portReg off) = true) :
    step { s with busy := true, inputs := .regRead off .word :: rest } = .next { s with
      busy := true, inputs := rest, resp := .data (Config.freeWord s.draws), draws := s.draws + 1 } := by
  have hfree : portRead (portReg off) { s with busy := true, inputs := rest } =
      drawWord { s with busy := true, inputs := rest } := if_pos hw
  refine (step_regRead { s with busy := true } (decide_eq_true ⟨rfl, h4⟩) rest).trans ?_
  dsimp only
  rw [hfree]
  rfl

/-- Settles O59: the port decides by the row of the running command, which is empty for a word that does not decode. -/
theorem busyReads : Obligations.BusyReads := by
  refine ⟨fun s t p i rest off hp hd h4 hne => ?_, fun s t p c rest off hp hd h4 hne => ?_⟩
  · have hw : showsWritten (runningWrites s) (portReg off) = writesAt i off.toNat := by
      rw [← showsWritten_portReg i h4, runningWrites, hp]
      dsimp only
      rw [hd]
    exact ⟨fun h => step_regRead_busy_of_not_written h4 hne (hw.trans h),
      fun h => step_regRead_busy_of_written h4 (hw.trans h)⟩
  · have hw : showsWritten (runningWrites s) (portReg off) = false := by
      rw [runningWrites, hp]
      dsimp only
      rw [hd]
      cases portReg off <;> rfl
    exact step_regRead_busy_of_not_written h4 hne hw

end Sys2Proof.Machine

/-! ### Bodies do not look at which command runs, nor at how the last one ended (10_state.md R50, R51; 60_exceptions.md R234) -/

namespace Sys2Proof.Machine

/-- The part of the state that acceptance, completion and the host's parameter writes set: the body of a command gets the
registers as an argument, and uses nothing of the rest. -/
structure CommandStatus where
  busy : Bool
  done : Bool
  err : Bool
  errcode : BitVec 8
  regs : Params
  pending : Option Pending
  encPos : Option EncPos

/-- The block `s` with another status. -/
def State.withStatus (s : State) (c : CommandStatus) : State :=
  { s with
    busy := c.busy, done := c.done, err := c.err, errcode := c.errcode, regs := c.regs, pending := c.pending
    encPos := c.encPos }

/-- A body that ends alike whatever the status is, and keeps it. -/
def IgnoresStatus (f : State → Res) : Prop := ∀ c s, f (s.withStatus c) = (f s).mapState (·.withStatus c)

theorem IgnoresStatus.mapState_bind {f : State → Res} (hf : IgnoresStatus f) (c : CommandStatus) (r : Res) :
    (r.mapState (·.withStatus c)).bind f = (r.bind f).mapState (·.withStatus c) := by
  cases r with
  | ok t => exact hf c t
  | raise e t => rfl
  | uninit t => rfl

theorem IgnoresStatus.bind {f g : State → Res} (hf : IgnoresStatus f) (hg : IgnoresStatus g) :
    IgnoresStatus fun s => (f s).bind g := by
  intro c s
  dsimp only
  rw [hf c s]
  exact hg.mapState_bind c (f s)

theorem IgnoresStatus.forEach {α : Type} {f : α → State → Res} (h : ∀ x, IgnoresStatus (f x)) (xs : List α) :
    IgnoresStatus (forEach f xs) := by
  induction xs with
  | nil => exact fun _ _ => rfl
  | cons x xs ih => exact (h x).bind ih

theorem IgnoresStatus.check {next : State → Res} (h : IgnoresStatus next) {bad : State → Bool} {e : ErrCode}
    (hbad : ∀ c s, bad (s.withStatus c) = bad s) : IgnoresStatus fun s => check (bad s) e next s := by
  intro c s
  dsimp only
  rw [hbad]
  cases bad s with
  | true => rfl
  | false => exact h c s

/-! #### Bodies that make no access -/

theorem fdctBody_ignoresStatus : IgnoresStatus fdctBody := by
  intro c s
  dsimp only [fdctBody, State.withStatus]
  cases allWritten s.blk <;> rfl

theorem zigzagBody_ignoresStatus : IgnoresStatus zigzagBody := by
  intro c s
  dsimp only [zigzagBody, State.withStatus]
  cases allWritten s.qblk <;> rfl

theorem quantBody_ignoresStatus (tbl : QTable) : IgnoresStatus (quantBody tbl) := by
  intro c s
  unfold quantBody
  rw [show (s.withStatus c).qt tbl = s.qt tbl by cases tbl <;> rfl, show (s.withStatus c).blk = s.blk from rfl]
  cases allWritten s.blk <;> cases allWritten (s.qt tbl) <;> dsimp only
  case some.some b q => split <;> rfl
  all_goals rfl

/-! #### Emission -/

theorem busAccess_ignoresStatus (n : Nat) : IgnoresStatus (busAccess n) := by
  intro c s
  unfold busAccess
  rw [show (s.withStatus c).busErrIn = s.busErrIn from rfl]
  cases s.busErrIn with
  | none => rfl
  | some k =>
    dsimp only
    split <;> rfl

theorem sampleBody_ignoresStatus (p : Params) (ch : Channel) (bx byy : Nat) : IgnoresStatus (sampleBody p ch bx byy) :=
  (busAccess_ignoresStatus 192).bind fun _ _ => rfl

section
variable (p : Params)

theorem emitRaw_ignoresStatus (b : Byte) : IgnoresStatus (emitRaw p b) := by
  intro c s
  unfold emitRaw
  rw [show (s.withStatus c).outLen = s.outLen from rfl]
  split
  · rfl
  · exact (busAccess_ignoresStatus 1).bind (fun _ _ => rfl) c s

theorem emitStuffed_ignoresStatus (b : Byte) : IgnoresStatus (emitStuffed p b) := by
  intro c s
  rw [emitStuffed_eq, emitStuffed_eq]
  exact IgnoresStatus.forEach (emitRaw_ignoresStatus p) _ c s

theorem pushBit_ignoresStatus (x : Bool) : IgnoresStatus (pushBit p x) := by
  intro c s
  unfold pushBit
  rw [show (s.withStatus c).nbits = s.nbits from rfl]
  split
  · exact emitStuffed_ignoresStatus p _ c (withBits 0 0 s)
  · rfl

theorem pushBits_ignoresStatus (v n : Nat) : IgnoresStatus (pushBits p v n) := by
  intro c s
  rw [pushBits_eq, pushBits_eq]
  exact IgnoresStatus.forEach (pushBit_ignoresStatus p) _ c s

theorem flushBody_ignoresStatus : IgnoresStatus (flushBody p) := by
  intro c s
  unfold flushBody
  rw [show (s.withStatus c).nbits = s.nbits from rfl]
  split
  · rfl
  · exact emitStuffed_ignoresStatus p _ c (withBits 0 0 s)

theorem writeHeadersBody_ignoresStatus : IgnoresStatus (writeHeadersBody p) := by
  intro c s
  dsimp only [writeHeadersBody, State.withStatus]
  cases allWritten s.qt0 <;> cases allWritten s.qt1
  case some.some => exact IgnoresStatus.forEach (emitRaw_ignoresStatus p) _ c s
  all_goals rfl

theorem writeEoiBody_ignoresStatus : IgnoresStatus (writeEoiBody p) := IgnoresStatus.forEach (emitRaw_ignoresStatus p) _

theorem lookupAll_withStatus (s : State) (c : CommandStatus) (items : List Item) :
    lookupAll (s.withStatus c) items = lookupAll s items := by
  have hone (i : Item) : lookup (s.withStatus c) i = lookup s i := by
    unfold lookup
    rw [show (s.withStatus c).ht i.table = s.ht i.table by cases i.table <;> rfl]
  induction items with
  | nil => rfl
  | cons i items ih => rw [lookupAll, lookupAll, hone, ih]

theorem entropyBody_ignoresStatus (ch : Channel) : IgnoresStatus (entropyBody p ch) := by
  intro c s
  unfold entropyBody
  rw [show (s.withStatus c).zz = s.zz from rfl]
  cases allWritten s.zz with
  | none => rfl
  | some z =>
    dsimp only
    rw [lookupAll_withStatus, show entropyItems ch z (s.withStatus c) = entropyItems ch z s from rfl]
    cases lookupAll s (entropyItems ch z s) with
    | undefined => rfl
    | unwritten => rfl
    | coded cs =>
      refine (IgnoresStatus.forEach (fun x => ?_) cs).bind (fun _ _ => rfl) c s
      exact (pushBits_ignoresStatus p _ _).bind (pushBits_ignoresStatus p _ _)

/-- Every command but ENCODE, which records its loop position (R51), has a body that ignores the status. -/
theorem bodyOf_ignoresStatus {i : Instr} (hi : i ≠ .encode) : IgnoresStatus (bodyOf i p) := by
  have hconst {b : Bool} (c : CommandStatus) (s : State) : (fun _ : State => b) (s.withStatus c) = b := rfl
  cases i with
  | nop => exact fun _ _ => rfl
  | qtScale => exact .check (next := qtScaleBody p) (fun _ _ => rfl) hconst
  | huffBuild => exact fun _ _ => rfl
  | resetStream => exact fun _ _ => rfl
  | pushBits n => exact (pushBits_ignoresStatus p _ _).check hconst
  | flush => exact (flushBody_ignoresStatus p).check hconst
  | fdct => exact fdctBody_ignoresStatus
  | sample ch => exact (((sampleBody_ignoresStatus p ch _ _).check hconst).check hconst).check hconst
  | quant tbl => exact (quantBody_ignoresStatus tbl).check fun _ _ => rfl
  | zigzag => exact zigzagBody_ignoresStatus
  | entropy ch => exact ((entropyBody_ignoresStatus p ch).check hconst).check fun _ _ => rfl
  | writeHeaders =>
    exact ((((writeHeadersBody_ignoresStatus p).check hconst).check fun _ _ => rfl).check fun _ _ => rfl).check hconst
  | writeEoi => exact ((writeEoiBody_ignoresStatus p).check hconst).check fun _ _ => rfl
  | encode => exact absurd rfl hi

end

end Sys2Proof.Machine

/-! ### The unit commands of ENCODE, issued one after another (30_encoding.md R93; 47_orchestrator.md R212, R221) -/

namespace Sys2Proof.Machine

/-! #### One command issued by the host -/

/-- The status between two commands of the host, of which the last ended well, with the registers `r`. -/
def idleStatus (r : Params) : CommandStatus := ⟨false, true, false, 0, r, none, none⟩

/-- A command issued in a state whose body ends normally there, whatever the status. -/
theorem issue_of_body {i : Instr} (hi : i ≠ .encode) {c : CommandStatus} {v v' : State}
    (h : bodyOf i c.regs v = .ok v') : issue i (v.withStatus c) = some (v'.withStatus (idleStatus c.regs)) := by
  let running : CommandStatus := ⟨true, false, false, 0, c.regs, some ⟨encode i, c.regs⟩, c.encPos⟩
  have hbody : bodyOf i c.regs (v.withStatus running) = .ok (v'.withStatus running) := by
    rw [bodyOf_ignoresStatus c.regs hi, h]
    rfl
  have hexec : exec i (accept (encode i) (v.withStatus c)) = .next (complete (v'.withStatus running)) :=
    (exec_eq_runCommand i _).trans (runCommand_ok hbody)
  rw [issue, hexec]
  rfl

theorem issueAll_append (as bs : List (Option Word × Instr)) (u : State) :
    issueAll (as ++ bs) u = (issueAll as u).bind (issueAll bs) := by
  induction as generalizing u with
  | nil => rfl
  | cons a as ih =>
    have hbind (x : Option State) : x.bind (issueAll (as ++ bs)) = (x.bind (issueAll as)).bind (issueAll bs) := by
      rw [Option.bind_assoc, funext ih]
    match a with
    | (none, i) => exact hbind _
    | (some o, i) => exact hbind _

/-! #### Commands that do what bodies of ENCODE do -/

/-- The state of the host's run where ENCODE, with the registers `p`, is in the state `v`: only the status differs, and
the host has written ORIGIN. -/
abbrev State.between (v : State) (p : Params) (o : Word) : State := v.withStatus (idleStatus { p with origin := o })

/-- From a state of `P` on, the commands do what the body `f` does where it ends normally; it then ends in a state of
`Q`. -/
def Performs (p : Params) (P : State → Prop) (cmds : List (Option Word × Instr)) (f : State → Res)
    (Q : State → Prop) : Prop :=
  ∀ v v' o, P v → f v = .ok v' → Q v' ∧ ∃ o', issueAll cmds (v.between p o) = some (v'.between p o')

section
variable {p : Params} {P Q R : State → Prop} {f g : State → Res}

theorem Performs.bind {as bs : List (Option Word × Instr)} (hf : Performs p P as f Q) (hg : Performs p Q bs g R) :
    Performs p P (as ++ bs) (fun v => (f v).bind g) R := by
  intro v v'' o hP h
  obtain ⟨v', hv', hv''⟩ := Res.bind_eq_ok.1 h
  obtain ⟨hQ, o', has⟩ := hf v v' o hP hv'
  obtain ⟨hR, o'', hbs⟩ := hg v' v'' o' hQ hv''
  exact ⟨hR, o'', by rw [issueAll_append, has, Option.bind_some, hbs]⟩

theorem Performs.forEach {α : Type} {cmds : α → List (Option Word × Instr)} {f : α → State → Res} {xs : List α}
    (h : ∀ x ∈ xs, Performs p P (cmds x) (f x) P) : Performs p P (xs.flatMap cmds) (forEach f xs) P := by
  induction xs with
  | nil =>
    intro v v' o hP hv
    obtain rfl := Res.ok.inj hv
    exact ⟨hP, o, rfl⟩
  | cons x xs ih => exact (h x List.mem_cons_self).bind (ih fun y hy => h y (List.mem_cons_of_mem _ hy))

/-- One command whose body, past its checks, is `f`. -/
theorem performs_command {i : Instr} (hi : i ≠ .encode)
    (hbody : ∀ v o, P v → bodyOf i { p with origin := o } v = f v) (hQ : ∀ v v', P v → f v = .ok v' → Q v') :
    Performs p P [(none, i)] f Q := by
  intro v v' o hP h
  refine ⟨hQ v v' hP h, o, ?_⟩
  rw [issueAll, issue_of_body hi ((hbody v o hP).trans h)]
  rfl

end

/-! #### The commands of one block -/

/-- Both valid flags are set, as the commands of a block require (R161, R169). -/
structure State.TablesValid (s : State) : Prop where
  qt : s.qtValid = true
  ht : s.htValid = true

/-- The body of a command that writes no tables keeps the valid flags. -/
theorem State.TablesValid.of_body {i : Instr} {p : Params} {v v' : State} (hv : v.TablesValid)
    (hqt : (writesOf i).qt = false) (hht : (writesOf i).ht = false) (h : bodyOf i p v = .ok v') : v'.TablesValid := by
  have hmoves : Moves (writesOf i) p v v' := by
    have := (bodyOf_madeOfMoves i p v).moves
    rwa [h] at this
  have hqt' := hmoves.frame fun _ _ => Move.qt_frame hqt
  have hht' := hmoves.frame fun _ _ => Move.ht_frame hht
  simp only [Prod.mk.injEq] at hqt' hht'
  exact ⟨hqt'.2.2.trans hv.qt, hht'.2.2.2.2.trans hv.ht⟩

/-- A command that writes no tables, given its checks where the tables are valid. -/
theorem performs_scanCommand {p : Params} {i : Instr} {f : State → Res} (hi : i ≠ .encode)
    (hqt : (writesOf i).qt = false) (hht : (writesOf i).ht = false)
    (hbody : ∀ v o, v.TablesValid → bodyOf i { p with origin := o } v = f v) :
    Performs p State.TablesValid [(none, i)] f State.TablesValid :=
  performs_command hi hbody fun v _ hv h => hv.of_body hqt hht ((hbody v p.origin hv).trans h)

/-- The word that `AT bx, by` writes to ORIGIN (R28, R93). -/
theorem origin_fields {p : Params} {bx byy : Nat} (hx : bx < 2 ^ 16) (hy : byy < 2 ^ 16) :
    let q := { p with origin := BitVec.ofNat 32 (byy * 2 ^ 16 + bx) }
    q.bx = bx ∧ q.byy = byy := by
  simp only [Params.bx, Params.byy, BitVec.extractLsb'_toNat, BitVec.toNat_ofNat, Nat.shiftRight_eq_div_pow]
  omega

/-- Only SAMPLE reads ORIGIN. -/
theorem entropyBody_with_origin (p : Params) (o : Word) : entropyBody { p with origin := o } = entropyBody p := by
  have hbits : pushBits { p with origin := o } = pushBits p := by
    funext v n s
    rw [pushBits_eq, pushBits_eq]
    rfl
  funext ch s
  unfold entropyBody emitCoded
  rw [hbits]

section
variable {p : Params} (hp : p.EncodeFits)
include hp

/-- SAMPLE after a write of ORIGIN samples the block there; ENCODE also records its position (R51). -/
theorem performs_sample (ch : Channel) {bx byy : Nat} (hx : bx < 2 ^ 16) (hy : byy < 2 ^ 16) (e : Option EncPos) :
    Performs p State.TablesValid [(some (BitVec.ofNat 32 (byy * 2 ^ 16 + bx)), .sample ch)]
      (fun v => sampleBody p ch bx byy { v with encPos := e }) State.TablesValid := by
  intro v v' o hv h
  let w := BitVec.ofNat 32 (byy * 2 ^ 16 + bx)
  have hbody : bodyOf (.sample ch) { p with origin := w } { v with encPos := e } = .ok v' := by
    obtain ⟨hbx, hby⟩ := origin_fields (p := p) hx hy
    change check (dimensionsBad p) _ (check (srcLenBad p) _ (check (srcRegionBad p) _ _)) _ = _
    rw [hp.dimensions, hp.srcLen, hp.srcRegion, check_false, check_false, check_false, hbx, hby]
    exact h
  refine ⟨State.TablesValid.of_body (v := { v with encPos := e }) ⟨hv.qt, hv.ht⟩ rfl rfl hbody, w, ?_⟩
  have hissue : issue (.sample ch) (v.between p w) = some (v'.between p w) :=
    issue_of_body (i := .sample ch) nofun (v := { v with encPos := e }) hbody
  exact congrArg (Option.bind · (issueAll [])) hissue

/-- `AT` and `BLOCK` do what ENCODE does for one channel of an MCU (R93, R212). -/
theorem blockCommands_performs (ch : Channel) {o : Nat × Nat} (hx : o.1 < 2 ^ 16) (hy : o.2 < 2 ^ 16) :
    Performs p State.TablesValid (blockCommands o ch) (encodeChannel p o.1 o.2 ch) State.TablesValid := by
  have hfdct : Performs p State.TablesValid [(none, .fdct)] fdctBody State.TablesValid :=
    performs_scanCommand nofun rfl rfl fun _ _ _ => rfl
  have hquant : Performs p State.TablesValid [(none, .quant (quantTableOf ch))] (quantBody (quantTableOf ch))
      State.TablesValid := performs_scanCommand nofun rfl rfl fun v o hv => by
    change check (!v.qtValid) _ _ v = _
    rw [hv.qt]
    rfl
  have hzigzag : Performs p State.TablesValid [(none, .zigzag)] zigzagBody State.TablesValid :=
    performs_scanCommand nofun rfl rfl fun _ _ _ => rfl
  have hentropy : Performs p State.TablesValid [(none, .entropy ch)] (entropyBody p ch) State.TablesValid :=
    performs_scanCommand nofun rfl rfl fun v o hv => by
      change check (!v.htValid) _ (check (dstRegionBad p) _ _) v = _
      rw [hv.ht, hp.dstRegion, entropyBody_with_origin]
      rfl
  exact ((((performs_sample hp ch hx hy _).bind hfdct).bind hquant).bind hzigzag).bind hentropy

end

end Sys2Proof.Machine

/-! #### The whole script (R214, R221) -/

namespace Sys2Proof.Machine

/-- The state after the body of RESET_STREAM (R125). -/
def State.restarted (s : State) : State := { s with outLen := 0, acc := 0, nbits := 0, pred := ⟨0, 0, 0⟩ }

/-- The bodies of ENCODE after that of RESET_STREAM (R212). -/
def encodeRest (p : Params) (s : State) : Res :=
  (((((qtScaleBody p s).bind huffBuildBody).bind (writeHeadersBody p)).bind
    (forEach (encodeMcu p) (blockOrigins p.width.toNat p.height.toNat))).bind (flushBody p)).bind (writeEoiBody p)

theorem encodeBody_eq_encodeRest (p : Params) (s : State) : encodeBody p s = encodeRest p s.restarted := rfl

theorem issue_resetStream (s : State) (w : Word) :
    issue .resetStream s = some ((accept w s).restarted.between s.regs s.regs.origin) := rfl

theorem issueAll_unitCommands (w h : Nat) (s : State) :
    issueAll (unitCommands w h) s = (issue .resetStream s).bind (issueAll (unitCommands w h).tail) := rfl

section
variable {p : Params} (hp : p.EncodeFits)
include hp

/-- The origins of the blocks fit the fields of ORIGIN (R28, R213). -/
theorem blockOrigins_lt {o : Nat × Nat} (h : o ∈ blockOrigins p.width.toNat p.height.toNat) :
    o.1 < 2 ^ 16 ∧ o.2 < 2 ^ 16 := by
  obtain ⟨-, hw, -, hh⟩ := dimensions_of_ok hp.dimensions
  simp only [blockOrigins, blocksIn, List.mem_flatMap, List.mem_map, List.mem_range] at h
  obtain ⟨j, hj, i, hi, rfl⟩ := h
  dsimp only
  omega

theorem scanCommands_perform : Performs p State.TablesValid
    ((blockOrigins p.width.toNat p.height.toNat).flatMap fun o => [.y, .cb, .cr].flatMap (blockCommands o))
    (forEach (encodeMcu p) (blockOrigins p.width.toNat p.height.toNat)) State.TablesValid :=
  .forEach fun _ ho => .forEach fun ch _ =>
    blockCommands_performs hp ch (blockOrigins_lt hp ho).1 (blockOrigins_lt hp ho).2

omit hp in
theorem performs_qtScale (hq : qualityBad p = false) : Performs p (fun v => v.nbits = 0) [(none, .qtScale)] (qtScaleBody p)
    fun v => v.qtValid = true ∧ v.nbits = 0 := by
  refine performs_command nofun (fun v o _ => ?_) fun v v' hv h => ?_
  · change check (qualityBad p) _ _ v = _
    rw [hq]
    rfl
  · obtain rfl := Res.ok.inj h
    exact ⟨rfl, hv⟩

omit hp in
theorem performs_huffBuild : Performs p (fun v => v.qtValid = true ∧ v.nbits = 0) [(none, .huffBuild)] huffBuildBody
    fun v => v.TablesValid ∧ v.nbits = 0 := by
  refine performs_command nofun (fun _ _ _ => rfl) fun v v' ⟨hqt, hn⟩ h => ?_
  obtain rfl := Res.ok.inj h
  exact ⟨⟨hqt, rfl⟩, hn⟩

theorem performs_writeHeaders : Performs p (fun v => v.TablesValid ∧ v.nbits = 0) [(none, .writeHeaders)]
    (writeHeadersBody p) State.TablesValid := by
  have hbody (v : State) (o : Word) (hv : v.TablesValid ∧ v.nbits = 0) :
      bodyOf .writeHeaders { p with origin := o } v = writeHeadersBody p v := by
    change check (dimensionsBad p) _ (check (!(v.qtValid && v.htValid)) _ (check (decide (v.nbits ≠ 0)) _
      (check (dstRegionBad p) _ _))) v = _
    rw [hp.dimensions, hv.1.qt, hv.1.ht, hv.2, hp.dstRegion]
    rfl
  exact performs_command nofun hbody fun v v' hv h => hv.1.of_body rfl rfl ((hbody v p.origin hv).trans h)

omit hp in
/-- After FLUSH no bits are pending (R127). -/
theorem flushBody_nbits {v v' : State} (h : flushBody p v = .ok v') : v'.nbits = 0 := by
  unfold flushBody at h
  split at h
  next hn =>
    obtain rfl := Res.ok.inj h
    exact hn
  · rw [emitStuffed_eq] at h
    have hmap := (forEach_emitRaw_withBits p (stuffBytes [flushByte v.acc v.nbits]) 0 0 v).symm.trans h
    cases hr : forEach (emitRaw p) (stuffBytes [flushByte v.acc v.nbits]) v with
    | ok t =>
      rw [hr] at hmap
      obtain rfl := Res.ok.inj hmap
      rfl
    | raise | uninit =>
      rw [hr] at hmap
      cases hmap

theorem performs_flush : Performs p State.TablesValid [(none, .flush)] (flushBody p) fun v => v.nbits = 0 := by
  refine performs_command nofun (fun v o _ => ?_) fun _ _ _ h => flushBody_nbits h
  change check (dstRegionBad p) _ (flushBody p) v = _
  rw [hp.dstRegion]
  rfl

theorem performs_writeEoi : Performs p (fun v => v.nbits = 0) [(none, .writeEoi)] (writeEoiBody p) fun _ => True := by
  refine performs_command nofun (fun v o hv => ?_) fun _ _ _ _ => trivial
  change check (decide (v.nbits ≠ 0)) _ (check (dstRegionBad p) _ (writeEoiBody p)) v = _
  rw [hv, hp.dstRegion]
  rfl

/-- The script after RESET_STREAM does what ENCODE does after that command's body. -/
theorem unitCommands_tail_performs (hq : qualityBad p = false) : Performs p (fun v => v.nbits = 0)
    (unitCommands p.width.toNat p.height.toNat).tail (encodeRest p) fun _ => True := by
  have hall := (((((performs_qtScale hq).bind performs_huffBuild).bind (performs_writeHeaders hp)).bind
    (scanCommands_perform hp)).bind (performs_flush hp)).bind (performs_writeEoi hp)
  have hblocks : (fun o => [Channel.y, .cb, .cr].flatMap (blockCommands o)) =
      fun o => blockCommands o .y ++ blockCommands o .cb ++ blockCommands o .cr := by
    funext o
    simp
  rw [hblocks, List.append_assoc _ _ [(none, Instr.writeEoi)]] at hall
  exact hall

end

/-- With the capacity of R220 and a memory that answers every access, ENCODE's bodies end normally. -/
theorem encodeBody_ok {s : State} (hv : Valid .encode s) (hT : s.tables.Admissible)
    (hcap : sufficientCapacity s.tables (latched s) ≤ (latched s).dstCap.toNat) (hbus : s.busErrIn = none) :
    ∃ v, encodeBody (latched s) s = .ok v := by
  have hfile := encodeFile_emits (encodeFits_of_valid hv) hT
  have hfits := (length_fileOf_le hT (latched s)).trans hcap
  rw [encodeBody_eq]
  generalize encodeFile (latched s) (encodeSetup (latched s) s) = r at hfile
  cases hfile with
  | @ok v => exact ⟨v, rfl⟩
  | @overflow t out he hpre hlt hfull =>
    change _ ≤ 0 + _ at hfull
    omega
  | busError _ _ hk => exact nomatch hbus.symm.trans hk

/-- Settles O34: the host's run and ENCODE's go through the same states, up to which command runs and ORIGIN. -/
theorem encodeMatchesUnitCommands : Obligations.EncodeMatchesUnitCommands := by
  intro s hv hT hcap hbus
  obtain ⟨v, hbody⟩ := encodeBody_ok hv hT hcap hbus
  have hp := encodeFits_of_valid hv
  have hq : qualityBad s.regs = false := hv (qualityBad s.regs, .badQuality) (by simp [validation, qualityBad, latched])
  let a := accept (encode .encode) s
  have hencode : issue .encode s = some (complete v) := by
    have hcmd : bodyOf .encode (latched a) a = .ok v := by
      rw [encodeCmd_of_valid hv, ← encodeBody_eq]
      exact hbody
    rw [issue, exec_eq_runCommand, runCommand_ok hcmd]
  obtain ⟨-, o, hrest⟩ := unitCommands_tail_performs hp hq a.restarted v s.regs.origin rfl
    ((encodeBody_eq_encodeRest s.regs a).symm.trans hbody)
  have hunits : issueAll (unitCommands s.regs.width.toNat s.regs.height.toNat) s = some (v.between s.regs o) := by
    rw [issueAll_unitCommands, issue_resetStream s (encode .encode), Option.bind_some]
    exact hrest
  have hcontrol : v.control = a.control := by
    have := encodeBody_keepsControl s.regs a
    rwa [show encodeBody s.regs a = .ok v from hbody] at this
  have herr : v.err = false := congrArg Control.err hcontrol
  have hcode : v.errcode = 0 := congrArg Control.errcode hcontrol
  have hregs : v.regs = s.regs := congrArg Control.regs hcontrol
  refine ⟨_, _, hencode, hunits, herr, ?_, fun x => readByte_congr rfl x⟩
  simp only [State.between, State.withStatus, idleStatus, complete, herr, hcode, hregs]

end Sys2Proof.Machine

/-! ### QT_SCALE (40_qt_scale.md R102 to R104) -/

namespace Sys2Proof.Machine

/-! #### The arithmetic of the scaled tables (R103, R104) -/

/-- Up to 49 the factor is 5000 / q, at least 102; from 50 on it is 200 - 2 * q, at most 100 (R103). -/
theorem scaleFactor_antitone {q1 q2 : Nat} (h1 : 1 ≤ q1) (h : q1 ≤ q2) : scaleFactor q2 ≤ scaleFactor q1 := by
  unfold scaleFactor
  split_ifs with h2 hq1
  · exact Nat.div_le_div_left h h1
  · omega
  · have : 100 ≤ 5000 / q1 := (Nat.le_div_iff_mul_le h1).2 (by omega)
    omega
  · omega

theorem scaleEntry_mono (base : Nat) {s1 s2 : Nat} (h : s1 ≤ s2) : scaleEntry base s1 ≤ scaleEntry base s2 := by
  unfold scaleEntry clampNat
  gcongr

theorem one_le_scaleEntry (base s : Nat) : 1 ≤ scaleEntry base s := le_min (le_max_right _ _) (by decide)

theorem scaleEntry_le (base s : Nat) : scaleEntry base s ≤ 255 := min_le_right _ _

/-- With the factor 100, that of quality 50, the rounded quotient is the base value (R104). -/
theorem scaleEntry_hundred {base : Nat} (h1 : 1 ≤ base) (h2 : base ≤ 255) : scaleEntry base 100 = base := by
  have hq : (base * 100 + 50) / 100 = base := by omega
  rw [scaleEntry, hq, clampNat, max_eq_left h1, min_eq_left h2]

/-- An entry of a scaled table is written, and holds the scaled entry in full: 255 fits a byte (R102, R103). -/
theorem scaledTable_entry (base : List Nat) (q : Nat) (i : Fin 64) :
    ∃ e : Byte, (scaledTable base q)[i] = some e ∧ e.toNat = scaleEntry (base.getD i.val 0) (scaleFactor q) :=
  ⟨_, getElem_ofFn_fin .., Nat.mod_eq_of_lt (Nat.lt_succ_of_le (scaleEntry_le _ _))⟩

/-- Settles O8: the factor falls with the quality, an entry grows with the factor, and quality 50 has the factor 100. -/
theorem qtScaleProperties : Obligations.QtScaleProperties := by
  intro base hlen hbase q1 q2 h1 h12 _
  have hfactor := scaleFactor_antitone h1 h12.le
  refine ⟨hfactor, fun i => ?_⟩
  have hi : i.val < base.length := i.isLt.trans_eq hlen.symm
  obtain ⟨hlo, hhi⟩ : 1 ≤ base.getD i.val 0 ∧ base.getD i.val 0 ≤ 255 := by
    rw [List.getD_eq_getElem _ _ hi]
    exact hbase _ (List.getElem_mem hi)
  obtain ⟨e1, ht1, he1⟩ := scaledTable_entry base q1 i
  obtain ⟨e2, ht2, he2⟩ := scaledTable_entry base q2 i
  obtain ⟨e50, ht50, he50⟩ := scaledTable_entry base 50 i
  refine ⟨e1, e2, e50, ht1, ht2, ht50, ?_⟩
  rw [he1, he2, he50]
  exact ⟨one_le_scaleEntry _ _, scaleEntry_le _ _, one_le_scaleEntry _ _, scaleEntry_mono _ hfactor,
    scaleEntry_hundred hlo hhi⟩

/-! #### The command (R102) -/

theorem qualityBad_iff {p : Params} : qualityBad p = true ↔ p.quality.toNat < 1 ∨ 100 < p.quality.toNat :=
  decide_eq_true_iff

theorem qtScaleCmd_of_good {p : Params} (h : qualityBad p = false) (s : State) : qtScaleCmd p s = qtScaleBody p s := by
  rw [qtScaleCmd, h, check_false]

theorem qtScaleCmd_of_bad {p : Params} (h : qualityBad p = true) (s : State) :
    qtScaleCmd p s = .raise .badQuality s := by
  rw [qtScaleCmd, h, check_true]

/-- Settles O7: the check on the quality decides between the body, which writes the tables, and the error. -/
theorem qtScaleResult : Obligations.QtScaleResult := by
  refine ⟨rfl, rfl, fun s => ⟨fun h1 h2 => ?_, fun hbad => ?_⟩⟩
  · have hq : qualityBad (latched s) = false :=
      Bool.eq_false_iff.2 fun h => (qualityBad_iff.1 h).elim (Nat.not_lt.2 h1) (Nat.not_lt.2 h2)
    exact (exec_eq_runCommand .qtScale s).trans (runCommand_ok (qtScaleCmd_of_good hq s))
  · exact (exec_eq_runCommand .qtScale s).trans
      (runCommand_reject (qtScaleCmd_of_bad (qualityBad_iff.2 hbad) s) nofun nofun (.inl rfl))

end Sys2Proof.Machine

/-! ### HUFF_BUILD (41_huffman_build.md R112 to R116) -/

namespace Sys2Proof.Machine

/-! #### What a built table holds (R112) -/

/-- The k-th symbol of a specification with its canonical code and length (R112). -/
def HuffSpec.assignment (h : HuffSpec) (k : Nat) : Nat × Nat × Nat :=
  (h.vals.getD k 0, canonicalCode (codeLengths h) k, (codeLengths h).getD k 0)

/-- R113 (a): a specification that fits has a length for every symbol. -/
theorem codeLengths_length {h : HuffSpec} (hf : h.Fits) : (codeLengths h).length = h.vals.length := by
  rw [codeLengths_eq, ← codesFrom_lengths 1 h.bits 0, List.length_map, codesFrom_length, hf.count]

theorem assignments_eq {h : HuffSpec} (hf : h.Fits) :
    h.assignments = (List.range h.vals.length).map h.assignment := by
  have hcodes : (codesFrom 1 h.bits 0).length = h.vals.length := by rw [codesFrom_length, hf.count]
  refine List.ext_getElem (by simp [HuffSpec.assignments, hcodes]) fun k hk _ => ?_
  obtain ⟨hval, hcode⟩ := List.getElem?_zip_eq_some.1 (List.getElem?_eq_getElem hk)
  obtain ⟨hcanon, hlen⟩ := codesFrom_eq_canonicalCode hcode
  simp [HuffSpec.assignment, hval, hlen, ← hcanon]

/-- An assigned symbol has the entry of its last assignment; the entry of any other is untouched. -/
theorem foldl_assignCode_cases (f : Nat → Nat × Nat × Nat) (n : Nat) (t : Vector (Option HtEntry) 256) (i : Fin 256) :
    ((∀ k < n, (f k).1 ≠ i.val) ∧ (((List.range n).map f).foldl assignCode t)[i] = t[i]) ∨
    ∃ k < n, (f k).1 = i.val ∧ (∀ j < n, k < j → (f j).1 ≠ i.val) ∧ (((List.range n).map f).foldl assignCode t)[i] =
      some ⟨true, BitVec.ofNat 16 (f k).2.1, BitVec.ofNat 5 (f k).2.2⟩ := by
  induction n with
  | zero => exact .inl ⟨nofun, rfl⟩
  | succ n ih =>
    rw [List.range_succ, List.map_append, List.foldl_append, List.map_singleton, List.foldl_cons, List.foldl_nil,
      assignCode_get]
    by_cases hn : (f n).1 = i.val
    · rw [if_pos hn]
      exact .inr ⟨n, n.lt_succ_self, hn, fun j hj hnj => absurd hj (Nat.not_lt.2 hnj), rfl⟩
    · rw [if_neg hn]
      rcases ih with ⟨hnone, hget⟩ | ⟨k, hk, hsym, hlast, hget⟩
      · exact .inl ⟨Nat.forall_lt_succ_right.2 ⟨hnone, hn⟩, hget⟩
      · exact .inr ⟨k, hk.trans n.lt_succ_self, hsym, Nat.forall_lt_succ_right.2 ⟨hlast, fun _ => hn⟩, hget⟩

/-- What HUFF_BUILD leaves for a symbol: not valid when it is not listed, else the canonical code of its last listing. -/
theorem buildTable_cases {h : HuffSpec} (hf : h.Fits) (v : Fin 256) :
    (v.val ∉ h.vals ∧ (buildTable h)[v] = some notValid) ∨
    ∃ k < h.vals.length, h.vals.getD k 0 = v.val ∧ (∀ j < h.vals.length, k < j → h.vals.getD j 0 ≠ v.val) ∧
      (buildTable h)[v] = some ⟨true, BitVec.ofNat 16 (canonicalCode (codeLengths h) k),
        BitVec.ofNat 5 ((codeLengths h).getD k 0)⟩ := by
  rw [buildTable_eq hf, assignments_eq hf]
  refine (foldl_assignCode_cases h.assignment h.vals.length _ v).imp_left fun ⟨hnone, hget⟩ => ⟨fun hv => ?_, ?_⟩
  · obtain ⟨k, hk, hkv⟩ := List.getElem_of_mem hv
    exact hnone k hk ((List.getD_eq_getElem _ _ hk).trans hkv)
  · rw [hget]
    simp

/-- Settles O10: a symbol's entry is that of its last listing, and only a listed symbol has one. -/
theorem huffBuildCanonical : Obligations.HuffBuildCanonical := by
  refine fun h hf => ⟨fun k hk hlast => ?_, fun v hv => ?_⟩
  · have hmem : h.vals.getD k 0 ∈ h.vals := by
      rw [List.getD_eq_getElem _ _ hk]
      exact List.getElem_mem hk
    have hlt := hf.symbols _ hmem
    rcases buildTable_cases hf ⟨h.vals.getD k 0, hlt⟩ with ⟨hnone, -⟩ | ⟨k', hk', hsym, hlast', hget⟩
    · exact absurd hmem hnone
    · obtain rfl : k' = k := le_antisymm (not_lt.1 fun hkk => hlast k' hk' hkk hsym)
        (not_lt.1 fun hkk => hlast' k hk hkk rfl)
      exact Vector.getElem?_eq_some_iff.2 ⟨hlt, hget⟩
  · rcases buildTable_cases hf v with ⟨-, hget⟩ | ⟨k, hk, hsym, -⟩
    · exact hget
    · rw [List.getD_eq_getElem _ _ hk] at hsym
      exact absurd (hsym ▸ List.getElem_mem hk) hv

/-! #### The order of the codes (R116) -/

theorem codeSpace_eq_mul_pow {ls : List Nat} {a b : Nat} (h : ∀ l ∈ ls, l ≤ a) (hab : a ≤ b) :
    codeSpace ls b = codeSpace ls a * 2 ^ (b - a) := by
  rw [codeSpace, codeSpace, ← List.sum_map_mul_right]
  refine congrArg _ (List.map_congr_left fun l hl => ?_)
  have := h l hl
  rw [← pow_add]
  congr 1
  omega

theorem codeSpace_le_of_sublist {ls ms : List Nat} (h : ls.Sublist ms) (len : Nat) :
    codeSpace ls len ≤ codeSpace ms len :=
  (h.map _).sum_le_sum fun _ _ => Nat.zero_le _

/-- In code order the lengths rise. -/
theorem lengthsFrom_pairwise (len : Nat) (counts : List Nat) : (lengthsFrom len counts).Pairwise (· ≤ ·) := by
  induction counts generalizing len with
  | nil => exact .nil
  | cons count counts ih =>
    refine List.pairwise_append.2 ⟨List.pairwise_replicate_of_refl, ih _, fun a ha b hb => ?_⟩
    rw [List.eq_of_mem_replicate ha]
    exact (Nat.le_succ _).trans (lengthsFrom_bounds hb).1

/-- A later code is the space of at least the codes up to an earlier one: it lies beyond that code and all its
continuations. -/
theorem canonicalCode_spacing {ls : List Nat} (hs : ls.Pairwise (· ≤ ·)) {i j : Nat} (hij : i < j)
    (hj : j < ls.length) :
    (canonicalCode ls i + 1) * 2 ^ (ls.getD j 0 - ls.getD i 0) ≤ canonicalCode ls j := by
  have hi := hij.trans hj
  rw [List.getD_eq_getElem _ _ hi, List.getD_eq_getElem _ _ hj]
  have hle : ∀ l ∈ ls.take (i + 1), l ≤ ls[i] := fun l hl => by
    obtain ⟨k, hk, rfl⟩ := List.mem_take_iff_getElem.1 hl
    have hki : k ≤ i := Nat.le_of_lt_succ (hk.trans_le (min_le_left _ _))
    exact hs.rel_get_of_le (a := ⟨k, hki.trans_lt hi⟩) (b := ⟨i, hi⟩) hki
  have hcode (k : Nat) (hk : k < ls.length) : canonicalCode ls k = codeSpace (ls.take k) ls[k] := by
    rw [canonicalCode, List.getD_eq_getElem _ _ hk]
    rfl
  calc (canonicalCode ls i + 1) * 2 ^ (ls[j] - ls[i])
      = codeSpace (ls.take (i + 1)) ls[i] * 2 ^ (ls[j] - ls[i]) := by
        rw [hcode i hi, ← codeSpace_append_replicate _ 1, List.take_succ_eq_append_getElem hi]
        rfl
    _ = codeSpace (ls.take (i + 1)) ls[j] :=
        (codeSpace_eq_mul_pow hle (List.pairwise_iff_getElem.1 hs i j hi hj hij)).symm
    _ ≤ codeSpace (ls.take j) ls[j] := codeSpace_le_of_sublist (List.take_sublist_take_left hij) _
    _ = canonicalCode ls j := (hcode j hj).symm

/-- A valid entry holds the canonical code of a listing of its symbol, in full. -/
theorem buildTable_valid {h : HuffSpec} (hf : h.Fits) {v : Fin 256} {e : HtEntry} (he : (buildTable h)[v] = some e)
    (hv : e.valid = true) : ∃ k < h.vals.length, h.vals.getD k 0 = v.val ∧
      e.code.toNat = canonicalCode (codeLengths h) k ∧ e.len.toNat = (codeLengths h).getD k 0 := by
  rcases buildTable_cases hf v with ⟨-, hget⟩ | ⟨k, hk, hsym, -, hget⟩
  · obtain rfl := Option.some.inj (he.symm.trans hget)
    cases hv
  · obtain rfl := Option.some.inj (he.symm.trans hget)
    have hmem : h.assignment k ∈ h.assignments := assignments_eq hf ▸ List.mem_map_of_mem (List.mem_range.2 hk)
    obtain ⟨-, hlen, hcode⟩ := assignments_bounds hf hmem
    exact ⟨k, hk, hsym, Nat.mod_eq_of_lt (hcode.trans_le (Nat.pow_le_pow_right (by decide) hlen)),
      Nat.mod_eq_of_lt (hlen.trans_lt (by decide))⟩

/-- R116: no code begins with another one, and a shorter code comes before the beginning of every longer one. -/
theorem buildTable_prefixFree {h : HuffSpec} (hf : h.Fits) {v w : Fin 256} {d e : HtEntry} (hvw : v ≠ w)
    (hd : (buildTable h)[v] = some d) (he : (buildTable h)[w] = some e) (hdv : d.valid = true) (hev : e.valid = true)
    (hle : d.len.toNat ≤ e.len.toNat) :
    e.code.toNat / 2 ^ (e.len.toNat - d.len.toNat) ≠ d.code.toNat ∧
    (d.len.toNat < e.len.toNat → d.code.toNat < e.code.toNat / 2 ^ (e.len.toNat - d.len.toNat)) := by
  obtain ⟨i, hi, hiv, hcodeD, hlenD⟩ := buildTable_valid hf hd hdv
  obtain ⟨j, hj, hjw, hcodeE, hlenE⟩ := buildTable_valid hf he hev
  rw [← codeLengths_length hf] at hi hj
  have hs : (codeLengths h).Pairwise (· ≤ ·) := codeLengths_eq h ▸ lengthsFrom_pairwise 1 h.bits
  rcases lt_trichotomy i j with hij | rfl | hji
  case inl =>
    have hlt : d.code.toNat < e.code.toNat / 2 ^ (e.len.toNat - d.len.toNat) := by
      rw [hcodeD, hcodeE, hlenD, hlenE]
      exact (Nat.le_div_iff_mul_le (Nat.two_pow_pos _)).2 (canonicalCode_spacing hs hij hj)
    exact ⟨hlt.ne', fun _ => hlt⟩
  case inr.inl => exact absurd (Fin.ext (hiv.symm.trans hjw)) hvw
  case inr.inr =>
    have hge := List.pairwise_iff_getElem.1 hs j i hj hi hji
    rw [← List.getD_eq_getElem _ 0 hj, ← List.getD_eq_getElem _ 0 hi, ← hlenE, ← hlenD] at hge
    have hlt := canonicalCode_spacing hs hji hi
    rw [← hcodeD, ← hcodeE, ← hlenD, ← hlenE, Nat.sub_eq_zero_of_le hle, pow_zero, mul_one] at hlt
    rw [Nat.sub_eq_zero_of_le hge, pow_zero, Nat.div_one]
    exact ⟨(Nat.lt_of_succ_le hlt).ne, fun h => absurd h (Nat.not_lt.2 hge)⟩

/-- R113 (c): in the table of an admissible specification no code is all ones. -/
theorem buildTable_notAllOnes {h : HuffSpec} (ha : h.Admissible) {v : Fin 256} {e : HtEntry}
    (he : (buildTable h)[v] = some e) (hv : e.valid = true) : e.code.toNat + 1 < 2 ^ e.len.toNat := by
  obtain ⟨k, hk, -, hcode, hlen⟩ := buildTable_valid ha.toFits he hv
  rw [hcode, hlen]
  exact ha.notAllOnes k hk

/-- Settles O11: codes are spaced by the space that each takes up, and every listed symbol has one. -/
theorem huffPrefixFree : Obligations.HuffPrefixFree := by
  refine ⟨fun h hf v w d e => buildTable_prefixFree hf, fun T hT t => ?_, defaults_admissible⟩
  have hcode {sym : Nat} (hs : sym ∈ (T.huff t).vals) : HasCode (buildTable (T.huff t)) sym :=
    buildTable_hasCode (hT.huff t).toFits hs
  refine ⟨fun v e => buildTable_notAllOnes (hT.huff t), fun ht c hc => hcode (hT.dc t ht c hc), fun ht => ?_⟩
  obtain ⟨heob, hzrl, hrun⟩ := hT.ac t ht
  exact ⟨hcode heob, hcode hzrl, fun run hr c h1 h10 => hcode (hrun run hr c h1 h10)⟩

/-! #### The command (R112, R114) -/

/-- Settles O9: the body of HUFF_BUILD has no check; the codes listed are read off the tables of the defaults. -/
theorem huffBuildResult : Obligations.HuffBuildResult := by
  refine ⟨rfl, fun s => ⟨_, (exec_eq_runCommand .huffBuild s).trans (runCommand_ok rfl), rfl, fun hT => ?_⟩⟩
  dsimp only [complete]
  rw [hT]
  decide +kernel

end Sys2Proof.Machine

/-! ### The emitting commands that find room (42_bit_writer.md R124 to R130; 46_container.md R191, R199) -/

namespace Sys2Proof.Machine

variable {p : Params} {bs : List Byte} {s t : State}

/-! #### Output with room -/

/-- There is room for the bytes `bs`; nothing needs none, also where OUT_LEN exceeds DST_CAP (R126). -/
abbrev RoomFor (p : Params) (bs : List Byte) (s : State) : Prop :=
  bs = [] ∨ s.outLen.toNat + bs.length ≤ p.dstCap.toNat

theorem forEach_emitRaw_of_room (h : RoomFor p bs s) (hb : s.BusAnswers bs.length) :
    forEach (emitRaw p) bs s = .ok (appendBytes p bs s) := by
  obtain rfl | h := h
  · rfl
  · exact forEach_emitRaw_ok h hb

theorem stored_appendBytes (hp : dstRegionBad p = false) (h : RoomFor p bs s) :
    Stored (p.dstAddr.toNat + s.outLen.toNat) bs s (appendBytes p bs s) := by
  obtain rfl | h := h
  · exact ⟨nofun, fun _ _ => rfl⟩
  · refine ⟨fun k => ?_, fun x hx => ?_⟩
    · rw [readByte_appendBytes hp h, if_pos (Nat.le_add_right _ _), Nat.add_sub_cancel_left]
      simp
    · rw [readByte_appendBytes hp h]
      split
      · rw [List.getElem?_eq_none (by omega), Option.getD_none]
      · rfl

/-- `Stored` looks at the memory of the later state only. -/
theorem Stored.congr {a : Nat} {u : State} (h : Stored a bs s t) (hm : u.mem = t.mem) : Stored a bs s u :=
  h.imp (fun hin k => (readByte_congr hm _).trans (hin k)) fun hout x hx => (readByte_congr hm x).trans (hout x hx)

/-- Emitted bytes and new pending bits, as one change of the state. -/
theorem withBits_appendBytes_eq (p : Params) (bs : List Byte) (a : BitVec 8) (n : BitVec 3) (s : State) :
    withBits a n (appendBytes p bs s) = { s with
      mem := (appendBytes p bs s).mem, outLen := s.outLen + BitVec.ofNat 32 bs.length, acc := a, nbits := n
      busErrIn := s.busAfter bs.length } :=
  congrArg (withBits a n) (appendBytes_eq p bs s)

/-- A command whose body emits bytes that have room, and leaves other pending bits. -/
theorem exec_of_appendBytes {i : Instr} {a : BitVec 8} {n : BitVec 3} (hp : dstRegionBad (latched s) = false)
    (hroom : RoomFor (latched s) bs s)
    (hbody : bodyOf i (latched s) s = .ok (withBits a n (appendBytes (latched s) bs s))) :
    ∃ t : State, exec i s = .next t ∧
      t = ({ s with
        mem := t.mem, outLen := s.outLen + BitVec.ofNat 32 bs.length, acc := a, nbits := n
        busErrIn := s.busAfter bs.length } : State).succeeded ∧
      Stored ((latched s).dstAddr.toNat + s.outLen.toNat) bs s t :=
  ⟨_, (exec_eq_runCommand i s).trans (runCommand_ok hbody), congrArg State.succeeded (withBits_appendBytes_eq _ bs a n s),
    (stored_appendBytes hp hroom).congr rfl⟩

/-! #### The bit writer -/

/-- Pushed bits whose complete bytes are emitted: the bits left over are pending (R124). -/
theorem forEach_pushBit_ok {l : List Bool} (hb : s.BitInv)
    (h : forEach (emitRaw p) (emittedBytes (pendingBits s ++ l)) s = .ok t) : forEach (pushBit p) l s =
      .ok (withBits (BitVec.ofNat 8 (bitsValue (leftBits (pendingBits s ++ l))))
        (BitVec.ofNat 3 (leftBits (pendingBits s ++ l)).length) t) := by
  obtain ⟨a, n, hpush, hok⟩ := pushBit_spec p l hb
  obtain ⟨rfl, rfl⟩ := hok t h
  rw [hpush, h]
  rfl

theorem flushBody_of_nbits_zero (p : Params) (h : s.nbits = 0) : flushBody p s = .ok s := if_pos h

theorem withBits_zero_of_nbits_zero (hb : s.BitInv) (h : s.nbits = 0) : withBits 0 0 s = s := by
  have hacc : s.acc = 0 := BitVec.eq_of_toNat_eq (Nat.lt_one_iff.1 (by rwa [State.BitInv, h] at hb))
  rw [← hacc, ← h, withBits_self]

/-- FLUSH emits the padded pending bits and empties the bit writer, also when there are none (R127, R129). -/
theorem flushBody_eq_mapState (p : Params) (hb : s.BitInv) :
    flushBody p s = (forEach (emitRaw p) (emittedBytes (padOnes (pendingBits s))) s).mapState (withBits 0 0) := by
  by_cases h : s.nbits = 0
  · have hpend : pendingBits s = [] := by rw [pendingBits, h]; rfl
    rw [flushBody_of_nbits_zero p h, hpend]
    exact congrArg Res.ok (withBits_zero_of_nbits_zero hb h).symm
  · exact flushBody_eq p hb h

/-- Pushed bits and a FLUSH emit the padded string of the pending bits and the pushed ones (R130). -/
theorem forEach_pushBit_flush_ok {l : List Bool} (hb : s.BitInv)
    (h : forEach (emitRaw p) (emittedBytes (padOnes (pendingBits s ++ l))) s = .ok t) :
    (forEach (pushBit p) l s).bind (flushBody p) = .ok (withBits 0 0 t) := by
  rw [emittedBytes_padOnes, forEach_append, Res.bind_eq_ok] at h
  obtain ⟨u, hu, hpad⟩ := h
  have hleft := leftBits_length (pendingBits s ++ l)
  obtain ⟨hpend, hinv⟩ := pendingBits_withBits (l := leftBits (pendingBits s ++ l)) (by omega) u
  rw [forEach_pushBit_ok hb hu, Res.bind_ok, flushBody_eq_mapState p hinv, hpend, forEach_emitRaw_withBits, hpad]
  rfl

/-! #### The commands -/

theorem dstRegionBad_eq_false (h : p.dstAddr.toNat + p.dstCap.toNat ≤ 2 ^ 32) : dstRegionBad p = false :=
  decide_eq_false (Nat.not_lt.2 h)

/-- Settles O12: the body of RESET_STREAM has no check. -/
theorem resetStreamResult : Obligations.ResetStreamResult :=
  ⟨rfl, fun s => (exec_eq_runCommand .resetStream s).trans (runCommand_ok rfl)⟩

/-- Settles O13: the bits of ARG0 are pushed as one string. -/
theorem pushBitsResult : Obligations.PushBitsResult := by
  intro s n hb hfits bits out hroom hbus
  have hp := dstRegionBad_eq_false hfits
  refine exec_of_appendBytes hp hroom ?_
  change pushBitsCmd n.toNat (latched s) s = _
  rw [pushBitsCmd, hp, check_false, pushBits_eq]
  exact forEach_pushBit_ok hb (forEach_emitRaw_of_room hroom hbus)

/-- Settles O14: the padded byte is emitted; with NBITS = 0 the body is empty. -/
theorem flushResult : Obligations.FlushResult := by
  have hcmd {s : State} (hfits : s.DstFits) : bodyOf .flush (latched s) s = flushBody (latched s) s := by
    change flushCmd (latched s) s = _
    rw [flushCmd, dstRegionBad_eq_false hfits, check_false]
  refine ⟨?_, fun s hfits h => ?_⟩
  · intro s hb hfits out hroom hbus
    refine exec_of_appendBytes (dstRegionBad_eq_false hfits) (.inr hroom) ?_
    rw [hcmd hfits, flushBody_eq_mapState _ hb, forEach_emitRaw_of_room (.inr hroom) hbus]
    rfl
  · exact (exec_eq_runCommand .flush s).trans (runCommand_ok ((hcmd hfits).trans (flushBody_of_nbits_zero _ h)))

/-- Settles O15: the items are pushed as one string, which FLUSH pads. -/
theorem streamLaw : Obligations.StreamLaw := by
  intro p items s hacc hn hfits out hroom hbus
  have hpend : pendingBits s = [] := by rw [pendingBits, hn]; rfl
  have hitems : forEach (fun x : Nat × Nat => pushBits p x.1 x.2) items s =
      forEach (pushBit p) (items.flatMap fun x => bitString x.1 x.2) s := by
    rw [forEach_flatMap]
    exact congrArg (forEach · items s) (funext₂ fun x u => pushBits_eq p x.1 x.2 u)
  refine ⟨fun k => stuffBytes_ff, withBits 0 0 (appendBytes p out s), ?_, ?_, ?_⟩
  · rw [hitems]
    refine forEach_pushBit_flush_ok (bitInv_of_zero hacc hn) ?_
    rw [hpend, List.nil_append]
    exact forEach_emitRaw_of_room hroom hbus
  · refine (withBits_appendBytes_eq p out 0 0 s).trans ?_
    rw [← hacc, ← hn]
    rfl
  · exact (stored_appendBytes (dstRegionBad_eq_false hfits) hroom).congr rfl

/-- Settles O29: the header bytes are emitted one by one. -/
theorem writeHeadersResult : Obligations.WriteHeadersResult := by
  refine ⟨rfl, ?_⟩
  intro s q0 q1 hv h0 h1 p out hroom hbus
  refine exec_of_appendBytes (a := s.acc) (n := s.nbits) (dstRegion_of_valid rfl hv) (.inr hroom) ?_
  refine (writeHeadersCmd_of_valid hv).trans ?_
  rw [writeHeadersBody_eq h0 h1, ← mapState_withBits_self, forEach_emitRaw_of_room (.inr hroom) hbus]
  rfl

/-- Settles O31: the check on NBITS decides between the two bytes and the error. -/
theorem writeEoiResult : Obligations.WriteEoiResult := by
  refine ⟨rfl, fun s hn hfits hroom hbus => ?_, fun s hn => ?_⟩
  · have hp := dstRegionBad_eq_false hfits
    refine exec_of_appendBytes (bs := [0xFF, 0xD9]) (a := s.acc) (n := s.nbits) hp (.inr hroom) ?_
    change writeEoiCmd (latched s) s = _
    rw [writeEoiCmd, decide_eq_false (not_not.2 hn), hp, check_false, check_false, writeEoiBody,
      ← mapState_withBits_self, forEach_emitRaw_of_room (.inr hroom) hbus]
    rfl
  · have hbody : bodyOf .writeEoi (latched s) s = .raise .illegalState s := by
      change writeEoiCmd (latched s) s = _
      rw [writeEoiCmd, decide_eq_true hn, check_true]
    exact (exec_eq_runCommand .writeEoi s).trans (runCommand_reject hbody nofun nofun (.inl rfl))

end Sys2Proof.Machine

/-! ### The state after OUT_OVERFLOW of the emitting commands (60_exceptions.md R236) -/

namespace Sys2Proof.Machine

variable {p : Params} {bs : List Byte} {s : State}

/-- The first bytes of an output have room up to DST_CAP. -/
theorem roomFor_take (p : Params) (bs : List Byte) (s : State) :
    RoomFor p (bs.take (p.dstCap.toNat - s.outLen.toNat)) s := by
  obtain h | h := Nat.le_total s.outLen.toNat p.dstCap.toNat
  · refine .inr ?_
    rw [List.length_take]
    omega
  · exact .inl (by rw [Nat.sub_eq_zero_of_le h, List.take_zero])

/-- An output without room for all of it is emitted up to DST_CAP, and not at all from beyond it. -/
theorem forEach_emitRaw_overflow (hne : bs ≠ []) (h : p.dstCap.toNat < s.outLen.toNat + bs.length)
    (hb : s.BusAnswers (p.dstCap.toNat - s.outLen.toNat)) : forEach (emitRaw p) bs s =
      .raise .outOverflow (appendBytes p (bs.take (p.dstCap.toNat - s.outLen.toNat)) s) := by
  obtain h0 | h0 := Nat.le_total s.outLen.toNat p.dstCap.toNat
  · exact forEach_emitRaw_full h0 h hb
  · obtain ⟨b, cs, rfl⟩ := List.exists_cons_of_ne_nil hne
    rw [forEach_emitRaw_beyond h0, Nat.sub_eq_zero_of_le h0]
    rfl

/-- OUT_LEN after the bytes up to DST_CAP. -/
theorem outLen_add_room (p : Params) (s : State) : s.outLen + BitVec.ofNat 32 (p.dstCap.toNat - s.outLen.toNat) =
    if s.outLen.toNat ≤ p.dstCap.toNat then p.dstCap else s.outLen := by
  split
  · bv_omega
  · rw [Nat.sub_eq_zero_of_le (by omega)]
    exact BitVec.add_zero _

theorem exec_of_outOverflow {i : Instr} {v : State} (h : bodyOf i (latched s) s = .raise .outOverflow v) :
    exec i s = .next ((spoilOverflow (writesOf i) v).failed .outOverflow) := by
  rw [exec_eq_next, h]
  rfl

theorem spoilOverflow_mem (w : Writes) (v : State) : (spoilOverflow w v).mem = v.mem := by rw [spoilOverflow_eq]

/-- OUT_OVERFLOW of a command that writes no store opens the bit writer and the predictors; memory is named by its own. -/
theorem spoilOverflow_of_no_stores {w : Writes} (hblk : w.blk = false) (hqblk : w.qblk = false) (hzz : w.zz = false)
    {u v : State} (hv : v = u) : spoilOverflow w v = { u with
      mem := (spoilOverflow w v).mem, acc := (spoilOverflow w v).acc, nbits := (spoilOverflow w v).nbits
      pred := (spoilOverflow w v).pred, draws := (spoilOverflow w v).draws } := by
  subst hv
  unfold spoilOverflow
  rw [drawPreds_eq]
  simp [clearStores, hblk, hqblk, hzz]

/-- Settles O36: the body stops at the first byte without room, and R236 opens the bit writer and the predictors. -/
theorem emissionOverflow : Obligations.EmissionOverflow := by
  intro s i h p out room hne hfull hbus
  obtain ⟨a, n, f, hbody⟩ := bodyOf_eq_emission h
  rw [forEach_emitRaw_overflow hne hfull hbus] at hbody
  obtain ⟨he, hencode, hv, -⟩ := h
  obtain ⟨-, hrestarts, -, -, hblk, hqblk, hzz⟩ := writesOf_of_emits he hencode
  have hreset : i ≠ .resetStream := fun hi => by rw [hi] at he; cases he
  have hlen : (out.take room).length = room := by
    rw [List.length_take]
    omega
  have hstate := withBits_appendBytes_eq p (out.take room) a n s
  rw [hlen, outLen_add_room] at hstate
  have hexec := exec_of_outOverflow hbody
  refine ⟨_, hexec, congrArg (State.failed · .outOverflow) (spoilOverflow_of_no_stores hblk hqblk hzz hstate),
    fun ch hch => exec_pred_frame hexec (writesOf_preds hch hreset hencode) hrestarts, rfl, ?_⟩
  exact (stored_appendBytes (dstRegion_of_valid he hv) (roomFor_take p out s)).congr (spoilOverflow_mem _ _)

end Sys2Proof.Machine

/-! ### The ideal transform: orthonormality and bounds (43_fdct.md R143, R145, R146) -/

namespace Sys2Proof

variable {f : Fin 64 → ℝ} {u v : Fin 8}

/-! #### The elements of a block by row and column (R140) -/

theorem natIdx_eq_finProdFinEquiv (y x : Fin 8) : natIdx y x = finProdFinEquiv (y, x) := Fin.ext (add_comm _ _)

theorem natIdx_inj {y x y' x' : Fin 8} : natIdx y x = natIdx y' x' ↔ y = y' ∧ x = x' := by
  rw [natIdx_eq_finProdFinEquiv, natIdx_eq_finProdFinEquiv, finProdFinEquiv.injective.eq_iff, Prod.mk_inj]

theorem sum_natIdx (h : Fin 64 → ℝ) : ∑ y : Fin 8, ∑ x : Fin 8, h (natIdx y x) = ∑ i, h i := by
  rw [← Fintype.sum_prod_type']
  exact Fintype.sum_equiv finProdFinEquiv _ _ fun p => congrArg h (natIdx_eq_finProdFinEquiv _ _)

/-! #### Formula, linearity and constant blocks -/

/-- The two passes as the one formula of R143. -/
theorem fdctIdeal_eq_formula (f : Fin 64 → ℝ) (u v : Fin 8) : fdctIdeal f u v =
    1 / 4 * fdctC u * fdctC v * ∑ x : Fin 8, ∑ y : Fin 8, f (natIdx y x) * fdctCos u x * fdctCos v y := by
  rw [fdctIdeal_eq_sum, Finset.sum_comm, Finset.mul_sum]
  refine Finset.sum_congr rfl fun x _ => ?_
  rw [Finset.mul_sum]
  refine Finset.sum_congr rfl fun y _ => ?_
  unfold fdctWeight
  ring

theorem fdctIdeal_linear (a b : ℝ) (f g : Fin 64 → ℝ) (u v : Fin 8) :
    fdctIdeal (fun i => a * f i + b * g i) u v = a * fdctIdeal f u v + b * fdctIdeal g u v := by
  simp only [fdctIdeal_eq_sum, add_mul, Finset.sum_add_distrib, Finset.mul_sum, mul_assoc]

theorem fdctIdeal_sub (f g : Fin 64 → ℝ) (u v : Fin 8) :
    fdctIdeal (fun i => f i - g i) u v = fdctIdeal f u v - fdctIdeal g u v := by
  simpa [sub_eq_add_neg] using fdctIdeal_linear 1 (-1) f g u v

/-- For a constant block the lower and the upper bound of each coefficient meet. -/
theorem fdctIdeal_const (c : ℝ) (u v : Fin 8) : fdctIdeal (fun _ => c) u v = if u = 0 ∧ v = 0 then 8 * c else 0 := by
  have hc : ∀ _ : Fin 64, c ≤ c ∧ c ≤ c := fun _ => ⟨le_rfl, le_rfl⟩
  split_ifs with h
  · obtain ⟨rfl, rfl⟩ := h
    exact le_antisymm (fdctIdeal_dc_bounds hc).2 (fdctIdeal_dc_bounds hc).1
  · have hac := fdctIdeal_ac_bound hc h
    rwa [sub_self, mul_zero, abs_nonpos_iff] at hac

/-! #### Rows, columns and energy -/

/-- Where all rows are equal, the column pass sees constants. -/
theorem fdctIdeal_eq_zero_of_rows_eq (h : ∀ x y y' : Fin 8, f (natIdx y x) = f (natIdx y' x)) (hv : v ≠ 0) :
    fdctIdeal f u v = 0 := by
  rw [fdctIdeal_eq_sum, Finset.sum_comm]
  refine Finset.sum_eq_zero fun x _ => ?_
  simp only [h x _ 0, ← Finset.mul_sum, fdctWeight_sum_eq_zero hv, mul_zero]

/-- Where all columns are equal, the row pass sees constants. -/
theorem fdctIdeal_eq_zero_of_columns_eq (h : ∀ y x x' : Fin 8, f (natIdx y x) = f (natIdx y x')) (hu : u ≠ 0) :
    fdctIdeal f u v = 0 := by
  rw [fdctIdeal_eq_sum]
  refine Finset.sum_eq_zero fun y _ => ?_
  simp only [h y _ 0, ← Finset.mul_sum, ← Finset.sum_mul, fdctWeight_sum_eq_zero hu, zero_mul, mul_zero]

/-- One pass preserves energy, because its weights are orthonormal. -/
theorem sum_sq_fdctWeight_pass (g : Fin 8 → ℝ) :
    ∑ k : Fin 8, (∑ x : Fin 8, g x * fdctWeight k x) ^ 2 = ∑ x : Fin 8, g x ^ 2 := by
  calc ∑ k : Fin 8, (∑ x : Fin 8, g x * fdctWeight k x) ^ 2
      = ∑ x : Fin 8, ∑ y : Fin 8, g x * g y * ∑ k : Fin 8, fdctWeight k x * fdctWeight k y := by
        simp only [sq, Finset.sum_mul_sum]
        rw [Finset.sum_comm]
        refine Finset.sum_congr rfl fun x _ => ?_
        rw [Finset.sum_comm]
        refine Finset.sum_congr rfl fun y _ => ?_
        rw [Finset.mul_sum]
        exact Finset.sum_congr rfl fun k _ => mul_mul_mul_comm _ _ _ _
    _ = ∑ x : Fin 8, g x ^ 2 := by simp [fdctWeight_orthonormal_col, sq]

theorem fdctRowPass_eq_sum (f : Fin 64 → ℝ) (u y : Fin 8) :
    fdctRowPass f u y = ∑ x : Fin 8, f (natIdx y x) * fdctWeight u x := by
  rw [fdctRowPass, Finset.mul_sum]
  exact Finset.sum_congr rfl fun x _ => mul_left_comm _ _ _

theorem fdctIdeal_eq_sum_rowPass (f : Fin 64 → ℝ) (u v : Fin 8) :
    fdctIdeal f u v = ∑ y : Fin 8, fdctRowPass f u y * fdctWeight v y := by
  rw [fdctIdeal, Finset.mul_sum]
  exact Finset.sum_congr rfl fun y _ => mul_left_comm _ _ _

/-- The column pass preserves the energy of the row pass, and that the energy of the block. -/
theorem sum_sq_fdctIdeal (f : Fin 64 → ℝ) : ∑ u : Fin 8, ∑ v : Fin 8, fdctIdeal f u v ^ 2 = ∑ i, f i ^ 2 := by
  simp only [fdctIdeal_eq_sum_rowPass, sum_sq_fdctWeight_pass]
  rw [Finset.sum_comm, ← sum_natIdx]
  simp only [fdctRowPass_eq_sum, sum_sq_fdctWeight_pass]

/-- The ideal coefficient is 0, and the bound of R144 is all that is left. -/
theorem FdctImpl.const_ac_bound (T : FdctImpl) {c : Rat} (hc : |c| ≤ 2 ^ 15) (huv : ¬ (u = 0 ∧ v = 0)) :
    |(T.fn (Vector.replicate 64 c))[natIdx v u]| ≤ 1 / 2 ^ 12 := by
  have h := T.within (Vector.replicate 64 c) (fun i => by simpa using hc) u v
  simp only [Fin.getElem_fin, Vector.getElem_replicate, fdctIdeal_const, if_neg huv, sub_zero] at h ⊢
  rw [← Rat.cast_le (K := ℝ)]
  push_cast
  exact h

/-- Settles O17: the weights of each pass are orthonormal, and those of a pass cancel but for index 0. -/
theorem fdctIdealProperties : Obligations.FdctIdealProperties :=
  ⟨fdctIdeal_eq_formula, fdctIdeal_linear, fdctIdeal_const, sum_sq_fdctIdeal,
    fun _ _ _ => fdctIdeal_eq_zero_of_rows_eq, fun _ _ _ => fdctIdeal_eq_zero_of_columns_eq,
    fun T _ hc _ _ => T.const_ac_bound hc⟩

/-! #### The bounds of the coefficients (R146) -/

/-- The weight of sample (x, y) in coefficient (u, v) is the coefficient of the impulse there. -/
theorem fdctIdeal_impulse (u v x y : Fin 8) :
    fdctIdeal (fun i => if i = natIdx y x then 1 else 0) u v = fdctWeight u x * fdctWeight v y := by
  simp [fdctIdeal_eq_sum, natIdx_inj, ite_and]

theorem fdctIdeal_abs_le {m : ℝ} (h : ∀ i, |f i| ≤ m) (u v : Fin 8) : |fdctIdeal f u v| ≤ 8 * m := by
  have hf : ∀ i, -m ≤ f i ∧ f i ≤ m := fun i => abs_le.1 (h i)
  by_cases huv : u = 0 ∧ v = 0
  · obtain ⟨rfl, rfl⟩ := huv
    obtain ⟨h1, h2⟩ := fdctIdeal_dc_bounds hf
    exact abs_le.2 ⟨by linarith, h2⟩
  · linarith [fdctIdeal_ac_bound hf huv]

theorem fdctIdeal_abs_sub_le {f g : Fin 64 → ℝ} {e : ℝ} (h : ∀ i, |f i - g i| ≤ e) (u v : Fin 8) :
    |fdctIdeal f u v - fdctIdeal g u v| ≤ 8 * e := by
  rw [← fdctIdeal_sub]
  exact fdctIdeal_abs_le h u v

/-- The cosines of index 4 are those of odd multiples of pi / 4. -/
theorem fdctWeight_four_sq (x : Fin 8) : fdctWeight 4 x ^ 2 = 1 / 8 := by
  have hcos : fdctCos 4 x ^ 2 = 1 / 2 := by
    have hangle : 2 * ((2 * (x.val : ℝ) + 1) * ((4 : Fin 8).val : ℝ) * Real.pi / 16) =
        (2 * ((x.val : ℤ) : ℝ) + 1) * Real.pi / 2 := by
      rw [show ((4 : Fin 8).val : ℝ) = 4 by norm_num]
      push_cast
      ring
    rw [fdctCos, Real.cos_sq, Real.cos_eq_zero_iff.2 ⟨x.val, hangle⟩, zero_div, add_zero]
  rw [fdctWeight, fdctC, if_neg (by decide), mul_pow, hcos]
  norm_num

theorem fdctWeight_four_abs_mul (x y : Fin 8) : |fdctWeight 4 x * fdctWeight 4 y| = 1 / 8 := by
  rw [← abs_of_pos (show (0 : ℝ) < 1 / 8 by norm_num), ← sq_eq_sq_iff_abs_eq_abs, mul_pow, fdctWeight_four_sq,
    fdctWeight_four_sq, sq]

/-- A term of the block that reaches the bound: 127 against a weight 1/8, -128 against -1/8. Both are 1020/64 but for a
multiple of the weight. -/
theorem extreme_mul_weight {w : ℝ} (h : |w| = 1 / 8) : (if 0 < w then 127 else -128) * w = 1020 / 64 - 1 / 2 * w := by
  rcases eq_or_eq_neg_of_abs_eq h with rfl | rfl <;> norm_num

theorem fdctIdeal_four_extreme
    (hf : ∀ x y : Fin 8, f (natIdx y x) = if 0 < fdctWeight 4 x * fdctWeight 4 y then 127 else -128) :
    fdctIdeal f 4 4 = 1020 := by
  simp only [fdctIdeal_eq_sum, hf, extreme_mul_weight (fdctWeight_four_abs_mul _ _), Finset.sum_sub_distrib,
    ← Finset.mul_sum, fdctWeight_mul_sum_eq_zero (show ¬ ((4 : Fin 8) = 0 ∧ (4 : Fin 8) = 0) by decide)]
  norm_num

/-- Settles O18: the bounds are those of blocks in an interval; with the weights of (4, 4), all of magnitude 1/8, a block of
127 and -128 by their signs reaches 1020. -/
theorem fdctIdealBounds : Obligations.FdctIdealBounds := by
  unfold Obligations.FdctIdealBounds
  simp only [fdctIdeal_impulse]
  refine ⟨fun u v => ?_, fdctWeight_four_abs_mul, fun u v huv => ?_, fun f g e => fdctIdeal_abs_sub_le,
    fun f m => fdctIdeal_abs_le, fun f a b h u v huv => ?_, fun f h => ⟨?_, fun u v huv => ?_⟩, fun f h u v => ?_,
    fdctIdeal_four_extreme fun x y => ?_⟩
  · rw [Finset.sum_comm]
    exact fdctWeight_abs_sum_le u v
  · rw [Finset.sum_comm]
    exact fdctWeight_mul_sum_eq_zero huv
  · linarith [fdctIdeal_ac_bound h huv]
  · obtain ⟨h1, h2⟩ := fdctIdeal_dc_bounds h
    exact ⟨by linarith, by linarith⟩
  · linarith [fdctIdeal_ac_bound h huv]
  · linarith [fdctIdeal_abs_le h u v]
  · have hx : (8 * y.val + x.val) % 8 = x.val := by omega
    have hy : (8 * y.val + x.val) / 8 = y.val := by omega
    simp only [natIdx, hx, hy]

end Sys2Proof

/-! ### FDCT and the tie band of QUANT (43_fdct.md R141, R144; 45_block_encoder.md R161, R163) -/

namespace Sys2Proof.Machine

/-- Settles O16: the body of FDCT on a written block, and the bound that every FDCT_IMPL carries. -/
theorem fdctResult : Obligations.FdctResult :=
  ⟨rfl, fun s f hf => ⟨(exec_eq_runCommand .fdct s).trans (runCommand_ok (fdctBody_ok hf)), Config.fdct.within f⟩⟩

/-- A sample lies well within the range of R144. -/
theorem cc_fn_abs_le (cc : CcImpl) (ch : Channel) (r g b : Byte) : |cc.fn ch r g b| ≤ 2 ^ 15 := by
  obtain ⟨h1, h2⟩ := ccIdeal_bounds ch r g b
  obtain ⟨h3, h4⟩ := abs_le.1 (cc.within ch r g b)
  rw [abs_le]
  cases ch <;> simp only [sampleMin, sampleMax] at h1 h2 <;> constructor <;> linarith

/-- SAMPLE then FDCT: EPS_DCT, and EPS_CC grown by the factor 8 of R146. -/
theorem fdct_sample_close (cc : CcImpl) (fd : FdctImpl) (ch : Channel) (px : Fin 64 → Byte × Byte × Byte) (u v : Fin 8) :
    |(((fd.fn (Vector.ofFn fun i => cc.fn ch (px i).1 (px i).2.1 (px i).2.2))[natIdx v u] : Rat) : ℝ) -
      fdctIdeal (fun i => ((ccIdeal ch (px i).1 (px i).2.1 (px i).2.2 : Rat) : ℝ)) u v| ≤ 3 / 2 ^ 13 := by
  have hfd := fd.within (Vector.ofFn fun i => cc.fn ch (px i).1 (px i).2.1 (px i).2.2) (fun i => by
    rw [getElem_ofFn_fin]
    exact cc_fn_abs_le cc ch _ _ _) u v
  simp only [getElem_ofFn_fin] at hfd
  have hcc : |fdctIdeal (fun i => ((cc.fn ch (px i).1 (px i).2.1 (px i).2.2 : Rat) : ℝ)) u v -
      fdctIdeal (fun i => ((ccIdeal ch (px i).1 (px i).2.1 (px i).2.2 : Rat) : ℝ)) u v| ≤ 8 * (1 / 2 ^ 16) :=
    fdctIdeal_abs_sub_le (fun i => by
      simpa using (Rat.cast_le (K := ℝ)).2 (cc.within ch (px i).1 (px i).2.1 (px i).2.2)) u v
  refine (abs_sub_le _ _ _).trans ((add_le_add hfd hcc).trans ?_)
  norm_num

section
variable (mode : RoundTie) {b : Rat} {q : Byte} (hq : 1 ≤ q.toNat)
include hq

/-- The rounded quotient, multiplied back, is within half a step of the coefficient. -/
theorem quantize_mul_near : |(b : ℝ) - q.toNat * quantize mode b q| ≤ q.toNat / 2 := by
  have hq' : (0 : ℝ) < q.toNat := by exact_mod_cast hq
  have h : |(quantize mode b q : ℝ) - b / q.toNat| ≤ 1 / 2 := by
    simpa using (Rat.cast_le (K := ℝ)).2 (quantize_near mode b q)
  calc |(b : ℝ) - q.toNat * quantize mode b q| = |(q.toNat : ℝ) * (quantize mode b q - b / q.toNat)| := by
        rw [abs_sub_comm, mul_sub, mul_div_cancel₀ _ hq'.ne']
    _ = q.toNat * |(quantize mode b q : ℝ) - b / q.toNat| := by rw [abs_mul, abs_of_pos hq']
    _ ≤ q.toNat * (1 / 2) := by gcongr
    _ = q.toNat / 2 := mul_one_div _ _

variable {t e : ℝ} (hclose : |(b : ℝ) - t| ≤ e)
include hclose

/-- Where `t` is further than `e` from every tie, it lies on the same side of each as any coefficient within `e` of it. -/
theorem quantize_eq_of_no_tie (hband : ∀ k : ℤ, e < |t - (q.toNat : ℝ) * ((k : ℝ) + 1 / 2)|) :
    quantize mode b q = ⌊t / (q.toNat : ℝ) + 1 / 2⌋ := by
  have hq' : (0 : ℝ) < q.toNat := by exact_mod_cast hq
  obtain ⟨hnear1, hnear2⟩ := abs_le.1 (quantize_mul_near mode hq (b := b))
  obtain ⟨hclose1, hclose2⟩ := abs_le.1 hclose
  have hlo := hband (quantize mode b q - 1)
  have hhi := hband (quantize mode b q)
  generalize quantize mode b q = n at *
  push_cast at hlo
  have hn1 : (q.toNat : ℝ) * (n - 1 / 2) ≤ t := by
    rcases lt_abs.1 hlo with h | h <;> linarith
  have hn2 : t < (q.toNat : ℝ) * (n + 1 / 2) := by
    rcases lt_abs.1 hhi with h | h <;> linarith
  rw [eq_comm, Int.floor_eq_iff]
  constructor
  · linarith [(le_div_iff₀' hq').2 hn1]
  · linarith [(div_lt_iff₀' hq').2 hn2]

/-- A coefficient less than half a step from `t` rounds to one of the two integers next to the quotient of `t`. -/
theorem quantize_eq_floor_or (he : e < 1 / 2) :
    quantize mode b q = ⌊t / (q.toNat : ℝ)⌋ ∨ quantize mode b q = ⌊t / (q.toNat : ℝ)⌋ + 1 := by
  have hq' : (1 : ℝ) ≤ q.toNat := by exact_mod_cast hq
  obtain ⟨hnear1, hnear2⟩ := abs_le.1 (quantize_mul_near mode hq (b := b))
  obtain ⟨hclose1, hclose2⟩ := abs_le.1 hclose
  generalize quantize mode b q = n at *
  have hn1 : (n : ℝ) - 1 ≤ t / q.toNat := by
    rw [le_div_iff₀' (by linarith)]
    linarith
  have hn2 : t / q.toNat < n + 1 := by
    rw [div_lt_iff₀' (by linarith)]
    linarith
  have hge : n - 1 ≤ ⌊t / (q.toNat : ℝ)⌋ := Int.le_floor.2 (by exact_mod_cast hn1)
  have hle : ⌊t / (q.toNat : ℝ)⌋ < n + 1 := Int.floor_lt.2 (by exact_mod_cast hn2)
  omega

end

/-- Settles O23: the coefficient is close to the ideal one, so both are on one side of every tie outside the band. -/
theorem tieBand : Obligations.TieBand := by
  intro cc fd mode ch px u v coef ideal
  have hclose : |(coef : ℝ) - ideal| ≤ 3 / 2 ^ 13 := fdct_sample_close cc fd ch px u v
  exact ⟨hclose, fun q hq => ⟨quantize_eq_of_no_tie mode hq hclose, quantize_eq_floor_or mode hq hclose (by norm_num)⟩⟩

end Sys2Proof.Machine

/-! ### SAMPLE and the colour conversion (44_color_sampler.md R151 to R155) -/

namespace Sys2Proof.Machine

/-! #### The clamped pixels of a block (R61, R151, R155) -/

theorem pixelsFit_of_valid {s : State} {ch : Channel} (h : Valid (.sample ch) s) : (latched s).PixelsFit where
  dimensions := h (dimensionsBad (latched s), .badDimensions) (by simp [validation, dimensionsBad])
  srcLen := h (srcLenBad (latched s), .badSrcLen) (by simp [validation, srcLenBad])
  srcRegion := h (srcRegionBad (latched s), .badRegion) (by simp [validation, srcRegionBad])

theorem Params.bx_eq_mod (p : Params) : p.bx = p.origin.toNat % 2 ^ 16 := by
  rw [Params.bx, BitVec.extractLsb'_toNat, Nat.shiftRight_zero]

theorem Params.byy_eq_div (p : Params) : p.byy = p.origin.toNat / 2 ^ 16 := by
  have hlt : p.origin.toNat < 2 ^ 32 := p.origin.isLt
  rw [Params.byy, BitVec.extractLsb'_toNat, Nat.shiftRight_eq_div_pow]
  omega

/-- The address of the first byte of the pixel under sample (x, y) of the block at ORIGIN, clamped to the image. -/
def Params.clampedPixel (p : Params) (x y : Nat) : Nat :=
  p.srcAddr.toNat + 3 * (min (p.origin.toNat / 2 ^ 16 + y) (p.height.toNat - 1) * p.width.toNat +
    min (p.origin.toNat % 2 ^ 16 + x) (p.width.toNat - 1))

section
variable {p : Params} (h : p.PixelsFit)
include h

theorem Params.PixelsFit.pixelAddr_origin (x y : Nat) {c : Nat} (hc : c < 3) :
    pixelAddr p p.bx p.byy x y c = p.clampedPixel x y + c := by
  rw [h.pixelAddr_eq _ _ x y hc, pixelOffset, p.bx_eq_mod, p.byy_eq_div, ← Nat.add_assoc, Params.clampedPixel]

theorem Params.PixelsFit.clampedPixel_mem (x y : Nat) :
    p.srcAddr.toNat ≤ p.clampedPixel x y ∧ p.clampedPixel x y + 2 < p.srcAddr.toNat + p.srcLen.toNat := by
  have hlast := (h.pixelAddr_mem p.bx p.byy x y (show 2 < 3 by norm_num)).2
  rw [h.pixelAddr_origin x y (by norm_num)] at hlast
  exact ⟨Nat.le_add_right _ _, hlast⟩

theorem Params.PixelsFit.sampleBlock_origin (ch : Channel) (s : State) : sampleBlock p ch p.bx p.byy s =
    Vector.ofFn fun i : Fin 64 =>
      let b := p.clampedPixel (i.val % 8) (i.val / 8)
      some (Config.cc.fn ch (readByte s b) (readByte s (b + 1)) (readByte s (b + 2))) := by
  simp only [sampleBlock, sampleAt, h.pixelAddr_origin _ _ (show 0 < 3 by norm_num),
    h.pixelAddr_origin _ _ (show 1 < 3 by norm_num), h.pixelAddr_origin _ _ (show 2 < 3 by norm_num), Nat.add_zero]

end

theorem sampleBody_ok {s : State} (hb : s.BusAnswers 192) (p : Params) (ch : Channel) (bx byy : Nat) :
    sampleBody p ch bx byy s = .ok { s with blk := sampleBlock p ch bx byy s, busErrIn := s.busAfter 192 } := by
  rw [sampleBody, busAccess_ok hb]
  rfl

/-- Settles O19: the body of SAMPLE after its checks, its pixel addresses written out by the fields of ORIGIN. -/
theorem sampleResult : Obligations.SampleResult := by
  intro s ch hv hb p w h px py a
  have hp : p.PixelsFit := pixelsFit_of_valid hv
  have hbody : bodyOf (.sample ch) p s =
      .ok { s with blk := sampleBlock p ch p.bx p.byy s, busErrIn := s.busAfter 192 } :=
    (sampleCmd_of_valid hv).trans (sampleBody_ok hb p ch p.bx p.byy)
  refine ⟨?_, fun x y => ?_⟩
  · rw [hp.sampleBlock_origin ch s] at hbody
    exact (exec_eq_runCommand _ s).trans (runCommand_ok hbody)
  · obtain ⟨hfirst, hlast⟩ := hp.clampedPixel_mem x y
    exact ⟨hfirst, hlast, hlast.trans_le hp.srcRegion_le⟩

/-! #### The ideal conversion (R152, R154) -/

theorem ccIdeal_grey (g : Byte) :
    ccIdeal .y g g g = (g.toNat : Rat) - 128 ∧ ccIdeal .cb g g g = 0 ∧ ccIdeal .cr g g g = 0 := by
  unfold ccIdeal
  refine ⟨?_, ?_, ?_⟩ <;> ring

/-- The colours at which the ranges are reached: black and white, yellow and blue, red and cyan. -/
theorem ccIdeal_extremes :
    ccIdeal .y 0 0 0 = -128 ∧ ccIdeal .y 255 255 255 = 127 ∧
    ccIdeal .cb 255 255 0 = -(255 / 2) ∧ ccIdeal .cb 0 0 255 = 255 / 2 ∧
    ccIdeal .cr 255 0 0 = 255 / 2 ∧ ccIdeal .cr 0 255 255 = -(255 / 2) := by
  have hmin : (0 : Byte).toNat = 0 := rfl
  have hmax : (255 : Byte).toNat = 255 := rfl
  simp only [ccIdeal, hmin, hmax]
  norm_num

/-- Settles O20: the ranges are those of `ccIdeal_bounds`, and every CC_IMPL carries the bound of R153. -/
theorem colourConversion : Obligations.ColourConversion := by
  refine ⟨fun r g b => ⟨ccIdeal_bounds .y r g b, ?_, ?_⟩, ccIdeal_grey, ccIdeal_extremes, fun ch r g b => ?_,
    Config.cc.within⟩
  · simpa only [sampleMin, sampleMax, neg_div] using ccIdeal_bounds .cb r g b
  · simpa only [sampleMin, sampleMax, neg_div] using ccIdeal_bounds .cr r g b
  · cases ch with
    | y => rfl
    | cb => rw [neg_div]; rfl
    | cr => rfl

end Sys2Proof.Machine

/-! ### QUANT, ZIGZAG and ENTROPY (45_block_encoder.md R161 to R177) -/

namespace Sys2Proof.Machine

variable {s : State}

/-! #### QUANT (R161, R162) -/

theorem toInt_ofInt_of_fits {n : Int} (h1 : -32768 ≤ n) (h2 : n ≤ 32767) : (BitVec.ofInt 16 n).toInt = n :=
  BitVec.toInt_ofInt_eq_self (by norm_num) h1 (Int.lt_add_one_iff.2 h2)

/-- QUANT on written operands: the range of all 64 results decides between the error and the write (R161). -/
theorem quantBody_of_written {tbl : QTable} {b : Vector Rat 64} {q : Vector Byte 64} (hb : s.blk = b.map some)
    (hq : s.qt tbl = q.map some) : quantBody tbl s =
      if ∃ i : Fin 64, quantize Config.roundTie b[i] q[i] < -32768 ∨ 32767 < quantize Config.roundTie b[i] q[i] then
        .raise .coefRange s
      else
        .ok { s with qblk := Vector.ofFn fun i : Fin 64 => some (coefOfInt (quantize Config.roundTie b[i] q[i])) } := by
  unfold quantBody
  rw [hb, hq, allWritten_map_some, allWritten_map_some]
  simp only [getElem_ofFn_fin, Vector.map_ofFn, Function.comp_def]

theorem quantCmd_of_ready (h : s.qtValid = true) (tbl : QTable) : quantCmd tbl s = quantBody tbl s := by
  rw [quantCmd, h, Bool.not_true, check_false]

theorem quantCmd_of_notReady (h : s.qtValid = false) (tbl : QTable) : quantCmd tbl s = .raise .notReady s := by
  rw [quantCmd, h, Bool.not_false, check_true]

/-- Settles O21: QT_VALID and the range of the quotients select the end of the body. -/
theorem quantResult : Obligations.QuantResult := by
  intro s tbl
  constructor
  · intro h
    exact (exec_eq_runCommand (.quant tbl) s).trans
      (runCommand_reject (quantCmd_of_notReady h tbl) nofun nofun (.inl rfl))
  · intro b q hvalid hb hq n
    have hbody : bodyOf (.quant tbl) (latched s) s = _ :=
      (quantCmd_of_ready hvalid tbl).trans (quantBody_of_written hb hq)
    refine ⟨fun hfits => ⟨?_, fun i => toInt_ofInt_of_fits (hfits i).1 (hfits i).2⟩, fun hout => ?_, rfl, rfl⟩
    · have hin : ¬ ∃ i, n i < -32768 ∨ 32767 < n i := fun ⟨i, hi⟩ => by
        have := hfits i
        omega
      exact (exec_eq_runCommand (.quant tbl) s).trans (runCommand_ok (hbody.trans (if_neg hin)))
    · exact (exec_eq_runCommand (.quant tbl) s).trans
        (runCommand_reject (hbody.trans (if_pos hout)) nofun nofun (.inl rfl))

/-! #### ZIGZAG (R165 to R168) -/

theorem zigzagBody_ok {q : Vector (BitVec 16) 64} (hq : s.qblk = q.map some) :
    zigzagBody s = .ok { s with zz := Vector.ofFn fun k : Fin 64 => some q[zigzagNat k] } := by
  unfold zigzagBody
  rw [hq, allWritten_map_some]

/-- Settles O24: the body of ZIGZAG on a written QBLK. -/
theorem zigzagResult : Obligations.ZigzagResult :=
  ⟨rfl, rfl, fun s _ hq => (exec_eq_runCommand .zigzag s).trans (runCommand_ok (zigzagBody_ok hq))⟩

theorem zigzagNat_injective : Function.Injective zigzagNat := by decide

/-- Settles O25: an injection of 64 positions into 64 is onto, and the table's 63 steps are read off one by one. -/
theorem zigzagOrder : Obligations.ZigzagOrder :=
  ⟨Finite.surjective_of_injective zigzagNat_injective, fun _ _ h => zigzagNat_injective h, by decide⟩

/-! #### ENTROPY (R169, R170, R174, R177) -/

/-- The items that ENTROPY forms, with the tables of R177 and the coefficients written out. -/
theorem entropyItems_eq (ch : Channel) (z : Vector (BitVec 16) 64) (s : State) : entropyItems ch z s =
    dcItem (if ch = .y then HTable.dcLuma else .dcChroma) (z[0].toInt - (s.pred.get ch).toInt) ::
      acItems (if ch = .y then HTable.acLuma else .acChroma) 0 (z.toList.tail.map BitVec.toInt) := by
  have hhead : (z.toList.map BitVec.toInt).headD 0 = z[0].toInt := by
    rw [List.headD_eq_head?_getD, List.head?_eq_getElem?]
    simp
  rw [entropyItems, blockItems, hhead, List.map_tail]
  cases ch <;> rfl

/-- Settles O26: the bits of the items are pushed as one string, then PRED[ch] takes the DC coefficient. -/
theorem entropyResult : Obligations.EntropyResult := by
  intro s ch z hv hb hz tdc tac items bits out hdef hroom hbus
  have hitems : entropyItems ch z s = items := entropyItems_eq ch z s
  have hbody : bodyOf (.entropy ch) (latched s) s = _ :=
    (entropyCmd_of_valid hv).trans (entropyBody_eq hz (hitems ▸ hdef))
  rw [hitems, forEach_pushBit_ok hb (forEach_emitRaw_of_room hroom hbus), Res.bind_ok] at hbody
  refine ⟨_, (exec_eq_runCommand _ s).trans (runCommand_ok hbody), ?_,
    (stored_appendBytes (dstRegion_of_valid rfl hv) hroom).congr rfl⟩
  exact congrArg (fun t : State => { t with pred := t.pred.set ch (z[0].signExtend 32) }.succeeded)
    (withBits_appendBytes_eq (latched s) out _ _ s)

end Sys2Proof.Machine

/-! ### The AC items of a block (45_block_encoder.md R169, R172, R173, R176) -/

namespace Sys2Proof.Machine

variable {t : HTable} {run : Nat} {v : Int} {vs coefs : List Int}

/-- The item of a nonzero coefficient after `run` zeros, past the ZRLs for full runs of 16 (R169, R172). -/
def acItem (t : HTable) (run : Nat) (v : Int) : Item :=
  ⟨t, ((run % 16) <<< 4) ||| bitlen v, magbits v (bitlen v), bitlen v⟩

/-! #### The items by the coefficients -/

theorem acItems_nil (t : HTable) (h : 0 < run) : acItems t run [] = [eob t] := if_pos h

theorem acItems_zero_cons (t : HTable) (run : Nat) (vs : List Int) : acItems t run (0 :: vs) = acItems t (run + 1) vs :=
  if_pos rfl

theorem acItems_cons (t : HTable) (run : Nat) (h : v ≠ 0) (vs : List Int) : acItems t run (v :: vs) =
    List.replicate (run / 16) (zrl t) ++ acItem t run v :: acItems t 0 vs := if_neg h

theorem acItems_replicate (t : HTable) (run n : Nat) : acItems t run (List.replicate n 0) = acItems t (run + n) [] := by
  induction n generalizing run with
  | zero => rfl
  | succ n ih => rw [List.replicate_succ, acItems_zero_cons, ih, Nat.add_right_comm, Nat.add_assoc]

/-! #### The symbol of a coefficient (R169, R176) -/

theorem bitlen_lt_sixteen (h : |v| < 2 ^ 15) : bitlen v < 16 :=
  Nat.lt_succ_of_le (bitlen_le (by rw [Int.abs_eq_natAbs] at h; exact_mod_cast h))

theorem acItem_sym (t : HTable) (run : Nat) (h : bitlen v < 16) : (acItem t run v).sym = run % 16 * 16 + bitlen v := by
  rw [acItem, ← Nat.shiftLeft_add_eq_or_of_lt (i := 4) h, Nat.shiftLeft_eq]

/-- What an item's symbol says of it (R169): the number of its magnitude bits, and a row of its code table. -/
structure Item.AcFormed (t : HTable) (i : Item) : Prop where
  table : i.table = t
  nbits : i.nbits = i.sym % 16
  bits : i.bits < 2 ^ i.nbits
  sym : i.sym < 256

theorem eob_acFormed (t : HTable) : (eob t).AcFormed t := ⟨rfl, rfl, Nat.one_pos, Nat.zero_lt_succ _⟩

theorem zrl_acFormed (t : HTable) : (zrl t).AcFormed t :=
  ⟨rfl, (by decide : 0 = 0xF0 % 16), Nat.one_pos, (by decide : 0xF0 < 256)⟩

theorem acItem_acFormed (t : HTable) (run : Nat) (h : bitlen v < 16) : (acItem t run v).AcFormed t := by
  have hsym := acItem_sym t run h
  refine ⟨rfl, show bitlen v = _ from ?_, magbits_lt v, ?_⟩ <;> omega

/-- Every item of a block is EOB, ZRL or the item of a nonzero coefficient. -/
theorem mem_acItems {i : Item} (h : i ∈ acItems t run coefs) :
    i = eob t ∨ i = zrl t ∨ ∃ r, ∃ v ∈ coefs, v ≠ 0 ∧ i = acItem t r v := by
  induction coefs generalizing run with
  | nil =>
    obtain rfl | hrun := Nat.eq_zero_or_pos run
    · cases h
    · rw [acItems_nil t hrun] at h
      exact .inl (List.mem_singleton.1 h)
  | cons v vs ih =>
    have hrest {run : Nat} (h : i ∈ acItems t run vs) := (ih h).imp_right (Or.imp_right fun ⟨r, w, hw, hi⟩ =>
      (⟨r, w, List.mem_cons_of_mem v hw, hi⟩ : ∃ r, ∃ w ∈ v :: vs, w ≠ 0 ∧ i = acItem t r w))
    obtain rfl | hv := eq_or_ne v 0
    · rw [acItems_zero_cons] at h
      exact hrest h
    · rw [acItems_cons t run hv, List.mem_append, List.mem_cons] at h
      obtain hzrl | hitem | h := h
      · exact .inr (.inl (List.eq_of_mem_replicate hzrl))
      · exact .inr (.inr ⟨run, v, List.mem_cons_self, hv, hitem⟩)
      · exact hrest h

theorem acFormed_of_mem_acItems (hc : ∀ v ∈ coefs, |v| < 2 ^ 15) {i : Item} (h : i ∈ acItems t run coefs) :
    i.AcFormed t := by
  obtain rfl | rfl | ⟨r, v, hv, -, rfl⟩ := mem_acItems h
  · exact eob_acFormed t
  · exact zrl_acFormed t
  · exact acItem_acFormed t r (bitlen_lt_sixteen (hc v hv))

/-! #### Decoding the items (R172, R173) -/

theorem replicate_append_zero_cons (run : Nat) (vs : List Int) :
    List.replicate run 0 ++ 0 :: vs = List.replicate (run + 1) 0 ++ vs := by
  rw [List.replicate_succ', List.append_assoc, List.singleton_append]

theorem expandItems_zrl_append (t : HTable) (n : Nat) (is : List Item) :
    expandItems (List.replicate n (zrl t) ++ is) = List.replicate (16 * n) 0 ++ expandItems is := by
  induction n with
  | zero => rfl
  | succ n ih =>
    rw [List.replicate_succ, List.cons_append, Nat.mul_succ, Nat.add_comm, List.replicate_add,
      List.append_assoc, ← ih]
    rfl

/-- The decoder gets a nonzero coefficient and the zeros before it back from the symbol and the magnitude bits. -/
theorem expandItems_acItem_cons (t : HTable) (run : Nat) (hv : v ≠ 0) (h : bitlen v < 16) (is : List Item) :
    expandItems (acItem t run v :: is) = List.replicate (run % 16) 0 ++ v :: expandItems is := by
  have hpos := bitlen_pos hv
  have hsym := acItem_sym t run h
  have hrun : (acItem t run v).sym / 16 = run % 16 := by omega
  have hcat : (acItem t run v).sym % 16 = bitlen v := by omega
  rw [expandItems, if_neg (by omega), if_neg (by omega), hrun, hcat]
  exact congrArg (List.replicate (run % 16) 0 ++ · :: expandItems is) (unfoldBits_magbits v)

/-- The decoder gets the `run` zeros and the coefficients back, up to zeros at the end. -/
theorem expandItems_acItems (hc : ∀ v ∈ coefs, |v| < 2 ^ 15) (run : Nat) :
    ∃ n, expandItems (acItems t run coefs) ++ List.replicate n 0 = List.replicate run 0 ++ coefs := by
  induction coefs generalizing run with
  | nil =>
    refine ⟨run, ?_⟩
    obtain rfl | hrun := Nat.eq_zero_or_pos run
    · rfl
    · rw [acItems_nil t hrun, List.append_nil]
      rfl
  | cons v vs ih =>
    have ih := ih fun w hw => hc w (List.mem_cons_of_mem v hw)
    obtain rfl | hv := eq_or_ne v 0
    · rw [acItems_zero_cons, replicate_append_zero_cons]
      exact ih (run + 1)
    · obtain ⟨n, hn⟩ := ih 0
      refine ⟨n, ?_⟩
      rw [acItems_cons t run hv, expandItems_zrl_append,
        expandItems_acItem_cons t run hv (bitlen_lt_sixteen (hc v List.mem_cons_self)), ← List.append_assoc,
        ← List.replicate_add, Nat.div_add_mod, List.append_assoc, List.cons_append, hn]
      rfl

/-! #### EOB (R173) -/

theorem sym_ne_zero_of_ne_eob (hc : ∀ v ∈ coefs, |v| < 2 ^ 15) {i : Item} (h : i ∈ acItems t run coefs)
    (hne : i ≠ eob t) : i.sym ≠ 0x00 := by
  obtain rfl | rfl | ⟨r, v, hv, hv0, rfl⟩ := mem_acItems h
  · exact absurd rfl hne
  · exact show 0xF0 ≠ 0x00 by decide
  · have hpos := bitlen_pos hv0
    rw [acItem_sym t r (bitlen_lt_sixteen (hc v hv))]
    omega

/-- The `run` zeros and the coefficients do not end in a zero. -/
def EndsNonzero (run : Nat) (coefs : List Int) : Prop := (List.replicate run 0 ++ coefs).getLast? ≠ some 0

theorem EndsNonzero.run_eq_zero (h : EndsNonzero run []) : run = 0 := by
  by_contra hrun
  exact h (by simp [List.getLast?_replicate, hrun])

theorem EndsNonzero.of_zero_cons (h : EndsNonzero run (0 :: vs)) : EndsNonzero (run + 1) vs := by
  rwa [EndsNonzero, ← replicate_append_zero_cons]

theorem EndsNonzero.of_cons (h : EndsNonzero run (v :: vs)) : EndsNonzero 0 vs := fun hvs => h (by
  have hvs : vs.getLast? = some 0 := hvs
  simp [List.getLast?_append, List.getLast?_cons, hvs])

theorem eob_notMem_acItems (h : EndsNonzero run coefs) : eob t ∉ acItems t run coefs := by
  induction coefs generalizing run with
  | nil =>
    obtain rfl := h.run_eq_zero
    exact List.not_mem_nil
  | cons v vs ih =>
    obtain rfl | hv := eq_or_ne v 0
    · rw [acItems_zero_cons]
      exact ih h.of_zero_cons
    · rw [acItems_cons t run hv, List.mem_append, List.mem_cons]
      rintro (hzrl | hitem | hrest)
      · exact nomatch congrArg Item.sym (List.eq_of_mem_replicate hzrl)
      · exact (bitlen_pos hv).ne (congrArg Item.nbits hitem)
      · exact ih h.of_cons hrest

/-- Zeros after the coefficients are one EOB, however many there are. -/
theorem acItems_append_zeros (t : HTable) (h : EndsNonzero run coefs) {n : Nat} (hn : 0 < n) :
    acItems t run (coefs ++ List.replicate n 0) = acItems t run coefs ++ [eob t] := by
  induction coefs generalizing run with
  | nil =>
    obtain rfl := h.run_eq_zero
    rw [List.nil_append, acItems_replicate, Nat.zero_add, acItems_nil t hn]
    rfl
  | cons v vs ih =>
    rw [List.cons_append]
    obtain rfl | hv := eq_or_ne v 0
    · rw [acItems_zero_cons, acItems_zero_cons, ih h.of_zero_cons]
    · rw [acItems_cons t run hv, acItems_cons t run hv, ih h.of_cons, List.append_assoc, List.cons_append]

/-- Settles O27: each clause by induction on the coefficients, after any number of zeros. -/
theorem acItemsLossless : Obligations.AcItemsLossless := by
  intro t coefs hc
  refine ⟨expandItems_acItems hc 0, fun i hi => ?_, fun hlast => ?_⟩
  · obtain ⟨htable, hnbits, hbits, hsym⟩ := acFormed_of_mem_acItems hc hi
    exact ⟨htable, hnbits, hbits, hsym⟩
  · have hlast : EndsNonzero 0 coefs := hlast
    refine ⟨fun i hi => ?_, fun n => acItems_append_zeros t hlast⟩
    exact sym_ne_zero_of_ne_eob hc hi (ne_of_mem_of_not_mem hi (eob_notMem_acItems hlast))

end Sys2Proof.Machine

/-! ### The layout of the header (46_container.md R192 to R198, R200) -/

namespace Sys2Proof.Machine

/-! #### A field of a list of fields -/

/-- The bytes from the end of the first `i` fields on, as many as field `i` has, are field `i`. -/
theorem take_drop_flatten {α : Type} (L : List (List α)) (i : Nat) (hi : i < L.length) {o n : Nat}
    (ho : ((L.map List.length).take i).sum = o) (hn : L[i].length = n) : (L.flatten.drop o).take n = L[i] := by
  rw [← ho, ← hn, List.drop_sum_flatten, List.drop_eq_getElem_cons hi, List.flatten_cons, List.take_left]

/-- With another value of one field, of the same length, the bytes outside that field stay. -/
theorem getElem?_flatten_set {α : Type} (L : List (List α)) (i : Nat) (hi : i < L.length) {x : List α}
    (hx : x.length = L[i].length) {o k : Nat} (ho : ((L.map List.length).take i).sum = o)
    (hk : ¬ (o ≤ k ∧ k < o + x.length)) : (L.set i x).flatten[k]? = L.flatten[k]? := by
  have hbefore : (L.take i).flatten.length = o := by rw [List.length_flatten, List.map_take, ho]
  have hset : (L.set i x).flatten = (L.take i).flatten ++ (x ++ (L.drop (i + 1)).flatten) := by
    rw [List.set_eq_take_append_cons_drop, if_pos hi, List.flatten_append, List.flatten_cons]
  have hL : L.flatten = (L.take i).flatten ++ (L[i] ++ (L.drop (i + 1)).flatten) := by
    rw [← List.flatten_cons, ← List.drop_eq_getElem_cons hi, ← List.flatten_append, List.take_append_drop]
  rw [hset, hL]
  obtain h | h := Nat.lt_or_ge k o
  · rw [List.getElem?_append_left (by omega), List.getElem?_append_left (by omega)]
  · rw [List.getElem?_append_right (by omega), List.getElem?_append_right (by omega),
      List.getElem?_append_right (by omega), List.getElem?_append_right (by omega), hx]

/-! #### DHT (R196) -/

/-- The DHT segment of a specification whose numbers fit their fields. -/
def dhtBytes (id : Byte) (s : HuffSpec) : List Byte :=
  [0xFF, 0xC4, BitVec.ofNat 8 ((19 + s.vals.length) / 256), BitVec.ofNat 8 (19 + s.vals.length), id]
    ++ s.bits.map (BitVec.ofNat 8) ++ s.vals.map (BitVec.ofNat 8)

/-- The numbers of a specification fit the fields of its DHT segment. -/
def HuffSpec.FitsDht (s : HuffSpec) : Prop := (∀ n ∈ s.bits, n < 256) ∧ 19 + s.vals.length < 2 ^ 16

theorem segDht_eq_dhtBytes (t : HTable) {s : HuffSpec} (hs : s.FitsDht) : segDht t s = dhtBytes (codeTableId t) s := by
  obtain ⟨hcounts, hsymbols⟩ := hs
  have hbits : s.bits.map countByte = s.bits.map (BitVec.ofNat 8) :=
    List.map_congr_left fun n hn => if_pos (hcounts n hn)
  have hlength : dhtLength (19 + s.vals.length) = be16 (19 + s.vals.length) := if_pos hsymbols
  rw [segDht, hbits, hlength]
  rfl

theorem defaults_fitsDht (t : HTable) : (Tables.defaults.huff t).FitsDht := by
  cases t <;> exact ⟨by decide +kernel, by decide +kernel⟩

theorem dhtBytes_of_length_vals {s : HuffSpec} {n : Nat} (hn : s.vals.length = n) (id : Byte) :
    dhtBytes id s = [0xFF, 0xC4, BitVec.ofNat 8 ((19 + n) / 256), BitVec.ofNat 8 (19 + n), id]
      ++ (s.bits.map (BitVec.ofNat 8) ++ s.vals.map (BitVec.ofNat 8)) := by
  rw [dhtBytes, hn, List.append_assoc]

/-! #### The header around its DHT segments -/

/-- The segments before the first DHT (R192 to R195). -/
def headerStart (w h : Nat) (q0 q1 : Vector Byte 64) : List Byte :=
  segSoi ++ segApp0 ++ segDqt .luma q0 ++ segDqt .chroma q1 ++ segSof0 w h

/-- The four DHT segments (R196, R198). -/
def headerTables (T : Tables) : List Byte :=
  dhtBytes 0x00 T.dcLuma ++ dhtBytes 0x10 T.acLuma ++ dhtBytes 0x01 T.dcChroma ++ dhtBytes 0x11 T.acChroma

theorem headerLength_defaults : headerLength Tables.defaults = 623 := by decide +kernel

theorem length_headerStart (w h : Nat) (q0 q1 : Vector Byte 64) : (headerStart w h q0 q1).length = 177 := by
  simp [headerStart, length_segDqt, segSoi, segApp0, segSof0, be16]

theorem length_headerTables_defaults : (headerTables Tables.defaults).length = 432 := by decide +kernel

theorem headerBytes_eq {T : Tables} (hT : ∀ t, (T.huff t).FitsDht) (w h : Nat) (q0 q1 : Vector Byte 64) :
    headerBytes T w h q0 q1 = headerStart w h q0 q1 ++ headerTables T ++ segSos := by
  simp only [headerBytes, headerStart, headerTables, segDht_eq_dhtBytes _ (hT _), List.append_assoc]
  rfl

theorem take_headerBytes_defaults (w h : Nat) (q0 q1 : Vector Byte 64) :
    (headerBytes Tables.defaults w h q0 q1).take 177 = headerStart w h q0 q1 := by
  rw [headerBytes_eq defaults_fitsDht, List.append_assoc, List.take_left' (length_headerStart w h q0 q1)]

theorem drop_headerBytes_defaults (w h : Nat) (q0 q1 : Vector Byte 64) :
    (headerBytes Tables.defaults w h q0 q1).drop 609 = segSos := by
  rw [headerBytes_eq defaults_fitsDht]
  exact List.drop_left' (by rw [List.length_append, length_headerStart, length_headerTables_defaults])

/-- With another specification only the DHT segments differ (R198). -/
theorem headerBytes_eq_around_tables {T : Tables} (hT : ∀ t, (T.huff t).FitsDht) (w h : Nat) (q0 q1 : Vector Byte 64) :
    headerBytes T w h q0 q1 = (headerBytes Tables.defaults w h q0 q1).take 177 ++ headerTables T
      ++ (headerBytes Tables.defaults w h q0 q1).drop 609 := by
  rw [take_headerBytes_defaults, drop_headerBytes_defaults, headerBytes_eq hT]

/-! #### The fields of the default header (R198) -/

/-- The fields of the header with the default HUFF_SPEC, in the order of R198. -/
def headerFields (w h : Nat) (q0 q1 : Vector Byte 64) : List (List Byte) :=
  [[0xFF, 0xD8, 0xFF, 0xE0, 0x00, 0x10, 0x4A, 0x46, 0x49, 0x46, 0x00, 0x01, 0x01, 0x00, 0x00, 0x01, 0x00, 0x01, 0x00, 0x00,
      0xFF, 0xDB, 0x00, 0x43, 0x00],
    List.ofFn fun k : Fin 64 => q0[zigzagNat k],
    [0xFF, 0xDB, 0x00, 0x43, 0x01],
    List.ofFn fun k : Fin 64 => q1[zigzagNat k],
    [0xFF, 0xC0, 0x00, 0x11, 0x08],
    [BitVec.ofNat 8 (h / 256), BitVec.ofNat 8 h, BitVec.ofNat 8 (w / 256), BitVec.ofNat 8 w],
    [0x03, 0x01, 0x11, 0x00, 0x02, 0x11, 0x01, 0x03, 0x11, 0x01],
    [0xFF, 0xC4, 0x00, 0x1F, 0x00],
    Tables.defaults.dcLuma.bits.map (BitVec.ofNat 8), Tables.defaults.dcLuma.vals.map (BitVec.ofNat 8),
    [0xFF, 0xC4, 0x00, 0xB5, 0x10],
    Tables.defaults.acLuma.bits.map (BitVec.ofNat 8), Tables.defaults.acLuma.vals.map (BitVec.ofNat 8),
    [0xFF, 0xC4, 0x00, 0x1F, 0x01],
    Tables.defaults.dcChroma.bits.map (BitVec.ofNat 8), Tables.defaults.dcChroma.vals.map (BitVec.ofNat 8),
    [0xFF, 0xC4, 0x00, 0xB5, 0x11],
    Tables.defaults.acChroma.bits.map (BitVec.ofNat 8), Tables.defaults.acChroma.vals.map (BitVec.ofNat 8),
    [0xFF, 0xDA, 0x00, 0x0C, 0x03, 0x01, 0x00, 0x02, 0x11, 0x03, 0x11, 0x00, 0x3F, 0x00]]

theorem headerBytes_defaults (w h : Nat) (q0 q1 : Vector Byte 64) :
    headerBytes Tables.defaults w h q0 q1 = (headerFields w h q0 q1).flatten := by
  have hdcLuma : Tables.defaults.dcLuma.vals.length = 12 := by decide +kernel
  have hacLuma : Tables.defaults.acLuma.vals.length = 162 := by decide +kernel
  have hdcChroma : Tables.defaults.dcChroma.vals.length = 12 := by decide +kernel
  have hacChroma : Tables.defaults.acChroma.vals.length = 162 := by decide +kernel
  rw [headerBytes_eq defaults_fitsDht, headerTables, dhtBytes_of_length_vals hdcLuma, dhtBytes_of_length_vals hacLuma,
    dhtBytes_of_length_vals hdcChroma, dhtBytes_of_length_vals hacChroma]
  simp only [headerFields, headerStart, segSoi, segApp0, segDqt, segSof0, segSos, be16,
    List.ofFn_eq_map, List.flatten_cons, List.flatten_nil, List.append_assoc, List.cons_append, List.nil_append,
    List.append_nil]
  rfl

/-- The number of bytes of each field. -/
def fieldLengths : List Nat := [25, 64, 5, 64, 5, 4, 10, 5, 16, 12, 5, 16, 162, 5, 16, 12, 5, 16, 162, 14]

theorem lengths_headerFields (w h : Nat) (q0 q1 : Vector Byte 64) :
    (headerFields w h q0 q1).map List.length = fieldLengths := by
  simp only [headerFields, List.map_cons, List.map_nil, List.length_ofFn]
  rfl

/-- The offset of field `i` in the header. -/
def fieldOffset (i : Nat) : Nat := (fieldLengths.take i).sum

section
variable (w h : Nat) (q0 q1 : Vector Byte 64) {i : Nat} (hi : i < fieldLengths.length)

theorem length_getElem_headerFields : ((headerFields w h q0 q1)[i]).length = fieldLengths[i] :=
  (List.getElem_map List.length).symm.trans (List.getElem_of_eq (lengths_headerFields w h q0 q1) hi)

theorem take_drop_headerBytes : ((headerBytes Tables.defaults w h q0 q1).drop (fieldOffset i)).take fieldLengths[i] =
    (headerFields w h q0 q1)[i] := by
  rw [headerBytes_defaults]
  exact take_drop_flatten _ i hi (by rw [lengths_headerFields, fieldOffset]) (length_getElem_headerFields w h q0 q1 hi)

theorem getElem?_flatten_set_headerFields {x : List Byte} (hx : x.length = fieldLengths[i]) {k : Nat}
    (hk : ¬ (fieldOffset i ≤ k ∧ k < fieldOffset i + fieldLengths[i])) :
    ((headerFields w h q0 q1).set i x).flatten[k]? = (headerFields w h q0 q1).flatten[k]? :=
  getElem?_flatten_set _ i hi (hx.trans (length_getElem_headerFields w h q0 q1 hi).symm)
    (by rw [lengths_headerFields, fieldOffset]) (hx ▸ hk)

end

/-! #### What depends on the state (R198) -/

/-- Only the table entries and the dimensions depend on the state: fields 1, 3 and 5. -/
theorem getElem?_headerBytes_congr (w h w' h' : Nat) (q0 q1 r0 r1 : Vector Byte 64) {k : Nat}
    (hluma : ¬ (25 ≤ k ∧ k ≤ 88)) (hchroma : ¬ (94 ≤ k ∧ k ≤ 157)) (hdims : ¬ (163 ≤ k ∧ k ≤ 166)) :
    (headerBytes Tables.defaults w h q0 q1)[k]? = (headerBytes Tables.defaults w' h' r0 r1)[k]? := by
  have hk1 : ¬ (25 ≤ k ∧ k < 25 + 64) := by omega
  have hk3 : ¬ (94 ≤ k ∧ k < 94 + 64) := by omega
  have hk5 : ¬ (163 ≤ k ∧ k < 163 + 4) := by omega
  rw [headerBytes_defaults, headerBytes_defaults]
  calc (headerFields w h q0 q1).flatten[k]?
    _ = (headerFields w h r0 q1).flatten[k]? :=
      getElem?_flatten_set_headerFields w h r0 q1 (i := 1) (by decide) List.length_ofFn hk1
    _ = (headerFields w h r0 r1).flatten[k]? :=
      getElem?_flatten_set_headerFields w h r0 r1 (i := 3) (by decide) List.length_ofFn hk3
    _ = (headerFields w' h' r0 r1).flatten[k]? :=
      getElem?_flatten_set_headerFields w' h' r0 r1 (i := 5) (by decide) rfl hk5

/-- The length field at offset `o`, big-endian (R200). -/
def lengthField (f : List Byte) (o : Nat) : Nat := (f.getD o 0).toNat * 256 + (f.getD (o + 1) 0).toNat

theorem lengthField_congr {f g : List Byte} {o : Nat} (h : f[o]? = g[o]?) (h' : f[o + 1]? = g[o + 1]?) :
    lengthField f o = lengthField g o := by
  simp only [lengthField, List.getD_eq_getElem?_getD, h, h']

/-- The offset of each length field (R193 to R197) and the end of its segment. -/
def segmentEnds : List (Nat × Nat) :=
  [(4, 20), (22, 89), (91, 158), (160, 177), (179, 210), (212, 393), (395, 426), (428, 609), (611, 623)]

/-- No length field depends on the state, so that its value is that in a header of zeros. -/
theorem lengthField_headerBytes (w h : Nat) (q0 q1 : Vector Byte 64) {o e : Nat} (hoe : (o, e) ∈ segmentEnds) :
    lengthField (headerBytes Tables.defaults w h q0 q1) o = e - o := by
  have hfixed : ∀ p ∈ segmentEnds, ∀ k ∈ [p.1, p.1 + 1],
      ¬ (25 ≤ k ∧ k ≤ 88) ∧ ¬ (94 ≤ k ∧ k ≤ 157) ∧ ¬ (163 ≤ k ∧ k ≤ 166) := by decide
  have hzeros : ∀ p ∈ segmentEnds, lengthField (headerBytes Tables.defaults 0 0 (Vector.replicate 64 0)
      (Vector.replicate 64 0)) p.1 = p.2 - p.1 := by decide +kernel
  rw [← hzeros _ hoe]
  have hbyte : ∀ k ∈ [o, o + 1], (headerBytes Tables.defaults w h q0 q1)[k]? =
      (headerBytes Tables.defaults 0 0 (Vector.replicate 64 0) (Vector.replicate 64 0))[k]? := fun k hk =>
    have ⟨hluma, hchroma, hdims⟩ := hfixed _ hoe k hk
    getElem?_headerBytes_congr w h 0 0 q0 q1 _ _ hluma hchroma hdims
  exact lengthField_congr (hbyte o (by simp)) (hbyte (o + 1) (by simp))

/-- Settles O30: the clauses at offsets are the fields of R198 one by one. -/
theorem headerLayout : Obligations.HeaderLayout := by
  intro w h q0 q1
  have hfield := fun i (hi : i < fieldLengths.length) => take_drop_headerBytes w h q0 q1 hi
  have hlength := fun o e (hoe : (o, e) ∈ segmentEnds) => lengthField_headerBytes w h q0 q1 hoe
  refine ⟨?size, hfield 0 (by decide), hfield 1 (by decide), hfield 2 (by decide), hfield 3 (by decide),
    hfield 4 (by decide), hfield 5 (by decide), hfield 6 (by decide), ?heads, ?tables, hfield 19 (by decide), ?lengths,
    fun w' h' r0 r1 k => getElem?_headerBytes_congr w h w' h' q0 q1 r0 r1, fun T hT => ⟨?_, ?_⟩⟩
  case size => rw [length_headerBytes (fun t => (defaults_admissible.huff t).sixteen), headerLength_defaults]
  case heads => exact ⟨hfield 7 (by decide), hfield 10 (by decide), hfield 13 (by decide), hfield 16 (by decide)⟩
  case tables =>
    exact ⟨hfield 8 (by decide), hfield 9 (by decide), hfield 11 (by decide), hfield 12 (by decide),
      hfield 14 (by decide), hfield 15 (by decide), hfield 17 (by decide), hfield 18 (by decide)⟩
  case lengths =>
    exact ⟨hlength 4 20 (by decide), hlength 22 89 (by decide), hlength 91 158 (by decide), hlength 160 177 (by decide),
      hlength 179 210 (by decide), hlength 212 393 (by decide), hlength 395 426 (by decide), hlength 428 609 (by decide),
      hlength 611 623 (by decide)⟩
  · exact length_headerBytes (fun t => (hT t).1.sixteen) w h q0 q1
  · rw [headerBytes_eq_around_tables (fun t => (hT t).2) w h q0 q1, headerTables]
    simp only [List.append_assoc, dhtBytes]

end Sys2Proof.Machine

/-! ### Reset (70_reset_and_hazards.md R260 to R263) -/

namespace Sys2Proof.Machine

/-- Settles O46: the reset state is the block reset with no memory and the default configuration. -/
theorem resetHasInv : Obligations.ResetHasInv :=
  resetBlock_inv (s := State.reset) ⟨.nil, nofun⟩ defaults_admissible none

/-- An abandoned command opens bytes of memory (R263), and nothing else changes. -/
theorem abandon_eq (s : State) : abandon s = { s with mem := (abandon s).mem, draws := (abandon s).draws } := by
  unfold abandon
  split
  · exact (drawBytes_eq _ _ s).trans (by rw [drawBytes_eq])
  · rfl

theorem abandon_of_idle {s : State} (h : s.pending = none) : abandon s = s := by
  unfold abandon
  rw [h]

/-- The bytes that an abandoned command opens lie in its output region (R262, R263). -/
theorem readByte_abandon {s : State} {p : Pending} (h : s.pending = some p) {a : Nat}
    (ha : a < p.params.dstAddr.toNat ∨ p.params.dstAddr.toNat + p.params.dstCap.toNat ≤ a) :
    readByte (abandon s) a = readByte s a := by
  have hspan : dstSpan p.params ≤ p.params.dstCap.toNat := Nat.min_le_left _ _
  unfold abandon
  rw [h]
  exact readByte_drawBytes (by omega)

/-- A soft reset leaves the reset state, but for the mark, memory, the configuration and what is outside the block. -/
theorem softReset_eq (s : State) : softReset s = { State.reset with
    modelFault := s.modelFault, mem := (abandon s).mem, inputs := s.inputs, resp := s.resp, draws := (abandon s).draws
    busErrIn := s.busErrIn, tables := s.tables } :=
  congrArg (resetBlock s.modelFault) (abandon_eq s)

/-- Settles O49: a hard reset is the reset state by definition; a soft reset first abandons the pending command. -/
theorem resetState : Obligations.ResetState := by
  refine ⟨⟨rfl, rfl, rfl, rfl, rfl, rfl, rfl, rfl, rfl, rfl, rfl, rfl, rfl, fun i => ?_, fun t i => ?_, rfl, rfl, rfl, rfl⟩,
    fun s rest => ⟨rfl, fun d hd => ?_⟩⟩
  · simp [State.reset]
  · cases t <;> simp [State.reset, State.ht]
  · have hstep := step_ctrlWrite s d rest
    rw [ctrlWrite_of_softReset hd] at hstep
    refine ⟨_, hstep, congrArg (fun t : State => { t with resp := .ack }) (softReset_eq { s with inputs := rest }),
      fun hp => ?_, fun p hp a ha => ?_⟩
    · have hidle := abandon_of_idle (s := { s with inputs := rest }) hp
      exact (congrArg State.mem hidle :)
    · exact (readByte_congr rfl a).trans (readByte_abandon (s := { s with inputs := rest }) hp ha)

end Sys2Proof.Machine

/-! ### The register port: accesses that are no aligned words, and writes while BUSY = 1 (20_memory.md R66; R253, R271) -/

namespace Sys2Proof.Machine

theorem aligned_eq_false {off : BitVec 13} {size : AccessSize} (h : size ≠ .word ∨ off.toNat % 4 ≠ 0) :
    aligned off size = false := decide_eq_false (not_and_or.2 h)

theorem step_regWrite_busError (s : State) {off : BitVec 13} {size : AccessSize} (h : aligned off size = false) (d : Word)
    (rest : List Event) :
    step { s with inputs := .regWrite off size d :: rest } = .next { s with inputs := rest, resp := .busError } := by
  simp [step, turn, eventTurn, regWriteAccess, h]

theorem step_regRead_busError (s : State) {off : BitVec 13} {size : AccessSize} (h : aligned off size = false)
    (rest : List Event) :
    step { s with inputs := .regRead off size :: rest } = .next { s with inputs := rest, resp := .busError } := by
  simp [step, turn, eventTurn, regReadAccess, h]

/-- Settles O54: the alignment decides between the bus error and the access, and a read draws at most a free word. -/
theorem portBusErrors : Obligations.PortBusErrors := by
  intro s rest off size d
  refine ⟨fun h => ?_, ?_⟩
  · have ha := aligned_eq_false h
    exact ⟨step_regWrite_busError s ha d rest, step_regRead_busError s ha rest⟩
  · rintro rfl h4
    have ha : aligned off .word = true := decide_eq_true ⟨rfl, h4⟩
    obtain ⟨n, hn⟩ := portRead_state (portReg off) { s with inputs := rest }
    have hread := step_regRead s ha rest
    rw [hn] at hread
    exact ⟨⟨_, step_regWrite s ha d rest, rfl⟩, _, _, hread, rfl⟩

theorem portWrite_dropped {r : PortReg} {s : State} (hb : s.busy = true) (hctrl : r ≠ .ctrl) (hstatus : r ≠ .status)
    (d : Word) : portWrite r d s = { s with overrun := true } := by
  rw [portWrite, if_pos hb, if_neg hctrl, if_neg hstatus]

/-- OVERRUN stays over a write to the port, but for a write of 1 to STATUS bit 3 and for the soft reset (R25, R271). -/
theorem PortEffect.overrun {r : PortReg} {d : Word} {s t : State} (h : PortEffect r d s t) (hs : s.overrun = true) :
    t.overrun = true ∨ (r = .status ∧ d.getLsbD 3 = true) ∨ (r = .ctrl ∧ d.getLsbD 0 = true) := by
  cases h with
  | ctrl hr =>
    cases h0 : d.getLsbD 0 with
    | true => exact .inr (.inr ⟨hr, rfl⟩)
    | false =>
      rw [ctrlWrite_of_irqEn h0]
      exact .inl hs
  | status hr =>
    cases h3 : d.getLsbD 3 with
    | true => exact .inr (.inl ⟨hr, rfl⟩)
    | false =>
      rw [statusWrite_overrun, h3]
      exact .inl hs
  | dropped => exact .inl rfl
  | _ => exact .inl hs

/-- Settles O58: the port drops the write, CTRL and STATUS are written as when idle, and of all steps only those named
clear OVERRUN. -/
theorem busyWritesDropped : Obligations.BusyWritesDropped := by
  refine ⟨fun s rest off d hb h4 hctrl hstatus => ?_, fun s t rest off d hoff h hd => ?_, fun s t h hs => ?_⟩
  · have ha : aligned off .word = true := decide_eq_true ⟨rfl, h4⟩
    obtain ⟨hc, hst, -⟩ := portReg_eq ha rfl
    rw [step_regWrite s ha, portWrite_dropped (s := { s with inputs := rest }) hb
      (fun hr => hctrl (by rw [hc hr]; rfl)) fun hr => hstatus (by rw [hst hr]; rfl)]
  · rcases hoff with hoff | hoff
    · have h0 : d.getLsbD 0 = false := hd.resolve_right fun hne => by omega
      obtain rfl : off = 0x008 := eq_of_toNat hoff
      rw [step_ctrlWrite, ctrlWrite_of_irqEn h0] at h
      obtain rfl := Host.Outcome.next.inj h
      have hbusy := step_ctrlWrite { s with busy := true } d rest
      rw [ctrlWrite_of_irqEn h0] at hbusy
      exact hbusy
    · obtain rfl : off = 0x00C := eq_of_toNat hoff
      rw [step_statusWrite] at h
      obtain rfl := Host.Outcome.next.inj h
      exact step_statusWrite { s with busy := true } d rest
  · cases step_stepTo h with
    | bookkeeping | memory | illegal => exact .inl hs
    | hardReset hin => exact .inr (.inr (.inr (by rw [hin]; rfl)))
    | command inputs _ _ _ hexec =>
      obtain ⟨-, -, -, hoverrun, -⟩ := exec_control hexec
      exact .inl (hoverrun.trans hs)
    | @port off d rest hin ha =>
      have hhead : s.inputs.head? = some (.regWrite off .word d) := by rw [hin]; rfl
      obtain ⟨hctrl, hstatus, -⟩ := portReg_eq ha rfl
      rcases (portWrite_effect (portReg off) d { s with inputs := rest }).overrun hs with h | ⟨hr, h3⟩ | ⟨hr, h0⟩
      · exact .inl h
      · exact .inr (.inl ⟨d, hstatus hr ▸ hhead, h3⟩)
      · exact .inr (.inr (.inl ⟨d, hctrl hr ▸ hhead, h0⟩))

end Sys2Proof.Machine

/-! ### Validation checks (60_exceptions.md R233, R235) -/

namespace Sys2Proof.Machine

/-- A body behind a list of checks, each made when those before it have passed (R233). -/
def guarded (checks : List (Bool × ErrCode)) (body : State → Res) : State → Res :=
  checks.foldr (fun c next => check c.1 c.2 next) body

/-- The body of a command after its checks. -/
def checkedBody : Instr → Params → State → Res
  | .nop => fun _ => nopBody
  | .qtScale => qtScaleBody
  | .huffBuild => fun _ => huffBuildBody
  | .resetStream => fun _ => resetStreamBody
  | .pushBits n => fun p => pushBits p p.arg0.toNat n.toNat
  | .flush => flushBody
  | .fdct => fun _ => fdctBody
  | .sample ch => fun p => sampleBody p ch p.bx p.byy
  | .quant tbl => fun _ => quantBody tbl
  | .zigzag => fun _ => zigzagBody
  | .entropy ch => fun p => entropyBody p ch
  | .writeHeaders => writeHeadersBody
  | .writeEoi => writeEoiBody
  | .encode => encodeBody

/-- Every command makes the checks of R233 in their order, and then runs its body. -/
theorem bodyOf_eq_guarded (i : Instr) (s : State) :
    bodyOf i (latched s) s = guarded (validation i s) (checkedBody i (latched s)) s := by
  cases i with
  | writeHeaders =>
    simp only [validation, ← Bool.not_and]
    rfl
  | encode =>
    simp only [bodyOf, encodeCmd, validation, guarded, checkedBody, List.foldr_cons, List.foldr_nil, dimensionsBad,
      srcLenBad, qualityBad, srcRegionBad, dstRegionBad, regionsOverlap]
  | _ => rfl

/-- The first check that fails raises its code, and nothing has changed. -/
theorem guarded_of_find {checks : List (Bool × ErrCode)} {c : ErrCode}
    (h : (checks.find? fun e => e.1).map (·.2) = some c) (body : State → Res) (s : State) :
    guarded checks body s = .raise c s := by
  induction checks with
  | nil => cases h
  | cons e checks ih =>
    obtain ⟨bad, code⟩ := e
    cases bad with
    | true =>
      obtain rfl := Option.some.inj h
      rfl
    | false => exact ih h

/-- The codes of the checks are none of those that a body raises after it has started (R235 to R237). -/
theorem validation_isCheck {i : Instr} {s : State} {e : Bool × ErrCode} (h : e ∈ validation i s) : ErrCode.IsCheck e.2 := by
  revert e
  cases i <;> simp [validation, ErrCode.IsCheck]

/-- A command that a check turns away changes only STATUS (R235). -/
theorem exec_of_failed_check {i : Instr} {s : State} {c : ErrCode}
    (h : ((validation i s).find? fun e => e.1).map (·.2) = some c) : exec i s = .next (s.failed c) := by
  obtain ⟨e, he, rfl⟩ := Option.map_eq_some_iff.1 h
  obtain ⟨hover, hbus, hsymbol, hrange⟩ := validation_isCheck (List.mem_of_find?_eq_some he)
  exact (exec_eq_runCommand i s).trans (runCommand_reject
    ((bodyOf_eq_guarded i s).trans (guarded_of_find h _ s)) hover hbus (.inr ⟨hsymbol, hrange⟩))

/-! #### The pre-check of ENTROPY (R169, R176) -/

theorem lookup_undefined {s : State} (hs : ∀ t : HTable, HtWritten (s.ht t)) {i : Item} (h : ¬ SymbolDefined s i) :
    lookup s i = .undefined := by
  cases hl : lookup s i with
  | undefined => rfl
  | unwritten => exact absurd (by rw [lookupAll, hl]) (lookupAll_ne_unwritten hs [i])
  | coded c =>
    refine absurd ?_ h
    unfold lookup at hl
    split at hl
    · cases hl
    next hn =>
      split at hl
      · cases hl
      · cases hl
      next e he =>
        split at hl
        next hv => exact ⟨Nat.not_lt.1 hn, e, he, hv⟩
        · cases hl

/-- Where every entry has a value, a symbol that is not defined is found before anything is emitted. -/
theorem lookupAll_undefined {s : State} (hs : ∀ t : HTable, HtWritten (s.ht t)) {items : List Item}
    (h : ∃ i ∈ items, ¬ SymbolDefined s i) : lookupAll s items = .undefined := by
  obtain ⟨i, hi, hundef⟩ := h
  induction items with
  | nil => cases hi
  | cons j items ih =>
    unfold lookupAll
    cases hj : lookup s j with
    | undefined => rfl
    | unwritten => exact absurd (by rw [lookupAll, hj]) (lookupAll_ne_unwritten hs [j])
    | coded c =>
      rcases List.mem_cons.1 hi with rfl | hi
      · exact nomatch (lookup_undefined hs hundef).symm.trans hj
      · rw [ih hi]

theorem entropyBody_undefined {ch : Channel} {s : State} {z : Vector (BitVec 16) 64} (hz : s.zz = z.map some)
    (h : lookupAll s (entropyItems ch z s) = .undefined) (p : Params) :
    entropyBody p ch s = .raise .symbolUndefined s := by
  unfold entropyBody
  rw [hz, allWritten_map_some]
  dsimp only
  rw [h]

/-- Settles O38: a command is its body behind the checks of R233, and QUANT and ENTROPY look at all results before the
first write. -/
theorem validationErrors : Obligations.ValidationErrors := by
  refine ⟨fun i s c => exec_of_failed_check, fun tbl s b q hv hb hq hout => ?_, fun ch s z hv hz hs hundef => ?_⟩
  · exact (exec_eq_runCommand (.quant tbl) s).trans (runCommand_reject
      ((quantCmd_of_valid hv).trans ((quantBody_of_written hb hq).trans (if_pos hout))) nofun nofun (.inl rfl))
  · exact (exec_eq_runCommand (.entropy ch) s).trans (runCommand_reject
      ((entropyCmd_of_valid hv).trans (entropyBody_undefined hz (lookupAll_undefined hs hundef) _)) nofun nofun (.inl rfl))

end Sys2Proof.Machine

/-! ### What ENCODE leaves when no access fails (47_orchestrator.md R213 to R220; 60_exceptions.md R236) -/

namespace Sys2Proof.Machine

/-! #### How the bodies of ENCODE end -/

/-- The bus without an error response: no countdown on either side, over one memory. -/
def quietBus : PlatformRel := fun m b m' b' => m' = m ∧ b = none ∧ b' = none

theorem quietBus_lawful : quietBus.Lawful False where
  store := by
    rintro m _ b b' a v ⟨rfl, h⟩
    exact ⟨rfl, h⟩
  access := by
    rintro n s _ @⟨_, _, rfl, hb, rfl⟩
    have hs : busAccess n s = .ok s := by rw [busAccess, hb]
    rw [hs]
    exact .ok ⟨rfl, hb, rfl⟩

theorem quietBus_samePixels (p : Params) : quietBus.SamePixels p := by
  rintro s _ ⟨rfl, -⟩ ch bx byy
  rfl

/-- No command lets the platform's countdown start. -/
theorem bodyOf_busErrIn_none (i : Instr) {s : State} (hs : s.busErrIn = none) :
    (bodyOf i (latched s) s).state.busErrIn = none := by
  obtain ⟨t, h⟩ : ∃ t, exec i s = .next t := ⟨_, exec_eq_next i s⟩
  rw [← exec_busErrIn h]
  have hcoupled := exec_coupled quietBus_lawful (s := s) (s' := s.onPlatform s.mem none) ⟨rfl, hs, rfl⟩
    (bodyOf_couples quietBus_lawful fun _ _ => quietBus_samePixels _) h (exec_eq_next _ _)
  generalize finish _ = u at hcoupled
  obtain ⟨-, hb, -⟩ := hcoupled
  exact hb

section
variable {p : Params} {bs : List Byte} {s v : State}

theorem Emitted.stored (hp : dstRegionBad p = false) (h : Emitted p bs s v) :
    Stored (p.dstAddr.toNat + s.outLen.toNat) bs s v := (stored_appendBytes hp (.inr h.fits)).congr h.mem

/-- ENCODE counts from OUT_LEN = 0 (R212; log 32). -/
theorem Emitted.outLen_encodeSetup (h : Emitted p bs (encodeSetup p s) v) : v.outLen = BitVec.ofNat 32 bs.length := by
  rw [h.outLen, appendBytes_eq]
  exact BitVec.zero_add _

/-- The bodies of ENCODE that make accesses change the stream and the block stores only. -/
theorem encodeFile_withScan (p : Params) (s : State) : (encodeFile p s).state = s.withScan (encodeFile p s).state :=
  (encodeFile_madeOfScanMoves p s).moves.invariant (P := fun u => u = s.withScan u)
    (fun _ _ hmove hu => hmove.eq_withScan rfl rfl hu) rfl

end

/-- How ENCODE's bodies end when no access fails: with the whole file emitted, or at DST_CAP with its first bytes. -/
inductive EncodeEnds (p : Params) (s : State) : Res → Prop where
  | whole {v : State} (he : Emitted p (fileOf p s) (encodeSetup p s) v) : EncodeEnds p s (.ok v)
  | full {v : State} (he : Emitted p ((fileOf p s).take p.dstCap.toNat) (encodeSetup p s) v)
      (hlt : p.dstCap.toNat < (fileOf p s).length) : EncodeEnds p s (.raise .outOverflow v)

theorem encodeFile_ends {p : Params} (hp : p.EncodeFits) {s : State} (hT : s.tables.Admissible) (hbus : s.busErrIn = none) :
    EncodeEnds p s (encodeFile p (encodeSetup p s)) := by
  have hfile := encodeFile_emits hp hT
  generalize encodeFile p (encodeSetup p s) = r at hfile
  cases hfile with
  | ok he => exact .whole he
  | @overflow v out he hpre hlt hfull =>
    have hfits := he.fits
    have hstart : (encodeSetup p s).outLen.toNat = 0 := rfl
    have hlen : out.length = p.dstCap.toNat := by omega
    rw [List.prefix_iff_eq_take.1 hpre, hlen] at he
    exact .full he (hlen ▸ hlt)
  | busError _ _ hk => exact nomatch hbus.symm.trans hk

/-! #### The block stores after the last block (R217) -/

/-- The block stores hold the block of a channel at an origin of the image. -/
structure HoldsBlock (p : Params) (T : Tables) (px : Nat → Byte) (ch : Channel) (o : Nat × Nat) (s : State) : Prop where
  blk : s.blk = (imageCoefs p.width.toNat p.height.toNat px ch o).map some
  qblk : s.qblk = ((imageQuant T p.width.toNat p.height.toNat p.quality.toNat px ch o).map coefOfInt).map some
  zz : s.zz = (p.blockZigzag T px ch o).map some

theorem Res.Emits.of_ok {p : Params} {bs : List Byte} {x : Nat} {Q : State → Prop} {s t : State}
    (h : (Res.ok t).Emits p bs x Q s) : Emitted p bs s t ∧ Q t := by
  cases h with
  | ok he _ _ hQ => exact ⟨he, hQ⟩

section
variable {p : Params} {T : Tables} {px : Nat → Byte} {ch : Channel} {o : Nat × Nat} {s t : State}

/-- A body that writes no block store keeps the block. -/
theorem HoldsBlock.after {w : Writes} (hs : HoldsBlock p T px ch o s) (hb : w.blk = false) (hq : w.qblk = false)
    (hz : w.zz = false) {r : Res} (hr : r.Within w p s) : HoldsBlock p T px ch o r.state where
  blk := (hr.moves.frame fun _ _ => Move.blk_frame hb).trans hs.blk
  qblk := (hr.moves.frame fun _ _ => Move.qblk_frame hq).trans hs.qblk
  zz := (hr.moves.frame fun _ _ => Move.zz_frame hz).trans hs.zz

variable (hp : p.EncodeFits) {dc : Channel → Int} {l : List Bool} (hs : ScanState p T px dc l s)
  (hroom : s.outLen.toNat ≤ p.dstCap.toNat)
include hp hs hroom

theorem encodeChannel_holdsBlock (h : encodeChannel p o.1 o.2 ch s = .ok t) : HoldsBlock p T px ch o t := by
  let s₀ : State := { s with encPos := some ⟨BitVec.ofNat 16 o.1, BitVec.ofNat 16 o.2, ch⟩ }
  have hs₀ : ScanState p T px dc l s₀ := hs.local rfl rfl
  obtain ⟨u₄, h, hentropy⟩ := Res.bind_eq_ok.1 h
  obtain ⟨u₃, h, hzigzag⟩ := Res.bind_eq_ok.1 h
  obtain ⟨u₂, h, hquant⟩ := Res.bind_eq_ok.1 h
  obtain ⟨u₁, hsample, hfdct⟩ := Res.bind_eq_ok.1 h
  have hemits := sampleBody_emits ch o hp hs₀ hroom
  rw [hsample] at hemits
  obtain ⟨-, hs₁, hb₁⟩ := hemits.of_ok
  obtain ⟨hs₂, hb₂⟩ : ScanState p T px dc l u₂ ∧ u₂.blk = (imageCoefs p.width.toNat p.height.toNat px ch o).map some := by
    obtain rfl := Res.ok.inj (hfdct.symm.trans (fdctBody_ok hb₁))
    exact ⟨hs₁.with_blk _, rfl⟩
  obtain ⟨hb₃, hq₃⟩ : u₃.blk = u₂.blk ∧
      u₃.qblk = ((imageQuant T p.width.toNat p.height.toNat p.quality.toNat px ch o).map coefOfInt).map some := by
    obtain rfl := Res.ok.inj (hquant.symm.trans (quantBody_image hb₂ (hs₂.qt _)))
    exact ⟨rfl, rfl⟩
  have hblock₄ : HoldsBlock p T px ch o u₄ := by
    obtain rfl := Res.ok.inj (hzigzag.symm.trans (zigzagBody_image hq₃))
    exact ⟨hb₃.trans hb₂, hq₃, rfl⟩
  have hblock := hblock₄.after rfl rfl rfl
    (entropyBody_madeOfMoves (w := writesOf (.entropy ch)) rfl rfl (List.mem_singleton_self ch) _)
  rwa [hentropy] at hblock

variable (hT : T.Admissible)
include hT

/-- After an MCU the predictors hold its DC coefficients, and the block stores its last block. -/
theorem encodeMcu_last (h : encodeMcu p o s = .ok t) :
    HoldsBlock p T px .cr o t ∧ ∃ l', ScanState p T px (p.blockDc T px o) l' t := by
  have hmcu := encodeMcu_emits hp hT hs hroom o
  rw [h] at hmcu
  refine ⟨?_, _, hmcu.of_ok.2⟩
  obtain ⟨u, hy, h⟩ := Res.bind_eq_ok.1 h
  obtain ⟨v, hcb, h⟩ := Res.bind_eq_ok.1 h
  obtain ⟨t', hcr, h⟩ := Res.bind_eq_ok.1 h
  obtain rfl := Res.ok.inj h
  have hyEmits := encodeChannel_emits .y o hp hs hroom hT
  rw [hy] at hyEmits
  obtain ⟨hu, hsu⟩ := hyEmits.of_ok
  have hcbEmits := encodeChannel_emits .cb o hp hsu hu.room hT
  rw [hcb] at hcbEmits
  obtain ⟨hv, hsv⟩ := hcbEmits.of_ok
  exact encodeChannel_holdsBlock hp hsv hv.room hcr

/-- After the MCUs at a list of origins it is the last of them that the predictors and the block stores show. -/
theorem encodeMcus_last {os : List (Nat × Nat)} (h : forEach (encodeMcu p) (os ++ [o]) s = .ok t) :
    HoldsBlock p T px .cr o t ∧ ∃ l', ScanState p T px (p.blockDc T px o) l' t := by
  rw [forEach_append, Res.bind_eq_ok] at h
  obtain ⟨u, hu, h⟩ := h
  rw [forEach_cons, funext (forEach_nil (encodeMcu p)), Res.bind_pure] at h
  have hmcus := encodeMcus_emits hp hT os hs hroom
  rw [hu] at hmcus
  obtain ⟨he, dc', hsu⟩ := hmcus.of_ok
  exact encodeMcu_last hp hsu he.room hT h

end

/-- The last origin in row-major order is that of the bottom-right block (R214). -/
theorem blockOrigins_eq {w h : Nat} (hw : 1 ≤ w) (hh : 1 ≤ h) : ∃ os, blockOrigins w h = os ++ [lastOrigin w h] := by
  obtain ⟨m, hm⟩ : ∃ m, blocksIn w = m + 1 := ⟨blocksIn w - 1, by unfold blocksIn; omega⟩
  obtain ⟨n, hn⟩ : ∃ n, blocksIn h = n + 1 := ⟨blocksIn h - 1, by unfold blocksIn; omega⟩
  refine ⟨((List.range n).flatMap fun j => (List.range (m + 1)).map fun i => (8 * i, 8 * j)) ++
    (List.range m).map fun i => (8 * i, 8 * n), ?_⟩
  rw [blockOrigins, lastOrigin, hm, hn, List.range_succ (n := n), List.flatMap_append, List.flatMap_singleton,
    List.range_succ (n := m), List.map_append, ← List.append_assoc]
  rfl

/-- When ENCODE has emitted the file, the predictors and the block stores show its last MCU, and no bits are pending. -/
theorem encodeFile_last {p : Params} (hp : p.EncodeFits) {s v : State} (hT : s.tables.Admissible)
    (h : encodeFile p (encodeSetup p s) = .ok v) :
    let px := fun off => readByte s (p.srcAddr.toNat + off)
    let o := lastOrigin p.width.toNat p.height.toNat
    HoldsBlock p s.tables px .cr o v ∧ ScanState p s.tables px (p.blockDc s.tables px o) [] v := by
  intro px o
  obtain ⟨hw, -, hh, -⟩ := dimensions_of_ok hp.dimensions
  obtain ⟨os, hos⟩ := blockOrigins_eq hw hh
  obtain ⟨u₃, h, heoi⟩ := Res.bind_eq_ok.1 h
  obtain ⟨u₂, h, hflush⟩ := Res.bind_eq_ok.1 h
  obtain ⟨u₁, hheaders, hmcus⟩ := Res.bind_eq_ok.1 h
  have hheadersEmits := writeHeadersBody_emits hp (encodeSetup_scanState p s) (Nat.zero_le _)
  rw [hheaders] at hheadersEmits
  obtain ⟨he₁, hs₁⟩ := hheadersEmits.of_ok
  have hmcusEmits := encodeMcus_emits hp hT (blockOrigins p.width.toNat p.height.toNat) hs₁ he₁.room
  rw [hmcus] at hmcusEmits
  obtain ⟨he₂, -⟩ := hmcusEmits.of_ok
  rw [hos] at hmcus
  obtain ⟨hblock₂, l, hs₂⟩ := encodeMcus_last hp hs₁ he₁.room hT hmcus
  have hflushEmits := flushBody_scan_emits hp hs₂ he₂.room
  have hblock₃ := hblock₂.after rfl rfl rfl (flushBody_madeOfMoves (w := emissionRow) rfl rfl u₂)
  rw [hflush] at hflushEmits hblock₃
  obtain ⟨he₃, hs₃⟩ := hflushEmits.of_ok
  have heoiEmits : (writeEoiBody p u₃).Emits p _ 0 _ u₃ := forEach_emitRaw_emits [0xFF, 0xD9] he₃.room
  have hblock := HoldsBlock.after hblock₃ rfl rfl rfl (writeEoiBody_madeOfMoves (w := emissionRow) rfl u₃)
  rw [heoi] at heoiEmits hblock
  obtain ⟨he, hv⟩ := heoiEmits.of_ok
  exact ⟨hblock, ScanState.after_appendBytes hp hs₃ he hv⟩

/-! #### The registers after the last block (R217) -/

theorem bits_eq_zero {s : State} (hb : s.BitInv) (h : pendingBits s = []) : s.acc = 0 ∧ s.nbits = 0 := by
  have hn : s.nbits = 0 := BitVec.eq_of_toNat_eq ((pendingBits_length s).symm.trans (congrArg List.length h))
  exact ⟨BitVec.eq_of_toNat_eq (Nat.lt_one_iff.1 (by rwa [State.BitInv, hn] at hb)), hn⟩

/-- The predictors are the DC coefficients as 32-bit words (R35). -/
theorem ScanState.pred_eq {p : Params} {T : Tables} {px : Nat → Byte} {dc : Channel → Int} {l : List Bool} {s : State}
    (hs : ScanState p T px dc l s) :
    s.pred = ⟨BitVec.ofInt 32 (dc .y), BitVec.ofInt 32 (dc .cb), BitVec.ofInt 32 (dc .cr)⟩ := by
  have hword (ch : Channel) : BitVec.ofInt 32 (dc ch) = s.pred.get ch := by rw [← (hs.preds ch).1, BitVec.ofInt_toInt]
  rw [hword, hword, hword]
  rfl

section
variable {s : State} (hv : Valid .encode s) (hT : s.tables.Admissible) (hbus : s.busErrIn = none)
include hv hT hbus

theorem bodyOf_encode_ends : EncodeEnds (latched s) s (bodyOf .encode (latched s) s) := by
  rw [encodeCmd_of_valid hv]
  exact encodeFile_ends (encodeFits_of_valid hv) hT hbus

/-- ENCODE that finds room for the whole file, and the state it leaves (R216, R217). -/
theorem exec_encode_file (hroom : (fileOf (latched s) s).length ≤ (latched s).dstCap.toNat) :
    let p := latched s
    let w := p.width.toNat
    let h := p.height.toNat
    let q := p.quality.toNat
    let px := fun off : Nat => readByte s (p.srcAddr.toNat + off)
    let dc := fun ch => BitVec.ofInt 32 (imageQuant s.tables w h q px ch (lastOrigin w h))[0]
    let last := imageQuant s.tables w h q px .cr (lastOrigin w h)
    ∃ t : State, exec .encode s = .next t ∧
      t = ({ s with
        qt0 := Vector.ofFn fun i => some (qtEntry s.tables q .luma i)
        qt1 := Vector.ofFn fun i => some (qtEntry s.tables q .chroma i)
        qtValid := true
        ht0 := buildTable s.tables.dcLuma
        ht1 := buildTable s.tables.acLuma
        ht2 := buildTable s.tables.dcChroma
        ht3 := buildTable s.tables.acChroma
        htValid := true
        outLen := BitVec.ofNat 32 (fileOf p s).length
        acc := 0
        nbits := 0
        pred := ⟨dc .y, dc .cb, dc .cr⟩
        blk := (imageCoefs w h px .cr (lastOrigin w h)).map some
        qblk := last.map fun n => some (BitVec.ofInt 16 n)
        zz := Vector.ofFn fun k : Fin 64 => some (BitVec.ofInt 16 last[zigzagNat k])
        mem := t.mem } : State).succeeded ∧
      Stored p.dstAddr.toNat (fileOf p s) s t := by
  intro p w h q px dc last
  have hp : p.EncodeFits := encodeFits_of_valid hv
  have hbody := encodeCmd_of_valid hv
  have hends := bodyOf_encode_ends hv hT hbus
  have hscan := encodeFile_withScan p (encodeSetup p s)
  have hnone := (bodyOf_busErrIn_none .encode hbus).trans hbus.symm
  rw [← hbody] at hscan
  generalize hr : bodyOf .encode (latched s) s = r at hends hscan hnone
  cases hends with
  | full he hlt => exact absurd hroom (Nat.not_le.2 hlt)
  | @whole v he =>
    have hexec : exec .encode s = .next (complete v) := (exec_eq_runCommand .encode s).trans (runCommand_ok hr)
    obtain ⟨hblock, hlast⟩ := encodeFile_last hp hT (hbody.symm.trans hr)
    obtain ⟨hacc, hnbits⟩ := bits_eq_zero hlast.bits hlast.pending
    change v = (encodeSetup p s).withScan v at hscan
    change v.busErrIn = s.busErrIn at hnone
    unfold State.withScan at hscan
    rw [he.outLen_encodeSetup, hacc, hnbits, hlast.pred_eq, hblock.blk, hblock.qblk, hblock.zz, hnone] at hscan
    have hqblk : (last.map coefOfInt).map some = last.map fun n => some (BitVec.ofInt 16 n) := Vector.map_map
    have hzz : (p.blockZigzag s.tables px .cr (lastOrigin w h)).map some =
        Vector.ofFn fun k : Fin 64 => some (BitVec.ofInt 16 last[zigzagNat k]) := Vector.map_ofFn
    rw [hqblk, hzz] at hscan
    exact ⟨_, hexec, (congrArg State.succeeded hscan).trans rfl, (he.stored hp.dstRegion).congr rfl⟩

end

theorem blockBitsMax_defaults : blockBitsMax Tables.defaults = 1660 := by decide +kernel

theorem length_imageFile {T : Tables} (hT : T.Admissible) (w h q : Nat) (px : Nat → Byte) :
    (imageFile T w h q px).length = headerLength T + (imageScan T w h q px).length + 2 := by
  rw [imageFile, List.length_append, List.length_append, length_headerBytes fun t => (hT.huff t).sixteen]
  rfl

/-- Settles O32: the file fits the capacity of R220, so that ENCODE ends normally after the last MCU. -/
theorem encodeResult : Obligations.EncodeResult := by
  intro s hv hT hcap hbus p w h q px dc last file
  have hfits : file.length ≤ p.dstCap.toNat := (length_fileOf_le hT p).trans hcap
  refine ⟨hfits, rfl, length_imageFile hT w h q px, fun hdefaults => ?_, exec_encode_file hv hT hbus hfits⟩
  rw [hdefaults, sufficientCapacity, headerLength_defaults, blockBitsMax_defaults]
  exact ⟨rfl, rfl⟩

/-! #### OUT_OVERFLOW (R236) -/

/-- What OUT_OVERFLOW leaves of a state that differs from `s` in the stream and the block stores only. -/
theorem spoilOverflow_withScan (w : Writes) {s v : State} (hv : v = s.withScan v) : spoilOverflow w v = { s with
    mem := v.mem
    outLen := v.outLen
    acc := (spoilOverflow w v).acc
    nbits := (spoilOverflow w v).nbits
    pred := (spoilOverflow w v).pred
    draws := (spoilOverflow w v).draws
    encPos := v.encPos
    busErrIn := v.busErrIn
    blk := if w.blk then Vector.replicate 64 none else v.blk
    qblk := if w.qblk then Vector.replicate 64 none else v.qblk
    zz := if w.zz then Vector.replicate 64 none else v.zz } := by
  have hdraws : (spoilOverflow w v).draws = v.draws + 2 + w.preds.length := by rw [spoilOverflow_eq]
  have hpred : (spoilOverflow w v).pred = (w.preds.foldl drawPred (drawBits v)).pred := by rw [spoilOverflow_eq]
  rw [hdraws, hpred]
  exact (spoilOverflow_eq w v).trans (congrArg (fun x : State => { x with
    mem := v.mem
    outLen := v.outLen
    acc := (spoilOverflow w v).acc
    nbits := (spoilOverflow w v).nbits
    pred := (w.preds.foldl drawPred (drawBits v)).pred
    draws := v.draws + 2 + w.preds.length
    encPos := v.encPos
    busErrIn := v.busErrIn
    blk := if w.blk then Vector.replicate 64 none else v.blk
    qblk := if w.qblk then Vector.replicate 64 none else v.qblk
    zz := if w.zz then Vector.replicate 64 none else v.zz }) hv)

theorem spoilOverflow_outLen (w : Writes) (v : State) : (spoilOverflow w v).outLen = v.outLen := by rw [spoilOverflow_eq]

/-- Settles O35: the body stops at DST_CAP, and R236 opens the bit writer, the predictors and the stores. -/
theorem encodeOverflow : Obligations.EncodeOverflow := by
  intro s hv hT hbus p q file hlt
  have hp : p.EncodeFits := encodeFits_of_valid hv
  have hends := bodyOf_encode_ends hv hT hbus
  have hscan := encodeFile_withScan p (encodeSetup p s)
  have hnone := (bodyOf_busErrIn_none .encode hbus).trans hbus.symm
  rw [← encodeCmd_of_valid hv] at hscan
  generalize hr : bodyOf .encode (latched s) s = r at hends hscan hnone
  cases hends with
  | whole he =>
    have hfits := he.fits
    have hstart : (encodeSetup (latched s) s).outLen.toNat = 0 := rfl
    change (latched s).dstCap.toNat < (fileOf (latched s) s).length at hlt
    omega
  | @full v he =>
    have hlen : (file.take p.dstCap.toNat).length = p.dstCap.toNat := List.length_take_of_le hlt.le
    have hout := he.outLen_encodeSetup
    rw [hlen, BitVec.ofNat_toNat, BitVec.setWidth_eq] at hout
    change v = (encodeSetup p s).withScan v at hscan
    have hstate := spoilOverflow_withScan (writesOf .encode) hscan
    change v.busErrIn = s.busErrIn at hnone
    have hmem := spoilOverflow_mem (writesOf .encode) v
    rw [hout, hnone, ← hmem] at hstate
    have hexec := exec_of_outOverflow hr
    generalize spoilOverflow (writesOf .encode) v = u at hstate hexec hmem
    exact ⟨_, hexec, (congrArg (State.failed · .outOverflow) hstate).trans rfl, (he.stored hp.dstRegion).congr hmem⟩

/-! #### Determinism (R218) -/

section
variable {T : Tables} {w h q : Nat} {px px' : Nat → Byte}

theorem imageQuant_congr (hs : imageSamples w h px = imageSamples w h px') :
    imageQuant T w h q px = imageQuant T w h q px' := by
  funext ch o
  simp only [imageQuant, imageCoefs, hs]

theorem scanBits_congr (hq : imageQuant T w h q px = imageQuant T w h q px') (dc : Channel → Int) (os : List (Nat × Nat)) :
    scanBits T w h q px dc os = scanBits T w h q px' dc os := by
  have hdc : imageDc T w h q px = imageDc T w h q px' := by
    funext o ch
    simp only [imageDc, hq]
  induction os generalizing dc with
  | nil => rfl
  | cons o os ih => simp only [scanBits, imageBlockBits, hq, hdc, ih]

/-- The file depends on the samples of the image alone. -/
theorem imageFile_congr (hs : imageSamples w h px = imageSamples w h px') :
    imageFile T w h q px = imageFile T w h q px' := by
  rw [imageFile, imageScan, scanBits_congr (imageQuant_congr hs)]
  rfl

end

/-- The samples of an image depend on its WIDTH * HEIGHT * 3 pixel bytes (R61, R155). -/
theorem imageSamples_congr {p : Params} (hp : dimensionsBad p = false) {px px' : Nat → Byte}
    (hpx : ∀ off < p.width.toNat * p.height.toNat * 3, px off = px' off) :
    imageSamples p.width.toNat p.height.toNat px = imageSamples p.width.toNat p.height.toNat px' := by
  funext ch o
  have hread (x y : Nat) {c : Nat} (hc : c < 3) :
      px (samplePixel p.width.toNat p.height.toNat o.1 o.2 x y + c) =
        px' (samplePixel p.width.toNat p.height.toNat o.1 o.2 x y + c) := hpx _ (pixelOffset_lt hp o.1 o.2 x y hc)
  have hread₀ (x y : Nat) := hread x y (show 0 < 3 by norm_num)
  simp only [Nat.add_zero] at hread₀
  simp only [imageSamples, hread₀, hread _ _ (show 1 < 3 by norm_num), hread _ _ (show 2 < 3 by norm_num)]

/-- However ENCODE ends, it has written the first OUT_LEN bytes of the file, and all of it if there is no error. -/
theorem exec_encode_prefix {s : State} (hv : Valid .encode s) (hT : s.tables.Admissible) (hbus : s.busErrIn = none) :
    ∃ t, exec .encode s = .next t ∧
      (∀ k < t.outLen.toNat, (fileOf (latched s) s)[k]? = some (readByte t ((latched s).dstAddr.toNat + k))) ∧
      (t.err = false → t.outLen = BitVec.ofNat 32 (fileOf (latched s) s).length) := by
  have hends := bodyOf_encode_ends hv hT hbus
  have hdst := dstRegion_of_valid rfl hv
  generalize hr : bodyOf .encode (latched s) s = r at hends
  have hbytes {out : List Byte} {v t : State} (he : Emitted (latched s) out (encodeSetup (latched s) s) v)
      (hpre : out <+: fileOf (latched s) s) (hmem : t.mem = v.mem) (k : Nat) (hk : k < v.outLen.toNat) :
      (fileOf (latched s) s)[k]? = some (readByte t ((latched s).dstAddr.toNat + k)) := by
    have hlen : v.outLen.toNat = 0 + out.length := he.toNat_outLen
    have hk' : k < out.length := by omega
    obtain ⟨rest, hrest⟩ := hpre
    rw [readByte_congr hmem, he.readByte_encodeSetup hdst, ← hrest, List.getElem?_append_left hk',
      List.getElem?_eq_getElem hk']
    simp
  cases hends with
  | @whole v he =>
    exact ⟨complete v, (exec_eq_runCommand .encode s).trans (runCommand_ok hr), hbytes (v := v) he List.prefix_rfl rfl,
      fun _ => he.outLen_encodeSetup⟩
  | @full v he =>
    have hlen := spoilOverflow_outLen (writesOf .encode) v
    exact ⟨_, exec_of_outOverflow hr, fun k hk => hbytes he (List.take_prefix _ _) (spoilOverflow_mem _ v) k (hlen ▸ hk),
      fun herr => nomatch herr⟩

/-- Settles O33: both runs write first bytes of one file. -/
theorem encodeDeterminism : Obligations.EncodeDeterminism := by
  intro s s' hv hv' hbus hbus' hw hh hq hT htab hpx
  have hfile : fileOf (latched s') s' = fileOf (latched s) s := by
    unfold fileOf
    rw [htab, ← hw, ← hh, ← hq]
    exact (imageFile_congr (imageSamples_congr (encodeFits_of_valid hv).dimensions hpx)).symm
  obtain ⟨t, hexec, hbytes, hlen⟩ := exec_encode_prefix hv hT hbus
  obtain ⟨t', hexec', hbytes', hlen'⟩ := exec_encode_prefix hv' (htab ▸ hT) hbus'
  rw [hfile] at hbytes' hlen'
  refine ⟨t, t', hexec, hexec', fun k hk hk' => ?_, fun he he' => (hlen he).trans (hlen' he').symm⟩
  exact Option.some.inj ((hbytes k hk).symm.trans (hbytes' k hk'))

end Sys2Proof.Machine
